-- ==== Sys2Proof/Word.lean ====
section
/-! DEFINITION. The word types of the block: the byte of IN and OUT (20_memory.md R64) and the 32-bit host register
(10_state.md R20). -/

namespace Sys2Proof

/-- One byte of the IN or OUT memory (20_memory.md R60, R66). -/
abbrev Byte := BitVec 8

/-- One host register, `REG_WIDTH` = 32 bits (00_scope.md R10, 10_state.md R20). -/
abbrev Word := BitVec 32

end Sys2Proof
end

