-- ==== Sys2Proof/Config.lean ====
section
/-! DEFINITION. What is fixed when the block is instantiated (00_scope.md R10, 70_reset_and_hazards.md R262), and the
free values: what the spec leaves open, as constants without a body. -/

namespace Sys2Proof.Config

/-- `MAX_CODE_LEN` (00_scope.md R10). -/
def maxCodeLen : Nat := 15

/-- `PEEK_MAX` (00_scope.md R10): the widest bit-cursor command. -/
def peekMax : Nat := 64

/-- `HLIT_MAX` (00_scope.md R10). -/
def hlitMax : Nat := 286

/-- `HDIST_MAX` (00_scope.md R10). -/
def hdistMax : Nat := 30

/-- `LL_ALPHABET` (00_scope.md R10): the largest table a build takes (41_huffman.md R130). -/
def llAlphabet : Nat := 288

/-- `D_ALPHABET` (00_scope.md R10). -/
def dAlphabet : Nat := 32

/-- `CL_ALPHABET` (00_scope.md R10). -/
def clAlphabet : Nat := 19

/-- The entries of `len_table`, `HLIT_MAX + HDIST_MAX` (10_state.md R32). -/
def lenTableSize : Nat := 316

/-- `FDICT_POLICY` (00_scope.md R10, 45_stream.md R211). -/
inductive FdictPolicy where
  | ignore
  | reject
  deriving DecidableEq, Repr

/-- `FIXED_LL_LEN_280_287` (00_scope.md R10, 90_conflicts.md C3): 8, the default, or 9. -/
inductive FixedLong where
  | eight
  | nine
  deriving DecidableEq, Repr

/-- The parameters of 00_scope.md R10, fixed at instantiation (70_reset_and_hazards.md R262). The defaults are the
spec's; `inLenMax` is OPEN there, and its default here is a DESIGN CHOICE (assumption 6). -/
structure Params where
  /-- `FDICT_POLICY`. -/
  fdictPolicy : FdictPolicy := .ignore
  /-- `FIXED_LL_LEN_280_287`. -/
  fixedLong : FixedLong := .eight
  /-- `OUT_CAP`; `none` is `unbounded`. -/
  outCap : Option Nat := none
  /-- `IN_LEN_MAX`, at least 2. -/
  inLenMax : Nat := 4294967295
  deriving DecidableEq, Repr

/-- What 00_scope.md R10 asks of `IN_LEN_MAX`, that it fits the 32-bit IN_LEN (10_state.md R24, R31), and that a finite
`OUT_CAP` fits the 32-bit `out_len` (R31). -/
def Params.wf (p : Params) : Bool :=
  decide (2 ≤ p.inLenMax) && decide (p.inLenMax < 4294967296) &&
    match p.outCap with
    | none => true
    | some cap => decide (cap < 4294967296)

/-- FREE VALUE: what a host read returns where the spec leaves the value open (10_state.md R45, 60_exceptions.md R236);
the argument is the counter `draws` of the state (assumption 2). -/
opaque freeWord : Nat → Word

/-- FREE VALUE: what a host read of an OUT byte returns while STATE = BUSY (10_state.md R45, 70_reset_and_hazards.md R266);
the argument is the counter `draws` (assumption 2). -/
opaque freeByte : Nat → Byte

/-- FREE VALUE: the byte of OUT that session number `session` leaves at an offset whose contents the spec leaves open: at or
above OUT_LEN after DONE (20_memory.md R66), anywhere after ERROR (60_exceptions.md R236). It is one byte per session and
offset, so that two reads of it agree (20_memory.md R69; assumption 2). -/
opaque outUndefined : Nat → Nat → Byte

/-- FREE VALUE: the byte of IN at an offset that nothing has written since reset number `epoch` (10_state.md R42;
assumption 5). Arguments: the epoch and the offset. -/
opaque inPowerOn : Nat → Nat → Byte

/-- FREE VALUE: the byte of OUT at an offset that nothing has written since reset number `epoch` (10_state.md R42;
assumption 5). Arguments: the epoch and the offset. -/
opaque outPowerOn : Nat → Nat → Byte

end Sys2Proof.Config
end

