-- ==== Sys2Proof/Machine/Tables.lean ====
section
/-! DEFINITION. The constant tables of 42_fixed_tables.md: the lengths of the fixed codes, the length and distance tables
and the code-length order. They are read-only (R157). -/

namespace Sys2Proof.Machine

/-- The pairs (`LEN_EXTRA[i]`, `LEN_BASE[i]`), `i = sym - 257` (42_fixed_tables.md R153). -/
def lenRows : List (Nat × Nat) :=
  [(0, 3), (0, 4), (0, 5), (0, 6), (0, 7), (0, 8), (0, 9), (0, 10),
   (1, 11), (1, 13), (1, 15), (1, 17), (2, 19), (2, 23), (2, 27), (2, 31),
   (3, 35), (3, 43), (3, 51), (3, 59), (4, 67), (4, 83), (4, 99), (4, 115),
   (5, 131), (5, 163), (5, 195), (5, 227), (0, 258)]

/-- The pairs (`DIST_EXTRA[d]`, `DIST_BASE[d]`) (42_fixed_tables.md R154). -/
def distRows : List (Nat × Nat) :=
  [(0, 1), (0, 2), (0, 3), (0, 4), (1, 5), (1, 7), (2, 9), (2, 13),
   (3, 17), (3, 25), (4, 33), (4, 49), (5, 65), (5, 97), (6, 129), (6, 193),
   (7, 257), (7, 385), (8, 513), (8, 769), (9, 1025), (9, 1537), (10, 2049), (10, 3073),
   (11, 4097), (11, 6145), (12, 8193), (12, 12289), (13, 16385), (13, 24577)]

/-- `CL_ORDER[0..18]` (42_fixed_tables.md R156). -/
def clOrder : List Nat := [16, 17, 18, 0, 8, 7, 9, 6, 10, 5, 11, 4, 12, 3, 13, 2, 14, 1, 15]

/-- `LEN_EXTRA[sym - 257]`; 0 for the symbols without an entry, which have no extra bits (30_encoding.md R87). -/
def lenExtra (sym : Nat) : Nat := if sym < 257 then 0 else (lenRows.getD (sym - 257) (0, 0)).1

/-- `LEN_BASE[sym - 257]` (42_fixed_tables.md R153). -/
def lenBase (sym : Nat) : Nat := (lenRows.getD (sym - 257) (0, 0)).2

/-- `DIST_EXTRA[d]`; 0 for the reserved symbols, which have no extra bits (30_encoding.md R88). -/
def distExtra (d : Nat) : Nat := (distRows.getD d (0, 0)).1

/-- `DIST_BASE[d]` (42_fixed_tables.md R154). -/
def distBase (d : Nat) : Nat := (distRows.getD d (0, 0)).2

/-- The extra bits after a code-length symbol (30_encoding.md R86). -/
def clExtra (sym : Nat) : Nat := if sym = 16 then 2 else if sym = 17 then 3 else if sym = 18 then 7 else 0

/-- The length `FIXED_LL_LEN_280_287` (42_fixed_tables.md R150). -/
def fixedLongBits : Config.FixedLong → Nat
  | .eight => 8
  | .nine => 9

/-- `FIXED_LL[0..287]` (42_fixed_tables.md R150). -/
def fixedLLLens (v : Config.FixedLong) : List Nat :=
  List.replicate 144 8 ++ List.replicate 112 9 ++ List.replicate 24 7 ++ List.replicate 8 (fixedLongBits v)

/-- `FIXED_D[0..31]`: length 5 for all 32 symbols (42_fixed_tables.md R151). -/
def fixedDLens : List Nat := List.replicate 32 5

/-- The fixed literal/length code of `sym`, as (length, code) (30_encoding.md R94). -/
def fixedLLCode (v : Config.FixedLong) (sym : Nat) : Nat × Nat :=
  if sym < 144 then (8, 0x30 + sym)
  else if sym < 256 then (9, (match v with | .eight => 0x190 | .nine => 0x180) + (sym - 144))
  else if sym < 280 then (7, sym - 256)
  else match v with
    | .eight => (8, 0xC0 + (sym - 280))
    | .nine => (9, 0x1F0 + (sym - 280))

/-- The fixed distance code of `d`: the 5-bit value `d` (30_encoding.md R94). -/
def fixedDCode (d : Nat) : Nat × Nat := (5, d)

end Sys2Proof.Machine
end

