-- ==== Sys2Proof/Syntax.lean ====
section
/-! DEFINITION. The instructions of the block: one constructor for each row of spec/opcode_table.json, with its
operands as the row's fields give them. An operand is an unsigned field (30_encoding.md R92). -/

namespace Sys2Proof

/-- The tree a Huffman command selects (30_encoding.md R97): the five arenas of 10_state.md R34. -/
inductive TreeId where
  | clt
  | llt
  | dt
  | fllt
  | fdt
  deriving DecidableEq, Repr

/-- The formats of spec/opcode_table.json (30_encoding.md R81 to R88, R97). -/
inductive Format where
  /-- The two header bytes (R81). -/
  | zhdr
  /-- The 3-bit block header (R82). -/
  | bhdr
  /-- The 14-bit dynamic header (R84). -/
  | dynhdr
  /-- One 3-bit code-length code length (R85). -/
  | clcl
  /-- A code-length symbol and its extra bits (R86). -/
  | clsym
  /-- A literal/length symbol and its extra bits (R87). -/
  | llsym
  /-- A distance symbol and its extra bits (R88). -/
  | dsym
  /-- A bit-cursor command (R97). -/
  | bccmd
  /-- A Huffman command (R97). -/
  | hufcmd
  /-- A host write of CTRL (10_state.md R21). -/
  | ctrl
  deriving DecidableEq, Repr

/-- One row of spec/opcode_table.json each. `e` is the value of the row's extra bits. -/
inductive Instr where
  /-- ZLIB_HEADER: the bytes at IN offsets 0 and 1 (45_stream.md R210). -/
  | zlibHeader (cmf flg : BitVec 8)
  /-- BLOCK_STORED: BTYPE = 0 (45_stream.md R213). -/
  | blockStored (bfinal : Bool)
  /-- BLOCK_FIXED: BTYPE = 1 (43_block_header.md R166). -/
  | blockFixed (bfinal : Bool)
  /-- BLOCK_DYNAMIC: BTYPE = 2 (43_block_header.md R167). -/
  | blockDynamic (bfinal : Bool)
  /-- BLOCK_RESERVED: BTYPE = 3 (43_block_header.md R166). -/
  | blockReserved (bfinal : Bool)
  /-- DYN_HEADER (43_block_header.md R168). -/
  | dynHeader (hlitF hdistF : BitVec 5) (hclenF : BitVec 4)
  /-- CLCL_FIELD (43_block_header.md R169). -/
  | clclField (len : BitVec 3)
  /-- CL_LEN: code-length symbols 0 to 15 (43_block_header.md R171). -/
  | clLen (sym : BitVec 4)
  /-- CL_REP16: code-length symbol 16 (43_block_header.md R172). -/
  | clRep16 (e : BitVec 2)
  /-- CL_ZERO17: code-length symbol 17 (43_block_header.md R173). -/
  | clZero17 (e : BitVec 3)
  /-- CL_ZERO18: code-length symbol 18 (43_block_header.md R174). -/
  | clZero18 (e : BitVec 7)
  /-- LIT: literal/length symbols 0 to 255 (44_block_body.md R190). -/
  | lit (byte : BitVec 8)
  /-- EOB: literal/length symbol 256 (44_block_body.md R191). -/
  | eob
  /-- LEN_257: length 3 + e (44_block_body.md R192). -/
  | len257
  /-- LEN_258: length 4 + e (44_block_body.md R192). -/
  | len258
  /-- LEN_259: length 5 + e (44_block_body.md R192). -/
  | len259
  /-- LEN_260: length 6 + e (44_block_body.md R192). -/
  | len260
  /-- LEN_261: length 7 + e (44_block_body.md R192). -/
  | len261
  /-- LEN_262: length 8 + e (44_block_body.md R192). -/
  | len262
  /-- LEN_263: length 9 + e (44_block_body.md R192). -/
  | len263
  /-- LEN_264: length 10 + e (44_block_body.md R192). -/
  | len264
  /-- LEN_265: length 11 + e (44_block_body.md R192). -/
  | len265 (e : BitVec 1)
  /-- LEN_266: length 13 + e (44_block_body.md R192). -/
  | len266 (e : BitVec 1)
  /-- LEN_267: length 15 + e (44_block_body.md R192). -/
  | len267 (e : BitVec 1)
  /-- LEN_268: length 17 + e (44_block_body.md R192). -/
  | len268 (e : BitVec 1)
  /-- LEN_269: length 19 + e (44_block_body.md R192). -/
  | len269 (e : BitVec 2)
  /-- LEN_270: length 23 + e (44_block_body.md R192). -/
  | len270 (e : BitVec 2)
  /-- LEN_271: length 27 + e (44_block_body.md R192). -/
  | len271 (e : BitVec 2)
  /-- LEN_272: length 31 + e (44_block_body.md R192). -/
  | len272 (e : BitVec 2)
  /-- LEN_273: length 35 + e (44_block_body.md R192). -/
  | len273 (e : BitVec 3)
  /-- LEN_274: length 43 + e (44_block_body.md R192). -/
  | len274 (e : BitVec 3)
  /-- LEN_275: length 51 + e (44_block_body.md R192). -/
  | len275 (e : BitVec 3)
  /-- LEN_276: length 59 + e (44_block_body.md R192). -/
  | len276 (e : BitVec 3)
  /-- LEN_277: length 67 + e (44_block_body.md R192). -/
  | len277 (e : BitVec 4)
  /-- LEN_278: length 83 + e (44_block_body.md R192). -/
  | len278 (e : BitVec 4)
  /-- LEN_279: length 99 + e (44_block_body.md R192). -/
  | len279 (e : BitVec 4)
  /-- LEN_280: length 115 + e (44_block_body.md R192). -/
  | len280 (e : BitVec 4)
  /-- LEN_281: length 131 + e (44_block_body.md R192). -/
  | len281 (e : BitVec 5)
  /-- LEN_282: length 163 + e (44_block_body.md R192). -/
  | len282 (e : BitVec 5)
  /-- LEN_283: length 195 + e (44_block_body.md R192). -/
  | len283 (e : BitVec 5)
  /-- LEN_284: length 227 + e (44_block_body.md R192). -/
  | len284 (e : BitVec 5)
  /-- LEN_285: length 258 + e (44_block_body.md R192). -/
  | len285
  /-- LL_RSV_286: reserved (44_block_body.md R196). -/
  | llRsv286
  /-- LL_RSV_287: reserved (44_block_body.md R196). -/
  | llRsv287
  /-- DIST_0: distance 1 + e (44_block_body.md R193). -/
  | dist0
  /-- DIST_1: distance 2 + e (44_block_body.md R193). -/
  | dist1
  /-- DIST_2: distance 3 + e (44_block_body.md R193). -/
  | dist2
  /-- DIST_3: distance 4 + e (44_block_body.md R193). -/
  | dist3
  /-- DIST_4: distance 5 + e (44_block_body.md R193). -/
  | dist4 (e : BitVec 1)
  /-- DIST_5: distance 7 + e (44_block_body.md R193). -/
  | dist5 (e : BitVec 1)
  /-- DIST_6: distance 9 + e (44_block_body.md R193). -/
  | dist6 (e : BitVec 2)
  /-- DIST_7: distance 13 + e (44_block_body.md R193). -/
  | dist7 (e : BitVec 2)
  /-- DIST_8: distance 17 + e (44_block_body.md R193). -/
  | dist8 (e : BitVec 3)
  /-- DIST_9: distance 25 + e (44_block_body.md R193). -/
  | dist9 (e : BitVec 3)
  /-- DIST_10: distance 33 + e (44_block_body.md R193). -/
  | dist10 (e : BitVec 4)
  /-- DIST_11: distance 49 + e (44_block_body.md R193). -/
  | dist11 (e : BitVec 4)
  /-- DIST_12: distance 65 + e (44_block_body.md R193). -/
  | dist12 (e : BitVec 5)
  /-- DIST_13: distance 97 + e (44_block_body.md R193). -/
  | dist13 (e : BitVec 5)
  /-- DIST_14: distance 129 + e (44_block_body.md R193). -/
  | dist14 (e : BitVec 6)
  /-- DIST_15: distance 193 + e (44_block_body.md R193). -/
  | dist15 (e : BitVec 6)
  /-- DIST_16: distance 257 + e (44_block_body.md R193). -/
  | dist16 (e : BitVec 7)
  /-- DIST_17: distance 385 + e (44_block_body.md R193). -/
  | dist17 (e : BitVec 7)
  /-- DIST_18: distance 513 + e (44_block_body.md R193). -/
  | dist18 (e : BitVec 8)
  /-- DIST_19: distance 769 + e (44_block_body.md R193). -/
  | dist19 (e : BitVec 8)
  /-- DIST_20: distance 1025 + e (44_block_body.md R193). -/
  | dist20 (e : BitVec 9)
  /-- DIST_21: distance 1537 + e (44_block_body.md R193). -/
  | dist21 (e : BitVec 9)
  /-- DIST_22: distance 2049 + e (44_block_body.md R193). -/
  | dist22 (e : BitVec 10)
  /-- DIST_23: distance 3073 + e (44_block_body.md R193). -/
  | dist23 (e : BitVec 10)
  /-- DIST_24: distance 4097 + e (44_block_body.md R193). -/
  | dist24 (e : BitVec 11)
  /-- DIST_25: distance 6145 + e (44_block_body.md R193). -/
  | dist25 (e : BitVec 11)
  /-- DIST_26: distance 8193 + e (44_block_body.md R193). -/
  | dist26 (e : BitVec 12)
  /-- DIST_27: distance 12289 + e (44_block_body.md R193). -/
  | dist27 (e : BitVec 12)
  /-- DIST_28: distance 16385 + e (44_block_body.md R193). -/
  | dist28 (e : BitVec 13)
  /-- DIST_29: distance 24577 + e (44_block_body.md R193). -/
  | dist29 (e : BitVec 13)
  /-- DIST_RSV_30: reserved (44_block_body.md R194). -/
  | distRsv30
  /-- DIST_RSV_31: reserved (44_block_body.md R194). -/
  | distRsv31
  /-- BC_PEEK(n) (40_bit_cursor.md R121). -/
  | bcPeek (n : BitVec 7)
  /-- BC_CONSUME(n) (40_bit_cursor.md R122). -/
  | bcConsume (n : BitVec 7)
  /-- BC_CONSUME_BIT; its field n is ignored (40_bit_cursor.md R124, 30_encoding.md R97). -/
  | bcConsumeBit (n : BitVec 7)
  /-- BC_BYTE_ALIGN; its field n is ignored (40_bit_cursor.md R125, 30_encoding.md R97). -/
  | bcByteAlign (n : BitVec 7)
  /-- HUF_BUILD of the selected tree (41_huffman.md R131). -/
  | hufBuild (tree : TreeId)
  /-- HUF_LOOKUP in the selected tree (41_huffman.md R138). -/
  | hufLookup (tree : TreeId)
  /-- CMD_START: a write of CTRL with START = 1; bits 31:1 are reserved and ignored (10_state.md R20, R21). -/
  | cmdStart (reserved : BitVec 31)
  deriving DecidableEq, Repr

end Sys2Proof
end

