-- ==== Sys2Proof/WellFormed.lean ====
section
/-! DEFINITION. Which instructions the spec lets be issued. The widths of the operands are in their types; the one
further check is the width of a bit-cursor command. -/

namespace Sys2Proof

/-- A bit-cursor width the source's contract allows, `n ≤ 64` (40_bit_cursor.md R126). -/
def bcWidthOk (n : BitVec 7) : Bool := decide (n.toNat ≤ Config.peekMax)

/-- An instruction the spec gives an effect: every one, but for the bit-cursor commands BC_PEEK and BC_CONSUME with
`n > 64` (40_bit_cursor.md R126). The reserved elements (30_encoding.md R95) are well formed: the spec gives each of them
the error it raises. -/
def Instr.wf : Instr → Bool
  | .bcPeek n => bcWidthOk n
  | .bcConsume n => bcWidthOk n
  | .zlibHeader .. | .blockStored .. | .blockFixed .. | .blockDynamic .. | .blockReserved .. | .dynHeader ..
  | .clclField .. | .clLen .. | .clRep16 .. | .clZero17 .. | .clZero18 .. | .lit .. | .eob .. | .len257 ..
  | .len258 .. | .len259 .. | .len260 .. | .len261 .. | .len262 .. | .len263 .. | .len264 .. | .len265 ..
  | .len266 .. | .len267 .. | .len268 .. | .len269 .. | .len270 .. | .len271 .. | .len272 .. | .len273 ..
  | .len274 .. | .len275 .. | .len276 .. | .len277 .. | .len278 .. | .len279 .. | .len280 .. | .len281 ..
  | .len282 .. | .len283 .. | .len284 .. | .len285 .. | .llRsv286 .. | .llRsv287 .. | .dist0 .. | .dist1 ..
  | .dist2 .. | .dist3 .. | .dist4 .. | .dist5 .. | .dist6 .. | .dist7 .. | .dist8 .. | .dist9 .. | .dist10 ..
  | .dist11 .. | .dist12 .. | .dist13 .. | .dist14 .. | .dist15 .. | .dist16 .. | .dist17 .. | .dist18 ..
  | .dist19 .. | .dist20 .. | .dist21 .. | .dist22 .. | .dist23 .. | .dist24 .. | .dist25 .. | .dist26 ..
  | .dist27 .. | .dist28 .. | .dist29 .. | .distRsv30 .. | .distRsv31 .. | .bcConsumeBit .. | .bcByteAlign ..
  | .hufBuild .. | .hufLookup .. | .cmdStart .. => true

end Sys2Proof
end

