-- ==== Sys2Proof/Decode.lean ====
section
/-! DEFINITION. Decoding and encoding. A WORD of a format is the number spec/opcode_table.json numbers: for the fixed
formats the bits in stream order, the first one bit 0 (30_encoding.md R82, R84, R85); for ZHDR CMF in bits 15:8 and FLG in
bits 7:0; for a Huffman-coded element the decoded symbol value with its extra bits above it (30_encoding.md section 0,
R86 to R88); for a command the command code (R97). Which format the next word has is the machine's phase
(Machine/Fetch.lean), never the word. The decoder is total and rejects by name. -/

namespace Sys2Proof

/-- Why a word encodes no instruction. -/
inductive DecodeError where
  /-- The word has bits above its format's, or above its symbol's extra bits. -/
  | wordTooWide
  /-- A symbol outside the alphabet (30_encoding.md R89 to R91). -/
  | noSuchSymbol
  /-- BC_PEEK or BC_CONSUME with n in 65..127 (40_bit_cursor.md R126). -/
  | widthOver64
  /-- A Huffman command whose tree code is 101..111, which selects no tree (30_encoding.md R97). -/
  | noSuchTree
  /-- A CTRL value with START = 0, which does nothing (10_state.md R21). -/
  | startNotSet
  deriving DecidableEq, Repr

/-- The bits the symbol takes in the word of a Huffman-coded element: the width of the table's mask. -/
def Format.symBits : Format → Nat
  | .clsym => 5
  | .llsym => 9
  | .dsym => 5
  | .zhdr | .bhdr | .dynhdr | .clcl | .bccmd | .hufcmd | .ctrl => 0

/-- The extra bits that follow symbol `sym` of a Huffman-coded element (30_encoding.md R86 to R88). -/
def Format.extraBits (f : Format) (sym : Nat) : Nat :=
  match f with
  | .clsym => Machine.clExtra sym
  | .llsym => Machine.lenExtra sym
  | .dsym => Machine.distExtra sym
  | .zhdr | .bhdr | .dynhdr | .clcl | .bccmd | .hufcmd | .ctrl => 0

/-- An alphabet's entry: how many extra bits the symbol takes, and the instruction they make. -/
abbrev SymbolRow := Nat × (Nat → Instr)

/-- Code-length symbols 16 to 18 (30_encoding.md R86). -/
def clSymbolRows : List SymbolRow :=
  [(2, fun e => .clRep16 (.ofNat 2 e)),
   (3, fun e => .clZero17 (.ofNat 3 e)),
   (7, fun e => .clZero18 (.ofNat 7 e))]

/-- Literal/length symbols 256 to 287 (30_encoding.md R87, R89). -/
def llSymbolRows : List SymbolRow :=
  [(0, fun _ => .eob),
   (0, fun _ => .len257),
   (0, fun _ => .len258),
   (0, fun _ => .len259),
   (0, fun _ => .len260),
   (0, fun _ => .len261),
   (0, fun _ => .len262),
   (0, fun _ => .len263),
   (0, fun _ => .len264),
   (1, fun e => .len265 (.ofNat 1 e)),
   (1, fun e => .len266 (.ofNat 1 e)),
   (1, fun e => .len267 (.ofNat 1 e)),
   (1, fun e => .len268 (.ofNat 1 e)),
   (2, fun e => .len269 (.ofNat 2 e)),
   (2, fun e => .len270 (.ofNat 2 e)),
   (2, fun e => .len271 (.ofNat 2 e)),
   (2, fun e => .len272 (.ofNat 2 e)),
   (3, fun e => .len273 (.ofNat 3 e)),
   (3, fun e => .len274 (.ofNat 3 e)),
   (3, fun e => .len275 (.ofNat 3 e)),
   (3, fun e => .len276 (.ofNat 3 e)),
   (4, fun e => .len277 (.ofNat 4 e)),
   (4, fun e => .len278 (.ofNat 4 e)),
   (4, fun e => .len279 (.ofNat 4 e)),
   (4, fun e => .len280 (.ofNat 4 e)),
   (5, fun e => .len281 (.ofNat 5 e)),
   (5, fun e => .len282 (.ofNat 5 e)),
   (5, fun e => .len283 (.ofNat 5 e)),
   (5, fun e => .len284 (.ofNat 5 e)),
   (0, fun _ => .len285),
   (0, fun _ => .llRsv286),
   (0, fun _ => .llRsv287)]

/-- Distance symbols 0 to 31 (30_encoding.md R88, R90). -/
def distSymbolRows : List SymbolRow :=
  [(0, fun _ => .dist0),
   (0, fun _ => .dist1),
   (0, fun _ => .dist2),
   (0, fun _ => .dist3),
   (1, fun e => .dist4 (.ofNat 1 e)),
   (1, fun e => .dist5 (.ofNat 1 e)),
   (2, fun e => .dist6 (.ofNat 2 e)),
   (2, fun e => .dist7 (.ofNat 2 e)),
   (3, fun e => .dist8 (.ofNat 3 e)),
   (3, fun e => .dist9 (.ofNat 3 e)),
   (4, fun e => .dist10 (.ofNat 4 e)),
   (4, fun e => .dist11 (.ofNat 4 e)),
   (5, fun e => .dist12 (.ofNat 5 e)),
   (5, fun e => .dist13 (.ofNat 5 e)),
   (6, fun e => .dist14 (.ofNat 6 e)),
   (6, fun e => .dist15 (.ofNat 6 e)),
   (7, fun e => .dist16 (.ofNat 7 e)),
   (7, fun e => .dist17 (.ofNat 7 e)),
   (8, fun e => .dist18 (.ofNat 8 e)),
   (8, fun e => .dist19 (.ofNat 8 e)),
   (9, fun e => .dist20 (.ofNat 9 e)),
   (9, fun e => .dist21 (.ofNat 9 e)),
   (10, fun e => .dist22 (.ofNat 10 e)),
   (10, fun e => .dist23 (.ofNat 10 e)),
   (11, fun e => .dist24 (.ofNat 11 e)),
   (11, fun e => .dist25 (.ofNat 11 e)),
   (12, fun e => .dist26 (.ofNat 12 e)),
   (12, fun e => .dist27 (.ofNat 12 e)),
   (13, fun e => .dist28 (.ofNat 13 e)),
   (13, fun e => .dist29 (.ofNat 13 e)),
   (0, fun _ => .distRsv30),
   (0, fun _ => .distRsv31)]

/-- The instruction of an alphabet's entry with extra bits of value `e`. -/
def decodeSymbolRow (row : Option SymbolRow) (e : Nat) : Except DecodeError Instr :=
  match row with
  | none => .error .noSuchSymbol
  | some (k, f) => if e < 2 ^ k then .ok (f e) else .error .wordTooWide

/-- Format CLSYM (30_encoding.md R86, R91). -/
def decodeClsym (sym e : Nat) : Except DecodeError Instr :=
  if sym < 16 then (if e = 0 then .ok (.clLen (.ofNat 4 sym)) else .error .wordTooWide)
  else decodeSymbolRow clSymbolRows[sym - 16]? e

/-- Format LLSYM (30_encoding.md R87, R89). -/
def decodeLlsym (sym e : Nat) : Except DecodeError Instr :=
  if sym < 256 then (if e = 0 then .ok (.lit (.ofNat 8 sym)) else .error .wordTooWide)
  else decodeSymbolRow llSymbolRows[sym - 256]? e

/-- Format DSYM (30_encoding.md R88, R90). -/
def decodeDsym (sym e : Nat) : Except DecodeError Instr :=
  decodeSymbolRow distSymbolRows[sym]? e

/-- Format BHDR: BFINAL is bit 0, BTYPE bits 2:1 (30_encoding.md R82, R83). -/
def decodeBhdr (w : Nat) : Except DecodeError Instr :=
  let bfinal := w % 2 == 1
  match w / 2 with
  | 0 => .ok (.blockStored bfinal)
  | 1 => .ok (.blockFixed bfinal)
  | 2 => .ok (.blockDynamic bfinal)
  | 3 => .ok (.blockReserved bfinal)
  | _ => .error .wordTooWide

/-- A bit-cursor command with a width: refused above 64 (40_bit_cursor.md R126). -/
def decodeWidth (n : BitVec 7) (i : Instr) : Except DecodeError Instr :=
  if bcWidthOk n then .ok i else .error .widthOver64

/-- The bit-cursor command (op[1:0], n[6:0]) (30_encoding.md R97). -/
def decodeBccmd (w : Nat) : Except DecodeError Instr :=
  let n := BitVec.ofNat 7 w
  match w / 128 with
  | 0 => decodeWidth n (.bcPeek n)
  | 1 => decodeWidth n (.bcConsume n)
  | 2 => .ok (.bcConsumeBit n)
  | 3 => .ok (.bcByteAlign n)
  | _ => .error .wordTooWide

/-- The tree codes of 30_encoding.md R97. -/
def TreeId.ofCode : Nat → Option TreeId
  | 0 => some .clt
  | 1 => some .llt
  | 2 => some .dt
  | 3 => some .fllt
  | 4 => some .fdt
  | _ => none

/-- The tree codes of 30_encoding.md R97. -/
def TreeId.code : TreeId → Nat
  | .clt => 0
  | .llt => 1
  | .dt => 2
  | .fllt => 3
  | .fdt => 4

/-- The Huffman command (op[0], tree[2:0]) (30_encoding.md R97). -/
def decodeHufcmd (w : Nat) : Except DecodeError Instr :=
  match TreeId.ofCode (w % 8), w / 8 with
  | some t, 0 => .ok (.hufBuild t)
  | some t, 1 => .ok (.hufLookup t)
  | none, 0 => .error .noSuchTree
  | none, 1 => .error .noSuchTree
  | _, _ => .error .wordTooWide

/-- The decoder: the instruction the word `w` of format `f` encodes, or why it encodes none. -/
def decode (f : Format) (w : Nat) : Except DecodeError Instr :=
  match f with
  | .zhdr => if w < 65536 then .ok (.zlibHeader (.ofNat 8 (w / 256)) (.ofNat 8 w)) else .error .wordTooWide
  | .bhdr => decodeBhdr w
  | .dynhdr =>
    if w < 16384 then .ok (.dynHeader (.ofNat 5 w) (.ofNat 5 (w / 32)) (.ofNat 4 (w / 1024))) else .error .wordTooWide
  | .clcl => if w < 8 then .ok (.clclField (.ofNat 3 w)) else .error .wordTooWide
  | .clsym => decodeClsym (w % 32) (w / 32)
  | .llsym => decodeLlsym (w % 512) (w / 512)
  | .dsym => decodeDsym (w % 32) (w / 32)
  | .bccmd => decodeBccmd w
  | .hufcmd => decodeHufcmd w
  | .ctrl =>
    if w < 4294967296 then (if w % 2 = 1 then .ok (.cmdStart (.ofNat 31 (w / 2))) else .error .startNotSet)
    else .error .wordTooWide

/-- An instruction's format, the number of its symbol or fixed part, and the value of its extra bits
(30_encoding.md R81 to R88, R97). -/
def Instr.element : Instr → Format × Nat × Nat
  | .zlibHeader cmf flg => (.zhdr, cmf.toNat * 256 + flg.toNat, 0)
  | .blockStored b => (.bhdr, b.toNat, 0)
  | .blockFixed b => (.bhdr, b.toNat + 2, 0)
  | .blockDynamic b => (.bhdr, b.toNat + 4, 0)
  | .blockReserved b => (.bhdr, b.toNat + 6, 0)
  | .dynHeader hlitF hdistF hclenF => (.dynhdr, hlitF.toNat + hdistF.toNat * 32 + hclenF.toNat * 1024, 0)
  | .clclField len => (.clcl, len.toNat, 0)
  | .clLen sym => (.clsym, sym.toNat, 0)
  | .clRep16 e => (.clsym, 16, e.toNat)
  | .clZero17 e => (.clsym, 17, e.toNat)
  | .clZero18 e => (.clsym, 18, e.toNat)
  | .lit byte => (.llsym, byte.toNat, 0)
  | .eob => (.llsym, 256, 0)
  | .len257 => (.llsym, 257, 0)
  | .len258 => (.llsym, 258, 0)
  | .len259 => (.llsym, 259, 0)
  | .len260 => (.llsym, 260, 0)
  | .len261 => (.llsym, 261, 0)
  | .len262 => (.llsym, 262, 0)
  | .len263 => (.llsym, 263, 0)
  | .len264 => (.llsym, 264, 0)
  | .len265 e => (.llsym, 265, e.toNat)
  | .len266 e => (.llsym, 266, e.toNat)
  | .len267 e => (.llsym, 267, e.toNat)
  | .len268 e => (.llsym, 268, e.toNat)
  | .len269 e => (.llsym, 269, e.toNat)
  | .len270 e => (.llsym, 270, e.toNat)
  | .len271 e => (.llsym, 271, e.toNat)
  | .len272 e => (.llsym, 272, e.toNat)
  | .len273 e => (.llsym, 273, e.toNat)
  | .len274 e => (.llsym, 274, e.toNat)
  | .len275 e => (.llsym, 275, e.toNat)
  | .len276 e => (.llsym, 276, e.toNat)
  | .len277 e => (.llsym, 277, e.toNat)
  | .len278 e => (.llsym, 278, e.toNat)
  | .len279 e => (.llsym, 279, e.toNat)
  | .len280 e => (.llsym, 280, e.toNat)
  | .len281 e => (.llsym, 281, e.toNat)
  | .len282 e => (.llsym, 282, e.toNat)
  | .len283 e => (.llsym, 283, e.toNat)
  | .len284 e => (.llsym, 284, e.toNat)
  | .len285 => (.llsym, 285, 0)
  | .llRsv286 => (.llsym, 286, 0)
  | .llRsv287 => (.llsym, 287, 0)
  | .dist0 => (.dsym, 0, 0)
  | .dist1 => (.dsym, 1, 0)
  | .dist2 => (.dsym, 2, 0)
  | .dist3 => (.dsym, 3, 0)
  | .dist4 e => (.dsym, 4, e.toNat)
  | .dist5 e => (.dsym, 5, e.toNat)
  | .dist6 e => (.dsym, 6, e.toNat)
  | .dist7 e => (.dsym, 7, e.toNat)
  | .dist8 e => (.dsym, 8, e.toNat)
  | .dist9 e => (.dsym, 9, e.toNat)
  | .dist10 e => (.dsym, 10, e.toNat)
  | .dist11 e => (.dsym, 11, e.toNat)
  | .dist12 e => (.dsym, 12, e.toNat)
  | .dist13 e => (.dsym, 13, e.toNat)
  | .dist14 e => (.dsym, 14, e.toNat)
  | .dist15 e => (.dsym, 15, e.toNat)
  | .dist16 e => (.dsym, 16, e.toNat)
  | .dist17 e => (.dsym, 17, e.toNat)
  | .dist18 e => (.dsym, 18, e.toNat)
  | .dist19 e => (.dsym, 19, e.toNat)
  | .dist20 e => (.dsym, 20, e.toNat)
  | .dist21 e => (.dsym, 21, e.toNat)
  | .dist22 e => (.dsym, 22, e.toNat)
  | .dist23 e => (.dsym, 23, e.toNat)
  | .dist24 e => (.dsym, 24, e.toNat)
  | .dist25 e => (.dsym, 25, e.toNat)
  | .dist26 e => (.dsym, 26, e.toNat)
  | .dist27 e => (.dsym, 27, e.toNat)
  | .dist28 e => (.dsym, 28, e.toNat)
  | .dist29 e => (.dsym, 29, e.toNat)
  | .distRsv30 => (.dsym, 30, 0)
  | .distRsv31 => (.dsym, 31, 0)
  | .bcPeek n => (.bccmd, n.toNat, 0)
  | .bcConsume n => (.bccmd, n.toNat + 128, 0)
  | .bcConsumeBit n => (.bccmd, n.toNat + 256, 0)
  | .bcByteAlign n => (.bccmd, n.toNat + 384, 0)
  | .hufBuild t => (.hufcmd, t.code, 0)
  | .hufLookup t => (.hufcmd, t.code + 8, 0)
  | .cmdStart r => (.ctrl, r.toNat * 2 + 1, 0)

/-- The format of an instruction. -/
def Instr.format (i : Instr) : Format := i.element.1

/-- The encoder: the word of an instruction. -/
def encode (i : Instr) : Nat := i.element.2.1 + i.element.2.2 * 2 ^ i.format.symBits

/-- The bits of `v`, least significant first: a field's order in the stream (20_memory.md R62). -/
def lsbFirst (v : Nat) : Nat → List Bool
  | 0 => []
  | n + 1 => (v % 2 == 1) :: lsbFirst (v / 2) n

/-- The `n` low bits of `v`, most significant first: a code's order in the stream (20_memory.md R63). -/
def msbFirst (v : Nat) : Nat → List Bool
  | 0 => []
  | n + 1 => v.testBit n :: msbFirst v n

/-- The stream bits of an element, given the code book of its tree as (length, code) for each symbol
(30_encoding.md R82, R84 to R88, R98). The header and the commands take no stream bits. -/
def Instr.streamBits (codes : Nat → Nat × Nat) (i : Instr) : List Bool :=
  match i.element with
  | (.bhdr, w, _) => lsbFirst w 3
  | (.dynhdr, w, _) => lsbFirst w 14
  | (.clcl, w, _) => lsbFirst w 3
  | (.clsym, sym, e) => msbFirst (codes sym).2 (codes sym).1 ++ lsbFirst e (Format.extraBits .clsym sym)
  | (.llsym, sym, e) => msbFirst (codes sym).2 (codes sym).1 ++ lsbFirst e (Format.extraBits .llsym sym)
  | (.dsym, sym, e) => msbFirst (codes sym).2 (codes sym).1 ++ lsbFirst e (Format.extraBits .dsym sym)
  | (.zhdr, _, _) | (.bccmd, _, _) | (.hufcmd, _, _) | (.ctrl, _, _) => []

/-- One row of spec/opcode_table.json: a word `w` of the format belongs to it when `w &&& mask = pattern`. -/
structure TableRow where
  mnemonic : String
  format : Format
  pattern : Nat
  mask : Nat
  deriving DecidableEq, Repr

/-- The row of spec/opcode_table.json an instruction stands for. -/
def Instr.tableRow : Instr → TableRow
  | .zlibHeader .. => ⟨"ZLIB_HEADER", .zhdr, 0x0, 0x0⟩
  | .blockStored .. => ⟨"BLOCK_STORED", .bhdr, 0x0, 0x6⟩
  | .blockFixed .. => ⟨"BLOCK_FIXED", .bhdr, 0x2, 0x6⟩
  | .blockDynamic .. => ⟨"BLOCK_DYNAMIC", .bhdr, 0x4, 0x6⟩
  | .blockReserved .. => ⟨"BLOCK_RESERVED", .bhdr, 0x6, 0x6⟩
  | .dynHeader .. => ⟨"DYN_HEADER", .dynhdr, 0x0, 0x0⟩
  | .clclField .. => ⟨"CLCL_FIELD", .clcl, 0x0, 0x0⟩
  | .clLen .. => ⟨"CL_LEN", .clsym, 0x0, 0x10⟩
  | .clRep16 .. => ⟨"CL_REP16", .clsym, 0x10, 0x1f⟩
  | .clZero17 .. => ⟨"CL_ZERO17", .clsym, 0x11, 0x1f⟩
  | .clZero18 .. => ⟨"CL_ZERO18", .clsym, 0x12, 0x1f⟩
  | .lit .. => ⟨"LIT", .llsym, 0x0, 0x100⟩
  | .eob .. => ⟨"EOB", .llsym, 0x100, 0x1ff⟩
  | .len257 .. => ⟨"LEN_257", .llsym, 0x101, 0x1ff⟩
  | .len258 .. => ⟨"LEN_258", .llsym, 0x102, 0x1ff⟩
  | .len259 .. => ⟨"LEN_259", .llsym, 0x103, 0x1ff⟩
  | .len260 .. => ⟨"LEN_260", .llsym, 0x104, 0x1ff⟩
  | .len261 .. => ⟨"LEN_261", .llsym, 0x105, 0x1ff⟩
  | .len262 .. => ⟨"LEN_262", .llsym, 0x106, 0x1ff⟩
  | .len263 .. => ⟨"LEN_263", .llsym, 0x107, 0x1ff⟩
  | .len264 .. => ⟨"LEN_264", .llsym, 0x108, 0x1ff⟩
  | .len265 .. => ⟨"LEN_265", .llsym, 0x109, 0x1ff⟩
  | .len266 .. => ⟨"LEN_266", .llsym, 0x10a, 0x1ff⟩
  | .len267 .. => ⟨"LEN_267", .llsym, 0x10b, 0x1ff⟩
  | .len268 .. => ⟨"LEN_268", .llsym, 0x10c, 0x1ff⟩
  | .len269 .. => ⟨"LEN_269", .llsym, 0x10d, 0x1ff⟩
  | .len270 .. => ⟨"LEN_270", .llsym, 0x10e, 0x1ff⟩
  | .len271 .. => ⟨"LEN_271", .llsym, 0x10f, 0x1ff⟩
  | .len272 .. => ⟨"LEN_272", .llsym, 0x110, 0x1ff⟩
  | .len273 .. => ⟨"LEN_273", .llsym, 0x111, 0x1ff⟩
  | .len274 .. => ⟨"LEN_274", .llsym, 0x112, 0x1ff⟩
  | .len275 .. => ⟨"LEN_275", .llsym, 0x113, 0x1ff⟩
  | .len276 .. => ⟨"LEN_276", .llsym, 0x114, 0x1ff⟩
  | .len277 .. => ⟨"LEN_277", .llsym, 0x115, 0x1ff⟩
  | .len278 .. => ⟨"LEN_278", .llsym, 0x116, 0x1ff⟩
  | .len279 .. => ⟨"LEN_279", .llsym, 0x117, 0x1ff⟩
  | .len280 .. => ⟨"LEN_280", .llsym, 0x118, 0x1ff⟩
  | .len281 .. => ⟨"LEN_281", .llsym, 0x119, 0x1ff⟩
  | .len282 .. => ⟨"LEN_282", .llsym, 0x11a, 0x1ff⟩
  | .len283 .. => ⟨"LEN_283", .llsym, 0x11b, 0x1ff⟩
  | .len284 .. => ⟨"LEN_284", .llsym, 0x11c, 0x1ff⟩
  | .len285 .. => ⟨"LEN_285", .llsym, 0x11d, 0x1ff⟩
  | .llRsv286 .. => ⟨"LL_RSV_286", .llsym, 0x11e, 0x1ff⟩
  | .llRsv287 .. => ⟨"LL_RSV_287", .llsym, 0x11f, 0x1ff⟩
  | .dist0 .. => ⟨"DIST_0", .dsym, 0x0, 0x1f⟩
  | .dist1 .. => ⟨"DIST_1", .dsym, 0x1, 0x1f⟩
  | .dist2 .. => ⟨"DIST_2", .dsym, 0x2, 0x1f⟩
  | .dist3 .. => ⟨"DIST_3", .dsym, 0x3, 0x1f⟩
  | .dist4 .. => ⟨"DIST_4", .dsym, 0x4, 0x1f⟩
  | .dist5 .. => ⟨"DIST_5", .dsym, 0x5, 0x1f⟩
  | .dist6 .. => ⟨"DIST_6", .dsym, 0x6, 0x1f⟩
  | .dist7 .. => ⟨"DIST_7", .dsym, 0x7, 0x1f⟩
  | .dist8 .. => ⟨"DIST_8", .dsym, 0x8, 0x1f⟩
  | .dist9 .. => ⟨"DIST_9", .dsym, 0x9, 0x1f⟩
  | .dist10 .. => ⟨"DIST_10", .dsym, 0xa, 0x1f⟩
  | .dist11 .. => ⟨"DIST_11", .dsym, 0xb, 0x1f⟩
  | .dist12 .. => ⟨"DIST_12", .dsym, 0xc, 0x1f⟩
  | .dist13 .. => ⟨"DIST_13", .dsym, 0xd, 0x1f⟩
  | .dist14 .. => ⟨"DIST_14", .dsym, 0xe, 0x1f⟩
  | .dist15 .. => ⟨"DIST_15", .dsym, 0xf, 0x1f⟩
  | .dist16 .. => ⟨"DIST_16", .dsym, 0x10, 0x1f⟩
  | .dist17 .. => ⟨"DIST_17", .dsym, 0x11, 0x1f⟩
  | .dist18 .. => ⟨"DIST_18", .dsym, 0x12, 0x1f⟩
  | .dist19 .. => ⟨"DIST_19", .dsym, 0x13, 0x1f⟩
  | .dist20 .. => ⟨"DIST_20", .dsym, 0x14, 0x1f⟩
  | .dist21 .. => ⟨"DIST_21", .dsym, 0x15, 0x1f⟩
  | .dist22 .. => ⟨"DIST_22", .dsym, 0x16, 0x1f⟩
  | .dist23 .. => ⟨"DIST_23", .dsym, 0x17, 0x1f⟩
  | .dist24 .. => ⟨"DIST_24", .dsym, 0x18, 0x1f⟩
  | .dist25 .. => ⟨"DIST_25", .dsym, 0x19, 0x1f⟩
  | .dist26 .. => ⟨"DIST_26", .dsym, 0x1a, 0x1f⟩
  | .dist27 .. => ⟨"DIST_27", .dsym, 0x1b, 0x1f⟩
  | .dist28 .. => ⟨"DIST_28", .dsym, 0x1c, 0x1f⟩
  | .dist29 .. => ⟨"DIST_29", .dsym, 0x1d, 0x1f⟩
  | .distRsv30 .. => ⟨"DIST_RSV_30", .dsym, 0x1e, 0x1f⟩
  | .distRsv31 .. => ⟨"DIST_RSV_31", .dsym, 0x1f, 0x1f⟩
  | .bcPeek .. => ⟨"BC_PEEK", .bccmd, 0x0, 0x180⟩
  | .bcConsume .. => ⟨"BC_CONSUME", .bccmd, 0x80, 0x180⟩
  | .bcConsumeBit .. => ⟨"BC_CONSUME_BIT", .bccmd, 0x100, 0x180⟩
  | .bcByteAlign .. => ⟨"BC_BYTE_ALIGN", .bccmd, 0x180, 0x180⟩
  | .hufBuild .. => ⟨"HUF_BUILD", .hufcmd, 0x0, 0x8⟩
  | .hufLookup .. => ⟨"HUF_LOOKUP", .hufcmd, 0x8, 0x8⟩
  | .cmdStart .. => ⟨"CMD_START", .ctrl, 0x1, 0x1⟩

/-- The format `decodeTableWord` reads a word in. The opcode table numbers words per format and its formats overlap, so a
width and a word alone do not name a row: the choice among the formats of one width is a DESIGN CHOICE of this function
alone (assumption 14), and no step uses it. -/
def tableFormat (nbits w : Nat) : Option Format :=
  if nbits = 3 then some .bhdr
  else if nbits = 4 then some .hufcmd
  else if nbits = 14 then some .dynhdr
  else if nbits ≤ 8 then (if w < 32 then some .dsym else none)
  else if nbits ≤ 16 then
    (if w < 288 then some .llsym else if w < 512 then some .bccmd else if w < 16384 then some .dynhdr else some .zhdr)
  else if nbits ≤ 32 then some .ctrl
  else none

/-- The instruction the decoder reads from a word numbered as spec/opcode_table.json numbers it (assumption 14). -/
def decodeTableWord (nbits w : Nat) : Option Instr :=
  match tableFormat nbits w with
  | none => none
  | some f =>
    match decode f w with
    | .ok i => some i
    | .error _ => none

end Sys2Proof
end

