-- ==== Sys2Proof/Machine/Arena.lean ====
section
/-! DEFINITION. The tree arenas of 10_state.md R33 and R34: a file of nodes indexed from 0, node 0 the root. -/

namespace Sys2Proof.Machine

/-- One node (10_state.md R33). `none` is NONE; `sym` is meaningful only when `isLeaf` is true, and the model keeps it at 0
elsewhere, which is its own choice (assumption 26). -/
structure Node where
  child0 : Option Nat
  child1 : Option Nat
  isLeaf : Bool
  sym : Nat
  deriving DecidableEq, Repr

/-- The file of the allocated nodes. Its length is `node_count` (10_state.md R33). -/
abbrev Arena := List Node

end Sys2Proof.Machine
end

