-- ==== Sys2Proof/Machine/State.lean ====
section
/-! DEFINITION. The state of the block as plain data: every piece of state 10_state.md gives it, the two memories of
20_memory.md, and the model's own fields (INVENTORY.md). Datapath registers hold natural numbers (00_scope.md R11: the
arithmetic is exact and nothing wraps); their widths (10_state.md R31) are the invariant of Safety.lean. -/

namespace Sys2Proof.Machine

/-- The kinds of error (60_exceptions.md R230; codes 10_state.md R23). -/
inductive ErrKind where
  | none
  | malformedHeader
  | unsupported
  | corruptData
  | outOfBounds
  | outputOverflow
  deriving DecidableEq, Repr

/-- The causes of error (60_exceptions.md R231). -/
inductive Cause where
  | none
  | hdrFcheck
  | storedBlock
  | presetDict
  | btypeReserved
  | hlitRange
  | hdistRange
  | codeOverflow
  | treeContradiction
  | invalidCode
  | repeatNoPrev
  | repeatOverrun
  | distTooFar
  | llSymbolReserved
  | distSymbolReserved
  | inExhausted
  | hdrShort
  | outFull
  deriving DecidableEq, Repr

/-- The engine's sequencing state (10_state.md R37). -/
inductive Phase where
  | idle
  | zhdr
  | bhdr
  | dynhdr
  | body
  | done
  | error
  deriving DecidableEq, Repr

/-- STATUS.STATE (10_state.md R22). -/
inductive Status where
  | idle
  | busy
  | done
  | error
  deriving DecidableEq, Repr

/-- Where the sequential algorithm stands inside a phase (assumption 1): in DYNHDR before the dynamic header (`head`),
among the code-length code lengths (`clcl`, 43_block_header.md R169) or in the code-length sequence (`clsym`, R170); in
BODY before a literal/length symbol (`ll`, 44_block_body.md R198) or before the distance symbol a length symbol asks for
(`dist`, R193). -/
inductive Seq where
  | head
  | clcl
  | clsym
  | ll
  | dist
  deriving DecidableEq, Repr

/-- The internal command ports of 30_encoding.md R97. -/
inductive CommandPort where
  | bitCursor
  | huffman
  deriving DecidableEq, Repr

/-- What happens next outside the engine (assumption 8): the host actions of 45_stream.md R220, reset
(70_reset_and_hazards.md R260), a command on an internal port (30_encoding.md R97), or the engine's own turn. -/
inductive Input where
  /-- The engine takes its turn. -/
  | engine
  /-- The host writes byte `b` at IN offset `a`. -/
  | writeIn (a : Nat) (b : Byte)
  /-- The host writes byte `b` at OUT offset `a`. -/
  | writeOut (a : Nat) (b : Byte)
  /-- The host writes `v` at offset `offset` of the register window. -/
  | writeReg (offset : Nat) (v : Word)
  /-- The host reads the register window at `offset`. -/
  | readReg (offset : Nat)
  /-- The host reads OUT offset `a`. -/
  | readOut (a : Nat)
  /-- The reset input is asserted. -/
  | reset
  /-- A command word arrives on an internal port. -/
  | command (port : CommandPort) (w : Nat)
  deriving DecidableEq, Repr

/-- A byte memory: (offset, byte) pairs with offsets strictly rising. An unlisted offset has no value of its own; what it
reads as is the free value of `State.inByte` and `State.outByte` in Machine/Ops.lean (assumption 5). -/
abbrev Memory := List Host.Cell

/-- What stops the machine for good: the host made a move the spec gives no meaning (93_implementation_defined.md,
`stuck`). No instruction raises a fault; the errors of 60_exceptions.md are next states. -/
inductive Fault where
  /-- Raised by a host write to IN while STATE = BUSY (20_memory.md R74, 45_stream.md R220). Safe: nothing is promised of
  such a session. -/
  | hostWroteInWhileBusy
  /-- Raised by a host write to OUT while STATE = BUSY, which 45_stream.md R220 does not allow. Safe: as above. -/
  | hostWroteOutWhileBusy
  deriving DecidableEq, Repr

/-- What the model's precondition excludes (93_implementation_defined.md, `refuse`). -/
inductive Refusal where
  /-- Raised by an arm of exec without a meaning (none is left). Safe. -/
  | notModelled (mnemonic : String)
  /-- Raised by BC_PEEK and BC_CONSUME with n > 64 (40_bit_cursor.md R126). Safe: the engine never issues them. -/
  | bcWidthOver64
  /-- Raised by a build whose table has more than 288 entries or whose nodes pass the arena's capacity (41_huffman.md
  R141). Safe: the engine never issues such a build. -/
  | buildOutOfContract
  /-- Raised by a host write of IN_LEN above IN_LEN_MAX (10_state.md R24). Safe. -/
  | inLenAboveMax
  /-- Raised by a host access to an offset that is none of the eight registers (10_state.md R20). Safe (assumption 11). -/
  | noSuchRegister
  /-- Raised by a command on an internal port while STATE is not BUSY, when nothing issues one (60_exceptions.md R241).
  Safe (assumption 12). -/
  | commandWhileNotBusy
  /-- Raised by a fetch or a command port whose word encodes no instruction. Safe: the sequencer never issues such a
  command, and no tree of the engine holds such a symbol (assumption 13). -/
  | undecodable (reason : DecodeError)
  deriving DecidableEq, Repr

/-- The machine's state. -/
structure State where
  /-- `phase` (10_state.md R37); STATUS.STATE is `State.status` of it. -/
  phase : Phase
  /-- The place inside a phase (assumption 1). -/
  seq : Seq
  /-- ERROR.ERR_KIND (10_state.md R23). -/
  errKind : ErrKind
  /-- ERROR.ERR_CAUSE (10_state.md R23). -/
  errCause : Cause
  /-- The IN_LEN register (10_state.md R24). -/
  inLenReg : Word
  /-- `in_len`, the session's copy of IN_LEN (10_state.md R24, R31). -/
  inLen : Nat
  /-- `out_len`, which OUT_LEN shows (10_state.md R25). -/
  outLen : Nat
  /-- ZLIB_HDR.CMF (10_state.md R26). -/
  cmf : BitVec 8
  /-- ZLIB_HDR.FLG (10_state.md R26). -/
  flg : BitVec 8
  /-- ZLIB_HDR.CM (10_state.md R26). -/
  cm : BitVec 4
  /-- ZLIB_HDR.FDICT (10_state.md R26). -/
  fdict : Bool
  /-- BLOCK.BFINAL (10_state.md R28). -/
  blockFinal : Bool
  /-- BLOCK.BTYPE (10_state.md R28). -/
  blockType : BitVec 2
  /-- `cur_byte` (10_state.md R27). -/
  curByte : Nat
  /-- `cur_bit` (10_state.md R27). -/
  curBit : Nat
  /-- `bfinal` (10_state.md R31, R40). -/
  bfinal : Bool
  /-- `btype` (10_state.md R31). -/
  btype : BitVec 2
  /-- `hlit` (10_state.md R29). -/
  hlit : Nat
  /-- `hdist` (10_state.md R29). -/
  hdist : Nat
  /-- `hclen` (10_state.md R29). -/
  hclen : Nat
  /-- The loop index k of 43_block_header.md R169 (assumption 1). -/
  clclIdx : Nat
  /-- `cl_lens[0..18]` (10_state.md R30). -/
  clLens : List (BitVec 3)
  /-- `len_table[0..315]` (10_state.md R32). -/
  lenTable : List (BitVec 4)
  /-- `len_idx` (10_state.md R32). -/
  lenIdx : Nat
  /-- `prev_len` (10_state.md R32). -/
  prevLen : Option (BitVec 4)
  /-- `rep` (10_state.md R31). -/
  rep : Nat
  /-- The arena CLT (10_state.md R34). -/
  clt : Arena
  /-- The arena LLT (10_state.md R34). -/
  llt : Arena
  /-- The arena DT (10_state.md R34). -/
  dt : Arena
  /-- `bl_count[0..15]` (10_state.md R35). -/
  blCount : List Nat
  /-- `next_code[0..15]`, entry 0 unused (10_state.md R35). -/
  nextCode : List Nat
  /-- `sym`: the last decoded symbol (10_state.md R36). -/
  sym : Nat
  /-- `cur_len` (10_state.md R36). -/
  curLen : Nat
  /-- `cur_dist` (10_state.md R36). -/
  curDist : Nat
  /-- `extra` (10_state.md R36). -/
  extra : Nat
  /-- `ll_sel` (10_state.md R36). -/
  llSel : TreeId
  /-- `d_sel` (10_state.md R36). -/
  dSel : TreeId
  /-- The IN memory (20_memory.md R60). -/
  inMem : Memory
  /-- The OUT memory (20_memory.md R66). -/
  outMem : Memory
  /-- MODEL: the configuration (00_scope.md R10). It is no state (R19) and no step changes it; it stands here because the
  type of exec is fixed (assumption 6). -/
  params : Config.Params
  /-- MODEL: how many free values have been handed out (assumption 2). -/
  draws : Nat
  /-- MODEL: how many resets there have been (assumption 5). -/
  epoch : Nat
  /-- MODEL: how many sessions there have been (assumption 2). -/
  sessions : Nat
  /-- MODEL: what the host has written to OUT since the last session start (assumption 2). -/
  hostOut : Memory
  /-- MODEL: what happens next outside the engine, first to come first (assumption 8). -/
  inputs : List Input
  /-- MODEL: the value the last host read of a register returned (assumption 8). -/
  regData : Word
  /-- MODEL: the byte the last host read of OUT returned (assumption 8). -/
  outData : Byte
  /-- MODEL: the value the last bit-cursor command returned on its port (assumption 12). -/
  bcData : BitVec 64
  deriving DecidableEq, Repr

/-- A freshly cleared arena: the root alone, without children and no leaf (10_state.md R33). R33 gives the `sym` of such a
node no meaning and 41_huffman.md R131 no value: the 0 here is the model's choice (assumption 26). -/
def Arena.cleared : Arena := [{ child0 := none, child1 := none, isLeaf := false, sym := 0 }]

/-- The state right after reset of a block with parameters `p` (10_state.md R42). The values R42 calls unspecified are
those assumption 4 names. -/
def State.resetWith (p : Config.Params) : State where
  phase := .idle
  seq := .head
  errKind := .none
  errCause := .none
  inLenReg := 0
  inLen := 0
  outLen := 0
  cmf := 0
  flg := 0
  cm := 0
  fdict := false
  blockFinal := false
  blockType := 0
  curByte := 0
  curBit := 0
  bfinal := false
  btype := 0
  hlit := 0
  hdist := 0
  hclen := 0
  clclIdx := 0
  clLens := List.replicate 19 0
  lenTable := List.replicate 316 0
  lenIdx := 0
  prevLen := none
  rep := 0
  clt := Arena.cleared
  llt := Arena.cleared
  dt := Arena.cleared
  blCount := List.replicate 16 0
  nextCode := List.replicate 16 0
  sym := 0
  curLen := 0
  curDist := 0
  extra := 0
  llSel := .fllt
  dSel := .fdt
  inMem := []
  outMem := []
  params := p
  draws := 0
  epoch := 0
  sessions := 0
  hostOut := []
  inputs := []
  regData := 0
  outData := 0
  bcData := 0

/-- The state right after reset, with the spec's default parameters (10_state.md R42, 00_scope.md R10). -/
def State.reset : State := State.resetWith {}

end Sys2Proof.Machine
end

