-- ==== Sys2Proof/Machine/Ops.lean ====
section
/-! DEFINITION. The operations every instruction is made of: the memories, the bit cursor (40_bit_cursor.md), OUT_APPEND
and the copy (44_block_body.md), taking an error (60_exceptions.md R236) and starting a session (10_state.md R43). -/

namespace Sys2Proof.Machine

/-- The outcome of an operation: a value and the state after it, an error raised in the state the statements before it have
left (00_scope.md R13, R14), or a refusal. What a whole element leaves when it raises is `Res.atomic`. -/
inductive Res (α : Type) where
  | ok (a : α) (s : State)
  | raised (c : Cause) (s : State)
  | refused (r : Refusal)

/-- Sequencing: nothing after a raise executes (00_scope.md R13, R14). -/
def Res.bind {α β : Type} (x : Res α) (f : α → State → Res β) : Res β :=
  match x with
  | .ok a s => f a s
  | .raised c s => .raised c s
  | .refused r => .refused r

/-- An element's writes take effect together, when it completes: one that raises has had no effect beyond the bits it has
consumed (60_exceptions.md R235; assumption 3). `s` is the state the element starts in. -/
def Res.atomic {α : Type} (s : State) (x : Res α) : Res α :=
  match x with
  | .ok a t => .ok a t
  | .raised c t => .raised c { s with curByte := t.curByte, curBit := t.curBit }
  | .refused r => .refused r

/-! ## Memory -/

/-- The byte a memory lists at `a`, if it lists one. -/
def Memory.read : Memory → Nat → Option Byte
  | [], _ => none
  | (b, v) :: m, a => if a = b then some v else Memory.read m a

/-- Store byte `x` at `a`, keeping the offsets rising. -/
def Memory.write : Memory → Nat → Byte → Memory
  | [], a, x => [(a, x)]
  | (b, v) :: m, a, x =>
    if a < b then (a, x) :: (b, v) :: m
    else if a = b then (b, x) :: m
    else (b, v) :: Memory.write m a x

/-- Every offset of the memory is above `lo`, and they rise. -/
def Memory.above (lo : Nat) : Memory → Bool
  | [] => true
  | (b, _) :: m => decide (lo < b) && Memory.above b m

/-- The canonical form: offsets strictly rising. (No listed byte can equal what an unlisted offset reads as: that has no
value of its own.) -/
def Memory.wf : Memory → Bool
  | [] => true
  | (b, _) :: m => Memory.above b m

/-- `MemRead(IN, a, 1)` (00_scope.md R12). A byte nothing has written since reset is a free value (assumption 5). -/
def State.inByte (s : State) (a : Nat) : Byte := (Memory.read s.inMem a).getD (Config.inPowerOn s.epoch a)

/-- `MemRead(OUT, a, 1)` (00_scope.md R12). A byte nothing has written since reset is a free value (assumption 5). -/
def State.outByte (s : State) (a : Nat) : Byte := (Memory.read s.outMem a).getD (Config.outPowerOn s.epoch a)

/-- `MemWrite(OUT, a, 1, v)` (00_scope.md R12). -/
def State.writeOut (s : State) (a : Nat) (v : Byte) : State := { s with outMem := Memory.write s.outMem a v }

/-- A host write of an OUT byte (45_stream.md R220): OUT takes it, and it is the host's until the next session starts
(assumptions 2 and 27). -/
def State.writeHostOut (s : State) (a : Nat) (v : Byte) : State :=
  { s with outMem := Memory.write s.outMem a v, hostOut := Memory.write s.hostOut a v }

/-- A host write of an IN byte (45_stream.md R220). -/
def State.writeIn (s : State) (a : Nat) (v : Byte) : State := { s with inMem := Memory.write s.inMem a v }

/-! ## The status -/

/-- What STATUS.STATE shows of a phase (10_state.md R37). -/
def Phase.status : Phase → Status
  | .idle => .idle
  | .done => .done
  | .error => .error
  | .zhdr | .bhdr | .dynhdr | .body => .busy

/-- STATUS.STATE (10_state.md R22, R37). -/
def State.status (s : State) : Status := s.phase.status

/-! ## Taking an error, and starting over -/

/-- The kind of each cause (60_exceptions.md R231). -/
def Cause.kind : Cause → ErrKind
  | .none => .none
  | .hdrFcheck => .malformedHeader
  | .storedBlock => .unsupported
  | .presetDict => .unsupported
  | .btypeReserved => .corruptData
  | .hlitRange => .corruptData
  | .hdistRange => .corruptData
  | .codeOverflow => .corruptData
  | .treeContradiction => .corruptData
  | .invalidCode => .corruptData
  | .repeatNoPrev => .corruptData
  | .repeatOverrun => .corruptData
  | .distTooFar => .corruptData
  | .llSymbolReserved => .corruptData
  | .distSymbolReserved => .corruptData
  | .inExhausted => .outOfBounds
  | .hdrShort => .outOfBounds
  | .outFull => .outputOverflow

/-- `raise K(c)`: error entry (60_exceptions.md R236). What the host then sees of the other registers is free
(Machine/HostPort.lean, assumption 3). -/
def State.raiseError (s : State) (c : Cause) : State :=
  { s with errKind := c.kind, errCause := c, phase := .error }

/-- A session start (10_state.md R43, 45_stream.md R214 step 1); the model counts it, and forgets which bytes of OUT are the
host's (assumption 2). An error has no other return (60_exceptions.md R237): the
next session, or reset, is what leaves STATE = ERROR. -/
def State.startSession (s : State) : State :=
  { s with
    phase := .zhdr
    seq := .head
    errKind := .none
    errCause := .none
    inLen := s.inLenReg.toNat
    outLen := 0
    curByte := 0
    curBit := 0
    sessions := s.sessions + 1
    hostOut := [] }

/-- The reset input (70_reset_and_hazards.md R260): every piece of state takes its reset value; the configuration stays
(R262), as do the model's own counters and schedule (assumption 21). -/
def State.assertReset (s : State) : State :=
  { State.resetWith s.params with
    draws := s.draws, epoch := s.epoch + 1, sessions := s.sessions, inputs := s.inputs }

/-- An operation as a step's outcome: a raise is the state after error entry (60_exceptions.md R236). -/
def Res.toOutcome (x : Res Unit) : Host.Outcome State Fault Refusal :=
  match x with
  | .ok _ s => .next s
  | .raised c s => .next (s.raiseError c)
  | .refused r => .refused r

/-! ## The bit cursor -/

/-- The absolute bit address of the cursor in IN (40_bit_cursor.md R121). -/
def State.cursorPos (s : State) : Nat := 8 * s.curByte + s.curBit

/-- Bits remaining (40_bit_cursor.md R120). -/
def State.bitsRemaining (s : State) : Nat := 8 * (s.inLen - s.curByte) - s.curBit

/-- The bit at absolute bit address `p` of IN (20_memory.md R61). -/
def State.inBit (s : State) (p : Nat) : Bool := (s.inByte (p / 8)).getLsbD (p % 8)

/-- The `n` bits of IN from bit address `p` on, the first one the least significant (20_memory.md R62). -/
def State.inBits (s : State) (p : Nat) : Nat → Nat
  | 0 => 0
  | n + 1 => (s.inBit p).toNat + 2 * State.inBits s (p + 1) n

/-- The cursor `n` bits further on, normalised (40_bit_cursor.md R122, R123). -/
def State.advance (s : State) (n : Nat) : State :=
  { s with curByte := (s.cursorPos + n) / 8, curBit := (s.cursorPos + n) % 8 }

/-- BC_PEEK(n) (40_bit_cursor.md R121). -/
def bcPeek (n : Nat) (s : State) : Res Nat :=
  if s.bitsRemaining < n then .raised .inExhausted s else .ok (s.inBits s.cursorPos n) s

/-- BC_CONSUME(n) (40_bit_cursor.md R122). -/
def bcConsume (n : Nat) (s : State) : Res Nat :=
  (bcPeek n s).bind fun v s => .ok v (s.advance n)

/-- BC_CONSUME(n) of a field whose value the fetch has put into the instruction: the bound check of 40_bit_cursor.md R120
and the advance of R122 (assumption 13). -/
def bcSkip (n : Nat) (s : State) : Res Unit :=
  (bcConsume n s).bind fun _ s => .ok () s

/-- BC_CONSUME_BIT (40_bit_cursor.md R124). -/
def bcConsumeBit (s : State) : Res Bool :=
  (bcConsume 1 s).bind fun v s => .ok (v == 1) s

/-- BC_BYTE_ALIGN (40_bit_cursor.md R125). -/
def bcByteAlign (s : State) : State :=
  if s.curBit = 0 then s else { s with curByte := s.curByte + 1, curBit := 0 }

/-! ## The output -/

/-- The output buffer takes no more bytes (20_memory.md R76). -/
def State.outFull (s : State) : Bool := s.params.outCap == some s.outLen

/-- OUT_APPEND(v) (44_block_body.md R197). -/
def outAppend (v : Byte) (s : State) : Res Unit :=
  if s.outFull then .raised .outFull s
  else .ok () { s.writeOut s.outLen v with outLen := s.outLen + 1 }

/-- The loop of COPY: `n` bytes, one at a time (44_block_body.md R195). -/
def copyBytes : Nat → State → Res Unit
  | 0, s => .ok () s
  | n + 1, s => (outAppend (s.outByte (s.outLen - s.curDist)) s).bind fun _ s => copyBytes n s

/-- COPY (44_block_body.md R195). -/
def copyBackref (s : State) : Res Unit :=
  if s.outLen < s.curDist then .raised .distTooFar s else copyBytes s.curLen s

end Sys2Proof.Machine
end

