-- ==== Sys2Proof/Machine/Flags.lean ====
section
/-! DEFINITION. Status values and the words the host registers show (10_state.md R20 to R28, R40). The block has no
arithmetic condition codes (R40). -/

namespace Sys2Proof.Machine

/-- STATUS.STATE as the host reads it (10_state.md R22). -/
def Status.code : Status → Nat
  | .idle => 0
  | .busy => 1
  | .done => 2
  | .error => 3

/-- ERR_KIND as the host reads it (10_state.md R23). -/
def ErrKind.code : ErrKind → Nat
  | .none => 0
  | .malformedHeader => 1
  | .unsupported => 2
  | .corruptData => 3
  | .outOfBounds => 4
  | .outputOverflow => 5

/-- ERR_CAUSE as the host reads it (60_exceptions.md R231). -/
def Cause.code : Cause → Nat
  | .none => 0
  | .hdrFcheck => 1
  | .storedBlock => 2
  | .presetDict => 3
  | .btypeReserved => 4
  | .hlitRange => 5
  | .hdistRange => 6
  | .codeOverflow => 7
  | .treeContradiction => 8
  | .invalidCode => 9
  | .repeatNoPrev => 10
  | .repeatOverrun => 11
  | .distTooFar => 12
  | .llSymbolReserved => 13
  | .distSymbolReserved => 14
  | .inExhausted => 15
  | .hdrShort => 16
  | .outFull => 17

/-- The output `done_o` (60_exceptions.md R238). -/
def State.doneO (s : State) : Bool := s.status == .done

/-- The output `error_o` (60_exceptions.md R238). -/
def State.errorO (s : State) : Bool := s.status == .error

/-- The header's checksum holds: `((CMF << 8) | FLG) % 31 = 0` (45_stream.md R210). -/
def headerChecksumOk (cmf flg : BitVec 8) : Bool := (cmf.toNat * 256 + flg.toNat) % 31 == 0

/-- `CM = CMF[3:0]` (10_state.md R26). -/
def cmOf (cmf : BitVec 8) : BitVec 4 := BitVec.ofNat 4 cmf.toNat

/-- `FDICT = FLG[5]` (10_state.md R26). -/
def fdictOf (flg : BitVec 8) : Bool := flg.getLsbD 5

/-- Write ZLIB_HDR (45_stream.md R210, 10_state.md R26). -/
def State.setZlibHdr (s : State) (cmf flg : BitVec 8) : State :=
  { s with cmf := cmf, flg := flg, cm := cmOf cmf, fdict := fdictOf flg }

/-- Write BLOCK (43_block_header.md R165, 10_state.md R28). -/
def State.setBlock (s : State) (bfinal : Bool) (btype : BitVec 2) : State :=
  { s with blockFinal := bfinal, blockType := btype }

/-- The word STATUS shows (10_state.md R20, R22). -/
def State.statusWord (s : State) : Word := BitVec.ofNat 32 s.status.code

/-- The word ERROR shows: ERR_KIND in bits 2:0, ERR_CAUSE in bits 15:8 (10_state.md R20, R23). -/
def State.errorWord (s : State) : Word := BitVec.ofNat 32 (s.errKind.code + s.errCause.code * 256)

/-- The word ZLIB_HDR shows: CMF in bits 7:0, FLG in bits 15:8, CM in bits 19:16, FDICT in bit 20 (10_state.md R20). -/
def State.zlibHdrWord (s : State) : Word :=
  BitVec.ofNat 32 (s.cmf.toNat + s.flg.toNat * 256 + s.cm.toNat * 65536 + s.fdict.toNat * 1048576)

/-- The word BLOCK shows: BFINAL in bit 0, BTYPE in bits 2:1 (10_state.md R20). -/
def State.blockWord (s : State) : Word := BitVec.ofNat 32 (s.blockFinal.toNat + s.blockType.toNat * 2)

/-- The word CURSOR shows: CUR_BIT in bits 2:0, CUR_BYTE in bits 31:3 (10_state.md R20, R27). A `cur_byte` that does not
fit its 29 bits shows as a free value there (assumption 17). -/
def State.cursorWord (s : State) : Word :=
  if s.curByte < 536870912 then BitVec.ofNat 32 (s.curByte * 8 + s.curBit)
  else BitVec.ofNat 32 ((Config.freeWord s.draws).toNat / 8 * 8 + s.curBit % 8)

/-- The word OUT_LEN shows (10_state.md R25). An `out_len` that does not fit 32 bits shows as a free value
(assumption 17). -/
def State.outLenWord (s : State) : Word :=
  if s.outLen < 4294967296 then BitVec.ofNat 32 s.outLen else Config.freeWord s.draws

end Sys2Proof.Machine
end

