-- ==== Sys2Proof/Machine/FixedTrees.lean ====
section
/-! DEFINITION. The constant arenas FLLT and FDT (42_fixed_tables.md R150 to R152). Each is written out as the table of
nodes HUF_BUILD makes from the fixed lengths; Laws/FixedTrees.lean checks the tables against the build. A pair (a, b)
with a > 0 is an internal node with children a and b (b = 0: NONE), and (0, s) is a leaf with symbol s; node 0, the root,
is nobody's child. -/

namespace Sys2Proof.Machine

/-- The node a pair of the tables below stands for. The `sym` of a node that is no leaf is 0 by the model's choice
(assumption 26). -/
def fixedNode : Nat × Nat → Node
  | (0, s) => { child0 := none, child1 := none, isLeaf := true, sym := s }
  | (a, b) => { child0 := some a, child1 := if b = 0 then none else some b, isLeaf := false, sym := 0 }

/-- Nodes 0 to 95 of fixedLL8. -/
def fixedLL8Rows0 : List (Nat × Nat) :=
  [(1, 162), (2, 35), (514, 3), (545, 4), (5, 20), (6, 13), (7, 10), (8, 9), (0, 0), (0, 1),
   (11, 12), (0, 2), (0, 3), (14, 17), (15, 16), (0, 4), (0, 5), (18, 19), (0, 6), (0, 7),
   (21, 28), (22, 25), (23, 24), (0, 8), (0, 9), (26, 27), (0, 10), (0, 11), (29, 32), (30, 31),
   (0, 12), (0, 13), (33, 34), (0, 14), (0, 15), (36, 99), (37, 68), (38, 53), (39, 46), (40, 43),
   (41, 42), (0, 16), (0, 17), (44, 45), (0, 18), (0, 19), (47, 50), (48, 49), (0, 20), (0, 21),
   (51, 52), (0, 22), (0, 23), (54, 61), (55, 58), (56, 57), (0, 24), (0, 25), (59, 60), (0, 26),
   (0, 27), (62, 65), (63, 64), (0, 28), (0, 29), (66, 67), (0, 30), (0, 31), (69, 84), (70, 77),
   (71, 74), (72, 73), (0, 32), (0, 33), (75, 76), (0, 34), (0, 35), (78, 81), (79, 80), (0, 36),
   (0, 37), (82, 83), (0, 38), (0, 39), (85, 92), (86, 89), (87, 88), (0, 40), (0, 41), (90, 91),
   (0, 42), (0, 43), (93, 96), (94, 95), (0, 44), (0, 45)]

/-- Nodes 96 to 191 of fixedLL8. -/
def fixedLL8Rows1 : List (Nat × Nat) :=
  [(97, 98), (0, 46), (0, 47), (100, 131), (101, 116), (102, 109), (103, 106), (104, 105), (0, 48), (0, 49),
   (107, 108), (0, 50), (0, 51), (110, 113), (111, 112), (0, 52), (0, 53), (114, 115), (0, 54), (0, 55),
   (117, 124), (118, 121), (119, 120), (0, 56), (0, 57), (122, 123), (0, 58), (0, 59), (125, 128), (126, 127),
   (0, 60), (0, 61), (129, 130), (0, 62), (0, 63), (132, 147), (133, 140), (134, 137), (135, 136), (0, 64),
   (0, 65), (138, 139), (0, 66), (0, 67), (141, 144), (142, 143), (0, 68), (0, 69), (145, 146), (0, 70),
   (0, 71), (148, 155), (149, 152), (150, 151), (0, 72), (0, 73), (153, 154), (0, 74), (0, 75), (156, 159),
   (157, 158), (0, 76), (0, 77), (160, 161), (0, 78), (0, 79), (163, 290), (164, 227), (165, 196), (166, 181),
   (167, 174), (168, 171), (169, 170), (0, 80), (0, 81), (172, 173), (0, 82), (0, 83), (175, 178), (176, 177),
   (0, 84), (0, 85), (179, 180), (0, 86), (0, 87), (182, 189), (183, 186), (184, 185), (0, 88), (0, 89),
   (187, 188), (0, 90), (0, 91), (190, 193), (191, 192), (0, 92)]

/-- Nodes 192 to 287 of fixedLL8. -/
def fixedLL8Rows2 : List (Nat × Nat) :=
  [(0, 93), (194, 195), (0, 94), (0, 95), (197, 212), (198, 205), (199, 202), (200, 201), (0, 96), (0, 97),
   (203, 204), (0, 98), (0, 99), (206, 209), (207, 208), (0, 100), (0, 101), (210, 211), (0, 102), (0, 103),
   (213, 220), (214, 217), (215, 216), (0, 104), (0, 105), (218, 219), (0, 106), (0, 107), (221, 224), (222, 223),
   (0, 108), (0, 109), (225, 226), (0, 110), (0, 111), (228, 259), (229, 244), (230, 237), (231, 234), (232, 233),
   (0, 112), (0, 113), (235, 236), (0, 114), (0, 115), (238, 241), (239, 240), (0, 116), (0, 117), (242, 243),
   (0, 118), (0, 119), (245, 252), (246, 249), (247, 248), (0, 120), (0, 121), (250, 251), (0, 122), (0, 123),
   (253, 256), (254, 255), (0, 124), (0, 125), (257, 258), (0, 126), (0, 127), (260, 275), (261, 268), (262, 265),
   (263, 264), (0, 128), (0, 129), (266, 267), (0, 130), (0, 131), (269, 272), (270, 271), (0, 132), (0, 133),
   (273, 274), (0, 134), (0, 135), (276, 283), (277, 280), (278, 279), (0, 136), (0, 137), (281, 282), (0, 138),
   (0, 139), (284, 287), (285, 286), (0, 140), (0, 141), (288, 289)]

/-- Nodes 288 to 383 of fixedLL8. -/
def fixedLL8Rows3 : List (Nat × Nat) :=
  [(0, 142), (0, 143), (291, 387), (292, 324), (560, 293), (294, 309), (295, 302), (296, 299), (297, 298), (0, 144),
   (0, 145), (300, 301), (0, 146), (0, 147), (303, 306), (304, 305), (0, 148), (0, 149), (307, 308), (0, 150),
   (0, 151), (310, 317), (311, 314), (312, 313), (0, 152), (0, 153), (315, 316), (0, 154), (0, 155), (318, 321),
   (319, 320), (0, 156), (0, 157), (322, 323), (0, 158), (0, 159), (325, 356), (326, 341), (327, 334), (328, 331),
   (329, 330), (0, 160), (0, 161), (332, 333), (0, 162), (0, 163), (335, 338), (336, 337), (0, 164), (0, 165),
   (339, 340), (0, 166), (0, 167), (342, 349), (343, 346), (344, 345), (0, 168), (0, 169), (347, 348), (0, 170),
   (0, 171), (350, 353), (351, 352), (0, 172), (0, 173), (354, 355), (0, 174), (0, 175), (357, 372), (358, 365),
   (359, 362), (360, 361), (0, 176), (0, 177), (363, 364), (0, 178), (0, 179), (366, 369), (367, 368), (0, 180),
   (0, 181), (370, 371), (0, 182), (0, 183), (373, 380), (374, 377), (375, 376), (0, 184), (0, 185), (378, 379),
   (0, 186), (0, 187), (381, 384), (382, 383), (0, 188), (0, 189)]

/-- Nodes 384 to 479 of fixedLL8. -/
def fixedLL8Rows4 : List (Nat × Nat) :=
  [(385, 386), (0, 190), (0, 191), (388, 451), (389, 420), (390, 405), (391, 398), (392, 395), (393, 394), (0, 192),
   (0, 193), (396, 397), (0, 194), (0, 195), (399, 402), (400, 401), (0, 196), (0, 197), (403, 404), (0, 198),
   (0, 199), (406, 413), (407, 410), (408, 409), (0, 200), (0, 201), (411, 412), (0, 202), (0, 203), (414, 417),
   (415, 416), (0, 204), (0, 205), (418, 419), (0, 206), (0, 207), (421, 436), (422, 429), (423, 426), (424, 425),
   (0, 208), (0, 209), (427, 428), (0, 210), (0, 211), (430, 433), (431, 432), (0, 212), (0, 213), (434, 435),
   (0, 214), (0, 215), (437, 444), (438, 441), (439, 440), (0, 216), (0, 217), (442, 443), (0, 218), (0, 219),
   (445, 448), (446, 447), (0, 220), (0, 221), (449, 450), (0, 222), (0, 223), (452, 483), (453, 468), (454, 461),
   (455, 458), (456, 457), (0, 224), (0, 225), (459, 460), (0, 226), (0, 227), (462, 465), (463, 464), (0, 228),
   (0, 229), (466, 467), (0, 230), (0, 231), (469, 476), (470, 473), (471, 472), (0, 232), (0, 233), (474, 475),
   (0, 234), (0, 235), (477, 480), (478, 479), (0, 236), (0, 237)]

/-- Nodes 480 to 574 of fixedLL8. -/
def fixedLL8Rows5 : List (Nat × Nat) :=
  [(481, 482), (0, 238), (0, 239), (484, 499), (485, 492), (486, 489), (487, 488), (0, 240), (0, 241), (490, 491),
   (0, 242), (0, 243), (493, 496), (494, 495), (0, 244), (0, 245), (497, 498), (0, 246), (0, 247), (500, 507),
   (501, 504), (502, 503), (0, 248), (0, 249), (505, 506), (0, 250), (0, 251), (508, 511), (509, 510), (0, 252),
   (0, 253), (512, 513), (0, 254), (0, 255), (515, 530), (516, 523), (517, 520), (518, 519), (0, 256), (0, 257),
   (521, 522), (0, 258), (0, 259), (524, 527), (525, 526), (0, 260), (0, 261), (528, 529), (0, 262), (0, 263),
   (531, 538), (532, 535), (533, 534), (0, 264), (0, 265), (536, 537), (0, 266), (0, 267), (539, 542), (540, 541),
   (0, 268), (0, 269), (543, 544), (0, 270), (0, 271), (546, 553), (547, 550), (548, 549), (0, 272), (0, 273),
   (551, 552), (0, 274), (0, 275), (554, 557), (555, 556), (0, 276), (0, 277), (558, 559), (0, 278), (0, 279),
   (561, 568), (562, 565), (563, 564), (0, 280), (0, 281), (566, 567), (0, 282), (0, 283), (569, 572), (570, 571),
   (0, 284), (0, 285), (573, 574), (0, 286), (0, 287)]

/-- FLLT under `FIXED_LL_LEN_280_287` = 8: 575 nodes (42_fixed_tables.md R150), as HUF_BUILD numbers its nodes. -/
def fixedLL8Arena : Arena :=
  (fixedLL8Rows0 ++ fixedLL8Rows1 ++ fixedLL8Rows2 ++ fixedLL8Rows3 ++ fixedLL8Rows4 ++ fixedLL8Rows5).map fixedNode

/-- Nodes 0 to 95 of fixedLL9. -/
def fixedLL9Rows0 : List (Nat × Nat) :=
  [(1, 162), (2, 35), (514, 3), (545, 4), (5, 20), (6, 13), (7, 10), (8, 9), (0, 0), (0, 1),
   (11, 12), (0, 2), (0, 3), (14, 17), (15, 16), (0, 4), (0, 5), (18, 19), (0, 6), (0, 7),
   (21, 28), (22, 25), (23, 24), (0, 8), (0, 9), (26, 27), (0, 10), (0, 11), (29, 32), (30, 31),
   (0, 12), (0, 13), (33, 34), (0, 14), (0, 15), (36, 99), (37, 68), (38, 53), (39, 46), (40, 43),
   (41, 42), (0, 16), (0, 17), (44, 45), (0, 18), (0, 19), (47, 50), (48, 49), (0, 20), (0, 21),
   (51, 52), (0, 22), (0, 23), (54, 61), (55, 58), (56, 57), (0, 24), (0, 25), (59, 60), (0, 26),
   (0, 27), (62, 65), (63, 64), (0, 28), (0, 29), (66, 67), (0, 30), (0, 31), (69, 84), (70, 77),
   (71, 74), (72, 73), (0, 32), (0, 33), (75, 76), (0, 34), (0, 35), (78, 81), (79, 80), (0, 36),
   (0, 37), (82, 83), (0, 38), (0, 39), (85, 92), (86, 89), (87, 88), (0, 40), (0, 41), (90, 91),
   (0, 42), (0, 43), (93, 96), (94, 95), (0, 44), (0, 45)]

/-- Nodes 96 to 191 of fixedLL9. -/
def fixedLL9Rows1 : List (Nat × Nat) :=
  [(97, 98), (0, 46), (0, 47), (100, 131), (101, 116), (102, 109), (103, 106), (104, 105), (0, 48), (0, 49),
   (107, 108), (0, 50), (0, 51), (110, 113), (111, 112), (0, 52), (0, 53), (114, 115), (0, 54), (0, 55),
   (117, 124), (118, 121), (119, 120), (0, 56), (0, 57), (122, 123), (0, 58), (0, 59), (125, 128), (126, 127),
   (0, 60), (0, 61), (129, 130), (0, 62), (0, 63), (132, 147), (133, 140), (134, 137), (135, 136), (0, 64),
   (0, 65), (138, 139), (0, 66), (0, 67), (141, 144), (142, 143), (0, 68), (0, 69), (145, 146), (0, 70),
   (0, 71), (148, 155), (149, 152), (150, 151), (0, 72), (0, 73), (153, 154), (0, 74), (0, 75), (156, 159),
   (157, 158), (0, 76), (0, 77), (160, 161), (0, 78), (0, 79), (163, 290), (164, 227), (165, 196), (166, 181),
   (167, 174), (168, 171), (169, 170), (0, 80), (0, 81), (172, 173), (0, 82), (0, 83), (175, 178), (176, 177),
   (0, 84), (0, 85), (179, 180), (0, 86), (0, 87), (182, 189), (183, 186), (184, 185), (0, 88), (0, 89),
   (187, 188), (0, 90), (0, 91), (190, 193), (191, 192), (0, 92)]

/-- Nodes 192 to 287 of fixedLL9. -/
def fixedLL9Rows2 : List (Nat × Nat) :=
  [(0, 93), (194, 195), (0, 94), (0, 95), (197, 212), (198, 205), (199, 202), (200, 201), (0, 96), (0, 97),
   (203, 204), (0, 98), (0, 99), (206, 209), (207, 208), (0, 100), (0, 101), (210, 211), (0, 102), (0, 103),
   (213, 220), (214, 217), (215, 216), (0, 104), (0, 105), (218, 219), (0, 106), (0, 107), (221, 224), (222, 223),
   (0, 108), (0, 109), (225, 226), (0, 110), (0, 111), (228, 259), (229, 244), (230, 237), (231, 234), (232, 233),
   (0, 112), (0, 113), (235, 236), (0, 114), (0, 115), (238, 241), (239, 240), (0, 116), (0, 117), (242, 243),
   (0, 118), (0, 119), (245, 252), (246, 249), (247, 248), (0, 120), (0, 121), (250, 251), (0, 122), (0, 123),
   (253, 256), (254, 255), (0, 124), (0, 125), (257, 258), (0, 126), (0, 127), (260, 275), (261, 268), (262, 265),
   (263, 264), (0, 128), (0, 129), (266, 267), (0, 130), (0, 131), (269, 272), (270, 271), (0, 132), (0, 133),
   (273, 274), (0, 134), (0, 135), (276, 283), (277, 280), (278, 279), (0, 136), (0, 137), (281, 282), (0, 138),
   (0, 139), (284, 287), (285, 286), (0, 140), (0, 141), (288, 289)]

/-- Nodes 288 to 383 of fixedLL9. -/
def fixedLL9Rows3 : List (Nat × Nat) :=
  [(0, 142), (0, 143), (291, 418), (292, 355), (293, 324), (294, 309), (295, 302), (296, 299), (297, 298), (0, 144),
   (0, 145), (300, 301), (0, 146), (0, 147), (303, 306), (304, 305), (0, 148), (0, 149), (307, 308), (0, 150),
   (0, 151), (310, 317), (311, 314), (312, 313), (0, 152), (0, 153), (315, 316), (0, 154), (0, 155), (318, 321),
   (319, 320), (0, 156), (0, 157), (322, 323), (0, 158), (0, 159), (325, 340), (326, 333), (327, 330), (328, 329),
   (0, 160), (0, 161), (331, 332), (0, 162), (0, 163), (334, 337), (335, 336), (0, 164), (0, 165), (338, 339),
   (0, 166), (0, 167), (341, 348), (342, 345), (343, 344), (0, 168), (0, 169), (346, 347), (0, 170), (0, 171),
   (349, 352), (350, 351), (0, 172), (0, 173), (353, 354), (0, 174), (0, 175), (356, 387), (357, 372), (358, 365),
   (359, 362), (360, 361), (0, 176), (0, 177), (363, 364), (0, 178), (0, 179), (366, 369), (367, 368), (0, 180),
   (0, 181), (370, 371), (0, 182), (0, 183), (373, 380), (374, 377), (375, 376), (0, 184), (0, 185), (378, 379),
   (0, 186), (0, 187), (381, 384), (382, 383), (0, 188), (0, 189)]

/-- Nodes 384 to 479 of fixedLL9. -/
def fixedLL9Rows4 : List (Nat × Nat) :=
  [(385, 386), (0, 190), (0, 191), (388, 403), (389, 396), (390, 393), (391, 392), (0, 192), (0, 193), (394, 395),
   (0, 194), (0, 195), (397, 400), (398, 399), (0, 196), (0, 197), (401, 402), (0, 198), (0, 199), (404, 411),
   (405, 408), (406, 407), (0, 200), (0, 201), (409, 410), (0, 202), (0, 203), (412, 415), (413, 414), (0, 204),
   (0, 205), (416, 417), (0, 206), (0, 207), (419, 482), (420, 451), (421, 436), (422, 429), (423, 426), (424, 425),
   (0, 208), (0, 209), (427, 428), (0, 210), (0, 211), (430, 433), (431, 432), (0, 212), (0, 213), (434, 435),
   (0, 214), (0, 215), (437, 444), (438, 441), (439, 440), (0, 216), (0, 217), (442, 443), (0, 218), (0, 219),
   (445, 448), (446, 447), (0, 220), (0, 221), (449, 450), (0, 222), (0, 223), (452, 467), (453, 460), (454, 457),
   (455, 456), (0, 224), (0, 225), (458, 459), (0, 226), (0, 227), (461, 464), (462, 463), (0, 228), (0, 229),
   (465, 466), (0, 230), (0, 231), (468, 475), (469, 472), (470, 471), (0, 232), (0, 233), (473, 474), (0, 234),
   (0, 235), (476, 479), (477, 478), (0, 236), (0, 237), (480, 481)]

/-- Nodes 480 to 575 of fixedLL9. -/
def fixedLL9Rows5 : List (Nat × Nat) :=
  [(0, 238), (0, 239), (483, 560), (484, 499), (485, 492), (486, 489), (487, 488), (0, 240), (0, 241), (490, 491),
   (0, 242), (0, 243), (493, 496), (494, 495), (0, 244), (0, 245), (497, 498), (0, 246), (0, 247), (500, 507),
   (501, 504), (502, 503), (0, 248), (0, 249), (505, 506), (0, 250), (0, 251), (508, 511), (509, 510), (0, 252),
   (0, 253), (512, 513), (0, 254), (0, 255), (515, 530), (516, 523), (517, 520), (518, 519), (0, 256), (0, 257),
   (521, 522), (0, 258), (0, 259), (524, 527), (525, 526), (0, 260), (0, 261), (528, 529), (0, 262), (0, 263),
   (531, 538), (532, 535), (533, 534), (0, 264), (0, 265), (536, 537), (0, 266), (0, 267), (539, 542), (540, 541),
   (0, 268), (0, 269), (543, 544), (0, 270), (0, 271), (546, 553), (547, 550), (548, 549), (0, 272), (0, 273),
   (551, 552), (0, 274), (0, 275), (554, 557), (555, 556), (0, 276), (0, 277), (558, 559), (0, 278), (0, 279),
   (561, 0), (562, 569), (563, 566), (564, 565), (0, 280), (0, 281), (567, 568), (0, 282), (0, 283), (570, 573),
   (571, 572), (0, 284), (0, 285), (574, 575), (0, 286), (0, 287)]

/-- FLLT under `FIXED_LL_LEN_280_287` = 9: 576 nodes (42_fixed_tables.md R150), as HUF_BUILD numbers its nodes. -/
def fixedLL9Arena : Arena :=
  (fixedLL9Rows0 ++ fixedLL9Rows1 ++ fixedLL9Rows2 ++ fixedLL9Rows3 ++ fixedLL9Rows4 ++ fixedLL9Rows5).map fixedNode

/-- Nodes 0 to 62 of fixedD. -/
def fixedDRows0 : List (Nat × Nat) :=
  [(1, 32), (2, 17), (3, 10), (4, 7), (5, 6), (0, 0), (0, 1), (8, 9), (0, 2), (0, 3),
   (11, 14), (12, 13), (0, 4), (0, 5), (15, 16), (0, 6), (0, 7), (18, 25), (19, 22), (20, 21),
   (0, 8), (0, 9), (23, 24), (0, 10), (0, 11), (26, 29), (27, 28), (0, 12), (0, 13), (30, 31),
   (0, 14), (0, 15), (33, 48), (34, 41), (35, 38), (36, 37), (0, 16), (0, 17), (39, 40), (0, 18),
   (0, 19), (42, 45), (43, 44), (0, 20), (0, 21), (46, 47), (0, 22), (0, 23), (49, 56), (50, 53),
   (51, 52), (0, 24), (0, 25), (54, 55), (0, 26), (0, 27), (57, 60), (58, 59), (0, 28), (0, 29),
   (61, 62), (0, 30), (0, 31)]

/-- FDT: 63 nodes (42_fixed_tables.md R151), as HUF_BUILD numbers its nodes. -/
def fixedDArena : Arena :=
  (fixedDRows0).map fixedNode

/-- FLLT under the parameter `FIXED_LL_LEN_280_287` (42_fixed_tables.md R150). -/
def fixedLLArena : Config.FixedLong → Arena
  | .eight => fixedLL8Arena
  | .nine => fixedLL9Arena

end Sys2Proof.Machine
end

