-- ==== Sys2Proof/Machine/Huffman.lean ====
section
/-! DEFINITION. The canonical Huffman decoder's operations (41_huffman.md): HUF_BUILD and HUF_LOOKUP, and the canonical
code in closed form (R132). -/

namespace Sys2Proof.Machine

/-! ## Arenas -/

/-- `T[node]`; an index that is not allocated is a node without children (assumption 19), with `sym` 0 (assumption 26). -/
def Arena.nodeAt (a : Arena) (node : Nat) : Node :=
  a.getD node { child0 := none, child1 := none, isLeaf := false, sym := 0 }

/-- The child for a code bit: `child0` for 0, `child1` for 1 (41_huffman.md R133). -/
def Node.child (nd : Node) (b : Bool) : Option Nat := if b then nd.child1 else nd.child0

/-- The node with its child for bit `b` set to `k`. -/
def Node.setChild (nd : Node) (b : Bool) (k : Nat) : Node :=
  if b then { nd with child1 := some k } else { nd with child0 := some k }

/-- Allocate a fresh node as the child of `node` for bit `b` (41_huffman.md R131 step 3). The fresh node is as
`Arena.cleared` has it, its `sym` 0 by the model's choice (assumption 26). -/
def Arena.alloc (a : Arena) (node : Nat) (b : Bool) : Arena :=
  List.set a node ((a.nodeAt node).setChild b a.length) ++ Arena.cleared

/-- A node that may become a leaf: it is none yet and has no child (41_huffman.md R131, R135). -/
def Node.vacant (nd : Node) : Bool := !nd.isLeaf && nd.child0.isNone && nd.child1.isNone

/-- Insert symbol `sym` by walking the low bits of `code`, the highest of them first, from `node` on (41_huffman.md R131
step 3, R133). The flag is false on a contradiction (R135). -/
def insertCode (sym code : Nat) : Nat → Nat → Arena → Arena × Bool
  | 0, node, a =>
    if (a.nodeAt node).vacant then
      (List.set a node { a.nodeAt node with isLeaf := true, sym := sym }, true)
    else (a, false)
  | i + 1, node, a =>
    if (a.nodeAt node).isLeaf then (a, false)
    else
      match (a.nodeAt node).child (code.testBit i) with
      | some k => insertCode sym code i k a
      | none => insertCode sym code i a.length (a.alloc node (code.testBit i))

/-! ## HUF_BUILD -/

/-- Step 1: `bl_count[0..15]`, with `bl_count[0] = 0` (41_huffman.md R131). -/
def countLengths (lens : List Nat) : List Nat :=
  0 :: (List.range 15).map fun i => lens.count (i + 1)

/-- Step 2 from length `len` on, `n` lengths: the first code of each length, and whether no length overflows
(41_huffman.md R131, R134). -/
def firstCodes (bl : List Nat) : Nat → Nat → Nat → List Nat → List Nat × Bool
  | 0, _, _, next => (next, true)
  | n + 1, len, code, next =>
    let code := (code + bl.getD (len - 1) 0) * 2
    let next := List.set next len code
    if code + bl.getD len 0 > 2 ^ len then (next, false) else firstCodes bl n (len + 1) code next

/-- What a build leaves: the arena, the scratch registers, and the error it raises, if it does. -/
structure BuildResult where
  arena : Arena
  blCount : List Nat
  nextCode : List Nat
  error : Option Cause

/-- Step 3 for the entries `lens` of the symbols from `s` on (41_huffman.md R131). -/
def assignCodes (bl : List Nat) : List Nat → Nat → List Nat → Arena → BuildResult
  | [], _, next, a => { arena := a, blCount := bl, nextCode := next, error := none }
  | len :: rest, s, next, a =>
    if len = 0 then assignCodes bl rest (s + 1) next a
    else
      let c := next.getD len 0
      let next := List.set next len (c + 1)
      match insertCode s c len 0 a with
      | (a, true) => assignCodes bl rest (s + 1) next a
      | (a, false) => { arena := a, blCount := bl, nextCode := next, error := some .treeContradiction }

/-- HUF_BUILD of the table `lens` (41_huffman.md R131). The scratch registers start at 0: their values between builds are
unspecified and nothing reads them (10_state.md R35). -/
def buildTree (lens : List Nat) : BuildResult :=
  let bl := countLengths lens
  match firstCodes bl 15 1 0 (List.replicate 16 0) with
  | (next, true) => assignCodes bl lens 0 next Arena.cleared
  | (next, false) => { arena := Arena.cleared, blCount := bl, nextCode := next, error := some .codeOverflow }

/-- `first(len)` of 41_huffman.md R132. -/
def canonicalFirst (lens : List Nat) : Nat → Nat
  | 0 => 0
  | len + 1 => (canonicalFirst lens len + (if len = 0 then 0 else lens.count len)) * 2

/-- `code(s)` of 41_huffman.md R132, as (length, code). -/
def canonicalCode (lens : List Nat) (s : Nat) : Nat × Nat :=
  (lens.getD s 0, canonicalFirst lens (lens.getD s 0) + (lens.take s).count (lens.getD s 0))

/-- The arena capacity (10_state.md R34). -/
def arenaCapacity (p : Config.Params) : TreeId → Nat
  | .clt => 44
  | .llt => 586
  | .dt => 74
  | .fllt => match p.fixedLong with
    | .eight => 575
    | .nine => 576
  | .fdt => 63

/-- The arena a tree code selects (10_state.md R34). -/
def State.arena (s : State) : TreeId → Arena
  | .clt => s.clt
  | .llt => s.llt
  | .dt => s.dt
  | .fllt => fixedLLArena s.params.fixedLong
  | .fdt => fixedDArena

/-- Put a built tree into its arena. The fixed arenas are constant: a build of one makes what it already holds
(42_fixed_tables.md R152). -/
def State.setArena (s : State) (t : TreeId) (a : Arena) : State :=
  match t with
  | .clt => { s with clt := a }
  | .llt => { s with llt := a }
  | .dt => { s with dt := a }
  | .fllt => s
  | .fdt => s

/-- The table each tree is built from (41_huffman.md R130). A HUF_BUILD on the port before this session has filled the table
takes what `cl_lens`, `len_table`, `hlit` and `hdist` hold since reset or an earlier session: the table of LLT or DT may then
have no entry at all, where R130 asks for one, and a run past `len_table[315]` is cut short there (assumption 28). -/
def State.buildTable (s : State) : TreeId → List Nat
  | .clt => s.clLens.map BitVec.toNat
  | .llt => (s.lenTable.take s.hlit).map BitVec.toNat
  | .dt => ((s.lenTable.drop s.hlit).take s.hdist).map BitVec.toNat
  | .fllt => fixedLLLens s.params.fixedLong
  | .fdt => fixedDLens

/-- A build the contract excludes: more than 288 entries, or more nodes than the arena holds (41_huffman.md R141). An entry
above 15 cannot stand in a table of 3-bit or 4-bit registers. An empty table, which R130 excludes and R141 does not list,
is built, to the root alone (assumption 28). -/
def buildOutOfContract (s : State) (t : TreeId) : Bool :=
  decide (Config.llAlphabet < (s.buildTable t).length) ||
    decide (arenaCapacity s.params t < (buildTree (s.buildTable t)).arena.length)

/-- What a build writes: its arena and the scratch registers, and nothing else (41_huffman.md R142). -/
def State.afterBuild (s : State) (t : TreeId) : State :=
  { s.setArena t (buildTree (s.buildTable t)).arena with
    blCount := (buildTree (s.buildTable t)).blCount
    nextCode := (buildTree (s.buildTable t)).nextCode }

/-- HUF_BUILD(T) from the table of R130 (41_huffman.md R131, R141, R142). A build that raises has had no effect
(60_exceptions.md R235; assumption 3). -/
def hufBuild (t : TreeId) (s : State) : Res Unit :=
  if buildOutOfContract s t then .refused .buildOutOfContract
  else
    match (buildTree (s.buildTable t)).error with
    | none => .ok () (s.afterBuild t)
    | some c => .raised c s

/-! ## HUF_LOOKUP -/

/-- The walk of HUF_LOOKUP from `node` on with `n` bits left: each level consumes one bit (41_huffman.md R138). -/
def hufWalk (a : Arena) : Nat → Nat → State → Res Nat
  | 0, node, s =>
    if (a.nodeAt node).isLeaf then .ok (a.nodeAt node).sym s else .raised .inExhausted s
  | n + 1, node, s =>
    if (a.nodeAt node).isLeaf then .ok (a.nodeAt node).sym s
    else
      (bcConsumeBit s).bind fun b s =>
        match (a.nodeAt node).child b with
        | none => .raised .invalidCode s
        | some k => hufWalk a n k s

/-- The symbol HUF_LOOKUP(T) decodes, with its code consumed (41_huffman.md R138). The arena is walked as it stands: where
no build of this session has made CLT, LLT or DT, which only a command on the port can meet, it is what reset or an earlier
session has left (assumption 28). -/
def hufDecode (t : TreeId) (s : State) : Res Nat := hufWalk (s.arena t) s.bitsRemaining 0 s

/-- HUF_LOOKUP(T): decode one symbol, which `sym` then holds (41_huffman.md R138, 10_state.md R36; assumption 20). R138 asks
for a built arena and says nothing of another; a command on the port before this session has built its arena walks what the
arena still holds (assumption 28). -/
def hufLookup (t : TreeId) (s : State) : Res Nat :=
  (hufDecode t s).bind fun v s => .ok v { s with sym := v }

/-- The element of the decoded symbol `sym`: its writes, `sym` among them (10_state.md R36; assumption 20), take effect
together (60_exceptions.md R235). -/
def symbolElement (sym : Nat) (op : State → Res Unit) (s : State) : Res Unit :=
  ((op s).bind fun _ s => .ok () { s with sym := sym }).atomic s

end Sys2Proof.Machine
end

