-- ==== Sys2Proof/Machine/Operands.lean ====
section
/-! DEFINITION. Operands: how a fetched element's bits become the number of its word, and how an operand's value is
assembled from its field (30_encoding.md R92). -/

namespace Sys2Proof.Machine

/-- `HLIT = HLIT_F + 257` (30_encoding.md R84, R92). -/
def hlitOf (f : BitVec 5) : Nat := f.toNat + 257

/-- `HDIST = HDIST_F + 1` (30_encoding.md R84, R92). -/
def hdistOf (f : BitVec 5) : Nat := f.toNat + 1

/-- `HCLEN = HCLEN_F + 4` (30_encoding.md R84, R92). -/
def hclenOf (f : BitVec 4) : Nat := f.toNat + 4

/-- `rep16 = 3 + e2` (30_encoding.md R86, R92). -/
def rep16Of (e : BitVec 2) : Nat := 3 + e.toNat

/-- `rep17 = 3 + e3` (30_encoding.md R86, R92). -/
def rep17Of (e : BitVec 3) : Nat := 3 + e.toNat

/-- `rep18 = 11 + e7` (30_encoding.md R86, R92). -/
def rep18Of (e : BitVec 7) : Nat := 11 + e.toNat

/-- `length = LEN_BASE[s-257] + e` (30_encoding.md R92). -/
def lengthOf (sym e : Nat) : Nat := lenBase sym + e

/-- `distance = DIST_BASE[d] + e` (30_encoding.md R92). -/
def distanceOf (d e : Nat) : Nat := distBase d + e

/-- The `n` bits of a field that begins at bit address `p`, a bit past the end of the input counting as 0. Such a bit is
never used: the meaning's own bound check raises first (40_bit_cursor.md R120; assumption 13), and no byte at or above
`in_len` is read (20_memory.md R60). -/
def State.fieldBits (s : State) (p : Nat) : Nat → Nat
  | 0 => 0
  | n + 1 => (if p < 8 * s.inLen then (s.inBit p).toNat else 0) + 2 * State.fieldBits s (p + 1) n

/-- The `n` bits at the cursor, as `State.fieldBits` reads them. -/
def State.nextField (s : State) (n : Nat) : Nat := s.fieldBits s.cursorPos n

/-- The header word, CMF in bits 15:8 and FLG in bits 7:0 (30_encoding.md R81, 20_memory.md R65); 0 when the input is too
short to hold it, which the meaning reports before it uses a byte (45_stream.md R210). -/
def State.headerWord (s : State) : Nat :=
  if s.inLen < 2 then 0 else (s.inByte 0).toNat * 256 + (s.inByte 1).toNat

end Sys2Proof.Machine
end

