-- ==== Sys2Proof/Machine/Body.lean ====
section
/-! DEFINITION. The meanings of the block body's elements (44_block_body.md R190 to R200). The symbol itself has been
decoded, and the cursor is behind its code (Machine/Fetch.lean). -/

namespace Sys2Proof.Machine

/-! ## Literals and the end of the block -/

/-- LIT (44_block_body.md R190). -/
def execLit (byte : BitVec 8) (s : State) : Host.Outcome State Fault Refusal :=
  (symbolElement byte.toNat (outAppend byte) s).toOutcome

/-- The block has ended: the session is DONE after the final block, and the next block header is read after another one
(44_block_body.md R191, 45_stream.md R214, R215). -/
def State.endBlock (s : State) : State :=
  { s with phase := if s.bfinal then .done else .bhdr, seq := .head }

/-- EOB (44_block_body.md R191). -/
def execEob (s : State) : Host.Outcome State Fault Refusal :=
  (symbolElement 256 (fun s => .ok () s.endBlock) s).toOutcome

/-! ## Length symbols -/

/-- A length symbol with extra bits `e`: `cur_len`, and a distance symbol next (44_block_body.md R192). -/
def lengthSymbol (sym e : Nat) (s : State) : Res Unit :=
  symbolElement sym (fun s => (bcSkip (lenExtra sym) s).bind fun _ s =>
    .ok () { s with extra := e, curLen := lengthOf sym e, seq := .dist }) s

/-- LEN_257 (44_block_body.md R192). -/
def execLen257 (s : State) : Host.Outcome State Fault Refusal := (lengthSymbol 257 0 s).toOutcome

/-- LEN_258 (44_block_body.md R192). -/
def execLen258 (s : State) : Host.Outcome State Fault Refusal := (lengthSymbol 258 0 s).toOutcome

/-- LEN_259 (44_block_body.md R192). -/
def execLen259 (s : State) : Host.Outcome State Fault Refusal := (lengthSymbol 259 0 s).toOutcome

/-- LEN_260 (44_block_body.md R192). -/
def execLen260 (s : State) : Host.Outcome State Fault Refusal := (lengthSymbol 260 0 s).toOutcome

/-- LEN_261 (44_block_body.md R192). -/
def execLen261 (s : State) : Host.Outcome State Fault Refusal := (lengthSymbol 261 0 s).toOutcome

/-- LEN_262 (44_block_body.md R192). -/
def execLen262 (s : State) : Host.Outcome State Fault Refusal := (lengthSymbol 262 0 s).toOutcome

/-- LEN_263 (44_block_body.md R192). -/
def execLen263 (s : State) : Host.Outcome State Fault Refusal := (lengthSymbol 263 0 s).toOutcome

/-- LEN_264 (44_block_body.md R192). -/
def execLen264 (s : State) : Host.Outcome State Fault Refusal := (lengthSymbol 264 0 s).toOutcome

/-- LEN_265 (44_block_body.md R192). -/
def execLen265 (e : BitVec 1) (s : State) : Host.Outcome State Fault Refusal := (lengthSymbol 265 e.toNat s).toOutcome

/-- LEN_266 (44_block_body.md R192). -/
def execLen266 (e : BitVec 1) (s : State) : Host.Outcome State Fault Refusal := (lengthSymbol 266 e.toNat s).toOutcome

/-- LEN_267 (44_block_body.md R192). -/
def execLen267 (e : BitVec 1) (s : State) : Host.Outcome State Fault Refusal := (lengthSymbol 267 e.toNat s).toOutcome

/-- LEN_268 (44_block_body.md R192). -/
def execLen268 (e : BitVec 1) (s : State) : Host.Outcome State Fault Refusal := (lengthSymbol 268 e.toNat s).toOutcome

/-- LEN_269 (44_block_body.md R192). -/
def execLen269 (e : BitVec 2) (s : State) : Host.Outcome State Fault Refusal := (lengthSymbol 269 e.toNat s).toOutcome

/-- LEN_270 (44_block_body.md R192). -/
def execLen270 (e : BitVec 2) (s : State) : Host.Outcome State Fault Refusal := (lengthSymbol 270 e.toNat s).toOutcome

/-- LEN_271 (44_block_body.md R192). -/
def execLen271 (e : BitVec 2) (s : State) : Host.Outcome State Fault Refusal := (lengthSymbol 271 e.toNat s).toOutcome

/-- LEN_272 (44_block_body.md R192). -/
def execLen272 (e : BitVec 2) (s : State) : Host.Outcome State Fault Refusal := (lengthSymbol 272 e.toNat s).toOutcome

/-- LEN_273 (44_block_body.md R192). -/
def execLen273 (e : BitVec 3) (s : State) : Host.Outcome State Fault Refusal := (lengthSymbol 273 e.toNat s).toOutcome

/-- LEN_274 (44_block_body.md R192). -/
def execLen274 (e : BitVec 3) (s : State) : Host.Outcome State Fault Refusal := (lengthSymbol 274 e.toNat s).toOutcome

/-- LEN_275 (44_block_body.md R192). -/
def execLen275 (e : BitVec 3) (s : State) : Host.Outcome State Fault Refusal := (lengthSymbol 275 e.toNat s).toOutcome

/-- LEN_276 (44_block_body.md R192). -/
def execLen276 (e : BitVec 3) (s : State) : Host.Outcome State Fault Refusal := (lengthSymbol 276 e.toNat s).toOutcome

/-- LEN_277 (44_block_body.md R192). -/
def execLen277 (e : BitVec 4) (s : State) : Host.Outcome State Fault Refusal := (lengthSymbol 277 e.toNat s).toOutcome

/-- LEN_278 (44_block_body.md R192). -/
def execLen278 (e : BitVec 4) (s : State) : Host.Outcome State Fault Refusal := (lengthSymbol 278 e.toNat s).toOutcome

/-- LEN_279 (44_block_body.md R192). -/
def execLen279 (e : BitVec 4) (s : State) : Host.Outcome State Fault Refusal := (lengthSymbol 279 e.toNat s).toOutcome

/-- LEN_280 (44_block_body.md R192). -/
def execLen280 (e : BitVec 4) (s : State) : Host.Outcome State Fault Refusal := (lengthSymbol 280 e.toNat s).toOutcome

/-- LEN_281 (44_block_body.md R192). -/
def execLen281 (e : BitVec 5) (s : State) : Host.Outcome State Fault Refusal := (lengthSymbol 281 e.toNat s).toOutcome

/-- LEN_282 (44_block_body.md R192). -/
def execLen282 (e : BitVec 5) (s : State) : Host.Outcome State Fault Refusal := (lengthSymbol 282 e.toNat s).toOutcome

/-- LEN_283 (44_block_body.md R192). -/
def execLen283 (e : BitVec 5) (s : State) : Host.Outcome State Fault Refusal := (lengthSymbol 283 e.toNat s).toOutcome

/-- LEN_284 (44_block_body.md R192). -/
def execLen284 (e : BitVec 5) (s : State) : Host.Outcome State Fault Refusal := (lengthSymbol 284 e.toNat s).toOutcome

/-- LEN_285 (44_block_body.md R192). -/
def execLen285 (s : State) : Host.Outcome State Fault Refusal := (lengthSymbol 285 0 s).toOutcome

/-! ## Reserved literal/length symbols -/

/-- A reserved literal/length symbol raises before anything further is read (44_block_body.md R196). -/
def llReserved (s : State) : Res Unit := .raised .llSymbolReserved s

/-- LL_RSV_286 (44_block_body.md R196). -/
def execLlRsv286 (s : State) : Host.Outcome State Fault Refusal := (llReserved s).toOutcome

/-- LL_RSV_287 (44_block_body.md R196). -/
def execLlRsv287 (s : State) : Host.Outcome State Fault Refusal := (llReserved s).toOutcome

/-! ## Distance symbols -/

/-- A distance symbol with extra bits `e`: `cur_dist`, then the copy, then the next literal/length symbol
(44_block_body.md R193, R195). -/
def distanceSymbol (d e : Nat) (s : State) : Res Unit :=
  symbolElement d (fun s => (bcSkip (distExtra d) s).bind fun _ s =>
    (copyBackref { s with extra := e, curDist := distanceOf d e }).bind fun _ s => .ok () { s with seq := .ll }) s

/-- DIST_0 (44_block_body.md R193). -/
def execDist0 (s : State) : Host.Outcome State Fault Refusal := (distanceSymbol 0 0 s).toOutcome

/-- DIST_1 (44_block_body.md R193). -/
def execDist1 (s : State) : Host.Outcome State Fault Refusal := (distanceSymbol 1 0 s).toOutcome

/-- DIST_2 (44_block_body.md R193). -/
def execDist2 (s : State) : Host.Outcome State Fault Refusal := (distanceSymbol 2 0 s).toOutcome

/-- DIST_3 (44_block_body.md R193). -/
def execDist3 (s : State) : Host.Outcome State Fault Refusal := (distanceSymbol 3 0 s).toOutcome

/-- DIST_4 (44_block_body.md R193). -/
def execDist4 (e : BitVec 1) (s : State) : Host.Outcome State Fault Refusal := (distanceSymbol 4 e.toNat s).toOutcome

/-- DIST_5 (44_block_body.md R193). -/
def execDist5 (e : BitVec 1) (s : State) : Host.Outcome State Fault Refusal := (distanceSymbol 5 e.toNat s).toOutcome

/-- DIST_6 (44_block_body.md R193). -/
def execDist6 (e : BitVec 2) (s : State) : Host.Outcome State Fault Refusal := (distanceSymbol 6 e.toNat s).toOutcome

/-- DIST_7 (44_block_body.md R193). -/
def execDist7 (e : BitVec 2) (s : State) : Host.Outcome State Fault Refusal := (distanceSymbol 7 e.toNat s).toOutcome

/-- DIST_8 (44_block_body.md R193). -/
def execDist8 (e : BitVec 3) (s : State) : Host.Outcome State Fault Refusal := (distanceSymbol 8 e.toNat s).toOutcome

/-- DIST_9 (44_block_body.md R193). -/
def execDist9 (e : BitVec 3) (s : State) : Host.Outcome State Fault Refusal := (distanceSymbol 9 e.toNat s).toOutcome

/-- DIST_10 (44_block_body.md R193). -/
def execDist10 (e : BitVec 4) (s : State) : Host.Outcome State Fault Refusal := (distanceSymbol 10 e.toNat s).toOutcome

/-- DIST_11 (44_block_body.md R193). -/
def execDist11 (e : BitVec 4) (s : State) : Host.Outcome State Fault Refusal := (distanceSymbol 11 e.toNat s).toOutcome

/-- DIST_12 (44_block_body.md R193). -/
def execDist12 (e : BitVec 5) (s : State) : Host.Outcome State Fault Refusal := (distanceSymbol 12 e.toNat s).toOutcome

/-- DIST_13 (44_block_body.md R193). -/
def execDist13 (e : BitVec 5) (s : State) : Host.Outcome State Fault Refusal := (distanceSymbol 13 e.toNat s).toOutcome

/-- DIST_14 (44_block_body.md R193). -/
def execDist14 (e : BitVec 6) (s : State) : Host.Outcome State Fault Refusal := (distanceSymbol 14 e.toNat s).toOutcome

/-- DIST_15 (44_block_body.md R193). -/
def execDist15 (e : BitVec 6) (s : State) : Host.Outcome State Fault Refusal := (distanceSymbol 15 e.toNat s).toOutcome

/-- DIST_16 (44_block_body.md R193). -/
def execDist16 (e : BitVec 7) (s : State) : Host.Outcome State Fault Refusal := (distanceSymbol 16 e.toNat s).toOutcome

/-- DIST_17 (44_block_body.md R193). -/
def execDist17 (e : BitVec 7) (s : State) : Host.Outcome State Fault Refusal := (distanceSymbol 17 e.toNat s).toOutcome

/-- DIST_18 (44_block_body.md R193). -/
def execDist18 (e : BitVec 8) (s : State) : Host.Outcome State Fault Refusal := (distanceSymbol 18 e.toNat s).toOutcome

/-- DIST_19 (44_block_body.md R193). -/
def execDist19 (e : BitVec 8) (s : State) : Host.Outcome State Fault Refusal := (distanceSymbol 19 e.toNat s).toOutcome

/-- DIST_20 (44_block_body.md R193). -/
def execDist20 (e : BitVec 9) (s : State) : Host.Outcome State Fault Refusal := (distanceSymbol 20 e.toNat s).toOutcome

/-- DIST_21 (44_block_body.md R193). -/
def execDist21 (e : BitVec 9) (s : State) : Host.Outcome State Fault Refusal := (distanceSymbol 21 e.toNat s).toOutcome

/-- DIST_22 (44_block_body.md R193). -/
def execDist22 (e : BitVec 10) (s : State) : Host.Outcome State Fault Refusal := (distanceSymbol 22 e.toNat s).toOutcome

/-- DIST_23 (44_block_body.md R193). -/
def execDist23 (e : BitVec 10) (s : State) : Host.Outcome State Fault Refusal := (distanceSymbol 23 e.toNat s).toOutcome

/-- DIST_24 (44_block_body.md R193). -/
def execDist24 (e : BitVec 11) (s : State) : Host.Outcome State Fault Refusal := (distanceSymbol 24 e.toNat s).toOutcome

/-- DIST_25 (44_block_body.md R193). -/
def execDist25 (e : BitVec 11) (s : State) : Host.Outcome State Fault Refusal := (distanceSymbol 25 e.toNat s).toOutcome

/-- DIST_26 (44_block_body.md R193). -/
def execDist26 (e : BitVec 12) (s : State) : Host.Outcome State Fault Refusal := (distanceSymbol 26 e.toNat s).toOutcome

/-- DIST_27 (44_block_body.md R193). -/
def execDist27 (e : BitVec 12) (s : State) : Host.Outcome State Fault Refusal := (distanceSymbol 27 e.toNat s).toOutcome

/-- DIST_28 (44_block_body.md R193). -/
def execDist28 (e : BitVec 13) (s : State) : Host.Outcome State Fault Refusal := (distanceSymbol 28 e.toNat s).toOutcome

/-- DIST_29 (44_block_body.md R193). -/
def execDist29 (e : BitVec 13) (s : State) : Host.Outcome State Fault Refusal := (distanceSymbol 29 e.toNat s).toOutcome

/-! ## Reserved distance symbols -/

/-- A reserved distance symbol raises right after the lookup (44_block_body.md R194). -/
def distReserved (s : State) : Res Unit := .raised .distSymbolReserved s

/-- DIST_RSV_30 (44_block_body.md R194). -/
def execDistRsv30 (s : State) : Host.Outcome State Fault Refusal := (distReserved s).toOutcome

/-- DIST_RSV_31 (44_block_body.md R194). -/
def execDistRsv31 (s : State) : Host.Outcome State Fault Refusal := (distReserved s).toOutcome

end Sys2Proof.Machine
end

