-- ==== Sys2Proof/Machine/Commands.lean ====
section
/-! DEFINITION. The meanings of the internal commands (30_encoding.md R97) and of the host command CMD_START. A bit-cursor
command returns its value on its port, `bcData` (assumption 12); HUF_LOOKUP returns it in `sym`. -/

namespace Sys2Proof.Machine

/-- The value a bit-cursor command returns (assumption 12). -/
def State.returnBits (s : State) (v : Nat) : State := { s with bcData := BitVec.ofNat 64 v }

/-- BC_PEEK(n) (40_bit_cursor.md R121); n > 64 is refused (R126). -/
def execBcPeek (n : BitVec 7) (s : State) : Host.Outcome State Fault Refusal :=
  if bcWidthOk n then ((bcPeek n.toNat s).bind fun v s => .ok () (s.returnBits v)).toOutcome
  else .refused .bcWidthOver64

/-- BC_CONSUME(n) (40_bit_cursor.md R122); n > 64 is refused (R126). -/
def execBcConsume (n : BitVec 7) (s : State) : Host.Outcome State Fault Refusal :=
  if bcWidthOk n then ((bcConsume n.toNat s).bind fun v s => .ok () (s.returnBits v)).toOutcome
  else .refused .bcWidthOver64

/-- BC_CONSUME_BIT (40_bit_cursor.md R124); its field is ignored (30_encoding.md R97). -/
def execBcConsumeBit (_n : BitVec 7) (s : State) : Host.Outcome State Fault Refusal :=
  ((bcConsumeBit s).bind fun b s => .ok () (s.returnBits b.toNat)).toOutcome

/-- BC_BYTE_ALIGN (40_bit_cursor.md R125); its field is ignored (30_encoding.md R97). -/
def execBcByteAlign (_n : BitVec 7) (s : State) : Host.Outcome State Fault Refusal :=
  .next (bcByteAlign s)

/-- HUF_BUILD(T) (41_huffman.md R131). -/
def execHufBuild (tree : TreeId) (s : State) : Host.Outcome State Fault Refusal :=
  (hufBuild tree s).toOutcome

/-- HUF_LOOKUP(T) (41_huffman.md R138). -/
def execHufLookup (tree : TreeId) (s : State) : Host.Outcome State Fault Refusal :=
  ((hufLookup tree s).bind fun _ s => .ok () s).toOutcome

/-- CMD_START: a START while BUSY is ignored (10_state.md R21), any other starts a session (45_stream.md R214). -/
def execCmdStart (_reserved : BitVec 31) (s : State) : Host.Outcome State Fault Refusal :=
  if s.status = .busy then .next s else .next s.startSession

end Sys2Proof.Machine
end

