-- ==== Sys2Proof/Machine/Header.lean ====
section
/-! DEFINITION. The meanings of the header elements: ZLIB_HEADER (45_stream.md R210), the block headers
(43_block_header.md R165, R166, 45_stream.md R213), the dynamic header and the code-length sequence (43_block_header.md
R167 to R178). -/

namespace Sys2Proof.Machine

/-! ## ZLIB_HEADER -/

/-- READ_ZLIB_HEADER and, after it, the cursor over the remaining bytes (45_stream.md R210, R211, R212). -/
def zlibHeader (cmf flg : BitVec 8) (s : State) : Res Unit :=
  if s.inLen < 2 then .raised .hdrShort s
  else
    let s := s.setZlibHdr cmf flg
    if headerChecksumOk cmf flg then
      if s.fdict && s.params.fdictPolicy == .reject then .raised .presetDict s
      else .ok () { s with curByte := 2, curBit := 0, phase := .bhdr, seq := .head }
    else .raised .hdrFcheck s

/-- ZLIB_HEADER (45_stream.md R210). -/
def execZlibHeader (cmf flg : BitVec 8) (s : State) : Host.Outcome State Fault Refusal :=
  ((zlibHeader cmf flg s).atomic s).toOutcome

/-! ## The block headers -/

/-- The two reads of a block header and the registers they write (43_block_header.md R165). -/
def readBlockHeader (bfinal : Bool) (btype : BitVec 2) (s : State) : Res Unit :=
  (bcSkip 1 s).bind fun _ s =>
    (bcSkip 2 { s with bfinal := bfinal }).bind fun _ s =>
      .ok () ({ s with btype := btype }.setBlock bfinal btype)

/-- The sequencer enters the block body with the tree pair `ll`, `d` (43_block_header.md R165). -/
def State.enterBody (s : State) (ll d : TreeId) : State :=
  { s with llSel := ll, dSel := d, phase := .body, seq := .ll }

/-- A block header and what its type then does, `op`: their writes take effect together (43_block_header.md R165,
60_exceptions.md R235). -/
def blockHeader (bfinal : Bool) (btype : BitVec 2) (op : State → Res Unit) (s : State) : Res Unit :=
  ((readBlockHeader bfinal btype s).bind fun _ s => op s).atomic s

/-- BLOCK_STORED (45_stream.md R213). -/
def execBlockStored (bfinal : Bool) (s : State) : Host.Outcome State Fault Refusal :=
  (blockHeader bfinal 0 (fun s => .raised .storedBlock s) s).toOutcome

/-- BLOCK_FIXED (43_block_header.md R166). -/
def execBlockFixed (bfinal : Bool) (s : State) : Host.Outcome State Fault Refusal :=
  (blockHeader bfinal 1 (fun s => .ok () (s.enterBody .fllt .fdt)) s).toOutcome

/-- BLOCK_DYNAMIC: the dynamic tables come next (43_block_header.md R167). -/
def execBlockDynamic (bfinal : Bool) (s : State) : Host.Outcome State Fault Refusal :=
  (blockHeader bfinal 2 (fun s => .ok () { s with phase := .dynhdr, seq := .head }) s).toOutcome

/-- BLOCK_RESERVED (43_block_header.md R166). -/
def execBlockReserved (bfinal : Bool) (s : State) : Host.Outcome State Fault Refusal :=
  (blockHeader bfinal 3 (fun s => .raised .btypeReserved s) s).toOutcome

/-! ## The dynamic header -/

/-- The three counts, each checked as soon as it is read (43_block_header.md R168). -/
def readDynHeader (hlitF hdistF : BitVec 5) (hclenF : BitVec 4) (s : State) : Res Unit :=
  (bcSkip 5 s).bind fun _ s =>
    let s := { s with hlit := hlitOf hlitF }
    if Config.hlitMax < s.hlit then .raised .hlitRange s
    else
      (bcSkip 5 s).bind fun _ s =>
        let s := { s with hdist := hdistOf hdistF }
        if Config.hdistMax < s.hdist then .raised .hdistRange s
        else (bcSkip 4 s).bind fun _ s => .ok () { s with hclen := hclenOf hclenF }

/-- Every `cl_lens` entry is 0 before the code-length code lengths are read (10_state.md R30, 43_block_header.md R169). -/
def State.enterClcl (s : State) : State :=
  { s with clLens := List.replicate 19 0, clclIdx := 0, seq := .clcl }

/-- DYN_HEADER (43_block_header.md R168). -/
def execDynHeader (hlitF hdistF : BitVec 5) (hclenF : BitVec 4) (s : State) : Host.Outcome State Fault Refusal :=
  (((readDynHeader hlitF hdistF hclenF s).bind fun _ s => .ok () s.enterClcl).atomic s).toOutcome

/-- `cl_lens[CL_ORDER[k]] <- len` for the field number k, and the next field (43_block_header.md R169). -/
def State.putClLen (s : State) (len : BitVec 3) : State :=
  { s with
    clLens := match clOrder[s.clclIdx]? with
      | some j => List.set s.clLens j len
      | none => s.clLens
    clclIdx := s.clclIdx + 1 }

/-- The start of the code-length sequence (43_block_header.md R170). -/
def State.enterClsym (s : State) : State :=
  { s with lenIdx := 0, prevLen := none, seq := .clsym }

/-- After the last field the CL tree is built and the sequence starts (43_block_header.md R169, R170). The field before it is
an element of its own, which has had its effect when the build raises (60_exceptions.md R235; assumption 3). -/
def clclNext (s : State) : Res Unit :=
  if s.clclIdx < s.hclen then .ok () s
  else (hufBuild .clt s).bind fun _ s => .ok () s.enterClsym

/-- CLCL_FIELD (43_block_header.md R169). -/
def execClclField (len : BitVec 3) (s : State) : Host.Outcome State Fault Refusal :=
  ((bcSkip 3 s).bind fun _ s => clclNext (s.putClLen len)).toOutcome

/-! ## The code-length sequence -/

/-- Split and build, and the dynamic trees selected for the body (43_block_header.md R175, R165). The split is an element of
its own (60_exceptions.md R234): where it raises neither tree is written, and the symbol before it has had its effect (R235;
assumption 3). -/
def splitAndBuild (s : State) : Res Unit :=
  ((hufBuild .llt s).bind fun _ s =>
    (hufBuild .dt s).bind fun _ s => .ok () (s.enterBody .llt .dt)).atomic s

/-- The loop's condition: the sequence goes on until `hlit + hdist` entries are filled (43_block_header.md R170). -/
def clsymNext (s : State) : Res Unit :=
  if s.lenIdx < s.hlit + s.hdist then .ok () s else splitAndBuild s

/-- `n` entries of the value `v` from index `i` on. -/
def fillEntries (v : BitVec 4) : Nat → Nat → List (BitVec 4) → List (BitVec 4)
  | 0, _, t => t
  | n + 1, i, t => fillEntries v n (i + 1) (List.set t i v)

/-- The next `n` table entries get the value `v` (43_block_header.md R171 to R174). -/
def State.putLens (s : State) (v : BitVec 4) (n : Nat) : State :=
  { s with lenTable := fillEntries v n s.lenIdx s.lenTable, lenIdx := s.lenIdx + n }

/-- A run of `rep` entries of the value `v`, after the overrun check (43_block_header.md R172 to R174). -/
def putRun (v : BitVec 4) (rep : Nat) (s : State) : Res Unit :=
  let s := { s with rep := rep }
  if s.hlit + s.hdist < s.lenIdx + rep then .raised .repeatOverrun s else .ok () (s.putLens v rep)

/-- A zero run: it resets the previous length to 0 (43_block_header.md R173, R174). -/
def putZeroRun (rep : Nat) (s : State) : Res Unit :=
  (putRun 0 rep s).bind fun _ s => .ok () { s with prevLen := some 0 }

/-- The element of a code-length symbol, and then the loop's condition (43_block_header.md R170). -/
def clSymbol (sym : Nat) (op : State → Res Unit) (s : State) : Res Unit :=
  (symbolElement sym op s).bind fun _ s => clsymNext s

/-- CL_LEN (43_block_header.md R171). -/
def execClLen (sym : BitVec 4) (s : State) : Host.Outcome State Fault Refusal :=
  (clSymbol sym.toNat (fun s => .ok () { s.putLens sym 1 with prevLen := some sym }) s).toOutcome

/-- The work of CL_REP16 (43_block_header.md R172). -/
def repeatPrev (e : BitVec 2) (s : State) : Res Unit :=
  match s.prevLen with
  | none => .raised .repeatNoPrev s
  | some v => (bcSkip 2 s).bind fun _ s => putRun v (rep16Of e) s

/-- CL_REP16 (43_block_header.md R172). -/
def execClRep16 (e : BitVec 2) (s : State) : Host.Outcome State Fault Refusal :=
  (clSymbol 16 (repeatPrev e) s).toOutcome

/-- CL_ZERO17 (43_block_header.md R173). -/
def execClZero17 (e : BitVec 3) (s : State) : Host.Outcome State Fault Refusal :=
  (clSymbol 17 (fun s => (bcSkip 3 s).bind fun _ s => putZeroRun (rep17Of e) s) s).toOutcome

/-- CL_ZERO18 (43_block_header.md R174). -/
def execClZero18 (e : BitVec 7) (s : State) : Host.Outcome State Fault Refusal :=
  (clSymbol 18 (fun s => (bcSkip 7 s).bind fun _ s => putZeroRun (rep18Of e) s) s).toOutcome

end Sys2Proof.Machine
end

