-- ==== Sys2Proof/Machine/HostPort.lean ====
section
/-! DEFINITION. The host interface: the register window (10_state.md R20), the host actions of 45_stream.md R220, and the
internal command ports (30_encoding.md R97). -/

namespace Sys2Proof.Machine

/-- The eight host registers (10_state.md R20). -/
inductive HostReg where
  | ctrl
  | status
  | error
  | inLen
  | outLen
  | zlibHdr
  | block
  | cursor
  deriving DecidableEq, Repr

/-- The register at an offset of the window (10_state.md R20). -/
def hostRegAt : Nat → Option HostReg
  | 0x00 => some .ctrl
  | 0x04 => some .status
  | 0x08 => some .error
  | 0x0C => some .inLen
  | 0x10 => some .outLen
  | 0x14 => some .zlibHdr
  | 0x18 => some .block
  | 0x1C => some .cursor
  | _ => none

/-- What a register shows when its contents are defined (10_state.md R20 to R28). -/
def State.shownWord (s : State) : HostReg → Word
  | .ctrl => 0
  | .status => s.statusWord
  | .error => s.errorWord
  | .inLen => s.inLenReg
  | .outLen => s.outLenWord
  | .zlibHdr => s.zlibHdrWord
  | .block => s.blockWord
  | .cursor => s.cursorWord

/-- Whether a register's contents are defined: while BUSY only STATUS (10_state.md R45), after ERROR only STATUS and ERROR
(60_exceptions.md R236, 45_stream.md R221), and CTRL, which holds nothing and reads 0 (10_state.md R21; assumption 18). -/
def State.isDefined (s : State) (r : HostReg) : Bool :=
  match s.status with
  | .idle => true
  | .done => true
  | .busy => r == .status
  | .error => r == .status || r == .error || r == .ctrl

/-- The word a host read of register `r` returns: a free value where the spec leaves it open (assumptions 2, 3). All its 32
bits are then free, the reserved ones too, which 10_state.md R20 has read 0: the model takes R45 and 60_exceptions.md R236
to leave the whole word open (assumption 18). -/
def State.readWord (s : State) (r : HostReg) : Word :=
  if s.isDefined r then s.shownWord r else Config.freeWord s.draws

/-- A host read of a register. -/
def State.hostReadReg (s : State) (r : HostReg) : State :=
  { s with regData := s.readWord r, draws := s.draws + 1 }

/-- The byte of OUT where the last session leaves it open: the host's, if it has written it since that session started, else
a free value, the same at every read (20_memory.md R66, R69, 60_exceptions.md R236; assumption 2). -/
def State.leftOutByte (s : State) (a : Nat) : Byte := (Memory.read s.hostOut a).getD (Config.outUndefined s.sessions a)

/-- The byte a host read of OUT returns: what OUT holds while IDLE, the result after DONE (45_stream.md R215), a free value
drawn anew while BUSY (10_state.md R45), and what the session leaves open elsewhere (assumptions 2, 3). -/
def State.readOutByte (s : State) (a : Nat) : Byte :=
  match s.status with
  | .idle => s.outByte a
  | .busy => Config.freeByte s.draws
  | .done => if a < s.outLen then s.outByte a else s.leftOutByte a
  | .error => s.leftOutByte a

/-- A host read of OUT. -/
def State.hostReadOut (s : State) (a : Nat) : State :=
  { s with outData := s.readOutByte a, draws := s.draws + 1 }

/-- A host write of IN_LEN: ignored while BUSY, refused above IN_LEN_MAX (10_state.md R24). -/
def hostWriteInLen (v : Word) (s : State) : Host.Outcome State Fault Refusal :=
  if s.status = .busy then .next s
  else if s.params.inLenMax < v.toNat then .refused .inLenAboveMax
  else .next { s with inLenReg := v }

/-- A host write of CTRL: START = 1 is the command CMD_START, START = 0 does nothing (10_state.md R21). -/
def hostWriteCtrl (v : Word) (s : State) : Host.Outcome State Fault Refusal :=
  match decode .ctrl v.toNat with
  | .ok i => exec i s
  | .error _ => .next s

/-- A host write of a register; a write to a read-only one is ignored (10_state.md R20). -/
def hostWriteReg (r : HostReg) (v : Word) (s : State) : Host.Outcome State Fault Refusal :=
  match r with
  | .ctrl => hostWriteCtrl v s
  | .inLen => hostWriteInLen v s
  | .status => .next s
  | .error => .next s
  | .outLen => .next s
  | .zlibHdr => .next s
  | .block => .next s
  | .cursor => .next s

/-- A host write of IN: no move while BUSY (20_memory.md R74, 45_stream.md R220). -/
def hostWriteIn (a : Nat) (b : Byte) (s : State) : Host.Outcome State Fault Refusal :=
  if s.status = .busy then .fault .hostWroteInWhileBusy else .next (s.writeIn a b)

/-- A host write of OUT: allowed only when not BUSY (45_stream.md R220). 20_memory.md R73 calls the engine the only writer of
OUT; the model follows R220's table, so a byte the host writes below OUT_LEN after DONE is read back in place of the
result's (assumption 27). -/
def hostWriteOut (a : Nat) (b : Byte) (s : State) : Host.Outcome State Fault Refusal :=
  if s.status = .busy then .fault .hostWroteOutWhileBusy else .next (s.writeHostOut a b)

/-- The format of a port's command words (30_encoding.md R97). -/
def CommandPort.format : CommandPort → Format
  | .bitCursor => .bccmd
  | .huffman => .hufcmd

/-- A command word on an internal port (30_encoding.md R97). Commands come from the sequencer, which issues none while the
block is not BUSY (assumption 12). -/
def runCommand (port : CommandPort) (w : Nat) (s : State) : Host.Outcome State Fault Refusal :=
  if s.status = .busy then
    match decode port.format w with
    | .ok i => exec i s
    | .error e => .refused (.undecodable e)
  else .refused .commandWhileNotBusy

end Sys2Proof.Machine
end

