-- ==== Sys2Proof/Machine/Fetch.lean ====
section
/-! DEFINITION. Fetching the next stream element (30_encoding.md R80), the engine's turn, and where an instruction is put
so that the next step fetches it. -/

namespace Sys2Proof.Machine

/-- The stream elements the sequencer reads (30_encoding.md R80). -/
inductive Slot where
  | zhdr
  | bhdr
  | dynhdr
  | clcl
  | clsym
  | llsym
  | dsym
  deriving DecidableEq, Repr

/-- The element the sequencer reads next (30_encoding.md R80; 43_block_header.md R168 to R170, 44_block_body.md R198, R193);
none when no session runs (60_exceptions.md R241). -/
def State.nextSlot (s : State) : Option Slot :=
  match s.phase with
  | .idle => none
  | .done => none
  | .error => none
  | .zhdr => some .zhdr
  | .bhdr => some .bhdr
  | .dynhdr => match s.seq with
    | .clcl => some .clcl
    | .clsym => some .clsym
    | .head => some .dynhdr
    | .ll => some .dynhdr
    | .dist => some .dynhdr
  | .body => match s.seq with
    | .dist => some .dsym
    | .ll => some .llsym
    | .head => some .llsym
    | .clcl => some .llsym
    | .clsym => some .llsym

/-- The instruction a word encodes, as an operation's value. -/
def decodeWord (f : Format) (w : Nat) (s : State) : Res Instr :=
  match decode f w with
  | .ok i => .ok i s
  | .error e => .refused (.undecodable e)

/-- A Huffman-coded element: its symbol as HUF_LOOKUP decodes it, with the code consumed, and its extra bits, which stay to be
consumed by the meaning (30_encoding.md R86 to R88; assumption 13). The meaning writes `sym` with the element's other writes
(60_exceptions.md R235). -/
def fetchSymbol (f : Format) (t : TreeId) (s : State) : Res Instr :=
  (hufDecode t s).bind fun sym s => decodeWord f (sym + s.nextField (f.extraBits sym) * 2 ^ f.symBits) s

/-- Fetch the next element of slot `k` at the cursor. -/
def fetch (k : Slot) (s : State) : Res Instr :=
  match k with
  | .zhdr => decodeWord .zhdr s.headerWord s
  | .bhdr => decodeWord .bhdr (s.nextField 3) s
  | .dynhdr => decodeWord .dynhdr (s.nextField 14) s
  | .clcl => decodeWord .clcl (s.nextField 3) s
  | .clsym => fetchSymbol .clsym .clt s
  | .llsym => fetchSymbol .llsym s.llSel s
  | .dsym => fetchSymbol .dsym s.dSel s

/-- Run what a fetch gives. -/
def runFetched (x : Res Instr) : Host.Outcome State Fault Refusal :=
  match x with
  | .ok i s => exec i s
  | .raised c s => .next (s.raiseError c)
  | .refused r => .refused r

/-- The engine's turn: it fetches and runs one stream element, or is idle (60_exceptions.md R241). -/
def engineStep (s : State) : Host.Outcome State Fault Refusal :=
  match s.nextSlot with
  | none => .next s
  | some k => runFetched (fetch k s)

/-- One move of the world outside the engine's algorithm (assumption 8). -/
def takeInput (x : Input) (s : State) : Host.Outcome State Fault Refusal :=
  match x with
  | .engine => engineStep s
  | .writeIn a b => hostWriteIn a b s
  | .writeOut a b => hostWriteOut a b s
  | .writeReg offset v => match hostRegAt offset with
    | some r => hostWriteReg r v s
    | none => .refused .noSuchRegister
  | .readReg offset => match hostRegAt offset with
    | some r => .next (s.hostReadReg r)
    | none => .refused .noSuchRegister
  | .readOut a => .next (s.hostReadOut a)
  | .reset => .next s.assertReset
  | .command port w => runCommand port w s

/-- One step: the next input if there is one, else the engine's turn (assumption 8). -/
def machineStep (s : State) : Host.Outcome State Fault Refusal :=
  match s.inputs with
  | [] => engineStep s
  | x :: rest => takeInput x { s with inputs := rest }

/-! ## Placing an instruction where the next step fetches it -/

/-- The number of a bit list, the first bit the least significant. -/
def bitsToNat : List Bool → Nat
  | [] => 0
  | b :: bs => b.toNat + 2 * bitsToNat bs

/-- The input is `78 9C` and then four bytes that hold the stream bits `bits`, zeros above them, with the cursor at their
start (45_stream.md R212). No stream element has more than 32 bits. -/
def State.loadStream (s : State) (bits : List Bool) : State :=
  let v := bitsToNat bits
  { s with
    inMem := Memory.write (Memory.write (Memory.write (Memory.write (Memory.write (Memory.write s.inMem
      0 0x78) 1 0x9C) 2 (.ofNat 8 v)) 3 (.ofNat 8 (v / 256))) 4 (.ofNat 8 (v / 65536))) 5 (.ofNat 8 (v / 16777216))
    inLen := 6
    curByte := 2
    curBit := 0
    inputs := [] }

/-- The code lengths of the CL tree that `withElement` puts a code-length symbol in: a complete code of all 19 symbols. -/
def placedClLens : List Nat := List.replicate 13 4 ++ List.replicate 6 5

/-- The state with instruction `i` placed where the next step fetches it (assumption 15): a stream element behind the
cursor, in the phase that reads its format and with a tree that holds its symbol; a command on its port, in a running
session; CMD_START as a host write of CTRL. -/
def State.withElement (s : State) (i : Instr) : State :=
  match i.format with
  | .zhdr =>
    { s with
      inMem := Memory.write (Memory.write s.inMem 0 (.ofNat 8 (encode i / 256))) 1 (.ofNat 8 (encode i))
      inLen := 2, phase := .zhdr, seq := .head, inputs := [] }
  | .bhdr => { s.loadStream (i.streamBits (fun _ => (0, 0))) with phase := .bhdr, seq := .head }
  | .dynhdr => { s.loadStream (i.streamBits (fun _ => (0, 0))) with phase := .dynhdr, seq := .head }
  | .clcl => { s.loadStream (i.streamBits (fun _ => (0, 0))) with phase := .dynhdr, seq := .clcl }
  | .clsym =>
    { s.loadStream (i.streamBits (canonicalCode placedClLens)) with
      clt := (buildTree placedClLens).arena, phase := .dynhdr, seq := .clsym }
  | .llsym =>
    { s.loadStream (i.streamBits (fixedLLCode s.params.fixedLong)) with llSel := .fllt, phase := .body, seq := .ll }
  | .dsym => { s.loadStream (i.streamBits fixedDCode) with dSel := .fdt, phase := .body, seq := .dist }
  | .bccmd => { s with phase := .bhdr, seq := .head, inputs := [.command .bitCursor (encode i)] }
  | .hufcmd => { s with phase := .bhdr, seq := .head, inputs := [.command .huffman (encode i)] }
  | .ctrl => { s with inputs := [.writeReg 0 (.ofNat 32 (encode i))] }

end Sys2Proof.Machine
end

