-- ==== Sys2Proof/Machine/Session.lean ====
section
/-! DEFINITION. The whole session as ONE operation: the pseudocode of 45_stream.md R214 and of the rules it calls, read by
read and check by check, without the step machine, its decoder or its meanings. The two are compared by the obligation
SessionRunsTheSpecsAlgorithm. A loop carries a bound: the bits remaining when it starts, since each iteration consumes at
least one (45_stream.md R219); a loop whose bound is used up has no bit left, so its next read raises. The
writes of each element take effect together (60_exceptions.md R235): `Res.atomic` stands around each. -/

namespace Sys2Proof.Machine

/-- READ_ZLIB_HEADER (45_stream.md R210). -/
def specReadZlibHeader (s : State) : Res Unit :=
  if s.inLen < 2 then .raised .hdrShort s
  else
    let s := { s with cmf := s.inByte 0 }
    let s := { s with flg := s.inByte 1 }
    let s := { s with cm := BitVec.ofNat 4 s.cmf.toNat, fdict := s.flg.getLsbD 5 }
    if (s.cmf.toNat * 256 + s.flg.toNat) % 31 ≠ 0 then .raised .hdrFcheck s
    else if s.fdict = true ∧ s.params.fdictPolicy = .reject then .raised .presetDict s
    else .ok () s

/-- The three counts (43_block_header.md R168). -/
def specDynHeader (s : State) : Res Unit :=
  (bcConsume 5 s).bind fun v s =>
    let s := { s with hlit := v + 257 }
    if s.hlit > 286 then .raised .hlitRange s
    else
      (bcConsume 5 s).bind fun v s =>
        let s := { s with hdist := v + 1 }
        if s.hdist > 30 then .raised .hdistRange s
        else (bcConsume 4 s).bind fun v s => .ok () { s with hclen := v + 4 }

/-- The code-length code lengths, `n` fields from number `k` on (43_block_header.md R169). -/
def specClclFields : Nat → Nat → State → Res Unit
  | 0, _, s => .ok () s
  | n + 1, k, s =>
    (bcConsume 3 s).bind fun v s =>
      specClclFields n (k + 1) { s with clLens := List.set s.clLens (clOrder.getD k 0) (BitVec.ofNat 3 v) }

/-- `rep` entries of the value `v` after the overrun check (43_block_header.md R172 to R174). -/
def specRun (v : BitVec 4) (rep : Nat) (s : State) : Res Unit :=
  let s := { s with rep := rep }
  if s.lenIdx + s.rep > s.hlit + s.hdist then .raised .repeatOverrun s
  else .ok () { s with lenTable := fillEntries v s.rep s.lenIdx s.lenTable, lenIdx := s.lenIdx + s.rep }

/-- CLSYM_EXEC (43_block_header.md R171 to R174). -/
def specClsym (sym : Nat) (s : State) : Res Unit :=
  if sym ≤ 15 then
    let v := BitVec.ofNat 4 sym
    .ok () { s with lenTable := List.set s.lenTable s.lenIdx v, lenIdx := s.lenIdx + 1, prevLen := some v }
  else if sym = 16 then
    match s.prevLen with
    | none => .raised .repeatNoPrev s
    | some v => (bcConsume 2 s).bind fun e s => specRun v (3 + e) s
  else if sym = 17 then
    (bcConsume 3 s).bind fun e s =>
      (specRun 0 (3 + e) s).bind fun _ s => .ok () { s with prevLen := some 0 }
  else
    (bcConsume 7 s).bind fun e s =>
      (specRun 0 (11 + e) s).bind fun _ s => .ok () { s with prevLen := some 0 }

/-- The code-length sequence loop (43_block_header.md R170). -/
def specClsymLoop : Nat → State → Res Unit
  | 0, s => if s.lenIdx < s.hlit + s.hdist then .raised .inExhausted s else .ok () s
  | n + 1, s =>
    if s.lenIdx < s.hlit + s.hdist then
      (((hufLookup .clt s).bind fun sym s => specClsym sym s).atomic s).bind fun _ s => specClsymLoop n s
    else .ok () s

/-- DECODE_DYNAMIC_TABLES (43_block_header.md R167 to R175). -/
def specDynamicTables (s : State) : Res Unit :=
  ((specDynHeader s).atomic s).bind fun _ s =>
    (specClclFields s.hclen 0 { s with clLens := List.replicate 19 0 }).bind fun _ s =>
      (hufBuild .clt s).bind fun _ s =>
        let s := { s with lenIdx := 0, prevLen := none }
        (specClsymLoop s.bitsRemaining s).bind fun _ s =>
          ((hufBuild .llt s).bind fun _ s => hufBuild .dt s).atomic s

/-- The reads of READ_BLOCK_HEADER and its raises (43_block_header.md R165). -/
def specBlockType (s : State) : Res Nat :=
  (bcConsume 1 s).bind fun v s =>
    let s := { s with bfinal := v == 1 }
    (bcConsume 2 s).bind fun v s =>
      let s := { s with btype := BitVec.ofNat 2 v }
      let s := { s with blockFinal := s.bfinal, blockType := s.btype }
      if v = 0 then .raised .storedBlock s
      else if v = 3 then .raised .btypeReserved s
      else .ok v s

/-- READ_BLOCK_HEADER (43_block_header.md R165). -/
def specReadBlockHeader (s : State) : Res Unit :=
  ((specBlockType s).atomic s).bind fun v s =>
    if v = 1 then .ok () { s with llSel := .fllt, dSel := .fdt }
    else (specDynamicTables s).bind fun _ s => .ok () { s with llSel := .llt, dSel := .dt }

/-- A literal/length symbol: a literal, the end of the block, or the length of a back-reference (44_block_body.md R190 to R192,
R196). -/
def specLitLen (sym : Nat) (s : State) : Res Nat :=
  if sym ≤ 255 then (outAppend (BitVec.ofNat 8 sym) s).bind fun _ s => .ok sym s
  else if sym = 256 then .ok sym s
  else if sym ≤ 285 then
    (bcConsume (lenExtra sym) s).bind fun e s => .ok sym { s with extra := e, curLen := lenBase sym + e }
  else .raised .llSymbolReserved s

/-- The distance of a back-reference, and its copy (44_block_body.md R193 to R195). -/
def specDistance (s : State) : Res Unit :=
  (hufLookup s.dSel s).bind fun d s =>
    if 30 ≤ d then .raised .distSymbolReserved s
    else
      (bcConsume (distExtra d) s).bind fun e s =>
        let s := { s with extra := e, curDist := distBase d + e }
        if s.curDist > s.outLen then .raised .distTooFar s else copyBytes s.curLen s

/-- DECODE_BODY (44_block_body.md R198). -/
def specBody : Nat → State → Res Unit
  | 0, s => .raised .inExhausted s
  | n + 1, s =>
    (((hufLookup s.llSel s).bind fun sym s => specLitLen sym s).atomic s).bind fun sym s =>
      if sym ≤ 255 then specBody n s
      else if sym = 256 then .ok () s
      else ((specDistance s).atomic s).bind fun _ s => specBody n s

/-- The block loop and the result (45_stream.md R214 steps 4 and 5). -/
def specBlocks : Nat → State → Res Unit
  | 0, s => .raised .inExhausted s
  | n + 1, s =>
    (specReadBlockHeader s).bind fun _ s =>
      (specBody s.bitsRemaining s).bind fun _ s =>
        if s.bfinal then .ok () { s with phase := .done } else specBlocks n s

/-- SESSION (45_stream.md R214). -/
def specSession (s : State) : Res Unit :=
  ((specReadZlibHeader s.startSession).atomic s.startSession).bind fun _ s =>
    let s := { s with curByte := 2, curBit := 0 }
    specBlocks s.bitsRemaining s

end Sys2Proof.Machine
end

