-- ==== Sys2Proof/Safety.lean ====
section
/-! DEFINITION. The terms the statements use: the invariant of the machine, the legal transitions of STATUS.STATE, what a
session's outcome is, and what two states agree on. -/

namespace Sys2Proof

/-- What a code-length symbol writes, given the previous length: the value, how many entries, and its extra bits
(30_encoding.md R86). -/
def Instr.clRun (prev : Option (BitVec 4)) : Instr → Option (BitVec 4 × Nat × Nat)
  | .clLen sym => some (sym, 1, 0)
  | .clRep16 e => prev.map fun v => (v, 3 + e.toNat, 2)
  | .clZero17 e => some (0, 3 + e.toNat, 3)
  | .clZero18 e => some (0, 11 + e.toNat, 7)
  | _ => none

end Sys2Proof

namespace Sys2Proof.Machine

/-- STATE = BUSY (10_state.md R22). -/
def State.busy (s : State) : Bool := s.status == .busy

/-! ## The invariant: the widths of 10_state.md R31 and the shape of each register file -/

/-- A node whose children are allocated and are not the root, and whose symbol is below `alphabet` (10_state.md R33). -/
def Node.wf (count alphabet : Nat) (nd : Node) : Prop :=
  (∀ k, nd.child0 = some k → 0 < k ∧ k < count) ∧ (∀ k, nd.child1 = some k → 0 < k ∧ k < count) ∧ nd.sym < alphabet

/-- An arena with a root that is no leaf, and no more nodes than its capacity (10_state.md R33, R34, 41_huffman.md
R137). -/
structure Arena.wf (capacity alphabet : Nat) (a : Arena) : Prop where
  root : 0 < a.length
  size : a.length ≤ capacity
  inner : (a.nodeAt 0).isLeaf = false
  nodes : ∀ nd ∈ a, nd.wf a.length alphabet

/-- The cursor is normalised and within the input (10_state.md R27). -/
structure CursorOk (s : State) : Prop where
  curBit : s.curBit < 8
  curByte : s.curByte ≤ s.inLen
  atEnd : s.curByte = s.inLen → s.curBit = 0
  inLen : s.inLen ≤ s.params.inLenMax

/-- The register files have their sizes, and the registers and their entries the ranges of 10_state.md R31 (also R24, R30,
R32, R35, R36). A register that nothing has written yet holds its reset value, below R31's range (assumption 4). -/
structure RegistersOk (s : State) : Prop where
  clLens : s.clLens.length = 19
  lenTable : s.lenTable.length = 316
  blCount : s.blCount.length = 16
  blCountEntry : ∀ c ∈ s.blCount, c ≤ 288
  nextCode : s.nextCode.length = 16
  nextCodeEntry : ∀ c ∈ s.nextCode, c ≤ 32768
  inLenReg : s.inLenReg.toNat ≤ s.params.inLenMax
  hlit : s.hlit ≤ 288
  hdist : s.hdist ≤ 32
  hclen : s.hclen ≤ 19
  lenIdx : s.lenIdx ≤ 316
  rep : s.rep ≤ 138
  sym : s.sym < 288
  curLen : s.curLen ≤ 258
  curDist : s.curDist ≤ 32768
  extra : s.extra < 8192

/-- The arenas CLT, LLT and DT (10_state.md R34). -/
structure ArenasOk (s : State) : Prop where
  clt : Arena.wf (arenaCapacity s.params .clt) 19 s.clt
  llt : Arena.wf (arenaCapacity s.params .llt) 288 s.llt
  dt : Arena.wf (arenaCapacity s.params .dt) 32 s.dt

/-- The tree pair is (FLLT, FDT) or (LLT, DT) (10_state.md R36). -/
def State.pairOk (s : State) : Prop := (s.llSel = .fllt ∧ s.dSel = .fdt) ∨ (s.llSel = .llt ∧ s.dSel = .dt)

/-- The counts a dynamic header may have (30_encoding.md R84). -/
def State.countsOk (s : State) : Prop := 257 ≤ s.hlit ∧ s.hlit ≤ 286 ∧ 1 ≤ s.hdist ∧ s.hdist ≤ 30

/-- While code-length code lengths are read, the counts are legal and the next field is one of `hclen`; while the
code-length sequence is read, the counts are legal and the table is not yet full (43_block_header.md R168 to R170). -/
structure TableOk (s : State) : Prop where
  clcl : s.phase = .dynhdr → s.seq = .clcl → s.countsOk ∧ s.clclIdx < s.hclen
  clsym : s.phase = .dynhdr → s.seq = .clsym → s.countsOk ∧ s.lenIdx < s.hlit + s.hdist

/-- ERROR is set exactly in STATE = ERROR, and its kind is its cause's (10_state.md R23, 60_exceptions.md R231). -/
structure ErrorOk (s : State) : Prop where
  kind : s.errKind = s.errCause.kind
  cause : s.phase = .error ↔ s.errCause ≠ .none

/-- The output holds no more than OUT_CAP bytes, which is below 2^32 where it is finite (10_state.md R31, Params.wf). -/
def State.outOk (s : State) : Prop := ∀ cap, s.params.outCap = some cap → s.outLen ≤ cap

/-- The invariant every step keeps. -/
structure Inv (s : State) : Prop where
  params : s.params.wf = true
  inMem : s.inMem.wf = true
  outMem : s.outMem.wf = true
  hostOut : s.hostOut.wf = true
  cursor : CursorOk s
  registers : RegistersOk s
  arenas : ArenasOk s
  pair : s.pairOk
  table : TableOk s
  error : ErrorOk s
  out : s.outOk

/-- `prev_len` is `none` before the first entry of the sequence, and else the value of the last entry written
(43_block_header.md R177). -/
def PrevLenOk (s : State) : Prop :=
  s.phase = .dynhdr → s.seq = .clsym →
    (s.lenIdx = 0 ∧ s.prevLen = none) ∨
      ∃ k v, s.lenIdx = k + 1 ∧ s.lenTable[k]? = some v ∧ s.prevLen = some v

/-! ## Inputs -/

/-- The input is the reset. -/
def Input.isReset : Input → Bool
  | .reset => true
  | .engine | .writeIn .. | .writeOut .. | .writeReg .. | .readReg .. | .readOut .. | .command .. => false

/-- The input is a write of 1 to CTRL.START (10_state.md R21). -/
def Input.isStart : Input → Bool
  | .writeReg offset v => offset == 0 && v.getLsbD 0
  | .engine | .writeIn .. | .writeOut .. | .readReg .. | .readOut .. | .reset | .command .. => false

/-! ## Sessions -/

/-- The observation of a session (45_stream.md R218, R221). -/
inductive Observation where
  | done (bytes : List Byte)
  | error (kind : ErrKind) (cause : Cause)
  | running
  deriving DecidableEq, Repr

/-- The result `OUT[0 .. OUT_LEN-1]` (45_stream.md R215). -/
def State.outBytes (s : State) : List Byte := (List.range s.outLen).map s.outByte

/-- What a state shows of its session (45_stream.md R221). R221 gives observations for DONE and ERROR alone, and
70_reset_and_hazards.md R260 says that a session abandoned by reset reaches neither: an IDLE block shows `running`, that
is no end, by the model's choice (assumption 29). -/
def State.observe (s : State) : Observation :=
  match s.status with
  | .done => .done s.outBytes
  | .error => .error s.errKind s.errCause
  | .busy => .running
  | .idle => .running

/-- What the outcome of some steps shows of the session; nothing if they were refused. -/
def observeRun (x : Host.Outcome State Fault Refusal) : Option Observation :=
  match x with
  | .next s => some s.observe
  | .fault _ => none
  | .refused _ => none

/-- The state without the place inside a phase, which the sequential algorithm does not have (10_state.md R37). -/
def State.forgetPlace (s : State) : State := { s with seq := .head, clclIdx := 0 }

/-- The state a session's operation ends in, with error entry if it raises (60_exceptions.md R236). -/
def Res.final {α : Type} (x : Res α) : Option State :=
  match x with
  | .ok _ s => some s
  | .raised c s => some (s.raiseError c)
  | .refused _ => none

/-- Two states hold the same input for a session: the same parameters, IN_LEN, and IN bytes below it (45_stream.md R218). -/
def SameInput (s t : State) : Prop :=
  s.params = t.params ∧ s.inLenReg = t.inLenReg ∧ ∀ a, a < s.inLenReg.toNat → s.inByte a = t.inByte a

/-! ## Streams and codes -/

/-- The stream bits at the cursor are `bits`, and the input holds them all (20_memory.md R61). -/
def State.streamAt (s : State) (bits : List Bool) : Prop :=
  bits.length ≤ s.bitsRemaining ∧ ∀ k b, bits[k]? = some b → s.inBit (s.cursorPos + k) = b

/-- The symbol of the leaf that `bits` lead to from `node`, through nodes that are no leaves (41_huffman.md R138). -/
def Arena.decodesTo (a : Arena) : Nat → List Bool → Option Nat
  | node, [] => if (a.nodeAt node).isLeaf then some (a.nodeAt node).sym else none
  | node, b :: bs =>
    if (a.nodeAt node).isLeaf then none
    else
      match (a.nodeAt node).child b with
      | some k => Arena.decodesTo a k bs
      | none => none

/-- The last of `bits` selects a missing child, and none before it does (41_huffman.md R138). -/
def Arena.missesAt (a : Arena) : Nat → List Bool → Bool
  | _, [] => false
  | node, b :: bs =>
    !(a.nodeAt node).isLeaf &&
      match (a.nodeAt node).child b with
      | some k => Arena.missesAt a k bs
      | none => bs.isEmpty

/-- `bits` lead from `node` to a node that is no leaf, through such nodes only (41_huffman.md R139). -/
def Arena.staysInside (a : Arena) : Nat → List Bool → Bool
  | node, [] => !(a.nodeAt node).isLeaf
  | node, b :: bs =>
    !(a.nodeAt node).isLeaf &&
      match (a.nodeAt node).child b with
      | some k => Arena.staysInside a k bs
      | none => false

/-- The Kraft sum of the used lengths, in units of 2^-15 (41_huffman.md R134). -/
def kraftSum (lens : List Nat) : Nat := (lens.map fun l => if l = 0 then 0 else 2 ^ (15 - l)).sum

/-! ## Frames -/

/-- No byte of either memory has changed. -/
def SameMemory (s t : State) : Prop := (∀ a, t.inByte a = s.inByte a) ∧ (∀ a, t.outByte a = s.outByte a)

/-- The host's register IN_LEN, the session's input length, the parameters and the model's own fields are unchanged. -/
def SameHost (s t : State) : Prop :=
  t.inLenReg = s.inLenReg ∧ t.inLen = s.inLen ∧ t.params = s.params ∧ t.draws = s.draws ∧ t.epoch = s.epoch ∧
    t.sessions = s.sessions ∧ t.hostOut = s.hostOut ∧ t.inputs = s.inputs ∧ t.regData = s.regData ∧ t.outData = s.outData

/-- ZLIB_HDR is unchanged. -/
def SameZlibHdr (s t : State) : Prop := t.cmf = s.cmf ∧ t.flg = s.flg ∧ t.cm = s.cm ∧ t.fdict = s.fdict

/-- The error registers are unchanged. -/
def SameError (s t : State) : Prop := t.errKind = s.errKind ∧ t.errCause = s.errCause

/-- The block registers are unchanged. -/
def SameBlock (s t : State) : Prop :=
  t.blockFinal = s.blockFinal ∧ t.blockType = s.blockType ∧ t.bfinal = s.bfinal ∧ t.btype = s.btype

/-- The counts of the dynamic header are unchanged. -/
def SameCounts (s t : State) : Prop := t.hlit = s.hlit ∧ t.hdist = s.hdist ∧ t.hclen = s.hclen

/-- The code-length table and its registers are unchanged. -/
def SameTable (s t : State) : Prop :=
  t.lenTable = s.lenTable ∧ t.lenIdx = s.lenIdx ∧ t.prevLen = s.prevLen ∧ t.rep = s.rep

/-- The code-length code lengths and their index are unchanged. -/
def SameClLens (s t : State) : Prop := t.clLens = s.clLens ∧ t.clclIdx = s.clclIdx

/-- The arenas and the scratch registers of the builder are unchanged. -/
def SameTrees (s t : State) : Prop :=
  t.clt = s.clt ∧ t.llt = s.llt ∧ t.dt = s.dt ∧ t.blCount = s.blCount ∧ t.nextCode = s.nextCode

/-- The tree pair is unchanged. -/
def SamePair (s t : State) : Prop := t.llSel = s.llSel ∧ t.dSel = s.dSel

/-- The place in the sequence of elements is unchanged. -/
def SamePlace (s t : State) : Prop := t.phase = s.phase ∧ t.seq = s.seq

/-- The cursor is unchanged. -/
def SameCursor (s t : State) : Prop := t.curByte = s.curByte ∧ t.curBit = s.curBit

/-- The registers of the back-reference are unchanged. -/
def SameBackref (s t : State) : Prop := t.curLen = s.curLen ∧ t.curDist = s.curDist ∧ t.extra = s.extra

/-- An element that raises between the two states has had no effect beyond the bits it consumed and the error
(60_exceptions.md R235, R236). -/
def RaiseIsPrecise (s t : State) : Prop :=
  s.phase ≠ .error → t.phase = .error →
    t = { s with
      curByte := t.curByte, curBit := t.curBit, errKind := t.errKind, errCause := t.errCause, phase := .error }

end Sys2Proof.Machine
end

