-- ==== Sys2Proof/Certificates/Slice0/Obligations.lean ====
section
/-! DEFINITION. The statements for the provers. Each docstring names the rule of spec/ it formalises. Where a statement
speaks of a value the model chose, its docstring says so. -/

open Sys2Proof Sys2Proof.Machine

/-! ## Encoding -/

/-- Encoding and then decoding gives every well-formed instruction back, with every operand (30_encoding.md R81 to R88,
R97). -/
def Obligations.DecodeOfEncode : Prop :=
  ∀ i : Instr, i.wf = true → decode i.format (encode i) = .ok i

/-- Each word has one meaning: the word a decoder accepts is the encoding of what it decodes to, and that is well formed
(30_encoding.md R81 to R88, R97, 40_bit_cursor.md R126). -/
def Obligations.EncodeOfDecode : Prop :=
  ∀ (f : Format) (w : Nat) (i : Instr), decode f w = .ok i → i.format = f ∧ encode i = w ∧ i.wf = true

/-- A word that decodes matches the mask and pattern of its instruction's row of spec/opcode_table.json, in that row's
format, and no word matches two rows of one format: so it matches no other row. -/
def Obligations.DecodedWordMatchesItsRowOnly : Prop :=
  ∀ (f : Format) (w : Nat) (i : Instr), decode f w = .ok i →
    i.tableRow.format = f ∧ w &&& i.tableRow.mask = i.tableRow.pattern ∧
    ∀ j : Instr, j.tableRow.format = f → w &&& j.tableRow.mask = j.tableRow.pattern → j.tableRow = i.tableRow

/-- Words written out from the spec's encodings decode to the instruction they stand for (30_encoding.md R81 to R88,
R97). -/
def Obligations.WordsOfTheSpecDecode : Prop :=
  decode .zhdr 0x789C = .ok (.zlibHeader 0x78 0x9C) ∧
  decode .bhdr 0b011 = .ok (.blockFixed true) ∧
  decode .bhdr 0b100 = .ok (.blockDynamic false) ∧
  decode .dynhdr 0b1110_00001_00010 = .ok (.dynHeader 2 1 14) ∧
  decode .clcl 0b101 = .ok (.clclField 5) ∧
  decode .clsym 0b11_10000 = .ok (.clRep16 3) ∧
  decode .llsym 0b0_01100001 = .ok (.lit 0x61) ∧
  decode .llsym 0b1_100001001 = .ok (.len265 1) ∧
  decode .dsym 0b1_00100 = .ok (.dist4 1) ∧
  decode .bccmd 0b01_0001101 = .ok (.bcConsume 13) ∧
  decode .hufcmd 0b1_010 = .ok (.hufLookup .dt) ∧
  decode .ctrl 1 = .ok (.cmdStart 0)

/-- The header and the fixed-format elements: where the stream at the cursor holds an element's bits (for the header: where
IN offsets 0 and 1 hold its bytes), the fetch gives that element (20_memory.md R61, R62, R65, 30_encoding.md R81, R82, R84,
R85). That the fetch reads the bits ahead, and moves and changes nothing, is the model's split of fetch and meaning
(assumption 13). -/
def Obligations.FixedFormatsAreFetched : Prop :=
  (∀ s : State, 2 ≤ s.inLen → fetch .zhdr s = .ok (.zlibHeader (s.inByte 0) (s.inByte 1)) s) ∧
  ∀ (i : Instr) (codes : Nat → Nat × Nat) (s : State), s.streamAt (i.streamBits codes) →
    (i.format = .bhdr → fetch .bhdr s = .ok i s) ∧
    (i.format = .dynhdr → fetch .dynhdr s = .ok i s) ∧
    (i.format = .clcl → fetch .clcl s = .ok i s)

/-- Huffman-coded elements: where the bits at the cursor are a code of the element's symbol in the tree its format is
decoded with, and its extra bits, the fetch gives that element and the cursor behind the code
(30_encoding.md R86, R87, R88, 41_huffman.md R138). That the fetch consumes the code and leaves the extra bits, and the
write of `sym`, to the meaning is assumption 13. -/
def Obligations.SymbolsAreFetched : Prop :=
  ∀ (i : Instr) (sym e : Nat) (code : List Bool) (s : State), s.curBit < 8 →
    (i.element = (.clsym, sym, e) → s.clt.decodesTo 0 code = some sym →
      s.streamAt (code ++ lsbFirst e (clExtra sym)) →
      fetch .clsym s = .ok i (s.advance code.length)) ∧
    (i.element = (.llsym, sym, e) → (s.arena s.llSel).decodesTo 0 code = some sym →
      s.streamAt (code ++ lsbFirst e (lenExtra sym)) →
      fetch .llsym s = .ok i (s.advance code.length)) ∧
    (i.element = (.dsym, sym, e) → (s.arena s.dSel).decodesTo 0 code = some sym →
      s.streamAt (code ++ lsbFirst e (distExtra sym)) →
      fetch .dsym s = .ok i (s.advance code.length))

/-- The codes of the fixed trees, under both values of FIXED_LL_LEN_280_287 (30_encoding.md R94): the table's code of each
symbol, read most significant bit first, leads to that symbol. -/
def Obligations.FixedTreesHoldTheFixedCodes : Prop :=
  (∀ (v : Config.FixedLong) (sym : Nat), sym < 288 →
    (fixedLLArena v).decodesTo 0 (msbFirst (fixedLLCode v sym).2 (fixedLLCode v sym).1) = some sym) ∧
  ∀ d : Nat, d < 32 → fixedDArena.decodesTo 0 (msbFirst d 5) = some d

/-! ## The bit cursor -/

/-- BC_PEEK(n) and BC_CONSUME(n) return the next n bits, the first one the least significant; BC_PEEK moves nothing,
BC_CONSUME moves the cursor n bits on, with `cur_bit` back in 0..7 (40_bit_cursor.md R121, R122, R123). The value appears in
the model's port register `bcData` (assumption 12). -/
def Obligations.PeekAndConsumeReadTheNextBits : Prop :=
  ∀ (n : BitVec 7) (s : State), n.toNat ≤ 64 → n.toNat ≤ s.bitsRemaining →
    ∃ v : BitVec 64, (∀ k, k < 64 → v.getLsbD k = (decide (k < n.toNat) && s.inBit (s.cursorPos + k))) ∧
      exec (.bcPeek n) s = .next { s with bcData := v } ∧
      exec (.bcConsume n) s = .next { s with
        curByte := (8 * s.curByte + s.curBit + n.toNat) / 8
        curBit := (8 * s.curByte + s.curBit + n.toNat) % 8
        bcData := v }

/-- BC_CONSUME_BIT returns the next bit as a boolean and moves one bit on, whatever its ignored field says (40_bit_cursor.md
R124). The value appears in the model's port register `bcData` (assumption 12). -/
def Obligations.ConsumeBitReadsOneBit : Prop :=
  ∀ (n : BitVec 7) (s : State), 1 ≤ s.bitsRemaining →
    exec (.bcConsumeBit n) s = .next { s with
      curByte := (8 * s.curByte + s.curBit + 1) / 8
      curBit := (8 * s.curByte + s.curBit + 1) % 8
      bcData := if s.inBit (8 * s.curByte + s.curBit) then 1 else 0 }

/-- BC_BYTE_ALIGN moves to the next byte boundary, and moves nothing at one (40_bit_cursor.md R125). -/
def Obligations.ByteAlignMovesToTheNextByte : Prop :=
  ∀ (n : BitVec 7) (s : State),
    (s.curBit ≠ 0 → exec (.bcByteAlign n) s = .next { s with curByte := s.curByte + 1, curBit := 0 }) ∧
    (s.curBit = 0 → exec (.bcByteAlign n) s = .next s)

/-- With `rem = 8*(in_len - cur_byte) - cur_bit` bits remaining, a read of more raises OutOfBounds(IN_EXHAUSTED) and does not
move the cursor (40_bit_cursor.md R120). -/
def Obligations.ReadsPastTheEndRaise : Prop :=
  ∀ (n : BitVec 7) (s : State) (rem : Nat), rem = 8 * (s.inLen - s.curByte) - s.curBit →
    (n.toNat ≤ 64 → rem < n.toNat →
      exec (.bcPeek n) s = .next { s with errKind := .outOfBounds, errCause := .inExhausted, phase := .error } ∧
      exec (.bcConsume n) s = .next { s with errKind := .outOfBounds, errCause := .inExhausted, phase := .error }) ∧
    (rem = 0 →
      exec (.bcConsumeBit n) s = .next { s with errKind := .outOfBounds, errCause := .inExhausted, phase := .error })

/-- BC_PEEK and BC_CONSUME with n > 64 are refused (40_bit_cursor.md R126). -/
def Obligations.WidthsAbove64AreRefused : Prop :=
  ∀ (n : BitVec 7) (s : State), 64 < n.toNat →
    exec (.bcPeek n) s = .refused .bcWidthOver64 ∧ exec (.bcConsume n) s = .refused .bcWidthOver64

/-! ## The Huffman decoder -/

/-- A build whose Kraft sum is at most 1 leaves the built tree in the selected arena and the scratch registers, and changes
nothing else (41_huffman.md R131, R142); the fixed arenas already hold theirs (42_fixed_tables.md R150, R151). The builds the
engine makes, of 19 code-length code lengths and of counts up to HLIT 286 and HDIST 30, never pass their arena's capacity
(10_state.md R34, 41_huffman.md R136); a build that does is refused (R141). A table without an entry, which R130 shuts out
and a command on the port can meet where `hlit` or `hdist` is 0, as after reset, is built to the root alone by the model's
choice, as is any build of a table this session has not filled (assumption 28). -/
def Obligations.BuildWritesItsArenaOnly : Prop :=
  ∀ (tree : TreeId) (s : State), kraftSum (s.buildTable tree) ≤ 2 ^ 15 →
    (s.clLens.length ≤ 19 → s.hlit ≤ 286 → s.hdist ≤ 30 → buildOutOfContract s tree = false) ∧
    (buildOutOfContract s tree = false →
      ∃ t, exec (.hufBuild tree) s = .next t ∧
        t.arena tree = (buildTree (s.buildTable tree)).arena ∧
        (∀ u, u ≠ tree → t.arena u = s.arena u) ∧
        t = { s with clt := t.clt, llt := t.llt, dt := t.dt, blCount := t.blCount, nextCode := t.nextCode }) ∧
    (buildOutOfContract s tree = true → exec (.hufBuild tree) s = .refused .buildOutOfContract)

/-- A build of at most 288 lengths whose Kraft sum exceeds 1 raises CorruptData(CODE_OVERFLOW), and has no effect beside the
error (41_huffman.md R131, R134, R142, 60_exceptions.md R235; assumption 3). A build on the port of a table this session has
not filled is assumption 28. -/
def Obligations.BuildRaisesCodeOverflow : Prop :=
  ∀ (tree : TreeId) (s : State), (s.buildTable tree).length ≤ 288 → 2 ^ 15 < kraftSum (s.buildTable tree) →
    exec (.hufBuild tree) s = .next { s with errKind := .corruptData, errCause := .codeOverflow, phase := .error }

/-- The overflow check fails exactly when the Kraft sum exceeds 1, and a build whose Kraft sum is at most 1 raises nothing: no
insertion contradiction is left (41_huffman.md R134, R135, R137). -/
def Obligations.CodeOverflowIsKraftExcess : Prop :=
  ∀ lens : List Nat, (∀ l ∈ lens, l ≤ 15) →
    ((buildTree lens).error = some .codeOverflow ↔ 2 ^ 15 < kraftSum lens) ∧
    ((buildTree lens).error = none ↔ kraftSum lens ≤ 2 ^ 15)

/-- A build without overflow, of `n` used symbols whose lengths are at most `lmax`, allocates at most max(1, 2n - 1 + lmax)
nodes (41_huffman.md R136, 10_state.md R34; the spec derives this bound from R132). -/
def Obligations.BuildNodeBound : Prop :=
  ∀ (lens : List Nat) (n lmax : Nat), lmax ≤ 15 → (∀ l ∈ lens, l ≤ lmax) → kraftSum lens ≤ 2 ^ 15 →
    n = lens.countP (fun l => l ≠ 0) → (buildTree lens).arena.length ≤ max 1 (2 * n - 1 + lmax)

/-- After a successful build every used symbol has its canonical code: the code of 41_huffman.md R132, walked most
significant bit first, leads to its leaf (41_huffman.md R132, R133, R137). -/
def Obligations.BuiltTreeHoldsTheCanonicalCodes : Prop :=
  ∀ (lens : List Nat) (sym : Nat), (∀ l ∈ lens, l ≤ 15) → (buildTree lens).error = none →
    sym < lens.length → lens.getD sym 0 ≠ 0 →
    (buildTree lens).arena.decodesTo 0 (msbFirst (canonicalCode lens sym).2 (canonicalCode lens sym).1) = some sym

/-- HUF_LOOKUP returns the symbol whose code the next bits are, and consumes that code (41_huffman.md R138, R139). That it
writes the register `sym`, whichever tree it walks, is assumption 20; that on the port it walks an arena this session has not
built as it stands is assumption 28. -/
def Obligations.LookupDecodesACode : Prop :=
  ∀ (tree : TreeId) (s : State) (code : List Bool) (sym : Nat),
    s.curBit < 8 → s.streamAt code → (s.arena tree).decodesTo 0 code = some sym →
    exec (.hufLookup tree) s = .next { s.advance code.length with sym := sym }

/-- HUF_LOOKUP raises INVALID_CODE behind the bit that selects a missing child, and IN_EXHAUSTED when the input ends inside
the tree (41_huffman.md R138, R139, R140). A lookup on the port in an arena this session has not built is assumption 28. -/
def Obligations.LookupRaisesWithoutACode : Prop :=
  ∀ (tree : TreeId) (s : State) (bits : List Bool), s.streamAt bits →
    ((s.arena tree).missesAt 0 bits = true →
      exec (.hufLookup tree) s = .next
        { s.advance bits.length with errKind := .corruptData, errCause := .invalidCode, phase := .error }) ∧
    ((s.arena tree).staysInside 0 bits = true → bits.length = s.bitsRemaining → s.curBit < 8 →
      exec (.hufLookup tree) s = .next
        { s.advance bits.length with errKind := .outOfBounds, errCause := .inExhausted, phase := .error })

/-! ## The headers -/

/-- The header: HDR_SHORT when fewer than two bytes are there, a checksum that fails raises HDR_FCHECK, a set FDICT under the
policy REJECT raises PRESET_DICT, each without another effect; anything else is accepted, CM unchecked, with CMF, FLG, CM and
FDICT recorded and the cursor at the first byte after the header (45_stream.md R210, R211, R212, R217, 60_exceptions.md R234,
R235; assumption 3). The place inside a phase, `seq`, is assumption 1. -/
def Obligations.ZlibHeaderIsChecked : Prop :=
  ∀ (cmf flg : BitVec 8) (s : State),
    (s.inLen < 2 →
      exec (.zlibHeader cmf flg) s =
        .next { s with errKind := .outOfBounds, errCause := .hdrShort, phase := .error }) ∧
    (2 ≤ s.inLen → (cmf.toNat * 256 + flg.toNat) % 31 ≠ 0 →
      exec (.zlibHeader cmf flg) s =
        .next { s with errKind := .malformedHeader, errCause := .hdrFcheck, phase := .error }) ∧
    (2 ≤ s.inLen → (cmf.toNat * 256 + flg.toNat) % 31 = 0 → flg.getLsbD 5 = true →
      s.params.fdictPolicy = .reject →
      exec (.zlibHeader cmf flg) s =
        .next { s with errKind := .unsupported, errCause := .presetDict, phase := .error }) ∧
    (2 ≤ s.inLen → (cmf.toNat * 256 + flg.toNat) % 31 = 0 →
      (flg.getLsbD 5 = true → s.params.fdictPolicy = .ignore) →
      exec (.zlibHeader cmf flg) s = .next { s with
        cmf := cmf, flg := flg, cm := cmf.setWidth 4, fdict := flg.getLsbD 5
        curByte := 2, curBit := 0, phase := .bhdr, seq := .head })

/-- BTYPE = 1 selects the fixed trees, and nothing further is read before the body; BTYPE = 3 raises
CorruptData(BTYPE_RESERVED) right after the three header bits, whatever BFINAL is, without another effect (43_block_header.md
R165, R166, 60_exceptions.md R235; assumption 3). The place inside a phase, `seq`, is assumption 1. -/
def Obligations.FixedAndReservedBlocks : Prop :=
  ∀ (b : Bool) (s : State), 3 ≤ s.bitsRemaining →
    exec (.blockFixed b) s = .next { s.advance 3 with
      bfinal := b, btype := 1, blockFinal := b, blockType := 1
      llSel := .fllt, dSel := .fdt, phase := .body, seq := .ll } ∧
    exec (.blockReserved b) s = .next { s.advance 3 with
      errKind := .corruptData, errCause := .btypeReserved, phase := .error }

/-- A dynamic block's header is recorded, and the dynamic header comes next (43_block_header.md R165, R167). The place inside
a phase, `seq`, is assumption 1. -/
def Obligations.DynamicBlockEntersTheTables : Prop :=
  ∀ (b : Bool) (s : State), 3 ≤ s.bitsRemaining →
    exec (.blockDynamic b) s = .next { s.advance 3 with
      bfinal := b, btype := 2, blockFinal := b, blockType := 2, phase := .dynhdr, seq := .head }

/-- A stored block raises Unsupported(STORED_BLOCK) immediately after its three header bits, reads nothing more, and has no
other effect (45_stream.md R213, 60_exceptions.md R235; assumption 3). -/
def Obligations.StoredBlockRaises : Prop :=
  ∀ (b : Bool) (s : State), 3 ≤ s.bitsRemaining →
    exec (.blockStored b) s = .next { s.advance 3 with
      errKind := .unsupported, errCause := .storedBlock, phase := .error }

/-- A block header cut short raises OutOfBounds(IN_EXHAUSTED), whatever its type, and has no other effect but that the BFINAL
bit is consumed when it is there (43_block_header.md R165, 60_exceptions.md R234, R235; assumption 3). -/
def Obligations.CutShortBlockHeaderRaises : Prop :=
  ∀ (i : Instr) (s : State), i.format = .bhdr → s.bitsRemaining < 3 →
    (s.bitsRemaining = 0 →
      exec i s = .next { s with errKind := .outOfBounds, errCause := .inExhausted, phase := .error }) ∧
    (0 < s.bitsRemaining →
      exec i s = .next { s.advance 1 with errKind := .outOfBounds, errCause := .inExhausted, phase := .error })

/-- The three counts of a dynamic header, each with its offset and checked as soon as it is read: HLIT above 286 raises
before HDIST_F is read, HDIST above 30 before HCLEN_F is read, and a field cut short raises; a header that raises consumes
the fields it has read and has no other effect (43_block_header.md R168, 60_exceptions.md R235; assumption 3). Accepted, the
counts are recorded, and every `cl_lens` entry is 0 (10_state.md R30); that this step itself clears `cl_lens`, the index
`clclIdx` and the place `seq` are the model's choice (assumption 1). -/
def Obligations.DynamicHeaderReadsTheCounts : Prop :=
  ∀ (hlitF hdistF : BitVec 5) (hclenF : BitVec 4) (s : State),
    (14 ≤ s.bitsRemaining → hlitF.toNat ≤ 29 → hdistF.toNat ≤ 29 →
      exec (.dynHeader hlitF hdistF hclenF) s = .next { s.advance 14 with
        hlit := hlitF.toNat + 257, hdist := hdistF.toNat + 1, hclen := hclenF.toNat + 4
        clLens := List.replicate 19 0, clclIdx := 0, seq := .clcl }) ∧
    (5 ≤ s.bitsRemaining → 30 ≤ hlitF.toNat →
      exec (.dynHeader hlitF hdistF hclenF) s = .next { s.advance 5 with
        errKind := .corruptData, errCause := .hlitRange, phase := .error }) ∧
    (10 ≤ s.bitsRemaining → hlitF.toNat ≤ 29 → 30 ≤ hdistF.toNat →
      exec (.dynHeader hlitF hdistF hclenF) s = .next { s.advance 10 with
        errKind := .corruptData, errCause := .hdistRange, phase := .error }) ∧
    (s.bitsRemaining < 5 →
      exec (.dynHeader hlitF hdistF hclenF) s =
        .next { s with errKind := .outOfBounds, errCause := .inExhausted, phase := .error }) ∧
    (5 ≤ s.bitsRemaining → s.bitsRemaining < 10 → hlitF.toNat ≤ 29 →
      exec (.dynHeader hlitF hdistF hclenF) s = .next { s.advance 5 with
        errKind := .outOfBounds, errCause := .inExhausted, phase := .error }) ∧
    (10 ≤ s.bitsRemaining → s.bitsRemaining < 14 → hlitF.toNat ≤ 29 → hdistF.toNat ≤ 29 →
      exec (.dynHeader hlitF hdistF hclenF) s = .next { s.advance 10 with
        errKind := .outOfBounds, errCause := .inExhausted, phase := .error })

/-- The k-th code-length code length goes to symbol CL_ORDER[k]; after the last one the CL tree is built and the sequence
starts, or, where the lengths overflow, the build raises CorruptData(CODE_OVERFLOW) (30_encoding.md R85, 43_block_header.md
R169, R170, 41_huffman.md R134). That the last field's step makes the build and starts the sequence, the index `clclIdx` and
the place `seq` are the model's choice (assumption 1); that the field stays written when the build raises, as an element
before it, is assumption 3 (60_exceptions.md R235). What the scratch registers `bl_count` and `next_code` hold after the
build, which 10_state.md R35 leaves unspecified, is assumption 25. -/
def Obligations.CodeLengthFieldsFillAndBuild : Prop :=
  ∀ (len : BitVec 3) (s : State) (j : Nat),
    3 ≤ s.bitsRemaining →
    [16, 17, 18, 0, 8, 7, 9, 6, 10, 5, 11, 4, 12, 3, 13, 2, 14, 1, 15][s.clclIdx]? = some j →
    (s.clclIdx + 1 < s.hclen →
      exec (.clclField len) s = .next { s.advance 3 with
        clLens := s.clLens.set j len, clclIdx := s.clclIdx + 1 }) ∧
    (s.hclen ≤ s.clclIdx + 1 → s.clLens.length = 19 →
      ∀ lens, lens = (s.clLens.set j len).map BitVec.toNat →
      (kraftSum lens ≤ 2 ^ 15 →
        exec (.clclField len) s = .next { s.advance 3 with
          clLens := s.clLens.set j len, clclIdx := s.clclIdx + 1
          clt := (buildTree lens).arena, blCount := (buildTree lens).blCount, nextCode := (buildTree lens).nextCode
          lenIdx := 0, prevLen := none, seq := .clsym }) ∧
      (2 ^ 15 < kraftSum lens →
        exec (.clclField len) s = .next { s.advance 3 with
          clLens := s.clLens.set j len, clclIdx := s.clclIdx + 1
          errKind := .corruptData, errCause := .codeOverflow, phase := .error }))

/-- A code-length symbol writes its run of entries and remembers the length, while the table is not full: 0 to 15 one entry
of that length, 16 a repeat of the previous length, 17 and 18 zeros (43_block_header.md R170 to R174, R177). That `sym` takes
the symbol is assumption 20. -/
def Obligations.CodeLengthSymbolsFillTheTable : Prop :=
  ∀ (i : Instr) (sym e : Nat) (s : State) (v : BitVec 4) (n k : Nat),
    i.element = (.clsym, sym, e) → i.clRun s.prevLen = some (v, n, k) →
    k ≤ s.bitsRemaining → s.lenIdx + n < s.hlit + s.hdist →
    s.curBit < 8 →
    ∃ table : List (BitVec 4),
      (∀ j, table[j]? = if s.lenIdx ≤ j ∧ j < s.lenIdx + n ∧ j < s.lenTable.length then some v else s.lenTable[j]?) ∧
      exec i s = .next { s.advance k with
        lenTable := table, lenIdx := s.lenIdx + n, prevLen := some v, rep := if k = 0 then s.rep else n
        sym := sym }

/-- The code-length symbol that fills the table ends the sequence: LLT is built from the first `hlit` entries, DT from the
`hdist` after them, and the body is decoded with them; where the lengths of either overflow, its build raises
CorruptData(CODE_OVERFLOW), and neither tree is written (43_block_header.md R170, R175, 41_huffman.md R134, 60_exceptions.md
R234, R235). That the filling symbol's step makes both builds, and the place `seq`, are the model's choice (assumption 1);
that the symbol, as an element before the split, keeps its effect when the split raises is assumption 3; that `sym` takes the
symbol is assumption 20. What the scratch registers `bl_count` and `next_code` hold after the two builds, which 10_state.md
R35 leaves unspecified, is assumption 25. -/
def Obligations.FullTableBuildsBothTrees : Prop :=
  ∀ (i : Instr) (sym e : Nat) (s : State) (v : BitVec 4) (n k : Nat),
    i.element = (.clsym, sym, e) → i.clRun s.prevLen = some (v, n, k) →
    k ≤ s.bitsRemaining → s.lenIdx + n = s.hlit + s.hdist →
    s.hlit ≤ 286 → s.hdist ≤ 30 → s.curBit < 8 →
    ∃ table : List (BitVec 4),
      (∀ j, table[j]? = if s.lenIdx ≤ j ∧ j < s.lenIdx + n ∧ j < s.lenTable.length then some v else s.lenTable[j]?) ∧
      ∀ ll d, ll = (table.take s.hlit).map BitVec.toNat → d = ((table.drop s.hlit).take s.hdist).map BitVec.toNat →
        (kraftSum ll ≤ 2 ^ 15 → kraftSum d ≤ 2 ^ 15 →
          exec i s = .next { s.advance k with
            lenTable := table, lenIdx := s.lenIdx + n, prevLen := some v, rep := if k = 0 then s.rep else n
            sym := sym
            llt := (buildTree ll).arena, dt := (buildTree d).arena
            blCount := (buildTree d).blCount, nextCode := (buildTree d).nextCode
            llSel := .llt, dSel := .dt, phase := .body, seq := .ll }) ∧
        (2 ^ 15 < kraftSum ll ∨ 2 ^ 15 < kraftSum d →
          exec i s = .next { s.advance k with
            lenTable := table, lenIdx := s.lenIdx + n, prevLen := some v, rep := if k = 0 then s.rep else n
            sym := sym, errKind := .corruptData, errCause := .codeOverflow, phase := .error })

/-- Symbol 16 with no previous length raises before its extra bits are read; a run past the end of the table raises after
they are, and writes no entry nor `rep` (43_block_header.md R172, R173, R174, 60_exceptions.md R235; assumption 3). -/
def Obligations.RepeatErrors : Prop :=
  (∀ (e : BitVec 2) (s : State), s.prevLen = none →
    exec (.clRep16 e) s =
      .next { s with errKind := .corruptData, errCause := .repeatNoPrev, phase := .error }) ∧
  ∀ (i : Instr) (s : State) (v : BitVec 4) (n k : Nat),
    i.clRun s.prevLen = some (v, n, k) → 0 < k → k ≤ s.bitsRemaining → s.hlit + s.hdist < s.lenIdx + n →
    exec i s = .next { s.advance k with
      errKind := .corruptData, errCause := .repeatOverrun, phase := .error }

/-! ## The block body -/

/-- LIT appends its byte at `out_len`; only where OUT_CAP is finite and full it raises OutputOverflow(OUT_FULL), before
writing (44_block_body.md R190, R197). That `sym` takes the symbol is assumption 20. -/
def Obligations.LiteralAppendsItsByte : Prop :=
  ∀ (b : BitVec 8) (s : State),
    (s.params.outCap ≠ some s.outLen →
      ∃ t, exec (.lit b) s = .next t ∧
        t.outByte s.outLen = b ∧ (∀ a, a ≠ s.outLen → t.outByte a = s.outByte a) ∧
        t = { s with outMem := t.outMem, outLen := s.outLen + 1, sym := b.toNat }) ∧
    (s.params.outCap = some s.outLen →
      exec (.lit b) s = .next { s with errKind := .outputOverflow, errCause := .outFull, phase := .error })

/-- EOB ends the block: DONE after the final one, else the next block header (44_block_body.md R191, 45_stream.md R214,
R215). The place inside a phase, `seq`, is assumption 1; that `sym` takes the symbol is assumption 20. -/
def Obligations.EobEndsTheBlock : Prop :=
  ∀ s : State,
    (s.bfinal = true → exec .eob s = .next { s with phase := .done, seq := .head, sym := 256 }) ∧
    (s.bfinal = false → exec .eob s = .next { s with phase := .bhdr, seq := .head, sym := 256 })

/-- LEN_257 to LEN_285: with (extra, base) the symbol's row of 42_fixed_tables.md R153, the extra bits are read, `cur_len` is
the base plus their value, and a distance symbol comes next; extra bits cut short raise OutOfBounds(IN_EXHAUSTED)
(44_block_body.md R192). That `extra` takes their value, 0 where there are none, and `sym` the symbol is assumption 20; the
place `seq` is assumption 1. -/
def Obligations.LengthSymbolSetsTheLength : Prop :=
  ∀ (i : Instr) (sym e k b : Nat) (s : State),
    i.element = (.llsym, sym, e) → 257 ≤ sym →
    [(0, 3), (0, 4), (0, 5), (0, 6), (0, 7), (0, 8), (0, 9), (0, 10), (1, 11), (1, 13), (1, 15), (1, 17), (2, 19), (2, 23),
      (2, 27), (2, 31), (3, 35), (3, 43), (3, 51), (3, 59), (4, 67), (4, 83), (4, 99), (4, 115), (5, 131), (5, 163),
      (5, 195), (5, 227), (0, 258)][sym - 257]? = some (k, b) →
    s.curBit < 8 →
    (k ≤ s.bitsRemaining →
      exec i s = .next { s.advance k with extra := e, curLen := b + e, seq := .dist, sym := sym }) ∧
    (s.bitsRemaining < k →
      exec i s = .next { s with errKind := .outOfBounds, errCause := .inExhausted, phase := .error })

/-- LL_RSV_286, LL_RSV_287, DIST_RSV_30 and DIST_RSV_31 raise before anything further is read (44_block_body.md R194, R196),
and have no other effect: that `sym`, which R198 writes before the raise, stays as it was is 60_exceptions.md R235 as
assumptions 3 and 20 read it. -/
def Obligations.ReservedSymbolsRaise : Prop :=
  ∀ (i : Instr) (s : State),
    (i = .llRsv286 ∨ i = .llRsv287 →
      exec i s = .next { s with errKind := .corruptData, errCause := .llSymbolReserved, phase := .error }) ∧
    (i = .distRsv30 ∨ i = .distRsv31 →
      exec i s = .next { s with errKind := .corruptData, errCause := .distSymbolReserved, phase := .error })

/-- DIST_0 to DIST_29: with (extra, base) the symbol's row of 42_fixed_tables.md R154, `cur_dist` is the base plus the extra
bits, and the copy appends `cur_len` bytes that repeat the last `cur_dist` bytes of the output periodically
(44_block_body.md R193, R195; the closed form is R199, which the spec marks as its own inference from R195 and 20_memory.md
R72). That `extra` takes the extra bits' value and `sym` the symbol is assumption 20; the place `seq` is assumption 1. -/
def Obligations.DistanceSymbolCopies : Prop :=
  ∀ (i : Instr) (d e k b : Nat) (s : State),
    i.element = (.dsym, d, e) →
    [(0, 1), (0, 2), (0, 3), (0, 4), (1, 5), (1, 7), (2, 9), (2, 13), (3, 17), (3, 25), (4, 33), (4, 49), (5, 65), (5, 97),
      (6, 129), (6, 193), (7, 257), (7, 385), (8, 513), (8, 769), (9, 1025), (9, 1537), (10, 2049), (10, 3073),
      (11, 4097), (11, 6145), (12, 8193), (12, 12289), (13, 16385), (13, 24577)][d]? = some (k, b) →
    k ≤ s.bitsRemaining → s.curBit < 8 →
    b + e ≤ s.outLen → (∀ cap, s.params.outCap = some cap → s.outLen + s.curLen ≤ cap) →
    ∃ t, exec i s = .next t ∧
      (∀ j, j < s.curLen → t.outByte (s.outLen + j) = s.outByte (s.outLen - (b + e) + j % (b + e))) ∧
      (∀ a, a < s.outLen ∨ s.outLen + s.curLen ≤ a → t.outByte a = s.outByte a) ∧
      t = { s.advance k with
        extra := e, curDist := b + e, outMem := t.outMem, outLen := s.outLen + s.curLen, seq := .ll
        sym := d }

/-- A distance greater than the output so far, with (extra, base) the symbol's row of 42_fixed_tables.md R154, raises
CorruptData(DIST_TOO_FAR) before any byte is copied, and has no effect beyond the bits consumed (44_block_body.md R193, R195,
60_exceptions.md R235; assumption 3). -/
def Obligations.DistanceTooFarRaises : Prop :=
  ∀ (i : Instr) (d e k b : Nat) (s : State),
    i.element = (.dsym, d, e) →
    [(0, 1), (0, 2), (0, 3), (0, 4), (1, 5), (1, 7), (2, 9), (2, 13), (3, 17), (3, 25), (4, 33), (4, 49), (5, 65), (5, 97),
      (6, 129), (6, 193), (7, 257), (7, 385), (8, 513), (8, 769), (9, 1025), (9, 1537), (10, 2049), (10, 3073),
      (11, 4097), (11, 6145), (12, 8193), (12, 12289), (13, 16385), (13, 24577)][d]? = some (k, b) →
    k ≤ s.bitsRemaining → s.curBit < 8 → s.outLen < b + e →
    exec i s = .next { s.advance k with
      errKind := .corruptData, errCause := .distTooFar, phase := .error }

/-- A copy that does not fit, with (extra, base) the symbol's row of 42_fixed_tables.md R154, raises OutputOverflow(OUT_FULL)
(44_block_body.md R195, R197), and has no effect beyond the bits consumed: OUT and `out_len` are as before the element
(60_exceptions.md R235; assumption 3). -/
def Obligations.CopyIntoFullOutputRaises : Prop :=
  ∀ (i : Instr) (d e k b cap : Nat) (s : State),
    i.element = (.dsym, d, e) →
    [(0, 1), (0, 2), (0, 3), (0, 4), (1, 5), (1, 7), (2, 9), (2, 13), (3, 17), (3, 25), (4, 33), (4, 49), (5, 65), (5, 97),
      (6, 129), (6, 193), (7, 257), (7, 385), (8, 513), (8, 769), (9, 1025), (9, 1537), (10, 2049), (10, 3073),
      (11, 4097), (11, 6145), (12, 8193), (12, 12289), (13, 16385), (13, 24577)][d]? = some (k, b) →
    k ≤ s.bitsRemaining → s.curBit < 8 → b + e ≤ s.outLen →
    s.params.outCap = some cap → s.outLen ≤ cap → cap < s.outLen + s.curLen →
    exec i s = .next { s.advance k with errKind := .outputOverflow, errCause := .outFull, phase := .error }

/-- Extra bits cut short raise OutOfBounds(IN_EXHAUSTED), with no other effect: after a distance symbol, whose row of
42_fixed_tables.md R154 is (k, base), or after a code-length symbol that repeats, which has k extra bits (44_block_body.md
R193, 43_block_header.md R172, R173, R174). -/
def Obligations.CutShortExtraBitsRaise : Prop :=
  ∀ (i : Instr) (f : Format) (d e k b : Nat) (s : State),
    i.element = (f, d, e) →
    (f = .clsym ∧ (d, k) ∈ [(16, 2), (17, 3), (18, 7)] ∧ (d = 16 → s.prevLen ≠ none)) ∨
    (f = .dsym ∧
      [(0, 1), (0, 2), (0, 3), (0, 4), (1, 5), (1, 7), (2, 9), (2, 13), (3, 17), (3, 25), (4, 33), (4, 49), (5, 65), (5, 97),
      (6, 129), (6, 193), (7, 257), (7, 385), (8, 513), (8, 769), (9, 1025), (9, 1537), (10, 2049), (10, 3073),
      (11, 4097), (11, 6145), (12, 8193), (12, 12289), (13, 16385), (13, 24577)][d]? = some (k, b)) →
    s.bitsRemaining < k →
    exec i s = .next { s with errKind := .outOfBounds, errCause := .inExhausted, phase := .error }

/-! ## Sessions, host and reset -/

/-- A START while not BUSY starts a session from nothing: it clears ERROR and OUT_LEN, takes IN_LEN, and puts the cursor at
the header; a START while BUSY changes nothing (10_state.md R21, R43). The place `seq` is assumption 1, and the count of
sessions and the host's bytes of OUT are the model's own fields (assumption 2). -/
def Obligations.StartBeginsASession : Prop :=
  ∀ (r : BitVec 31) (s : State),
    (s.status ≠ .busy →
      exec (.cmdStart r) s = .next { s with
        phase := .zhdr, seq := .head, errKind := .none, errCause := .none
        inLen := s.inLenReg.toNat, outLen := 0, curByte := 0, curBit := 0
        sessions := s.sessions + 1, hostOut := [] }) ∧
    (s.status = .busy → exec (.cmdStart r) s = .next s)

/-- CTRL.START at the host's port: a write of 1 is the command CMD_START, whatever the reserved bits hold; a write of 0 does
nothing; CTRL reads 0 while not BUSY (10_state.md R20, R21). That it does so after an error too, where 45_stream.md R221 leaves
every register but STATUS and ERROR open, is the model's choice (assumption 18). -/
def Obligations.ControlRegister : Prop :=
  ∀ (s : State) (v : Word) (rest : List Input),
    (v.getLsbD 0 = true → ∃ r : BitVec 31,
      step { s with inputs := .writeReg 0x00 v :: rest } = exec (.cmdStart r) { s with inputs := rest }) ∧
    (v.getLsbD 0 = false →
      step { s with inputs := .writeReg 0x00 v :: rest } = .next { s with inputs := rest }) ∧
    (s.status ≠ .busy →
      ∃ t, step { s with inputs := .readReg 0x00 :: rest } = .next t ∧ t.regData = 0)

/-- While BUSY a write of a register is ignored, and a write of IN or OUT has no move (10_state.md R20, R21, R24,
20_memory.md R74, 45_stream.md R220; that a write of OUT has no move either is assumption 9). -/
def Obligations.WritesWhileBusy : Prop :=
  ∀ (s : State) (rest : List Input), s.status = .busy →
    (∀ (v : Word) (offset : Nat), offset ∈ [0x00, 0x04, 0x08, 0x0C, 0x10, 0x14, 0x18, 0x1C] →
      step { s with inputs := .writeReg offset v :: rest } = .next { s with inputs := rest }) ∧
    (∀ a b, step { s with inputs := .writeIn a b :: rest } = .fault .hostWroteInWhileBusy) ∧
    (∀ a b, step { s with inputs := .writeOut a b :: rest } = .fault .hostWroteOutWhileBusy)

/-- Host writes while not BUSY: bytes of IN and OUT and IN_LEN take the value, and the read-only registers ignore the write
(10_state.md R20, R24, 45_stream.md R220). That a host write of OUT takes effect, against 20_memory.md R73, is assumption 27;
the model also records it in its own field `hostOut` (assumption 2). -/
def Obligations.WritesWhileNotBusy : Prop :=
  ∀ (s : State) (rest : List Input), s.status ≠ .busy →
    (∀ a b, ∃ t, step { s with inputs := .writeIn a b :: rest } = .next t ∧
      t.inByte a = b ∧ (∀ c, c ≠ a → t.inByte c = s.inByte c) ∧ t = { s with inputs := rest, inMem := t.inMem }) ∧
    (∀ a b, ∃ t, step { s with inputs := .writeOut a b :: rest } = .next t ∧
      t.outByte a = b ∧ (∀ c, c ≠ a → t.outByte c = s.outByte c) ∧
      t = { s with inputs := rest, outMem := t.outMem, hostOut := t.hostOut }) ∧
    (∀ v : Word, v.toNat ≤ s.params.inLenMax →
      step { s with inputs := .writeReg 0x0C v :: rest } = .next { s with inputs := rest, inLenReg := v }) ∧
    (∀ (v : Word) (offset : Nat), offset ∈ [0x04, 0x08, 0x10, 0x14, 0x18, 0x1C] →
      step { s with inputs := .writeReg offset v :: rest } = .next { s with inputs := rest })

/-- What the host reads: STATUS always; ERROR after an error, its kind and cause by the numbers of 10_state.md R23 and
60_exceptions.md R231, and 0 while IDLE or DONE; IN_LEN while IDLE or DONE; and after DONE the result, OUT_LEN, ZLIB_HDR,
BLOCK and CURSOR, each field in its place (10_state.md R20, R22 to R28, 45_stream.md R215). The values come back in the
model's own fields (assumption 8). -/
def Obligations.HostReadsTheRegisters : Prop :=
  ∀ (s : State) (rest : List Input),
    (∃ t, step { s with inputs := .readReg 0x04 :: rest } = .next t ∧
      t.regData = (match s.status with | .idle => 0 | .busy => 1 | .done => 2 | .error => 3)) ∧
    (s.status = .error →
      ∃ t, step { s with inputs := .readReg 0x08 :: rest } = .next t ∧
        t.regData.toNat =
          (match s.errKind with
            | .none => 0 | .malformedHeader => 1 | .unsupported => 2 | .corruptData => 3 | .outOfBounds => 4
            | .outputOverflow => 5) +
          2 ^ 8 * (match s.errCause with
            | .none => 0 | .hdrFcheck => 1 | .storedBlock => 2 | .presetDict => 3 | .btypeReserved => 4
            | .hlitRange => 5 | .hdistRange => 6 | .codeOverflow => 7 | .treeContradiction => 8 | .invalidCode => 9
            | .repeatNoPrev => 10 | .repeatOverrun => 11 | .distTooFar => 12 | .llSymbolReserved => 13
            | .distSymbolReserved => 14 | .inExhausted => 15 | .hdrShort => 16 | .outFull => 17)) ∧
    (s.status = .idle ∨ s.status = .done →
      (ErrorOk s → ∃ t, step { s with inputs := .readReg 0x08 :: rest } = .next t ∧ t.regData = 0) ∧
      (∃ t, step { s with inputs := .readReg 0x0C :: rest } = .next t ∧ t.regData = s.inLenReg)) ∧
    (s.status = .done →
      (∀ a, a < s.outLen →
        ∃ t, step { s with inputs := .readOut a :: rest } = .next t ∧ t.outData = s.outByte a) ∧
      (s.outLen < 2 ^ 32 →
        ∃ t, step { s with inputs := .readReg 0x10 :: rest } = .next t ∧ t.regData.toNat = s.outLen) ∧
      (∃ t, step { s with inputs := .readReg 0x14 :: rest } = .next t ∧
        t.regData.toNat = s.cmf.toNat + s.flg.toNat * 2 ^ 8 + s.cm.toNat * 2 ^ 16 + s.fdict.toNat * 2 ^ 20) ∧
      (∃ t, step { s with inputs := .readReg 0x18 :: rest } = .next t ∧
        t.regData.toNat = s.blockFinal.toNat + s.blockType.toNat * 2) ∧
      (s.curByte < 2 ^ 29 → s.curBit < 8 →
        ∃ t, step { s with inputs := .readReg 0x1C :: rest } = .next t ∧
          t.regData.toNat = s.curBit + s.curByte * 2 ^ 3))

/-- A host read changes nothing the block holds: only the model's returned value and count of free values (20_memory.md
R69). -/
def Obligations.HostReadsChangeNothing : Prop :=
  ∀ (s t : State) (x : Input) (rest : List Input),
    (∃ offset, x = .readReg offset) ∨ (∃ a, x = .readOut a) →
    step { s with inputs := x :: rest } = .next t →
    t = { s with inputs := rest, regData := t.regData, outData := t.outData, draws := t.draws }

/-- While not BUSY a host read of an OUT byte returns the same byte whatever is read before it, that byte itself too, and
after an idle turn of the engine; a byte the host writes reads back, and every other byte as before (20_memory.md R69,
45_stream.md R220; that a host write of OUT takes effect is assumption 27, and where the spec leaves the byte open it is a
free value, assumption 2). -/
def Obligations.HostReadsOfOutAgree : Prop :=
  ∀ (s : State) (a : Nat) (rest : List Input), s.status ≠ .busy →
    (∀ x, x = .engine ∨ (∃ c, x = .readOut c) ∨
        (∃ offset, x = .readReg offset ∧ offset ∈ [0x00, 0x04, 0x08, 0x0C, 0x10, 0x14, 0x18, 0x1C]) →
      ∃ t u v, step { s with inputs := .readOut a :: rest } = .next t ∧
        step { s with inputs := x :: .readOut a :: rest } = .next u ∧ step u = .next v ∧ v.outData = t.outData) ∧
    (∀ c b,
      ∃ t u v, step { s with inputs := .readOut a :: rest } = .next t ∧
        step { s with inputs := .writeOut c b :: .readOut a :: rest } = .next u ∧ step u = .next v ∧
        v.outData = if a = c then b else t.outData)

/-- Reset, at any time, leaves the values the spec gives (10_state.md R42, 70_reset_and_hazards.md R260), and the parameters
as they were (R262). -/
def Obligations.ResetLeavesTheSpecsValues : Prop :=
  ∀ (s : State) (rest : List Input),
    ∃ t, step { s with inputs := .reset :: rest } = .next t ∧
      t.status = .idle ∧ t.phase = .idle ∧ t.errKind = .none ∧ t.errCause = .none ∧
      t.inLenReg = 0 ∧ t.inLen = 0 ∧ t.outLen = 0 ∧ t.cmf = 0 ∧ t.flg = 0 ∧ t.cm = 0 ∧ t.fdict = false ∧
      t.blockFinal = false ∧ t.blockType = 0 ∧ t.curByte = 0 ∧ t.curBit = 0 ∧ t.params = s.params

/-- Every transition of STATUS.STATE (70_reset_and_hazards.md R264, which the spec marks as its own inference from 10_state.md
R21, R22, R260 and 45_stream.md R214): reset leads to IDLE; a START leads from any state but BUSY to BUSY and leaves BUSY
alone; from BUSY, only a reset leads to IDLE, only the engine's turn on EOB of a final block to DONE, only a raise to ERROR;
nothing else changes it. -/
def Obligations.StatusTransitions : Prop :=
  ∀ s t : State, step s = .next t →
    (∀ x rest, s.inputs = x :: rest → x.isReset = true → t.status = .idle) ∧
    (∀ x rest, s.inputs = x :: rest → x.isStart = true → t.status = .busy) ∧
    (s.status = .busy → t.status = .idle → ∃ x rest, s.inputs = x :: rest ∧ x.isReset = true) ∧
    (s.status = .busy → t.status = .done →
      (s.inputs = [] ∨ ∃ rest, s.inputs = .engine :: rest) ∧
      s.bfinal = true ∧ ∃ u, fetch .llsym { s with inputs := s.inputs.tail } = .ok .eob u) ∧
    (s.status = .busy → t.status = .error → t.errCause ≠ .none ∧ t.errKind = t.errCause.kind) ∧
    (s.status ≠ .busy → t.status ≠ s.status →
      ∃ x rest, s.inputs = x :: rest ∧
        ((x.isReset = true ∧ t.status = .idle) ∨ (x.isStart = true ∧ t.status = .busy)))

/-- A step with no input pending runs the element at the cursor: what the fetch gives, with the cursor behind its code; a
raise of the fetch is taken; an idle block does nothing (60_exceptions.md R236, R241). That a step is one stream element is
assumption 1, that the engine takes its turn when no input is pending is assumption 8, and what the fetch does of an element
and what its meaning does is assumption 13. -/
def Obligations.StepRunsTheFetchedElement : Prop :=
  ∀ s : State, s.inputs = [] →
    (∀ k i u, s.nextSlot = some k → fetch k s = .ok i u → step s = exec i u) ∧
    (∀ k c u, s.nextSlot = some k → fetch k s = .raised c u →
      step s = .next { u with errKind := c.kind, errCause := c, phase := .error }) ∧
    (s.status ≠ .busy → step s = .next s)

/-- A command word on an internal port runs, in a session, as the command it encodes (30_encoding.md R97). That a word can
arrive at a port as an input, between two elements of a session, is the model's choice (assumption 12). -/
def Obligations.StepRunsAPortCommand : Prop :=
  ∀ (s : State) (i : Instr) (w : Nat) (rest : List Input), s.status = .busy →
    (decode .bccmd w = .ok i →
      step { s with inputs := .command .bitCursor w :: rest } = exec i { s with inputs := rest }) ∧
    (decode .hufcmd w = .ok i →
      step { s with inputs := .command .huffman w :: rest } = exec i { s with inputs := rest })

/-! ## Invariants and whole-machine rules -/

/-- The state after reset has the invariant. It rests on the model's reset values (assumption 4) wherever 10_state.md R42 leaves
a value unspecified, and on R42's own for the others. -/
def Obligations.ResetHasTheInvariant : Prop :=
  ∀ p : Config.Params, p.wf = true → Inv (State.resetWith p) ∧ PrevLenOk (State.resetWith p)

/-- Every step keeps the invariant: the cursor normalised and within the input (10_state.md R27, 40_bit_cursor.md R123),
every register and every entry of a register file in the range of its width (10_state.md R31), the arenas within their
capacity (R34), the memories in canonical form, ERROR set exactly in STATE = ERROR (R23). -/
def Obligations.EveryStepKeepsTheInvariant : Prop :=
  ∀ s t : State, Inv s → step s = .next t → Inv t

/-- `prev_len` is always `none` or the value of the last entry written (43_block_header.md R177). -/
def Obligations.EveryStepKeepsThePreviousLength : Prop :=
  ∀ s t : State, Inv s → PrevLenOk s → step s = .next t → PrevLenOk t

/-- The engine never writes IN, writes OUT only at or above `out_len`, and never moves the cursor backwards, but for the
header, which places it (20_memory.md R60, R66, 40_bit_cursor.md R123, 45_stream.md R212). -/
def Obligations.EngineWritesOnlyNewOutput : Prop :=
  ∀ s t : State, Inv s → engineStep s = .next t →
    (∀ a, t.inByte a = s.inByte a) ∧ (∀ a, a < s.outLen → t.outByte a = s.outByte a) ∧
    s.outLen ≤ t.outLen ∧ (s.phase ≠ .zhdr → s.cursorPos ≤ t.cursorPos)

/-- No step changes the parameters (70_reset_and_hazards.md R262). -/
def Obligations.ParametersNeverChange : Prop :=
  ∀ s t : State, step s = .next t → t.params = s.params

/-- Every session ends: within a number of steps bounded by its input the engine is no longer BUSY, and a session that was
running has reached DONE or ERROR (45_stream.md R219). No build of the engine passes its arena's capacity (10_state.md R34,
41_huffman.md R136, R141), so no refusal ends one. The bound counts the model's steps, one stream element each
(assumption 1). -/
def Obligations.EverySessionEnds : Prop :=
  ∀ s : State, Inv s → s.inputs = [] →
    ∃ n t, n ≤ 8 * s.inLen + 2 ∧ core.run n s = .next t ∧ t.busy = false ∧
      (s.busy = true → t.status = .done ∨ t.status = .error)

/-- The machine, step by step, does what the session's pseudocode does (45_stream.md R214): from a START, it ends in the
state the algorithm ends in, DONE or ERROR, but for the place inside a phase, which the algorithm does not have. The
algorithm always ends in a state: no build of its passes an arena's capacity (10_state.md R34, 41_huffman.md R141). What the
element that raises wrote is undone on both sides (60_exceptions.md R235; assumption 3). -/
def Obligations.SessionRunsTheSpecsAlgorithm : Prop :=
  ∀ s : State, Inv s → s.busy = false → s.inputs = [] →
    ∃ u n t, (specSession s).final = some u ∧
      core.run n s.startSession = .next t ∧ t.busy = false ∧ t.forgetPlace = u.forgetPlace

/-- A session's outcome is a function of IN[0 .. IN_LEN-1] at START and the parameters: two blocks that agree on these show
the same at every step, whatever else their states hold (45_stream.md R218, 10_state.md R44). -/
def Obligations.OutcomeDependsOnTheInputOnly : Prop :=
  ∀ (s t : State) (n : Nat), Inv s → Inv t → SameInput s t → s.busy = false → t.busy = false →
    s.inputs = [] → t.inputs = [] →
    observeRun (core.run n s.startSession) = observeRun (core.run n t.startSession)

/-! ## Frames -/

/-- What ZLIB_HEADER, the block headers and DYN_HEADER leave alone: both memories; the code-length table, the trees, the
back-reference, `sym`, `out_len` and the host's registers; ZLIB_HDR but for ZLIB_HEADER; the block registers and the tree
pair but for a block header; the counts and the code-length code lengths but for DYN_HEADER; ERROR but for an error. One that
raises changes nothing but the cursor and the error (60_exceptions.md R235; assumption 3). -/
def Obligations.HeaderElementsFrame : Prop :=
  ∀ (i : Instr) (s t : State), i.format = .zhdr ∨ i.format = .bhdr ∨ i.format = .dynhdr → exec i s = .next t →
    SameMemory s t ∧ SameTable s t ∧ SameTrees s t ∧ SameBackref s t ∧ SameHost s t ∧ t.sym = s.sym ∧
    t.outLen = s.outLen ∧ t.bcData = s.bcData ∧ (i.format = .zhdr ∨ SameZlibHdr s t) ∧
    (i.format = .bhdr ∨ (SameBlock s t ∧ SamePair s t)) ∧ (i.format = .dynhdr ∨ (SameCounts s t ∧ SameClLens s t)) ∧
    (t.phase = .error ∨ SameError s t) ∧ RaiseIsPrecise s t

/-- What CLCL_FIELD and the code-length symbols leave alone: both memories; ZLIB_HDR, the block registers, the counts, the
back-reference, `out_len` and the host's registers; for CLCL_FIELD the table's entries, LLT, DT, the tree pair and `sym`; for
the code-length symbols the code-length code lengths and CLT; ERROR but for an error. One that raises changes nothing but the
cursor and the error (60_exceptions.md R235), unless it is the build after it that raises (assumption 3). That a code-length
symbol's element writes `sym` is assumption 20. -/
def Obligations.TableElementsFrame : Prop :=
  ∀ (i : Instr) (s t : State), i.format = .clcl ∨ i.format = .clsym → exec i s = .next t →
    SameMemory s t ∧ SameZlibHdr s t ∧ SameBlock s t ∧ SameCounts s t ∧ SameBackref s t ∧ SameHost s t ∧
    t.outLen = s.outLen ∧ t.bcData = s.bcData ∧
    (i.format = .clcl →
      t.lenTable = s.lenTable ∧ t.rep = s.rep ∧ t.llt = s.llt ∧ t.dt = s.dt ∧ t.sym = s.sym ∧ SamePair s t) ∧
    (i.format = .clsym → SameClLens s t ∧ t.clt = s.clt) ∧ (t.phase = .error ∨ SameError s t) ∧
    (t.errCause ≠ .codeOverflow → t.errCause ≠ .treeContradiction → RaiseIsPrecise s t)

/-- What the body's elements leave alone: IN; ZLIB_HDR, the block registers, the counts, the table, the trees, the tree
pair and the host's registers; for a literal and EOB the cursor and the back-reference; of OUT every byte but the one a
literal appends at `out_len`, or the `cur_len` bytes a distance symbol appends from `out_len` on; all of OUT for the others;
ERROR but for an error. One that raises changes nothing but the cursor and the error, so nothing of OUT (60_exceptions.md
R235; assumption 3). That a symbol's element writes `sym` is assumption 20. -/
def Obligations.BodyElementsFrame : Prop :=
  ∀ (i : Instr) (s t : State), i.format = .llsym ∨ i.format = .dsym → exec i s = .next t →
    (∀ a, t.inByte a = s.inByte a) ∧ SameZlibHdr s t ∧ SameBlock s t ∧ SameCounts s t ∧ SameTable s t ∧
    SameClLens s t ∧ SameTrees s t ∧ SamePair s t ∧ SameHost s t ∧ t.bcData = s.bcData ∧
    (∀ a, (∀ b, i = .lit b → a ≠ s.outLen) → (i.format = .dsym → a < s.outLen ∨ s.outLen + s.curLen ≤ a) →
      t.outByte a = s.outByte a) ∧
    (i.format = .llsym → (∀ b, i ≠ .lit b) → t.outLen = s.outLen ∧ ∀ a, t.outByte a = s.outByte a) ∧
    (i.format = .dsym → t.curLen = s.curLen) ∧ (i.format = .llsym → t.curDist = s.curDist) ∧
    (i = .eob ∨ (∃ b, i = .lit b) → SameBackref s t ∧ SameCursor s t) ∧
    (t.phase = .error ∨ SameError s t) ∧ RaiseIsPrecise s t

/-- What the internal commands leave alone: both memories; ZLIB_HDR, the block registers, the counts, the table, the
code-length code lengths, the tree pair, the back-reference, `out_len`, the place in the sequence of elements and the host's
registers; for a bit-cursor command also the trees and `sym`; ERROR but for an error (40_bit_cursor.md R128, 41_huffman.md
R142). One that raises changes nothing but the cursor and the error (60_exceptions.md R235; assumption 3). -/
def Obligations.CommandsFrame : Prop :=
  ∀ (i : Instr) (s t : State), i.format = .bccmd ∨ i.format = .hufcmd → exec i s = .next t →
    SameMemory s t ∧ SameZlibHdr s t ∧ SameBlock s t ∧ SameCounts s t ∧ SameTable s t ∧ SameClLens s t ∧ SamePair s t ∧
    SameBackref s t ∧ SameHost s t ∧ t.outLen = s.outLen ∧ t.seq = s.seq ∧
    (i.format = .bccmd → SameTrees s t ∧ t.sym = s.sym) ∧ (i.format = .hufcmd → t.bcData = s.bcData) ∧
    (∀ tree, i = .hufBuild tree → SameCursor s t ∧ t.sym = s.sym) ∧
    (∀ tree, i = .hufLookup tree → SameTrees s t) ∧
    (t.phase = .error ∨ (t.phase = s.phase ∧ SameError s t)) ∧ RaiseIsPrecise s t
end

