-- ==== Sys2Proof/Laws/State.lean ====
section
/-! SUPPORT. What each state update leaves in each field: one lemma per field and update, so that no proof unfolds a record
update. Generated from the definitions; each is true by unfolding. -/

namespace Sys2Proof.Machine

/-! ## raiseError -/

@[simp] theorem raiseError_phase (s : State) (c : Cause) : (s.raiseError c).phase = .error := rfl
@[simp] theorem raiseError_seq (s : State) (c : Cause) : (s.raiseError c).seq = s.seq := rfl
@[simp] theorem raiseError_errKind (s : State) (c : Cause) : (s.raiseError c).errKind = c.kind := rfl
@[simp] theorem raiseError_errCause (s : State) (c : Cause) : (s.raiseError c).errCause = c := rfl
@[simp] theorem raiseError_inLenReg (s : State) (c : Cause) : (s.raiseError c).inLenReg = s.inLenReg := rfl
@[simp] theorem raiseError_inLen (s : State) (c : Cause) : (s.raiseError c).inLen = s.inLen := rfl
@[simp] theorem raiseError_outLen (s : State) (c : Cause) : (s.raiseError c).outLen = s.outLen := rfl
@[simp] theorem raiseError_cmf (s : State) (c : Cause) : (s.raiseError c).cmf = s.cmf := rfl
@[simp] theorem raiseError_flg (s : State) (c : Cause) : (s.raiseError c).flg = s.flg := rfl
@[simp] theorem raiseError_cm (s : State) (c : Cause) : (s.raiseError c).cm = s.cm := rfl
@[simp] theorem raiseError_fdict (s : State) (c : Cause) : (s.raiseError c).fdict = s.fdict := rfl
@[simp] theorem raiseError_blockFinal (s : State) (c : Cause) : (s.raiseError c).blockFinal = s.blockFinal := rfl
@[simp] theorem raiseError_blockType (s : State) (c : Cause) : (s.raiseError c).blockType = s.blockType := rfl
@[simp] theorem raiseError_curByte (s : State) (c : Cause) : (s.raiseError c).curByte = s.curByte := rfl
@[simp] theorem raiseError_curBit (s : State) (c : Cause) : (s.raiseError c).curBit = s.curBit := rfl
@[simp] theorem raiseError_bfinal (s : State) (c : Cause) : (s.raiseError c).bfinal = s.bfinal := rfl
@[simp] theorem raiseError_btype (s : State) (c : Cause) : (s.raiseError c).btype = s.btype := rfl
@[simp] theorem raiseError_hlit (s : State) (c : Cause) : (s.raiseError c).hlit = s.hlit := rfl
@[simp] theorem raiseError_hdist (s : State) (c : Cause) : (s.raiseError c).hdist = s.hdist := rfl
@[simp] theorem raiseError_hclen (s : State) (c : Cause) : (s.raiseError c).hclen = s.hclen := rfl
@[simp] theorem raiseError_clclIdx (s : State) (c : Cause) : (s.raiseError c).clclIdx = s.clclIdx := rfl
@[simp] theorem raiseError_clLens (s : State) (c : Cause) : (s.raiseError c).clLens = s.clLens := rfl
@[simp] theorem raiseError_lenTable (s : State) (c : Cause) : (s.raiseError c).lenTable = s.lenTable := rfl
@[simp] theorem raiseError_lenIdx (s : State) (c : Cause) : (s.raiseError c).lenIdx = s.lenIdx := rfl
@[simp] theorem raiseError_prevLen (s : State) (c : Cause) : (s.raiseError c).prevLen = s.prevLen := rfl
@[simp] theorem raiseError_rep (s : State) (c : Cause) : (s.raiseError c).rep = s.rep := rfl
@[simp] theorem raiseError_clt (s : State) (c : Cause) : (s.raiseError c).clt = s.clt := rfl
@[simp] theorem raiseError_llt (s : State) (c : Cause) : (s.raiseError c).llt = s.llt := rfl
@[simp] theorem raiseError_dt (s : State) (c : Cause) : (s.raiseError c).dt = s.dt := rfl
@[simp] theorem raiseError_blCount (s : State) (c : Cause) : (s.raiseError c).blCount = s.blCount := rfl
@[simp] theorem raiseError_nextCode (s : State) (c : Cause) : (s.raiseError c).nextCode = s.nextCode := rfl
@[simp] theorem raiseError_sym (s : State) (c : Cause) : (s.raiseError c).sym = s.sym := rfl
@[simp] theorem raiseError_curLen (s : State) (c : Cause) : (s.raiseError c).curLen = s.curLen := rfl
@[simp] theorem raiseError_curDist (s : State) (c : Cause) : (s.raiseError c).curDist = s.curDist := rfl
@[simp] theorem raiseError_extra (s : State) (c : Cause) : (s.raiseError c).extra = s.extra := rfl
@[simp] theorem raiseError_llSel (s : State) (c : Cause) : (s.raiseError c).llSel = s.llSel := rfl
@[simp] theorem raiseError_dSel (s : State) (c : Cause) : (s.raiseError c).dSel = s.dSel := rfl
@[simp] theorem raiseError_inMem (s : State) (c : Cause) : (s.raiseError c).inMem = s.inMem := rfl
@[simp] theorem raiseError_outMem (s : State) (c : Cause) : (s.raiseError c).outMem = s.outMem := rfl
@[simp] theorem raiseError_params (s : State) (c : Cause) : (s.raiseError c).params = s.params := rfl
@[simp] theorem raiseError_draws (s : State) (c : Cause) : (s.raiseError c).draws = s.draws := rfl
@[simp] theorem raiseError_epoch (s : State) (c : Cause) : (s.raiseError c).epoch = s.epoch := rfl
@[simp] theorem raiseError_sessions (s : State) (c : Cause) : (s.raiseError c).sessions = s.sessions := rfl
@[simp] theorem raiseError_hostOut (s : State) (c : Cause) : (s.raiseError c).hostOut = s.hostOut := rfl
@[simp] theorem raiseError_inputs (s : State) (c : Cause) : (s.raiseError c).inputs = s.inputs := rfl
@[simp] theorem raiseError_regData (s : State) (c : Cause) : (s.raiseError c).regData = s.regData := rfl
@[simp] theorem raiseError_outData (s : State) (c : Cause) : (s.raiseError c).outData = s.outData := rfl
@[simp] theorem raiseError_bcData (s : State) (c : Cause) : (s.raiseError c).bcData = s.bcData := rfl

/-! ## startSession -/

@[simp] theorem startSession_phase (s : State) : s.startSession.phase = .zhdr := rfl
@[simp] theorem startSession_seq (s : State) : s.startSession.seq = .head := rfl
@[simp] theorem startSession_errKind (s : State) : s.startSession.errKind = .none := rfl
@[simp] theorem startSession_errCause (s : State) : s.startSession.errCause = .none := rfl
@[simp] theorem startSession_inLenReg (s : State) : s.startSession.inLenReg = s.inLenReg := rfl
@[simp] theorem startSession_inLen (s : State) : s.startSession.inLen = s.inLenReg.toNat := rfl
@[simp] theorem startSession_outLen (s : State) : s.startSession.outLen = 0 := rfl
@[simp] theorem startSession_cmf (s : State) : s.startSession.cmf = s.cmf := rfl
@[simp] theorem startSession_flg (s : State) : s.startSession.flg = s.flg := rfl
@[simp] theorem startSession_cm (s : State) : s.startSession.cm = s.cm := rfl
@[simp] theorem startSession_fdict (s : State) : s.startSession.fdict = s.fdict := rfl
@[simp] theorem startSession_blockFinal (s : State) : s.startSession.blockFinal = s.blockFinal := rfl
@[simp] theorem startSession_blockType (s : State) : s.startSession.blockType = s.blockType := rfl
@[simp] theorem startSession_curByte (s : State) : s.startSession.curByte = 0 := rfl
@[simp] theorem startSession_curBit (s : State) : s.startSession.curBit = 0 := rfl
@[simp] theorem startSession_bfinal (s : State) : s.startSession.bfinal = s.bfinal := rfl
@[simp] theorem startSession_btype (s : State) : s.startSession.btype = s.btype := rfl
@[simp] theorem startSession_hlit (s : State) : s.startSession.hlit = s.hlit := rfl
@[simp] theorem startSession_hdist (s : State) : s.startSession.hdist = s.hdist := rfl
@[simp] theorem startSession_hclen (s : State) : s.startSession.hclen = s.hclen := rfl
@[simp] theorem startSession_clclIdx (s : State) : s.startSession.clclIdx = s.clclIdx := rfl
@[simp] theorem startSession_clLens (s : State) : s.startSession.clLens = s.clLens := rfl
@[simp] theorem startSession_lenTable (s : State) : s.startSession.lenTable = s.lenTable := rfl
@[simp] theorem startSession_lenIdx (s : State) : s.startSession.lenIdx = s.lenIdx := rfl
@[simp] theorem startSession_prevLen (s : State) : s.startSession.prevLen = s.prevLen := rfl
@[simp] theorem startSession_rep (s : State) : s.startSession.rep = s.rep := rfl
@[simp] theorem startSession_clt (s : State) : s.startSession.clt = s.clt := rfl
@[simp] theorem startSession_llt (s : State) : s.startSession.llt = s.llt := rfl
@[simp] theorem startSession_dt (s : State) : s.startSession.dt = s.dt := rfl
@[simp] theorem startSession_blCount (s : State) : s.startSession.blCount = s.blCount := rfl
@[simp] theorem startSession_nextCode (s : State) : s.startSession.nextCode = s.nextCode := rfl
@[simp] theorem startSession_sym (s : State) : s.startSession.sym = s.sym := rfl
@[simp] theorem startSession_curLen (s : State) : s.startSession.curLen = s.curLen := rfl
@[simp] theorem startSession_curDist (s : State) : s.startSession.curDist = s.curDist := rfl
@[simp] theorem startSession_extra (s : State) : s.startSession.extra = s.extra := rfl
@[simp] theorem startSession_llSel (s : State) : s.startSession.llSel = s.llSel := rfl
@[simp] theorem startSession_dSel (s : State) : s.startSession.dSel = s.dSel := rfl
@[simp] theorem startSession_inMem (s : State) : s.startSession.inMem = s.inMem := rfl
@[simp] theorem startSession_outMem (s : State) : s.startSession.outMem = s.outMem := rfl
@[simp] theorem startSession_params (s : State) : s.startSession.params = s.params := rfl
@[simp] theorem startSession_draws (s : State) : s.startSession.draws = s.draws := rfl
@[simp] theorem startSession_epoch (s : State) : s.startSession.epoch = s.epoch := rfl
@[simp] theorem startSession_sessions (s : State) : s.startSession.sessions = s.sessions + 1 := rfl
@[simp] theorem startSession_hostOut (s : State) : s.startSession.hostOut = [] := rfl
@[simp] theorem startSession_inputs (s : State) : s.startSession.inputs = s.inputs := rfl
@[simp] theorem startSession_regData (s : State) : s.startSession.regData = s.regData := rfl
@[simp] theorem startSession_outData (s : State) : s.startSession.outData = s.outData := rfl
@[simp] theorem startSession_bcData (s : State) : s.startSession.bcData = s.bcData := rfl

/-! ## writeOut -/

@[simp] theorem writeOut_phase (s : State) (a : Nat) (v : Byte) : (s.writeOut a v).phase = s.phase := rfl
@[simp] theorem writeOut_seq (s : State) (a : Nat) (v : Byte) : (s.writeOut a v).seq = s.seq := rfl
@[simp] theorem writeOut_errKind (s : State) (a : Nat) (v : Byte) : (s.writeOut a v).errKind = s.errKind := rfl
@[simp] theorem writeOut_errCause (s : State) (a : Nat) (v : Byte) : (s.writeOut a v).errCause = s.errCause := rfl
@[simp] theorem writeOut_inLenReg (s : State) (a : Nat) (v : Byte) : (s.writeOut a v).inLenReg = s.inLenReg := rfl
@[simp] theorem writeOut_inLen (s : State) (a : Nat) (v : Byte) : (s.writeOut a v).inLen = s.inLen := rfl
@[simp] theorem writeOut_outLen (s : State) (a : Nat) (v : Byte) : (s.writeOut a v).outLen = s.outLen := rfl
@[simp] theorem writeOut_cmf (s : State) (a : Nat) (v : Byte) : (s.writeOut a v).cmf = s.cmf := rfl
@[simp] theorem writeOut_flg (s : State) (a : Nat) (v : Byte) : (s.writeOut a v).flg = s.flg := rfl
@[simp] theorem writeOut_cm (s : State) (a : Nat) (v : Byte) : (s.writeOut a v).cm = s.cm := rfl
@[simp] theorem writeOut_fdict (s : State) (a : Nat) (v : Byte) : (s.writeOut a v).fdict = s.fdict := rfl
@[simp] theorem writeOut_blockFinal (s : State) (a : Nat) (v : Byte) :
    (s.writeOut a v).blockFinal = s.blockFinal := rfl
@[simp] theorem writeOut_blockType (s : State) (a : Nat) (v : Byte) : (s.writeOut a v).blockType = s.blockType := rfl
@[simp] theorem writeOut_curByte (s : State) (a : Nat) (v : Byte) : (s.writeOut a v).curByte = s.curByte := rfl
@[simp] theorem writeOut_curBit (s : State) (a : Nat) (v : Byte) : (s.writeOut a v).curBit = s.curBit := rfl
@[simp] theorem writeOut_bfinal (s : State) (a : Nat) (v : Byte) : (s.writeOut a v).bfinal = s.bfinal := rfl
@[simp] theorem writeOut_btype (s : State) (a : Nat) (v : Byte) : (s.writeOut a v).btype = s.btype := rfl
@[simp] theorem writeOut_hlit (s : State) (a : Nat) (v : Byte) : (s.writeOut a v).hlit = s.hlit := rfl
@[simp] theorem writeOut_hdist (s : State) (a : Nat) (v : Byte) : (s.writeOut a v).hdist = s.hdist := rfl
@[simp] theorem writeOut_hclen (s : State) (a : Nat) (v : Byte) : (s.writeOut a v).hclen = s.hclen := rfl
@[simp] theorem writeOut_clclIdx (s : State) (a : Nat) (v : Byte) : (s.writeOut a v).clclIdx = s.clclIdx := rfl
@[simp] theorem writeOut_clLens (s : State) (a : Nat) (v : Byte) : (s.writeOut a v).clLens = s.clLens := rfl
@[simp] theorem writeOut_lenTable (s : State) (a : Nat) (v : Byte) : (s.writeOut a v).lenTable = s.lenTable := rfl
@[simp] theorem writeOut_lenIdx (s : State) (a : Nat) (v : Byte) : (s.writeOut a v).lenIdx = s.lenIdx := rfl
@[simp] theorem writeOut_prevLen (s : State) (a : Nat) (v : Byte) : (s.writeOut a v).prevLen = s.prevLen := rfl
@[simp] theorem writeOut_rep (s : State) (a : Nat) (v : Byte) : (s.writeOut a v).rep = s.rep := rfl
@[simp] theorem writeOut_clt (s : State) (a : Nat) (v : Byte) : (s.writeOut a v).clt = s.clt := rfl
@[simp] theorem writeOut_llt (s : State) (a : Nat) (v : Byte) : (s.writeOut a v).llt = s.llt := rfl
@[simp] theorem writeOut_dt (s : State) (a : Nat) (v : Byte) : (s.writeOut a v).dt = s.dt := rfl
@[simp] theorem writeOut_blCount (s : State) (a : Nat) (v : Byte) : (s.writeOut a v).blCount = s.blCount := rfl
@[simp] theorem writeOut_nextCode (s : State) (a : Nat) (v : Byte) : (s.writeOut a v).nextCode = s.nextCode := rfl
@[simp] theorem writeOut_sym (s : State) (a : Nat) (v : Byte) : (s.writeOut a v).sym = s.sym := rfl
@[simp] theorem writeOut_curLen (s : State) (a : Nat) (v : Byte) : (s.writeOut a v).curLen = s.curLen := rfl
@[simp] theorem writeOut_curDist (s : State) (a : Nat) (v : Byte) : (s.writeOut a v).curDist = s.curDist := rfl
@[simp] theorem writeOut_extra (s : State) (a : Nat) (v : Byte) : (s.writeOut a v).extra = s.extra := rfl
@[simp] theorem writeOut_llSel (s : State) (a : Nat) (v : Byte) : (s.writeOut a v).llSel = s.llSel := rfl
@[simp] theorem writeOut_dSel (s : State) (a : Nat) (v : Byte) : (s.writeOut a v).dSel = s.dSel := rfl
@[simp] theorem writeOut_inMem (s : State) (a : Nat) (v : Byte) : (s.writeOut a v).inMem = s.inMem := rfl
@[simp] theorem writeOut_outMem (s : State) (a : Nat) (v : Byte) :
    (s.writeOut a v).outMem = Memory.write s.outMem a v := rfl
@[simp] theorem writeOut_params (s : State) (a : Nat) (v : Byte) : (s.writeOut a v).params = s.params := rfl
@[simp] theorem writeOut_draws (s : State) (a : Nat) (v : Byte) : (s.writeOut a v).draws = s.draws := rfl
@[simp] theorem writeOut_epoch (s : State) (a : Nat) (v : Byte) : (s.writeOut a v).epoch = s.epoch := rfl
@[simp] theorem writeOut_sessions (s : State) (a : Nat) (v : Byte) : (s.writeOut a v).sessions = s.sessions := rfl
@[simp] theorem writeOut_hostOut (s : State) (a : Nat) (v : Byte) : (s.writeOut a v).hostOut = s.hostOut := rfl
@[simp] theorem writeOut_inputs (s : State) (a : Nat) (v : Byte) : (s.writeOut a v).inputs = s.inputs := rfl
@[simp] theorem writeOut_regData (s : State) (a : Nat) (v : Byte) : (s.writeOut a v).regData = s.regData := rfl
@[simp] theorem writeOut_outData (s : State) (a : Nat) (v : Byte) : (s.writeOut a v).outData = s.outData := rfl
@[simp] theorem writeOut_bcData (s : State) (a : Nat) (v : Byte) : (s.writeOut a v).bcData = s.bcData := rfl

/-! ## writeHostOut -/

@[simp] theorem writeHostOut_phase (s : State) (a : Nat) (v : Byte) : (s.writeHostOut a v).phase = s.phase := rfl
@[simp] theorem writeHostOut_seq (s : State) (a : Nat) (v : Byte) : (s.writeHostOut a v).seq = s.seq := rfl
@[simp] theorem writeHostOut_errKind (s : State) (a : Nat) (v : Byte) :
    (s.writeHostOut a v).errKind = s.errKind := rfl
@[simp] theorem writeHostOut_errCause (s : State) (a : Nat) (v : Byte) :
    (s.writeHostOut a v).errCause = s.errCause := rfl
@[simp] theorem writeHostOut_inLenReg (s : State) (a : Nat) (v : Byte) :
    (s.writeHostOut a v).inLenReg = s.inLenReg := rfl
@[simp] theorem writeHostOut_inLen (s : State) (a : Nat) (v : Byte) : (s.writeHostOut a v).inLen = s.inLen := rfl
@[simp] theorem writeHostOut_outLen (s : State) (a : Nat) (v : Byte) : (s.writeHostOut a v).outLen = s.outLen := rfl
@[simp] theorem writeHostOut_cmf (s : State) (a : Nat) (v : Byte) : (s.writeHostOut a v).cmf = s.cmf := rfl
@[simp] theorem writeHostOut_flg (s : State) (a : Nat) (v : Byte) : (s.writeHostOut a v).flg = s.flg := rfl
@[simp] theorem writeHostOut_cm (s : State) (a : Nat) (v : Byte) : (s.writeHostOut a v).cm = s.cm := rfl
@[simp] theorem writeHostOut_fdict (s : State) (a : Nat) (v : Byte) : (s.writeHostOut a v).fdict = s.fdict := rfl
@[simp] theorem writeHostOut_blockFinal (s : State) (a : Nat) (v : Byte) :
    (s.writeHostOut a v).blockFinal = s.blockFinal := rfl
@[simp] theorem writeHostOut_blockType (s : State) (a : Nat) (v : Byte) :
    (s.writeHostOut a v).blockType = s.blockType := rfl
@[simp] theorem writeHostOut_curByte (s : State) (a : Nat) (v : Byte) :
    (s.writeHostOut a v).curByte = s.curByte := rfl
@[simp] theorem writeHostOut_curBit (s : State) (a : Nat) (v : Byte) : (s.writeHostOut a v).curBit = s.curBit := rfl
@[simp] theorem writeHostOut_bfinal (s : State) (a : Nat) (v : Byte) : (s.writeHostOut a v).bfinal = s.bfinal := rfl
@[simp] theorem writeHostOut_btype (s : State) (a : Nat) (v : Byte) : (s.writeHostOut a v).btype = s.btype := rfl
@[simp] theorem writeHostOut_hlit (s : State) (a : Nat) (v : Byte) : (s.writeHostOut a v).hlit = s.hlit := rfl
@[simp] theorem writeHostOut_hdist (s : State) (a : Nat) (v : Byte) : (s.writeHostOut a v).hdist = s.hdist := rfl
@[simp] theorem writeHostOut_hclen (s : State) (a : Nat) (v : Byte) : (s.writeHostOut a v).hclen = s.hclen := rfl
@[simp] theorem writeHostOut_clclIdx (s : State) (a : Nat) (v : Byte) :
    (s.writeHostOut a v).clclIdx = s.clclIdx := rfl
@[simp] theorem writeHostOut_clLens (s : State) (a : Nat) (v : Byte) : (s.writeHostOut a v).clLens = s.clLens := rfl
@[simp] theorem writeHostOut_lenTable (s : State) (a : Nat) (v : Byte) :
    (s.writeHostOut a v).lenTable = s.lenTable := rfl
@[simp] theorem writeHostOut_lenIdx (s : State) (a : Nat) (v : Byte) : (s.writeHostOut a v).lenIdx = s.lenIdx := rfl
@[simp] theorem writeHostOut_prevLen (s : State) (a : Nat) (v : Byte) :
    (s.writeHostOut a v).prevLen = s.prevLen := rfl
@[simp] theorem writeHostOut_rep (s : State) (a : Nat) (v : Byte) : (s.writeHostOut a v).rep = s.rep := rfl
@[simp] theorem writeHostOut_clt (s : State) (a : Nat) (v : Byte) : (s.writeHostOut a v).clt = s.clt := rfl
@[simp] theorem writeHostOut_llt (s : State) (a : Nat) (v : Byte) : (s.writeHostOut a v).llt = s.llt := rfl
@[simp] theorem writeHostOut_dt (s : State) (a : Nat) (v : Byte) : (s.writeHostOut a v).dt = s.dt := rfl
@[simp] theorem writeHostOut_blCount (s : State) (a : Nat) (v : Byte) :
    (s.writeHostOut a v).blCount = s.blCount := rfl
@[simp] theorem writeHostOut_nextCode (s : State) (a : Nat) (v : Byte) :
    (s.writeHostOut a v).nextCode = s.nextCode := rfl
@[simp] theorem writeHostOut_sym (s : State) (a : Nat) (v : Byte) : (s.writeHostOut a v).sym = s.sym := rfl
@[simp] theorem writeHostOut_curLen (s : State) (a : Nat) (v : Byte) : (s.writeHostOut a v).curLen = s.curLen := rfl
@[simp] theorem writeHostOut_curDist (s : State) (a : Nat) (v : Byte) :
    (s.writeHostOut a v).curDist = s.curDist := rfl
@[simp] theorem writeHostOut_extra (s : State) (a : Nat) (v : Byte) : (s.writeHostOut a v).extra = s.extra := rfl
@[simp] theorem writeHostOut_llSel (s : State) (a : Nat) (v : Byte) : (s.writeHostOut a v).llSel = s.llSel := rfl
@[simp] theorem writeHostOut_dSel (s : State) (a : Nat) (v : Byte) : (s.writeHostOut a v).dSel = s.dSel := rfl
@[simp] theorem writeHostOut_inMem (s : State) (a : Nat) (v : Byte) : (s.writeHostOut a v).inMem = s.inMem := rfl
@[simp] theorem writeHostOut_outMem (s : State) (a : Nat) (v : Byte) :
    (s.writeHostOut a v).outMem = Memory.write s.outMem a v := rfl
@[simp] theorem writeHostOut_params (s : State) (a : Nat) (v : Byte) : (s.writeHostOut a v).params = s.params := rfl
@[simp] theorem writeHostOut_draws (s : State) (a : Nat) (v : Byte) : (s.writeHostOut a v).draws = s.draws := rfl
@[simp] theorem writeHostOut_epoch (s : State) (a : Nat) (v : Byte) : (s.writeHostOut a v).epoch = s.epoch := rfl
@[simp] theorem writeHostOut_sessions (s : State) (a : Nat) (v : Byte) :
    (s.writeHostOut a v).sessions = s.sessions := rfl
@[simp] theorem writeHostOut_hostOut (s : State) (a : Nat) (v : Byte) :
    (s.writeHostOut a v).hostOut = Memory.write s.hostOut a v := rfl
@[simp] theorem writeHostOut_inputs (s : State) (a : Nat) (v : Byte) : (s.writeHostOut a v).inputs = s.inputs := rfl
@[simp] theorem writeHostOut_regData (s : State) (a : Nat) (v : Byte) :
    (s.writeHostOut a v).regData = s.regData := rfl
@[simp] theorem writeHostOut_outData (s : State) (a : Nat) (v : Byte) :
    (s.writeHostOut a v).outData = s.outData := rfl
@[simp] theorem writeHostOut_bcData (s : State) (a : Nat) (v : Byte) : (s.writeHostOut a v).bcData = s.bcData := rfl

/-! ## writeIn -/

@[simp] theorem writeIn_phase (s : State) (a : Nat) (v : Byte) : (s.writeIn a v).phase = s.phase := rfl
@[simp] theorem writeIn_seq (s : State) (a : Nat) (v : Byte) : (s.writeIn a v).seq = s.seq := rfl
@[simp] theorem writeIn_errKind (s : State) (a : Nat) (v : Byte) : (s.writeIn a v).errKind = s.errKind := rfl
@[simp] theorem writeIn_errCause (s : State) (a : Nat) (v : Byte) : (s.writeIn a v).errCause = s.errCause := rfl
@[simp] theorem writeIn_inLenReg (s : State) (a : Nat) (v : Byte) : (s.writeIn a v).inLenReg = s.inLenReg := rfl
@[simp] theorem writeIn_inLen (s : State) (a : Nat) (v : Byte) : (s.writeIn a v).inLen = s.inLen := rfl
@[simp] theorem writeIn_outLen (s : State) (a : Nat) (v : Byte) : (s.writeIn a v).outLen = s.outLen := rfl
@[simp] theorem writeIn_cmf (s : State) (a : Nat) (v : Byte) : (s.writeIn a v).cmf = s.cmf := rfl
@[simp] theorem writeIn_flg (s : State) (a : Nat) (v : Byte) : (s.writeIn a v).flg = s.flg := rfl
@[simp] theorem writeIn_cm (s : State) (a : Nat) (v : Byte) : (s.writeIn a v).cm = s.cm := rfl
@[simp] theorem writeIn_fdict (s : State) (a : Nat) (v : Byte) : (s.writeIn a v).fdict = s.fdict := rfl
@[simp] theorem writeIn_blockFinal (s : State) (a : Nat) (v : Byte) : (s.writeIn a v).blockFinal = s.blockFinal := rfl
@[simp] theorem writeIn_blockType (s : State) (a : Nat) (v : Byte) : (s.writeIn a v).blockType = s.blockType := rfl
@[simp] theorem writeIn_curByte (s : State) (a : Nat) (v : Byte) : (s.writeIn a v).curByte = s.curByte := rfl
@[simp] theorem writeIn_curBit (s : State) (a : Nat) (v : Byte) : (s.writeIn a v).curBit = s.curBit := rfl
@[simp] theorem writeIn_bfinal (s : State) (a : Nat) (v : Byte) : (s.writeIn a v).bfinal = s.bfinal := rfl
@[simp] theorem writeIn_btype (s : State) (a : Nat) (v : Byte) : (s.writeIn a v).btype = s.btype := rfl
@[simp] theorem writeIn_hlit (s : State) (a : Nat) (v : Byte) : (s.writeIn a v).hlit = s.hlit := rfl
@[simp] theorem writeIn_hdist (s : State) (a : Nat) (v : Byte) : (s.writeIn a v).hdist = s.hdist := rfl
@[simp] theorem writeIn_hclen (s : State) (a : Nat) (v : Byte) : (s.writeIn a v).hclen = s.hclen := rfl
@[simp] theorem writeIn_clclIdx (s : State) (a : Nat) (v : Byte) : (s.writeIn a v).clclIdx = s.clclIdx := rfl
@[simp] theorem writeIn_clLens (s : State) (a : Nat) (v : Byte) : (s.writeIn a v).clLens = s.clLens := rfl
@[simp] theorem writeIn_lenTable (s : State) (a : Nat) (v : Byte) : (s.writeIn a v).lenTable = s.lenTable := rfl
@[simp] theorem writeIn_lenIdx (s : State) (a : Nat) (v : Byte) : (s.writeIn a v).lenIdx = s.lenIdx := rfl
@[simp] theorem writeIn_prevLen (s : State) (a : Nat) (v : Byte) : (s.writeIn a v).prevLen = s.prevLen := rfl
@[simp] theorem writeIn_rep (s : State) (a : Nat) (v : Byte) : (s.writeIn a v).rep = s.rep := rfl
@[simp] theorem writeIn_clt (s : State) (a : Nat) (v : Byte) : (s.writeIn a v).clt = s.clt := rfl
@[simp] theorem writeIn_llt (s : State) (a : Nat) (v : Byte) : (s.writeIn a v).llt = s.llt := rfl
@[simp] theorem writeIn_dt (s : State) (a : Nat) (v : Byte) : (s.writeIn a v).dt = s.dt := rfl
@[simp] theorem writeIn_blCount (s : State) (a : Nat) (v : Byte) : (s.writeIn a v).blCount = s.blCount := rfl
@[simp] theorem writeIn_nextCode (s : State) (a : Nat) (v : Byte) : (s.writeIn a v).nextCode = s.nextCode := rfl
@[simp] theorem writeIn_sym (s : State) (a : Nat) (v : Byte) : (s.writeIn a v).sym = s.sym := rfl
@[simp] theorem writeIn_curLen (s : State) (a : Nat) (v : Byte) : (s.writeIn a v).curLen = s.curLen := rfl
@[simp] theorem writeIn_curDist (s : State) (a : Nat) (v : Byte) : (s.writeIn a v).curDist = s.curDist := rfl
@[simp] theorem writeIn_extra (s : State) (a : Nat) (v : Byte) : (s.writeIn a v).extra = s.extra := rfl
@[simp] theorem writeIn_llSel (s : State) (a : Nat) (v : Byte) : (s.writeIn a v).llSel = s.llSel := rfl
@[simp] theorem writeIn_dSel (s : State) (a : Nat) (v : Byte) : (s.writeIn a v).dSel = s.dSel := rfl
@[simp] theorem writeIn_inMem (s : State) (a : Nat) (v : Byte) :
    (s.writeIn a v).inMem = Memory.write s.inMem a v := rfl
@[simp] theorem writeIn_outMem (s : State) (a : Nat) (v : Byte) : (s.writeIn a v).outMem = s.outMem := rfl
@[simp] theorem writeIn_params (s : State) (a : Nat) (v : Byte) : (s.writeIn a v).params = s.params := rfl
@[simp] theorem writeIn_draws (s : State) (a : Nat) (v : Byte) : (s.writeIn a v).draws = s.draws := rfl
@[simp] theorem writeIn_epoch (s : State) (a : Nat) (v : Byte) : (s.writeIn a v).epoch = s.epoch := rfl
@[simp] theorem writeIn_sessions (s : State) (a : Nat) (v : Byte) : (s.writeIn a v).sessions = s.sessions := rfl
@[simp] theorem writeIn_hostOut (s : State) (a : Nat) (v : Byte) : (s.writeIn a v).hostOut = s.hostOut := rfl
@[simp] theorem writeIn_inputs (s : State) (a : Nat) (v : Byte) : (s.writeIn a v).inputs = s.inputs := rfl
@[simp] theorem writeIn_regData (s : State) (a : Nat) (v : Byte) : (s.writeIn a v).regData = s.regData := rfl
@[simp] theorem writeIn_outData (s : State) (a : Nat) (v : Byte) : (s.writeIn a v).outData = s.outData := rfl
@[simp] theorem writeIn_bcData (s : State) (a : Nat) (v : Byte) : (s.writeIn a v).bcData = s.bcData := rfl

/-! ## advance -/

@[simp] theorem advance_phase (s : State) (n : Nat) : (s.advance n).phase = s.phase := rfl
@[simp] theorem advance_seq (s : State) (n : Nat) : (s.advance n).seq = s.seq := rfl
@[simp] theorem advance_errKind (s : State) (n : Nat) : (s.advance n).errKind = s.errKind := rfl
@[simp] theorem advance_errCause (s : State) (n : Nat) : (s.advance n).errCause = s.errCause := rfl
@[simp] theorem advance_inLenReg (s : State) (n : Nat) : (s.advance n).inLenReg = s.inLenReg := rfl
@[simp] theorem advance_inLen (s : State) (n : Nat) : (s.advance n).inLen = s.inLen := rfl
@[simp] theorem advance_outLen (s : State) (n : Nat) : (s.advance n).outLen = s.outLen := rfl
@[simp] theorem advance_cmf (s : State) (n : Nat) : (s.advance n).cmf = s.cmf := rfl
@[simp] theorem advance_flg (s : State) (n : Nat) : (s.advance n).flg = s.flg := rfl
@[simp] theorem advance_cm (s : State) (n : Nat) : (s.advance n).cm = s.cm := rfl
@[simp] theorem advance_fdict (s : State) (n : Nat) : (s.advance n).fdict = s.fdict := rfl
@[simp] theorem advance_blockFinal (s : State) (n : Nat) : (s.advance n).blockFinal = s.blockFinal := rfl
@[simp] theorem advance_blockType (s : State) (n : Nat) : (s.advance n).blockType = s.blockType := rfl
@[simp] theorem advance_curByte (s : State) (n : Nat) : (s.advance n).curByte = (s.cursorPos + n) / 8 := rfl
@[simp] theorem advance_curBit (s : State) (n : Nat) : (s.advance n).curBit = (s.cursorPos + n) % 8 := rfl
@[simp] theorem advance_bfinal (s : State) (n : Nat) : (s.advance n).bfinal = s.bfinal := rfl
@[simp] theorem advance_btype (s : State) (n : Nat) : (s.advance n).btype = s.btype := rfl
@[simp] theorem advance_hlit (s : State) (n : Nat) : (s.advance n).hlit = s.hlit := rfl
@[simp] theorem advance_hdist (s : State) (n : Nat) : (s.advance n).hdist = s.hdist := rfl
@[simp] theorem advance_hclen (s : State) (n : Nat) : (s.advance n).hclen = s.hclen := rfl
@[simp] theorem advance_clclIdx (s : State) (n : Nat) : (s.advance n).clclIdx = s.clclIdx := rfl
@[simp] theorem advance_clLens (s : State) (n : Nat) : (s.advance n).clLens = s.clLens := rfl
@[simp] theorem advance_lenTable (s : State) (n : Nat) : (s.advance n).lenTable = s.lenTable := rfl
@[simp] theorem advance_lenIdx (s : State) (n : Nat) : (s.advance n).lenIdx = s.lenIdx := rfl
@[simp] theorem advance_prevLen (s : State) (n : Nat) : (s.advance n).prevLen = s.prevLen := rfl
@[simp] theorem advance_rep (s : State) (n : Nat) : (s.advance n).rep = s.rep := rfl
@[simp] theorem advance_clt (s : State) (n : Nat) : (s.advance n).clt = s.clt := rfl
@[simp] theorem advance_llt (s : State) (n : Nat) : (s.advance n).llt = s.llt := rfl
@[simp] theorem advance_dt (s : State) (n : Nat) : (s.advance n).dt = s.dt := rfl
@[simp] theorem advance_blCount (s : State) (n : Nat) : (s.advance n).blCount = s.blCount := rfl
@[simp] theorem advance_nextCode (s : State) (n : Nat) : (s.advance n).nextCode = s.nextCode := rfl
@[simp] theorem advance_sym (s : State) (n : Nat) : (s.advance n).sym = s.sym := rfl
@[simp] theorem advance_curLen (s : State) (n : Nat) : (s.advance n).curLen = s.curLen := rfl
@[simp] theorem advance_curDist (s : State) (n : Nat) : (s.advance n).curDist = s.curDist := rfl
@[simp] theorem advance_extra (s : State) (n : Nat) : (s.advance n).extra = s.extra := rfl
@[simp] theorem advance_llSel (s : State) (n : Nat) : (s.advance n).llSel = s.llSel := rfl
@[simp] theorem advance_dSel (s : State) (n : Nat) : (s.advance n).dSel = s.dSel := rfl
@[simp] theorem advance_inMem (s : State) (n : Nat) : (s.advance n).inMem = s.inMem := rfl
@[simp] theorem advance_outMem (s : State) (n : Nat) : (s.advance n).outMem = s.outMem := rfl
@[simp] theorem advance_params (s : State) (n : Nat) : (s.advance n).params = s.params := rfl
@[simp] theorem advance_draws (s : State) (n : Nat) : (s.advance n).draws = s.draws := rfl
@[simp] theorem advance_epoch (s : State) (n : Nat) : (s.advance n).epoch = s.epoch := rfl
@[simp] theorem advance_sessions (s : State) (n : Nat) : (s.advance n).sessions = s.sessions := rfl
@[simp] theorem advance_hostOut (s : State) (n : Nat) : (s.advance n).hostOut = s.hostOut := rfl
@[simp] theorem advance_inputs (s : State) (n : Nat) : (s.advance n).inputs = s.inputs := rfl
@[simp] theorem advance_regData (s : State) (n : Nat) : (s.advance n).regData = s.regData := rfl
@[simp] theorem advance_outData (s : State) (n : Nat) : (s.advance n).outData = s.outData := rfl
@[simp] theorem advance_bcData (s : State) (n : Nat) : (s.advance n).bcData = s.bcData := rfl

/-! ## setZlibHdr -/

@[simp] theorem setZlibHdr_phase (s : State) (c f : BitVec 8) : (s.setZlibHdr c f).phase = s.phase := rfl
@[simp] theorem setZlibHdr_seq (s : State) (c f : BitVec 8) : (s.setZlibHdr c f).seq = s.seq := rfl
@[simp] theorem setZlibHdr_errKind (s : State) (c f : BitVec 8) : (s.setZlibHdr c f).errKind = s.errKind := rfl
@[simp] theorem setZlibHdr_errCause (s : State) (c f : BitVec 8) : (s.setZlibHdr c f).errCause = s.errCause := rfl
@[simp] theorem setZlibHdr_inLenReg (s : State) (c f : BitVec 8) : (s.setZlibHdr c f).inLenReg = s.inLenReg := rfl
@[simp] theorem setZlibHdr_inLen (s : State) (c f : BitVec 8) : (s.setZlibHdr c f).inLen = s.inLen := rfl
@[simp] theorem setZlibHdr_outLen (s : State) (c f : BitVec 8) : (s.setZlibHdr c f).outLen = s.outLen := rfl
@[simp] theorem setZlibHdr_cmf (s : State) (c f : BitVec 8) : (s.setZlibHdr c f).cmf = c := rfl
@[simp] theorem setZlibHdr_flg (s : State) (c f : BitVec 8) : (s.setZlibHdr c f).flg = f := rfl
@[simp] theorem setZlibHdr_cm (s : State) (c f : BitVec 8) : (s.setZlibHdr c f).cm = cmOf c := rfl
@[simp] theorem setZlibHdr_fdict (s : State) (c f : BitVec 8) : (s.setZlibHdr c f).fdict = fdictOf f := rfl
@[simp] theorem setZlibHdr_blockFinal (s : State) (c f : BitVec 8) :
    (s.setZlibHdr c f).blockFinal = s.blockFinal := rfl
@[simp] theorem setZlibHdr_blockType (s : State) (c f : BitVec 8) : (s.setZlibHdr c f).blockType = s.blockType := rfl
@[simp] theorem setZlibHdr_curByte (s : State) (c f : BitVec 8) : (s.setZlibHdr c f).curByte = s.curByte := rfl
@[simp] theorem setZlibHdr_curBit (s : State) (c f : BitVec 8) : (s.setZlibHdr c f).curBit = s.curBit := rfl
@[simp] theorem setZlibHdr_bfinal (s : State) (c f : BitVec 8) : (s.setZlibHdr c f).bfinal = s.bfinal := rfl
@[simp] theorem setZlibHdr_btype (s : State) (c f : BitVec 8) : (s.setZlibHdr c f).btype = s.btype := rfl
@[simp] theorem setZlibHdr_hlit (s : State) (c f : BitVec 8) : (s.setZlibHdr c f).hlit = s.hlit := rfl
@[simp] theorem setZlibHdr_hdist (s : State) (c f : BitVec 8) : (s.setZlibHdr c f).hdist = s.hdist := rfl
@[simp] theorem setZlibHdr_hclen (s : State) (c f : BitVec 8) : (s.setZlibHdr c f).hclen = s.hclen := rfl
@[simp] theorem setZlibHdr_clclIdx (s : State) (c f : BitVec 8) : (s.setZlibHdr c f).clclIdx = s.clclIdx := rfl
@[simp] theorem setZlibHdr_clLens (s : State) (c f : BitVec 8) : (s.setZlibHdr c f).clLens = s.clLens := rfl
@[simp] theorem setZlibHdr_lenTable (s : State) (c f : BitVec 8) : (s.setZlibHdr c f).lenTable = s.lenTable := rfl
@[simp] theorem setZlibHdr_lenIdx (s : State) (c f : BitVec 8) : (s.setZlibHdr c f).lenIdx = s.lenIdx := rfl
@[simp] theorem setZlibHdr_prevLen (s : State) (c f : BitVec 8) : (s.setZlibHdr c f).prevLen = s.prevLen := rfl
@[simp] theorem setZlibHdr_rep (s : State) (c f : BitVec 8) : (s.setZlibHdr c f).rep = s.rep := rfl
@[simp] theorem setZlibHdr_clt (s : State) (c f : BitVec 8) : (s.setZlibHdr c f).clt = s.clt := rfl
@[simp] theorem setZlibHdr_llt (s : State) (c f : BitVec 8) : (s.setZlibHdr c f).llt = s.llt := rfl
@[simp] theorem setZlibHdr_dt (s : State) (c f : BitVec 8) : (s.setZlibHdr c f).dt = s.dt := rfl
@[simp] theorem setZlibHdr_blCount (s : State) (c f : BitVec 8) : (s.setZlibHdr c f).blCount = s.blCount := rfl
@[simp] theorem setZlibHdr_nextCode (s : State) (c f : BitVec 8) : (s.setZlibHdr c f).nextCode = s.nextCode := rfl
@[simp] theorem setZlibHdr_sym (s : State) (c f : BitVec 8) : (s.setZlibHdr c f).sym = s.sym := rfl
@[simp] theorem setZlibHdr_curLen (s : State) (c f : BitVec 8) : (s.setZlibHdr c f).curLen = s.curLen := rfl
@[simp] theorem setZlibHdr_curDist (s : State) (c f : BitVec 8) : (s.setZlibHdr c f).curDist = s.curDist := rfl
@[simp] theorem setZlibHdr_extra (s : State) (c f : BitVec 8) : (s.setZlibHdr c f).extra = s.extra := rfl
@[simp] theorem setZlibHdr_llSel (s : State) (c f : BitVec 8) : (s.setZlibHdr c f).llSel = s.llSel := rfl
@[simp] theorem setZlibHdr_dSel (s : State) (c f : BitVec 8) : (s.setZlibHdr c f).dSel = s.dSel := rfl
@[simp] theorem setZlibHdr_inMem (s : State) (c f : BitVec 8) : (s.setZlibHdr c f).inMem = s.inMem := rfl
@[simp] theorem setZlibHdr_outMem (s : State) (c f : BitVec 8) : (s.setZlibHdr c f).outMem = s.outMem := rfl
@[simp] theorem setZlibHdr_params (s : State) (c f : BitVec 8) : (s.setZlibHdr c f).params = s.params := rfl
@[simp] theorem setZlibHdr_draws (s : State) (c f : BitVec 8) : (s.setZlibHdr c f).draws = s.draws := rfl
@[simp] theorem setZlibHdr_epoch (s : State) (c f : BitVec 8) : (s.setZlibHdr c f).epoch = s.epoch := rfl
@[simp] theorem setZlibHdr_sessions (s : State) (c f : BitVec 8) : (s.setZlibHdr c f).sessions = s.sessions := rfl
@[simp] theorem setZlibHdr_hostOut (s : State) (c f : BitVec 8) : (s.setZlibHdr c f).hostOut = s.hostOut := rfl
@[simp] theorem setZlibHdr_inputs (s : State) (c f : BitVec 8) : (s.setZlibHdr c f).inputs = s.inputs := rfl
@[simp] theorem setZlibHdr_regData (s : State) (c f : BitVec 8) : (s.setZlibHdr c f).regData = s.regData := rfl
@[simp] theorem setZlibHdr_outData (s : State) (c f : BitVec 8) : (s.setZlibHdr c f).outData = s.outData := rfl
@[simp] theorem setZlibHdr_bcData (s : State) (c f : BitVec 8) : (s.setZlibHdr c f).bcData = s.bcData := rfl

/-! ## setBlock -/

@[simp] theorem setBlock_phase (s : State) (b : Bool) (ty : BitVec 2) : (s.setBlock b ty).phase = s.phase := rfl
@[simp] theorem setBlock_seq (s : State) (b : Bool) (ty : BitVec 2) : (s.setBlock b ty).seq = s.seq := rfl
@[simp] theorem setBlock_errKind (s : State) (b : Bool) (ty : BitVec 2) : (s.setBlock b ty).errKind = s.errKind := rfl
@[simp] theorem setBlock_errCause (s : State) (b : Bool) (ty : BitVec 2) :
    (s.setBlock b ty).errCause = s.errCause := rfl
@[simp] theorem setBlock_inLenReg (s : State) (b : Bool) (ty : BitVec 2) :
    (s.setBlock b ty).inLenReg = s.inLenReg := rfl
@[simp] theorem setBlock_inLen (s : State) (b : Bool) (ty : BitVec 2) : (s.setBlock b ty).inLen = s.inLen := rfl
@[simp] theorem setBlock_outLen (s : State) (b : Bool) (ty : BitVec 2) : (s.setBlock b ty).outLen = s.outLen := rfl
@[simp] theorem setBlock_cmf (s : State) (b : Bool) (ty : BitVec 2) : (s.setBlock b ty).cmf = s.cmf := rfl
@[simp] theorem setBlock_flg (s : State) (b : Bool) (ty : BitVec 2) : (s.setBlock b ty).flg = s.flg := rfl
@[simp] theorem setBlock_cm (s : State) (b : Bool) (ty : BitVec 2) : (s.setBlock b ty).cm = s.cm := rfl
@[simp] theorem setBlock_fdict (s : State) (b : Bool) (ty : BitVec 2) : (s.setBlock b ty).fdict = s.fdict := rfl
@[simp] theorem setBlock_blockFinal (s : State) (b : Bool) (ty : BitVec 2) : (s.setBlock b ty).blockFinal = b := rfl
@[simp] theorem setBlock_blockType (s : State) (b : Bool) (ty : BitVec 2) : (s.setBlock b ty).blockType = ty := rfl
@[simp] theorem setBlock_curByte (s : State) (b : Bool) (ty : BitVec 2) : (s.setBlock b ty).curByte = s.curByte := rfl
@[simp] theorem setBlock_curBit (s : State) (b : Bool) (ty : BitVec 2) : (s.setBlock b ty).curBit = s.curBit := rfl
@[simp] theorem setBlock_bfinal (s : State) (b : Bool) (ty : BitVec 2) : (s.setBlock b ty).bfinal = s.bfinal := rfl
@[simp] theorem setBlock_btype (s : State) (b : Bool) (ty : BitVec 2) : (s.setBlock b ty).btype = s.btype := rfl
@[simp] theorem setBlock_hlit (s : State) (b : Bool) (ty : BitVec 2) : (s.setBlock b ty).hlit = s.hlit := rfl
@[simp] theorem setBlock_hdist (s : State) (b : Bool) (ty : BitVec 2) : (s.setBlock b ty).hdist = s.hdist := rfl
@[simp] theorem setBlock_hclen (s : State) (b : Bool) (ty : BitVec 2) : (s.setBlock b ty).hclen = s.hclen := rfl
@[simp] theorem setBlock_clclIdx (s : State) (b : Bool) (ty : BitVec 2) : (s.setBlock b ty).clclIdx = s.clclIdx := rfl
@[simp] theorem setBlock_clLens (s : State) (b : Bool) (ty : BitVec 2) : (s.setBlock b ty).clLens = s.clLens := rfl
@[simp] theorem setBlock_lenTable (s : State) (b : Bool) (ty : BitVec 2) :
    (s.setBlock b ty).lenTable = s.lenTable := rfl
@[simp] theorem setBlock_lenIdx (s : State) (b : Bool) (ty : BitVec 2) : (s.setBlock b ty).lenIdx = s.lenIdx := rfl
@[simp] theorem setBlock_prevLen (s : State) (b : Bool) (ty : BitVec 2) : (s.setBlock b ty).prevLen = s.prevLen := rfl
@[simp] theorem setBlock_rep (s : State) (b : Bool) (ty : BitVec 2) : (s.setBlock b ty).rep = s.rep := rfl
@[simp] theorem setBlock_clt (s : State) (b : Bool) (ty : BitVec 2) : (s.setBlock b ty).clt = s.clt := rfl
@[simp] theorem setBlock_llt (s : State) (b : Bool) (ty : BitVec 2) : (s.setBlock b ty).llt = s.llt := rfl
@[simp] theorem setBlock_dt (s : State) (b : Bool) (ty : BitVec 2) : (s.setBlock b ty).dt = s.dt := rfl
@[simp] theorem setBlock_blCount (s : State) (b : Bool) (ty : BitVec 2) : (s.setBlock b ty).blCount = s.blCount := rfl
@[simp] theorem setBlock_nextCode (s : State) (b : Bool) (ty : BitVec 2) :
    (s.setBlock b ty).nextCode = s.nextCode := rfl
@[simp] theorem setBlock_sym (s : State) (b : Bool) (ty : BitVec 2) : (s.setBlock b ty).sym = s.sym := rfl
@[simp] theorem setBlock_curLen (s : State) (b : Bool) (ty : BitVec 2) : (s.setBlock b ty).curLen = s.curLen := rfl
@[simp] theorem setBlock_curDist (s : State) (b : Bool) (ty : BitVec 2) : (s.setBlock b ty).curDist = s.curDist := rfl
@[simp] theorem setBlock_extra (s : State) (b : Bool) (ty : BitVec 2) : (s.setBlock b ty).extra = s.extra := rfl
@[simp] theorem setBlock_llSel (s : State) (b : Bool) (ty : BitVec 2) : (s.setBlock b ty).llSel = s.llSel := rfl
@[simp] theorem setBlock_dSel (s : State) (b : Bool) (ty : BitVec 2) : (s.setBlock b ty).dSel = s.dSel := rfl
@[simp] theorem setBlock_inMem (s : State) (b : Bool) (ty : BitVec 2) : (s.setBlock b ty).inMem = s.inMem := rfl
@[simp] theorem setBlock_outMem (s : State) (b : Bool) (ty : BitVec 2) : (s.setBlock b ty).outMem = s.outMem := rfl
@[simp] theorem setBlock_params (s : State) (b : Bool) (ty : BitVec 2) : (s.setBlock b ty).params = s.params := rfl
@[simp] theorem setBlock_draws (s : State) (b : Bool) (ty : BitVec 2) : (s.setBlock b ty).draws = s.draws := rfl
@[simp] theorem setBlock_epoch (s : State) (b : Bool) (ty : BitVec 2) : (s.setBlock b ty).epoch = s.epoch := rfl
@[simp] theorem setBlock_sessions (s : State) (b : Bool) (ty : BitVec 2) :
    (s.setBlock b ty).sessions = s.sessions := rfl
@[simp] theorem setBlock_hostOut (s : State) (b : Bool) (ty : BitVec 2) : (s.setBlock b ty).hostOut = s.hostOut := rfl
@[simp] theorem setBlock_inputs (s : State) (b : Bool) (ty : BitVec 2) : (s.setBlock b ty).inputs = s.inputs := rfl
@[simp] theorem setBlock_regData (s : State) (b : Bool) (ty : BitVec 2) : (s.setBlock b ty).regData = s.regData := rfl
@[simp] theorem setBlock_outData (s : State) (b : Bool) (ty : BitVec 2) : (s.setBlock b ty).outData = s.outData := rfl
@[simp] theorem setBlock_bcData (s : State) (b : Bool) (ty : BitVec 2) : (s.setBlock b ty).bcData = s.bcData := rfl

/-! ## enterBody -/

@[simp] theorem enterBody_phase (s : State) (ll d : TreeId) : (s.enterBody ll d).phase = .body := rfl
@[simp] theorem enterBody_seq (s : State) (ll d : TreeId) : (s.enterBody ll d).seq = .ll := rfl
@[simp] theorem enterBody_errKind (s : State) (ll d : TreeId) : (s.enterBody ll d).errKind = s.errKind := rfl
@[simp] theorem enterBody_errCause (s : State) (ll d : TreeId) : (s.enterBody ll d).errCause = s.errCause := rfl
@[simp] theorem enterBody_inLenReg (s : State) (ll d : TreeId) : (s.enterBody ll d).inLenReg = s.inLenReg := rfl
@[simp] theorem enterBody_inLen (s : State) (ll d : TreeId) : (s.enterBody ll d).inLen = s.inLen := rfl
@[simp] theorem enterBody_outLen (s : State) (ll d : TreeId) : (s.enterBody ll d).outLen = s.outLen := rfl
@[simp] theorem enterBody_cmf (s : State) (ll d : TreeId) : (s.enterBody ll d).cmf = s.cmf := rfl
@[simp] theorem enterBody_flg (s : State) (ll d : TreeId) : (s.enterBody ll d).flg = s.flg := rfl
@[simp] theorem enterBody_cm (s : State) (ll d : TreeId) : (s.enterBody ll d).cm = s.cm := rfl
@[simp] theorem enterBody_fdict (s : State) (ll d : TreeId) : (s.enterBody ll d).fdict = s.fdict := rfl
@[simp] theorem enterBody_blockFinal (s : State) (ll d : TreeId) : (s.enterBody ll d).blockFinal = s.blockFinal := rfl
@[simp] theorem enterBody_blockType (s : State) (ll d : TreeId) : (s.enterBody ll d).blockType = s.blockType := rfl
@[simp] theorem enterBody_curByte (s : State) (ll d : TreeId) : (s.enterBody ll d).curByte = s.curByte := rfl
@[simp] theorem enterBody_curBit (s : State) (ll d : TreeId) : (s.enterBody ll d).curBit = s.curBit := rfl
@[simp] theorem enterBody_bfinal (s : State) (ll d : TreeId) : (s.enterBody ll d).bfinal = s.bfinal := rfl
@[simp] theorem enterBody_btype (s : State) (ll d : TreeId) : (s.enterBody ll d).btype = s.btype := rfl
@[simp] theorem enterBody_hlit (s : State) (ll d : TreeId) : (s.enterBody ll d).hlit = s.hlit := rfl
@[simp] theorem enterBody_hdist (s : State) (ll d : TreeId) : (s.enterBody ll d).hdist = s.hdist := rfl
@[simp] theorem enterBody_hclen (s : State) (ll d : TreeId) : (s.enterBody ll d).hclen = s.hclen := rfl
@[simp] theorem enterBody_clclIdx (s : State) (ll d : TreeId) : (s.enterBody ll d).clclIdx = s.clclIdx := rfl
@[simp] theorem enterBody_clLens (s : State) (ll d : TreeId) : (s.enterBody ll d).clLens = s.clLens := rfl
@[simp] theorem enterBody_lenTable (s : State) (ll d : TreeId) : (s.enterBody ll d).lenTable = s.lenTable := rfl
@[simp] theorem enterBody_lenIdx (s : State) (ll d : TreeId) : (s.enterBody ll d).lenIdx = s.lenIdx := rfl
@[simp] theorem enterBody_prevLen (s : State) (ll d : TreeId) : (s.enterBody ll d).prevLen = s.prevLen := rfl
@[simp] theorem enterBody_rep (s : State) (ll d : TreeId) : (s.enterBody ll d).rep = s.rep := rfl
@[simp] theorem enterBody_clt (s : State) (ll d : TreeId) : (s.enterBody ll d).clt = s.clt := rfl
@[simp] theorem enterBody_llt (s : State) (ll d : TreeId) : (s.enterBody ll d).llt = s.llt := rfl
@[simp] theorem enterBody_dt (s : State) (ll d : TreeId) : (s.enterBody ll d).dt = s.dt := rfl
@[simp] theorem enterBody_blCount (s : State) (ll d : TreeId) : (s.enterBody ll d).blCount = s.blCount := rfl
@[simp] theorem enterBody_nextCode (s : State) (ll d : TreeId) : (s.enterBody ll d).nextCode = s.nextCode := rfl
@[simp] theorem enterBody_sym (s : State) (ll d : TreeId) : (s.enterBody ll d).sym = s.sym := rfl
@[simp] theorem enterBody_curLen (s : State) (ll d : TreeId) : (s.enterBody ll d).curLen = s.curLen := rfl
@[simp] theorem enterBody_curDist (s : State) (ll d : TreeId) : (s.enterBody ll d).curDist = s.curDist := rfl
@[simp] theorem enterBody_extra (s : State) (ll d : TreeId) : (s.enterBody ll d).extra = s.extra := rfl
@[simp] theorem enterBody_llSel (s : State) (ll d : TreeId) : (s.enterBody ll d).llSel = ll := rfl
@[simp] theorem enterBody_dSel (s : State) (ll d : TreeId) : (s.enterBody ll d).dSel = d := rfl
@[simp] theorem enterBody_inMem (s : State) (ll d : TreeId) : (s.enterBody ll d).inMem = s.inMem := rfl
@[simp] theorem enterBody_outMem (s : State) (ll d : TreeId) : (s.enterBody ll d).outMem = s.outMem := rfl
@[simp] theorem enterBody_params (s : State) (ll d : TreeId) : (s.enterBody ll d).params = s.params := rfl
@[simp] theorem enterBody_draws (s : State) (ll d : TreeId) : (s.enterBody ll d).draws = s.draws := rfl
@[simp] theorem enterBody_epoch (s : State) (ll d : TreeId) : (s.enterBody ll d).epoch = s.epoch := rfl
@[simp] theorem enterBody_sessions (s : State) (ll d : TreeId) : (s.enterBody ll d).sessions = s.sessions := rfl
@[simp] theorem enterBody_hostOut (s : State) (ll d : TreeId) : (s.enterBody ll d).hostOut = s.hostOut := rfl
@[simp] theorem enterBody_inputs (s : State) (ll d : TreeId) : (s.enterBody ll d).inputs = s.inputs := rfl
@[simp] theorem enterBody_regData (s : State) (ll d : TreeId) : (s.enterBody ll d).regData = s.regData := rfl
@[simp] theorem enterBody_outData (s : State) (ll d : TreeId) : (s.enterBody ll d).outData = s.outData := rfl
@[simp] theorem enterBody_bcData (s : State) (ll d : TreeId) : (s.enterBody ll d).bcData = s.bcData := rfl

/-! ## enterClcl -/

@[simp] theorem enterClcl_phase (s : State) : s.enterClcl.phase = s.phase := rfl
@[simp] theorem enterClcl_seq (s : State) : s.enterClcl.seq = .clcl := rfl
@[simp] theorem enterClcl_errKind (s : State) : s.enterClcl.errKind = s.errKind := rfl
@[simp] theorem enterClcl_errCause (s : State) : s.enterClcl.errCause = s.errCause := rfl
@[simp] theorem enterClcl_inLenReg (s : State) : s.enterClcl.inLenReg = s.inLenReg := rfl
@[simp] theorem enterClcl_inLen (s : State) : s.enterClcl.inLen = s.inLen := rfl
@[simp] theorem enterClcl_outLen (s : State) : s.enterClcl.outLen = s.outLen := rfl
@[simp] theorem enterClcl_cmf (s : State) : s.enterClcl.cmf = s.cmf := rfl
@[simp] theorem enterClcl_flg (s : State) : s.enterClcl.flg = s.flg := rfl
@[simp] theorem enterClcl_cm (s : State) : s.enterClcl.cm = s.cm := rfl
@[simp] theorem enterClcl_fdict (s : State) : s.enterClcl.fdict = s.fdict := rfl
@[simp] theorem enterClcl_blockFinal (s : State) : s.enterClcl.blockFinal = s.blockFinal := rfl
@[simp] theorem enterClcl_blockType (s : State) : s.enterClcl.blockType = s.blockType := rfl
@[simp] theorem enterClcl_curByte (s : State) : s.enterClcl.curByte = s.curByte := rfl
@[simp] theorem enterClcl_curBit (s : State) : s.enterClcl.curBit = s.curBit := rfl
@[simp] theorem enterClcl_bfinal (s : State) : s.enterClcl.bfinal = s.bfinal := rfl
@[simp] theorem enterClcl_btype (s : State) : s.enterClcl.btype = s.btype := rfl
@[simp] theorem enterClcl_hlit (s : State) : s.enterClcl.hlit = s.hlit := rfl
@[simp] theorem enterClcl_hdist (s : State) : s.enterClcl.hdist = s.hdist := rfl
@[simp] theorem enterClcl_hclen (s : State) : s.enterClcl.hclen = s.hclen := rfl
@[simp] theorem enterClcl_clclIdx (s : State) : s.enterClcl.clclIdx = 0 := rfl
@[simp] theorem enterClcl_clLens (s : State) : s.enterClcl.clLens = List.replicate 19 0 := rfl
@[simp] theorem enterClcl_lenTable (s : State) : s.enterClcl.lenTable = s.lenTable := rfl
@[simp] theorem enterClcl_lenIdx (s : State) : s.enterClcl.lenIdx = s.lenIdx := rfl
@[simp] theorem enterClcl_prevLen (s : State) : s.enterClcl.prevLen = s.prevLen := rfl
@[simp] theorem enterClcl_rep (s : State) : s.enterClcl.rep = s.rep := rfl
@[simp] theorem enterClcl_clt (s : State) : s.enterClcl.clt = s.clt := rfl
@[simp] theorem enterClcl_llt (s : State) : s.enterClcl.llt = s.llt := rfl
@[simp] theorem enterClcl_dt (s : State) : s.enterClcl.dt = s.dt := rfl
@[simp] theorem enterClcl_blCount (s : State) : s.enterClcl.blCount = s.blCount := rfl
@[simp] theorem enterClcl_nextCode (s : State) : s.enterClcl.nextCode = s.nextCode := rfl
@[simp] theorem enterClcl_sym (s : State) : s.enterClcl.sym = s.sym := rfl
@[simp] theorem enterClcl_curLen (s : State) : s.enterClcl.curLen = s.curLen := rfl
@[simp] theorem enterClcl_curDist (s : State) : s.enterClcl.curDist = s.curDist := rfl
@[simp] theorem enterClcl_extra (s : State) : s.enterClcl.extra = s.extra := rfl
@[simp] theorem enterClcl_llSel (s : State) : s.enterClcl.llSel = s.llSel := rfl
@[simp] theorem enterClcl_dSel (s : State) : s.enterClcl.dSel = s.dSel := rfl
@[simp] theorem enterClcl_inMem (s : State) : s.enterClcl.inMem = s.inMem := rfl
@[simp] theorem enterClcl_outMem (s : State) : s.enterClcl.outMem = s.outMem := rfl
@[simp] theorem enterClcl_params (s : State) : s.enterClcl.params = s.params := rfl
@[simp] theorem enterClcl_draws (s : State) : s.enterClcl.draws = s.draws := rfl
@[simp] theorem enterClcl_epoch (s : State) : s.enterClcl.epoch = s.epoch := rfl
@[simp] theorem enterClcl_sessions (s : State) : s.enterClcl.sessions = s.sessions := rfl
@[simp] theorem enterClcl_hostOut (s : State) : s.enterClcl.hostOut = s.hostOut := rfl
@[simp] theorem enterClcl_inputs (s : State) : s.enterClcl.inputs = s.inputs := rfl
@[simp] theorem enterClcl_regData (s : State) : s.enterClcl.regData = s.regData := rfl
@[simp] theorem enterClcl_outData (s : State) : s.enterClcl.outData = s.outData := rfl
@[simp] theorem enterClcl_bcData (s : State) : s.enterClcl.bcData = s.bcData := rfl

/-! ## enterClsym -/

@[simp] theorem enterClsym_phase (s : State) : s.enterClsym.phase = s.phase := rfl
@[simp] theorem enterClsym_seq (s : State) : s.enterClsym.seq = .clsym := rfl
@[simp] theorem enterClsym_errKind (s : State) : s.enterClsym.errKind = s.errKind := rfl
@[simp] theorem enterClsym_errCause (s : State) : s.enterClsym.errCause = s.errCause := rfl
@[simp] theorem enterClsym_inLenReg (s : State) : s.enterClsym.inLenReg = s.inLenReg := rfl
@[simp] theorem enterClsym_inLen (s : State) : s.enterClsym.inLen = s.inLen := rfl
@[simp] theorem enterClsym_outLen (s : State) : s.enterClsym.outLen = s.outLen := rfl
@[simp] theorem enterClsym_cmf (s : State) : s.enterClsym.cmf = s.cmf := rfl
@[simp] theorem enterClsym_flg (s : State) : s.enterClsym.flg = s.flg := rfl
@[simp] theorem enterClsym_cm (s : State) : s.enterClsym.cm = s.cm := rfl
@[simp] theorem enterClsym_fdict (s : State) : s.enterClsym.fdict = s.fdict := rfl
@[simp] theorem enterClsym_blockFinal (s : State) : s.enterClsym.blockFinal = s.blockFinal := rfl
@[simp] theorem enterClsym_blockType (s : State) : s.enterClsym.blockType = s.blockType := rfl
@[simp] theorem enterClsym_curByte (s : State) : s.enterClsym.curByte = s.curByte := rfl
@[simp] theorem enterClsym_curBit (s : State) : s.enterClsym.curBit = s.curBit := rfl
@[simp] theorem enterClsym_bfinal (s : State) : s.enterClsym.bfinal = s.bfinal := rfl
@[simp] theorem enterClsym_btype (s : State) : s.enterClsym.btype = s.btype := rfl
@[simp] theorem enterClsym_hlit (s : State) : s.enterClsym.hlit = s.hlit := rfl
@[simp] theorem enterClsym_hdist (s : State) : s.enterClsym.hdist = s.hdist := rfl
@[simp] theorem enterClsym_hclen (s : State) : s.enterClsym.hclen = s.hclen := rfl
@[simp] theorem enterClsym_clclIdx (s : State) : s.enterClsym.clclIdx = s.clclIdx := rfl
@[simp] theorem enterClsym_clLens (s : State) : s.enterClsym.clLens = s.clLens := rfl
@[simp] theorem enterClsym_lenTable (s : State) : s.enterClsym.lenTable = s.lenTable := rfl
@[simp] theorem enterClsym_lenIdx (s : State) : s.enterClsym.lenIdx = 0 := rfl
@[simp] theorem enterClsym_prevLen (s : State) : s.enterClsym.prevLen = none := rfl
@[simp] theorem enterClsym_rep (s : State) : s.enterClsym.rep = s.rep := rfl
@[simp] theorem enterClsym_clt (s : State) : s.enterClsym.clt = s.clt := rfl
@[simp] theorem enterClsym_llt (s : State) : s.enterClsym.llt = s.llt := rfl
@[simp] theorem enterClsym_dt (s : State) : s.enterClsym.dt = s.dt := rfl
@[simp] theorem enterClsym_blCount (s : State) : s.enterClsym.blCount = s.blCount := rfl
@[simp] theorem enterClsym_nextCode (s : State) : s.enterClsym.nextCode = s.nextCode := rfl
@[simp] theorem enterClsym_sym (s : State) : s.enterClsym.sym = s.sym := rfl
@[simp] theorem enterClsym_curLen (s : State) : s.enterClsym.curLen = s.curLen := rfl
@[simp] theorem enterClsym_curDist (s : State) : s.enterClsym.curDist = s.curDist := rfl
@[simp] theorem enterClsym_extra (s : State) : s.enterClsym.extra = s.extra := rfl
@[simp] theorem enterClsym_llSel (s : State) : s.enterClsym.llSel = s.llSel := rfl
@[simp] theorem enterClsym_dSel (s : State) : s.enterClsym.dSel = s.dSel := rfl
@[simp] theorem enterClsym_inMem (s : State) : s.enterClsym.inMem = s.inMem := rfl
@[simp] theorem enterClsym_outMem (s : State) : s.enterClsym.outMem = s.outMem := rfl
@[simp] theorem enterClsym_params (s : State) : s.enterClsym.params = s.params := rfl
@[simp] theorem enterClsym_draws (s : State) : s.enterClsym.draws = s.draws := rfl
@[simp] theorem enterClsym_epoch (s : State) : s.enterClsym.epoch = s.epoch := rfl
@[simp] theorem enterClsym_sessions (s : State) : s.enterClsym.sessions = s.sessions := rfl
@[simp] theorem enterClsym_hostOut (s : State) : s.enterClsym.hostOut = s.hostOut := rfl
@[simp] theorem enterClsym_inputs (s : State) : s.enterClsym.inputs = s.inputs := rfl
@[simp] theorem enterClsym_regData (s : State) : s.enterClsym.regData = s.regData := rfl
@[simp] theorem enterClsym_outData (s : State) : s.enterClsym.outData = s.outData := rfl
@[simp] theorem enterClsym_bcData (s : State) : s.enterClsym.bcData = s.bcData := rfl

/-! ## putClLen -/

@[simp] theorem putClLen_phase (s : State) (len : BitVec 3) : (s.putClLen len).phase = s.phase := rfl
@[simp] theorem putClLen_seq (s : State) (len : BitVec 3) : (s.putClLen len).seq = s.seq := rfl
@[simp] theorem putClLen_errKind (s : State) (len : BitVec 3) : (s.putClLen len).errKind = s.errKind := rfl
@[simp] theorem putClLen_errCause (s : State) (len : BitVec 3) : (s.putClLen len).errCause = s.errCause := rfl
@[simp] theorem putClLen_inLenReg (s : State) (len : BitVec 3) : (s.putClLen len).inLenReg = s.inLenReg := rfl
@[simp] theorem putClLen_inLen (s : State) (len : BitVec 3) : (s.putClLen len).inLen = s.inLen := rfl
@[simp] theorem putClLen_outLen (s : State) (len : BitVec 3) : (s.putClLen len).outLen = s.outLen := rfl
@[simp] theorem putClLen_cmf (s : State) (len : BitVec 3) : (s.putClLen len).cmf = s.cmf := rfl
@[simp] theorem putClLen_flg (s : State) (len : BitVec 3) : (s.putClLen len).flg = s.flg := rfl
@[simp] theorem putClLen_cm (s : State) (len : BitVec 3) : (s.putClLen len).cm = s.cm := rfl
@[simp] theorem putClLen_fdict (s : State) (len : BitVec 3) : (s.putClLen len).fdict = s.fdict := rfl
@[simp] theorem putClLen_blockFinal (s : State) (len : BitVec 3) : (s.putClLen len).blockFinal = s.blockFinal := rfl
@[simp] theorem putClLen_blockType (s : State) (len : BitVec 3) : (s.putClLen len).blockType = s.blockType := rfl
@[simp] theorem putClLen_curByte (s : State) (len : BitVec 3) : (s.putClLen len).curByte = s.curByte := rfl
@[simp] theorem putClLen_curBit (s : State) (len : BitVec 3) : (s.putClLen len).curBit = s.curBit := rfl
@[simp] theorem putClLen_bfinal (s : State) (len : BitVec 3) : (s.putClLen len).bfinal = s.bfinal := rfl
@[simp] theorem putClLen_btype (s : State) (len : BitVec 3) : (s.putClLen len).btype = s.btype := rfl
@[simp] theorem putClLen_hlit (s : State) (len : BitVec 3) : (s.putClLen len).hlit = s.hlit := rfl
@[simp] theorem putClLen_hdist (s : State) (len : BitVec 3) : (s.putClLen len).hdist = s.hdist := rfl
@[simp] theorem putClLen_hclen (s : State) (len : BitVec 3) : (s.putClLen len).hclen = s.hclen := rfl
@[simp] theorem putClLen_clclIdx (s : State) (len : BitVec 3) : (s.putClLen len).clclIdx = s.clclIdx + 1 := rfl
@[simp] theorem putClLen_lenTable (s : State) (len : BitVec 3) : (s.putClLen len).lenTable = s.lenTable := rfl
@[simp] theorem putClLen_lenIdx (s : State) (len : BitVec 3) : (s.putClLen len).lenIdx = s.lenIdx := rfl
@[simp] theorem putClLen_prevLen (s : State) (len : BitVec 3) : (s.putClLen len).prevLen = s.prevLen := rfl
@[simp] theorem putClLen_rep (s : State) (len : BitVec 3) : (s.putClLen len).rep = s.rep := rfl
@[simp] theorem putClLen_clt (s : State) (len : BitVec 3) : (s.putClLen len).clt = s.clt := rfl
@[simp] theorem putClLen_llt (s : State) (len : BitVec 3) : (s.putClLen len).llt = s.llt := rfl
@[simp] theorem putClLen_dt (s : State) (len : BitVec 3) : (s.putClLen len).dt = s.dt := rfl
@[simp] theorem putClLen_blCount (s : State) (len : BitVec 3) : (s.putClLen len).blCount = s.blCount := rfl
@[simp] theorem putClLen_nextCode (s : State) (len : BitVec 3) : (s.putClLen len).nextCode = s.nextCode := rfl
@[simp] theorem putClLen_sym (s : State) (len : BitVec 3) : (s.putClLen len).sym = s.sym := rfl
@[simp] theorem putClLen_curLen (s : State) (len : BitVec 3) : (s.putClLen len).curLen = s.curLen := rfl
@[simp] theorem putClLen_curDist (s : State) (len : BitVec 3) : (s.putClLen len).curDist = s.curDist := rfl
@[simp] theorem putClLen_extra (s : State) (len : BitVec 3) : (s.putClLen len).extra = s.extra := rfl
@[simp] theorem putClLen_llSel (s : State) (len : BitVec 3) : (s.putClLen len).llSel = s.llSel := rfl
@[simp] theorem putClLen_dSel (s : State) (len : BitVec 3) : (s.putClLen len).dSel = s.dSel := rfl
@[simp] theorem putClLen_inMem (s : State) (len : BitVec 3) : (s.putClLen len).inMem = s.inMem := rfl
@[simp] theorem putClLen_outMem (s : State) (len : BitVec 3) : (s.putClLen len).outMem = s.outMem := rfl
@[simp] theorem putClLen_params (s : State) (len : BitVec 3) : (s.putClLen len).params = s.params := rfl
@[simp] theorem putClLen_draws (s : State) (len : BitVec 3) : (s.putClLen len).draws = s.draws := rfl
@[simp] theorem putClLen_epoch (s : State) (len : BitVec 3) : (s.putClLen len).epoch = s.epoch := rfl
@[simp] theorem putClLen_sessions (s : State) (len : BitVec 3) : (s.putClLen len).sessions = s.sessions := rfl
@[simp] theorem putClLen_hostOut (s : State) (len : BitVec 3) : (s.putClLen len).hostOut = s.hostOut := rfl
@[simp] theorem putClLen_inputs (s : State) (len : BitVec 3) : (s.putClLen len).inputs = s.inputs := rfl
@[simp] theorem putClLen_regData (s : State) (len : BitVec 3) : (s.putClLen len).regData = s.regData := rfl
@[simp] theorem putClLen_outData (s : State) (len : BitVec 3) : (s.putClLen len).outData = s.outData := rfl
@[simp] theorem putClLen_bcData (s : State) (len : BitVec 3) : (s.putClLen len).bcData = s.bcData := rfl

/-! ## putLens -/

@[simp] theorem putLens_phase (s : State) (v : BitVec 4) (n : Nat) : (s.putLens v n).phase = s.phase := rfl
@[simp] theorem putLens_seq (s : State) (v : BitVec 4) (n : Nat) : (s.putLens v n).seq = s.seq := rfl
@[simp] theorem putLens_errKind (s : State) (v : BitVec 4) (n : Nat) : (s.putLens v n).errKind = s.errKind := rfl
@[simp] theorem putLens_errCause (s : State) (v : BitVec 4) (n : Nat) : (s.putLens v n).errCause = s.errCause := rfl
@[simp] theorem putLens_inLenReg (s : State) (v : BitVec 4) (n : Nat) : (s.putLens v n).inLenReg = s.inLenReg := rfl
@[simp] theorem putLens_inLen (s : State) (v : BitVec 4) (n : Nat) : (s.putLens v n).inLen = s.inLen := rfl
@[simp] theorem putLens_outLen (s : State) (v : BitVec 4) (n : Nat) : (s.putLens v n).outLen = s.outLen := rfl
@[simp] theorem putLens_cmf (s : State) (v : BitVec 4) (n : Nat) : (s.putLens v n).cmf = s.cmf := rfl
@[simp] theorem putLens_flg (s : State) (v : BitVec 4) (n : Nat) : (s.putLens v n).flg = s.flg := rfl
@[simp] theorem putLens_cm (s : State) (v : BitVec 4) (n : Nat) : (s.putLens v n).cm = s.cm := rfl
@[simp] theorem putLens_fdict (s : State) (v : BitVec 4) (n : Nat) : (s.putLens v n).fdict = s.fdict := rfl
@[simp] theorem putLens_blockFinal (s : State) (v : BitVec 4) (n : Nat) :
    (s.putLens v n).blockFinal = s.blockFinal := rfl
@[simp] theorem putLens_blockType (s : State) (v : BitVec 4) (n : Nat) :
    (s.putLens v n).blockType = s.blockType := rfl
@[simp] theorem putLens_curByte (s : State) (v : BitVec 4) (n : Nat) : (s.putLens v n).curByte = s.curByte := rfl
@[simp] theorem putLens_curBit (s : State) (v : BitVec 4) (n : Nat) : (s.putLens v n).curBit = s.curBit := rfl
@[simp] theorem putLens_bfinal (s : State) (v : BitVec 4) (n : Nat) : (s.putLens v n).bfinal = s.bfinal := rfl
@[simp] theorem putLens_btype (s : State) (v : BitVec 4) (n : Nat) : (s.putLens v n).btype = s.btype := rfl
@[simp] theorem putLens_hlit (s : State) (v : BitVec 4) (n : Nat) : (s.putLens v n).hlit = s.hlit := rfl
@[simp] theorem putLens_hdist (s : State) (v : BitVec 4) (n : Nat) : (s.putLens v n).hdist = s.hdist := rfl
@[simp] theorem putLens_hclen (s : State) (v : BitVec 4) (n : Nat) : (s.putLens v n).hclen = s.hclen := rfl
@[simp] theorem putLens_clclIdx (s : State) (v : BitVec 4) (n : Nat) : (s.putLens v n).clclIdx = s.clclIdx := rfl
@[simp] theorem putLens_clLens (s : State) (v : BitVec 4) (n : Nat) : (s.putLens v n).clLens = s.clLens := rfl
@[simp] theorem putLens_lenTable (s : State) (v : BitVec 4) (n : Nat) :
    (s.putLens v n).lenTable = fillEntries v n s.lenIdx s.lenTable := rfl
@[simp] theorem putLens_lenIdx (s : State) (v : BitVec 4) (n : Nat) : (s.putLens v n).lenIdx = s.lenIdx + n := rfl
@[simp] theorem putLens_prevLen (s : State) (v : BitVec 4) (n : Nat) : (s.putLens v n).prevLen = s.prevLen := rfl
@[simp] theorem putLens_rep (s : State) (v : BitVec 4) (n : Nat) : (s.putLens v n).rep = s.rep := rfl
@[simp] theorem putLens_clt (s : State) (v : BitVec 4) (n : Nat) : (s.putLens v n).clt = s.clt := rfl
@[simp] theorem putLens_llt (s : State) (v : BitVec 4) (n : Nat) : (s.putLens v n).llt = s.llt := rfl
@[simp] theorem putLens_dt (s : State) (v : BitVec 4) (n : Nat) : (s.putLens v n).dt = s.dt := rfl
@[simp] theorem putLens_blCount (s : State) (v : BitVec 4) (n : Nat) : (s.putLens v n).blCount = s.blCount := rfl
@[simp] theorem putLens_nextCode (s : State) (v : BitVec 4) (n : Nat) : (s.putLens v n).nextCode = s.nextCode := rfl
@[simp] theorem putLens_sym (s : State) (v : BitVec 4) (n : Nat) : (s.putLens v n).sym = s.sym := rfl
@[simp] theorem putLens_curLen (s : State) (v : BitVec 4) (n : Nat) : (s.putLens v n).curLen = s.curLen := rfl
@[simp] theorem putLens_curDist (s : State) (v : BitVec 4) (n : Nat) : (s.putLens v n).curDist = s.curDist := rfl
@[simp] theorem putLens_extra (s : State) (v : BitVec 4) (n : Nat) : (s.putLens v n).extra = s.extra := rfl
@[simp] theorem putLens_llSel (s : State) (v : BitVec 4) (n : Nat) : (s.putLens v n).llSel = s.llSel := rfl
@[simp] theorem putLens_dSel (s : State) (v : BitVec 4) (n : Nat) : (s.putLens v n).dSel = s.dSel := rfl
@[simp] theorem putLens_inMem (s : State) (v : BitVec 4) (n : Nat) : (s.putLens v n).inMem = s.inMem := rfl
@[simp] theorem putLens_outMem (s : State) (v : BitVec 4) (n : Nat) : (s.putLens v n).outMem = s.outMem := rfl
@[simp] theorem putLens_params (s : State) (v : BitVec 4) (n : Nat) : (s.putLens v n).params = s.params := rfl
@[simp] theorem putLens_draws (s : State) (v : BitVec 4) (n : Nat) : (s.putLens v n).draws = s.draws := rfl
@[simp] theorem putLens_epoch (s : State) (v : BitVec 4) (n : Nat) : (s.putLens v n).epoch = s.epoch := rfl
@[simp] theorem putLens_sessions (s : State) (v : BitVec 4) (n : Nat) : (s.putLens v n).sessions = s.sessions := rfl
@[simp] theorem putLens_hostOut (s : State) (v : BitVec 4) (n : Nat) : (s.putLens v n).hostOut = s.hostOut := rfl
@[simp] theorem putLens_inputs (s : State) (v : BitVec 4) (n : Nat) : (s.putLens v n).inputs = s.inputs := rfl
@[simp] theorem putLens_regData (s : State) (v : BitVec 4) (n : Nat) : (s.putLens v n).regData = s.regData := rfl
@[simp] theorem putLens_outData (s : State) (v : BitVec 4) (n : Nat) : (s.putLens v n).outData = s.outData := rfl
@[simp] theorem putLens_bcData (s : State) (v : BitVec 4) (n : Nat) : (s.putLens v n).bcData = s.bcData := rfl

/-! ## endBlock -/

@[simp] theorem endBlock_phase (s : State) : s.endBlock.phase = if s.bfinal then .done else .bhdr := rfl
@[simp] theorem endBlock_seq (s : State) : s.endBlock.seq = .head := rfl
@[simp] theorem endBlock_errKind (s : State) : s.endBlock.errKind = s.errKind := rfl
@[simp] theorem endBlock_errCause (s : State) : s.endBlock.errCause = s.errCause := rfl
@[simp] theorem endBlock_inLenReg (s : State) : s.endBlock.inLenReg = s.inLenReg := rfl
@[simp] theorem endBlock_inLen (s : State) : s.endBlock.inLen = s.inLen := rfl
@[simp] theorem endBlock_outLen (s : State) : s.endBlock.outLen = s.outLen := rfl
@[simp] theorem endBlock_cmf (s : State) : s.endBlock.cmf = s.cmf := rfl
@[simp] theorem endBlock_flg (s : State) : s.endBlock.flg = s.flg := rfl
@[simp] theorem endBlock_cm (s : State) : s.endBlock.cm = s.cm := rfl
@[simp] theorem endBlock_fdict (s : State) : s.endBlock.fdict = s.fdict := rfl
@[simp] theorem endBlock_blockFinal (s : State) : s.endBlock.blockFinal = s.blockFinal := rfl
@[simp] theorem endBlock_blockType (s : State) : s.endBlock.blockType = s.blockType := rfl
@[simp] theorem endBlock_curByte (s : State) : s.endBlock.curByte = s.curByte := rfl
@[simp] theorem endBlock_curBit (s : State) : s.endBlock.curBit = s.curBit := rfl
@[simp] theorem endBlock_bfinal (s : State) : s.endBlock.bfinal = s.bfinal := rfl
@[simp] theorem endBlock_btype (s : State) : s.endBlock.btype = s.btype := rfl
@[simp] theorem endBlock_hlit (s : State) : s.endBlock.hlit = s.hlit := rfl
@[simp] theorem endBlock_hdist (s : State) : s.endBlock.hdist = s.hdist := rfl
@[simp] theorem endBlock_hclen (s : State) : s.endBlock.hclen = s.hclen := rfl
@[simp] theorem endBlock_clclIdx (s : State) : s.endBlock.clclIdx = s.clclIdx := rfl
@[simp] theorem endBlock_clLens (s : State) : s.endBlock.clLens = s.clLens := rfl
@[simp] theorem endBlock_lenTable (s : State) : s.endBlock.lenTable = s.lenTable := rfl
@[simp] theorem endBlock_lenIdx (s : State) : s.endBlock.lenIdx = s.lenIdx := rfl
@[simp] theorem endBlock_prevLen (s : State) : s.endBlock.prevLen = s.prevLen := rfl
@[simp] theorem endBlock_rep (s : State) : s.endBlock.rep = s.rep := rfl
@[simp] theorem endBlock_clt (s : State) : s.endBlock.clt = s.clt := rfl
@[simp] theorem endBlock_llt (s : State) : s.endBlock.llt = s.llt := rfl
@[simp] theorem endBlock_dt (s : State) : s.endBlock.dt = s.dt := rfl
@[simp] theorem endBlock_blCount (s : State) : s.endBlock.blCount = s.blCount := rfl
@[simp] theorem endBlock_nextCode (s : State) : s.endBlock.nextCode = s.nextCode := rfl
@[simp] theorem endBlock_sym (s : State) : s.endBlock.sym = s.sym := rfl
@[simp] theorem endBlock_curLen (s : State) : s.endBlock.curLen = s.curLen := rfl
@[simp] theorem endBlock_curDist (s : State) : s.endBlock.curDist = s.curDist := rfl
@[simp] theorem endBlock_extra (s : State) : s.endBlock.extra = s.extra := rfl
@[simp] theorem endBlock_llSel (s : State) : s.endBlock.llSel = s.llSel := rfl
@[simp] theorem endBlock_dSel (s : State) : s.endBlock.dSel = s.dSel := rfl
@[simp] theorem endBlock_inMem (s : State) : s.endBlock.inMem = s.inMem := rfl
@[simp] theorem endBlock_outMem (s : State) : s.endBlock.outMem = s.outMem := rfl
@[simp] theorem endBlock_params (s : State) : s.endBlock.params = s.params := rfl
@[simp] theorem endBlock_draws (s : State) : s.endBlock.draws = s.draws := rfl
@[simp] theorem endBlock_epoch (s : State) : s.endBlock.epoch = s.epoch := rfl
@[simp] theorem endBlock_sessions (s : State) : s.endBlock.sessions = s.sessions := rfl
@[simp] theorem endBlock_hostOut (s : State) : s.endBlock.hostOut = s.hostOut := rfl
@[simp] theorem endBlock_inputs (s : State) : s.endBlock.inputs = s.inputs := rfl
@[simp] theorem endBlock_regData (s : State) : s.endBlock.regData = s.regData := rfl
@[simp] theorem endBlock_outData (s : State) : s.endBlock.outData = s.outData := rfl
@[simp] theorem endBlock_bcData (s : State) : s.endBlock.bcData = s.bcData := rfl

/-! ## returnBits -/

@[simp] theorem returnBits_phase (s : State) (v : Nat) : (s.returnBits v).phase = s.phase := rfl
@[simp] theorem returnBits_seq (s : State) (v : Nat) : (s.returnBits v).seq = s.seq := rfl
@[simp] theorem returnBits_errKind (s : State) (v : Nat) : (s.returnBits v).errKind = s.errKind := rfl
@[simp] theorem returnBits_errCause (s : State) (v : Nat) : (s.returnBits v).errCause = s.errCause := rfl
@[simp] theorem returnBits_inLenReg (s : State) (v : Nat) : (s.returnBits v).inLenReg = s.inLenReg := rfl
@[simp] theorem returnBits_inLen (s : State) (v : Nat) : (s.returnBits v).inLen = s.inLen := rfl
@[simp] theorem returnBits_outLen (s : State) (v : Nat) : (s.returnBits v).outLen = s.outLen := rfl
@[simp] theorem returnBits_cmf (s : State) (v : Nat) : (s.returnBits v).cmf = s.cmf := rfl
@[simp] theorem returnBits_flg (s : State) (v : Nat) : (s.returnBits v).flg = s.flg := rfl
@[simp] theorem returnBits_cm (s : State) (v : Nat) : (s.returnBits v).cm = s.cm := rfl
@[simp] theorem returnBits_fdict (s : State) (v : Nat) : (s.returnBits v).fdict = s.fdict := rfl
@[simp] theorem returnBits_blockFinal (s : State) (v : Nat) : (s.returnBits v).blockFinal = s.blockFinal := rfl
@[simp] theorem returnBits_blockType (s : State) (v : Nat) : (s.returnBits v).blockType = s.blockType := rfl
@[simp] theorem returnBits_curByte (s : State) (v : Nat) : (s.returnBits v).curByte = s.curByte := rfl
@[simp] theorem returnBits_curBit (s : State) (v : Nat) : (s.returnBits v).curBit = s.curBit := rfl
@[simp] theorem returnBits_bfinal (s : State) (v : Nat) : (s.returnBits v).bfinal = s.bfinal := rfl
@[simp] theorem returnBits_btype (s : State) (v : Nat) : (s.returnBits v).btype = s.btype := rfl
@[simp] theorem returnBits_hlit (s : State) (v : Nat) : (s.returnBits v).hlit = s.hlit := rfl
@[simp] theorem returnBits_hdist (s : State) (v : Nat) : (s.returnBits v).hdist = s.hdist := rfl
@[simp] theorem returnBits_hclen (s : State) (v : Nat) : (s.returnBits v).hclen = s.hclen := rfl
@[simp] theorem returnBits_clclIdx (s : State) (v : Nat) : (s.returnBits v).clclIdx = s.clclIdx := rfl
@[simp] theorem returnBits_clLens (s : State) (v : Nat) : (s.returnBits v).clLens = s.clLens := rfl
@[simp] theorem returnBits_lenTable (s : State) (v : Nat) : (s.returnBits v).lenTable = s.lenTable := rfl
@[simp] theorem returnBits_lenIdx (s : State) (v : Nat) : (s.returnBits v).lenIdx = s.lenIdx := rfl
@[simp] theorem returnBits_prevLen (s : State) (v : Nat) : (s.returnBits v).prevLen = s.prevLen := rfl
@[simp] theorem returnBits_rep (s : State) (v : Nat) : (s.returnBits v).rep = s.rep := rfl
@[simp] theorem returnBits_clt (s : State) (v : Nat) : (s.returnBits v).clt = s.clt := rfl
@[simp] theorem returnBits_llt (s : State) (v : Nat) : (s.returnBits v).llt = s.llt := rfl
@[simp] theorem returnBits_dt (s : State) (v : Nat) : (s.returnBits v).dt = s.dt := rfl
@[simp] theorem returnBits_blCount (s : State) (v : Nat) : (s.returnBits v).blCount = s.blCount := rfl
@[simp] theorem returnBits_nextCode (s : State) (v : Nat) : (s.returnBits v).nextCode = s.nextCode := rfl
@[simp] theorem returnBits_sym (s : State) (v : Nat) : (s.returnBits v).sym = s.sym := rfl
@[simp] theorem returnBits_curLen (s : State) (v : Nat) : (s.returnBits v).curLen = s.curLen := rfl
@[simp] theorem returnBits_curDist (s : State) (v : Nat) : (s.returnBits v).curDist = s.curDist := rfl
@[simp] theorem returnBits_extra (s : State) (v : Nat) : (s.returnBits v).extra = s.extra := rfl
@[simp] theorem returnBits_llSel (s : State) (v : Nat) : (s.returnBits v).llSel = s.llSel := rfl
@[simp] theorem returnBits_dSel (s : State) (v : Nat) : (s.returnBits v).dSel = s.dSel := rfl
@[simp] theorem returnBits_inMem (s : State) (v : Nat) : (s.returnBits v).inMem = s.inMem := rfl
@[simp] theorem returnBits_outMem (s : State) (v : Nat) : (s.returnBits v).outMem = s.outMem := rfl
@[simp] theorem returnBits_params (s : State) (v : Nat) : (s.returnBits v).params = s.params := rfl
@[simp] theorem returnBits_draws (s : State) (v : Nat) : (s.returnBits v).draws = s.draws := rfl
@[simp] theorem returnBits_epoch (s : State) (v : Nat) : (s.returnBits v).epoch = s.epoch := rfl
@[simp] theorem returnBits_sessions (s : State) (v : Nat) : (s.returnBits v).sessions = s.sessions := rfl
@[simp] theorem returnBits_hostOut (s : State) (v : Nat) : (s.returnBits v).hostOut = s.hostOut := rfl
@[simp] theorem returnBits_inputs (s : State) (v : Nat) : (s.returnBits v).inputs = s.inputs := rfl
@[simp] theorem returnBits_regData (s : State) (v : Nat) : (s.returnBits v).regData = s.regData := rfl
@[simp] theorem returnBits_outData (s : State) (v : Nat) : (s.returnBits v).outData = s.outData := rfl
@[simp] theorem returnBits_bcData (s : State) (v : Nat) : (s.returnBits v).bcData = BitVec.ofNat 64 v := rfl

/-! ## hostReadReg -/

@[simp] theorem hostReadReg_phase (s : State) (r : HostReg) : (s.hostReadReg r).phase = s.phase := rfl
@[simp] theorem hostReadReg_seq (s : State) (r : HostReg) : (s.hostReadReg r).seq = s.seq := rfl
@[simp] theorem hostReadReg_errKind (s : State) (r : HostReg) : (s.hostReadReg r).errKind = s.errKind := rfl
@[simp] theorem hostReadReg_errCause (s : State) (r : HostReg) : (s.hostReadReg r).errCause = s.errCause := rfl
@[simp] theorem hostReadReg_inLenReg (s : State) (r : HostReg) : (s.hostReadReg r).inLenReg = s.inLenReg := rfl
@[simp] theorem hostReadReg_inLen (s : State) (r : HostReg) : (s.hostReadReg r).inLen = s.inLen := rfl
@[simp] theorem hostReadReg_outLen (s : State) (r : HostReg) : (s.hostReadReg r).outLen = s.outLen := rfl
@[simp] theorem hostReadReg_cmf (s : State) (r : HostReg) : (s.hostReadReg r).cmf = s.cmf := rfl
@[simp] theorem hostReadReg_flg (s : State) (r : HostReg) : (s.hostReadReg r).flg = s.flg := rfl
@[simp] theorem hostReadReg_cm (s : State) (r : HostReg) : (s.hostReadReg r).cm = s.cm := rfl
@[simp] theorem hostReadReg_fdict (s : State) (r : HostReg) : (s.hostReadReg r).fdict = s.fdict := rfl
@[simp] theorem hostReadReg_blockFinal (s : State) (r : HostReg) : (s.hostReadReg r).blockFinal = s.blockFinal := rfl
@[simp] theorem hostReadReg_blockType (s : State) (r : HostReg) : (s.hostReadReg r).blockType = s.blockType := rfl
@[simp] theorem hostReadReg_curByte (s : State) (r : HostReg) : (s.hostReadReg r).curByte = s.curByte := rfl
@[simp] theorem hostReadReg_curBit (s : State) (r : HostReg) : (s.hostReadReg r).curBit = s.curBit := rfl
@[simp] theorem hostReadReg_bfinal (s : State) (r : HostReg) : (s.hostReadReg r).bfinal = s.bfinal := rfl
@[simp] theorem hostReadReg_btype (s : State) (r : HostReg) : (s.hostReadReg r).btype = s.btype := rfl
@[simp] theorem hostReadReg_hlit (s : State) (r : HostReg) : (s.hostReadReg r).hlit = s.hlit := rfl
@[simp] theorem hostReadReg_hdist (s : State) (r : HostReg) : (s.hostReadReg r).hdist = s.hdist := rfl
@[simp] theorem hostReadReg_hclen (s : State) (r : HostReg) : (s.hostReadReg r).hclen = s.hclen := rfl
@[simp] theorem hostReadReg_clclIdx (s : State) (r : HostReg) : (s.hostReadReg r).clclIdx = s.clclIdx := rfl
@[simp] theorem hostReadReg_clLens (s : State) (r : HostReg) : (s.hostReadReg r).clLens = s.clLens := rfl
@[simp] theorem hostReadReg_lenTable (s : State) (r : HostReg) : (s.hostReadReg r).lenTable = s.lenTable := rfl
@[simp] theorem hostReadReg_lenIdx (s : State) (r : HostReg) : (s.hostReadReg r).lenIdx = s.lenIdx := rfl
@[simp] theorem hostReadReg_prevLen (s : State) (r : HostReg) : (s.hostReadReg r).prevLen = s.prevLen := rfl
@[simp] theorem hostReadReg_rep (s : State) (r : HostReg) : (s.hostReadReg r).rep = s.rep := rfl
@[simp] theorem hostReadReg_clt (s : State) (r : HostReg) : (s.hostReadReg r).clt = s.clt := rfl
@[simp] theorem hostReadReg_llt (s : State) (r : HostReg) : (s.hostReadReg r).llt = s.llt := rfl
@[simp] theorem hostReadReg_dt (s : State) (r : HostReg) : (s.hostReadReg r).dt = s.dt := rfl
@[simp] theorem hostReadReg_blCount (s : State) (r : HostReg) : (s.hostReadReg r).blCount = s.blCount := rfl
@[simp] theorem hostReadReg_nextCode (s : State) (r : HostReg) : (s.hostReadReg r).nextCode = s.nextCode := rfl
@[simp] theorem hostReadReg_sym (s : State) (r : HostReg) : (s.hostReadReg r).sym = s.sym := rfl
@[simp] theorem hostReadReg_curLen (s : State) (r : HostReg) : (s.hostReadReg r).curLen = s.curLen := rfl
@[simp] theorem hostReadReg_curDist (s : State) (r : HostReg) : (s.hostReadReg r).curDist = s.curDist := rfl
@[simp] theorem hostReadReg_extra (s : State) (r : HostReg) : (s.hostReadReg r).extra = s.extra := rfl
@[simp] theorem hostReadReg_llSel (s : State) (r : HostReg) : (s.hostReadReg r).llSel = s.llSel := rfl
@[simp] theorem hostReadReg_dSel (s : State) (r : HostReg) : (s.hostReadReg r).dSel = s.dSel := rfl
@[simp] theorem hostReadReg_inMem (s : State) (r : HostReg) : (s.hostReadReg r).inMem = s.inMem := rfl
@[simp] theorem hostReadReg_outMem (s : State) (r : HostReg) : (s.hostReadReg r).outMem = s.outMem := rfl
@[simp] theorem hostReadReg_params (s : State) (r : HostReg) : (s.hostReadReg r).params = s.params := rfl
@[simp] theorem hostReadReg_draws (s : State) (r : HostReg) : (s.hostReadReg r).draws = s.draws + 1 := rfl
@[simp] theorem hostReadReg_epoch (s : State) (r : HostReg) : (s.hostReadReg r).epoch = s.epoch := rfl
@[simp] theorem hostReadReg_sessions (s : State) (r : HostReg) : (s.hostReadReg r).sessions = s.sessions := rfl
@[simp] theorem hostReadReg_hostOut (s : State) (r : HostReg) : (s.hostReadReg r).hostOut = s.hostOut := rfl
@[simp] theorem hostReadReg_inputs (s : State) (r : HostReg) : (s.hostReadReg r).inputs = s.inputs := rfl
@[simp] theorem hostReadReg_regData (s : State) (r : HostReg) : (s.hostReadReg r).regData = s.readWord r := rfl
@[simp] theorem hostReadReg_outData (s : State) (r : HostReg) : (s.hostReadReg r).outData = s.outData := rfl
@[simp] theorem hostReadReg_bcData (s : State) (r : HostReg) : (s.hostReadReg r).bcData = s.bcData := rfl

/-! ## hostReadOut -/

@[simp] theorem hostReadOut_phase (s : State) (a : Nat) : (s.hostReadOut a).phase = s.phase := rfl
@[simp] theorem hostReadOut_seq (s : State) (a : Nat) : (s.hostReadOut a).seq = s.seq := rfl
@[simp] theorem hostReadOut_errKind (s : State) (a : Nat) : (s.hostReadOut a).errKind = s.errKind := rfl
@[simp] theorem hostReadOut_errCause (s : State) (a : Nat) : (s.hostReadOut a).errCause = s.errCause := rfl
@[simp] theorem hostReadOut_inLenReg (s : State) (a : Nat) : (s.hostReadOut a).inLenReg = s.inLenReg := rfl
@[simp] theorem hostReadOut_inLen (s : State) (a : Nat) : (s.hostReadOut a).inLen = s.inLen := rfl
@[simp] theorem hostReadOut_outLen (s : State) (a : Nat) : (s.hostReadOut a).outLen = s.outLen := rfl
@[simp] theorem hostReadOut_cmf (s : State) (a : Nat) : (s.hostReadOut a).cmf = s.cmf := rfl
@[simp] theorem hostReadOut_flg (s : State) (a : Nat) : (s.hostReadOut a).flg = s.flg := rfl
@[simp] theorem hostReadOut_cm (s : State) (a : Nat) : (s.hostReadOut a).cm = s.cm := rfl
@[simp] theorem hostReadOut_fdict (s : State) (a : Nat) : (s.hostReadOut a).fdict = s.fdict := rfl
@[simp] theorem hostReadOut_blockFinal (s : State) (a : Nat) : (s.hostReadOut a).blockFinal = s.blockFinal := rfl
@[simp] theorem hostReadOut_blockType (s : State) (a : Nat) : (s.hostReadOut a).blockType = s.blockType := rfl
@[simp] theorem hostReadOut_curByte (s : State) (a : Nat) : (s.hostReadOut a).curByte = s.curByte := rfl
@[simp] theorem hostReadOut_curBit (s : State) (a : Nat) : (s.hostReadOut a).curBit = s.curBit := rfl
@[simp] theorem hostReadOut_bfinal (s : State) (a : Nat) : (s.hostReadOut a).bfinal = s.bfinal := rfl
@[simp] theorem hostReadOut_btype (s : State) (a : Nat) : (s.hostReadOut a).btype = s.btype := rfl
@[simp] theorem hostReadOut_hlit (s : State) (a : Nat) : (s.hostReadOut a).hlit = s.hlit := rfl
@[simp] theorem hostReadOut_hdist (s : State) (a : Nat) : (s.hostReadOut a).hdist = s.hdist := rfl
@[simp] theorem hostReadOut_hclen (s : State) (a : Nat) : (s.hostReadOut a).hclen = s.hclen := rfl
@[simp] theorem hostReadOut_clclIdx (s : State) (a : Nat) : (s.hostReadOut a).clclIdx = s.clclIdx := rfl
@[simp] theorem hostReadOut_clLens (s : State) (a : Nat) : (s.hostReadOut a).clLens = s.clLens := rfl
@[simp] theorem hostReadOut_lenTable (s : State) (a : Nat) : (s.hostReadOut a).lenTable = s.lenTable := rfl
@[simp] theorem hostReadOut_lenIdx (s : State) (a : Nat) : (s.hostReadOut a).lenIdx = s.lenIdx := rfl
@[simp] theorem hostReadOut_prevLen (s : State) (a : Nat) : (s.hostReadOut a).prevLen = s.prevLen := rfl
@[simp] theorem hostReadOut_rep (s : State) (a : Nat) : (s.hostReadOut a).rep = s.rep := rfl
@[simp] theorem hostReadOut_clt (s : State) (a : Nat) : (s.hostReadOut a).clt = s.clt := rfl
@[simp] theorem hostReadOut_llt (s : State) (a : Nat) : (s.hostReadOut a).llt = s.llt := rfl
@[simp] theorem hostReadOut_dt (s : State) (a : Nat) : (s.hostReadOut a).dt = s.dt := rfl
@[simp] theorem hostReadOut_blCount (s : State) (a : Nat) : (s.hostReadOut a).blCount = s.blCount := rfl
@[simp] theorem hostReadOut_nextCode (s : State) (a : Nat) : (s.hostReadOut a).nextCode = s.nextCode := rfl
@[simp] theorem hostReadOut_sym (s : State) (a : Nat) : (s.hostReadOut a).sym = s.sym := rfl
@[simp] theorem hostReadOut_curLen (s : State) (a : Nat) : (s.hostReadOut a).curLen = s.curLen := rfl
@[simp] theorem hostReadOut_curDist (s : State) (a : Nat) : (s.hostReadOut a).curDist = s.curDist := rfl
@[simp] theorem hostReadOut_extra (s : State) (a : Nat) : (s.hostReadOut a).extra = s.extra := rfl
@[simp] theorem hostReadOut_llSel (s : State) (a : Nat) : (s.hostReadOut a).llSel = s.llSel := rfl
@[simp] theorem hostReadOut_dSel (s : State) (a : Nat) : (s.hostReadOut a).dSel = s.dSel := rfl
@[simp] theorem hostReadOut_inMem (s : State) (a : Nat) : (s.hostReadOut a).inMem = s.inMem := rfl
@[simp] theorem hostReadOut_outMem (s : State) (a : Nat) : (s.hostReadOut a).outMem = s.outMem := rfl
@[simp] theorem hostReadOut_params (s : State) (a : Nat) : (s.hostReadOut a).params = s.params := rfl
@[simp] theorem hostReadOut_draws (s : State) (a : Nat) : (s.hostReadOut a).draws = s.draws + 1 := rfl
@[simp] theorem hostReadOut_epoch (s : State) (a : Nat) : (s.hostReadOut a).epoch = s.epoch := rfl
@[simp] theorem hostReadOut_sessions (s : State) (a : Nat) : (s.hostReadOut a).sessions = s.sessions := rfl
@[simp] theorem hostReadOut_hostOut (s : State) (a : Nat) : (s.hostReadOut a).hostOut = s.hostOut := rfl
@[simp] theorem hostReadOut_inputs (s : State) (a : Nat) : (s.hostReadOut a).inputs = s.inputs := rfl
@[simp] theorem hostReadOut_regData (s : State) (a : Nat) : (s.hostReadOut a).regData = s.regData := rfl
@[simp] theorem hostReadOut_outData (s : State) (a : Nat) : (s.hostReadOut a).outData = s.readOutByte a := rfl
@[simp] theorem hostReadOut_bcData (s : State) (a : Nat) : (s.hostReadOut a).bcData = s.bcData := rfl

end Sys2Proof.Machine
end

