-- ==== Sys2Proof/Laws/Memory.lean ====
section
/-! SUPPORT. The two memories: a read after a write, the canonical form, and the bytes the machine reads. -/

namespace Sys2Proof.Machine

/-! ## Lists of cells -/

theorem memory_read_write_same (m : Memory) (a : Nat) (x : Byte) : Memory.read (Memory.write m a x) a = some x := by
  induction m with
  | nil => simp [Memory.write, Memory.read]
  | cons c m ih =>
    obtain ⟨b, v⟩ := c
    simp only [Memory.write]
    split
    · simp [Memory.read]
    · split
      · simp [Memory.read, *]
      · rw [Memory.read, if_neg ‹_›]
        exact ih

theorem memory_read_write_other (m : Memory) {a b : Nat} (x : Byte) (h : b ≠ a) :
    Memory.read (Memory.write m a x) b = Memory.read m b := by
  induction m with
  | nil => simp [Memory.write, Memory.read, h]
  | cons c m ih =>
    obtain ⟨d, v⟩ := c
    simp only [Memory.write]
    split
    · rw [Memory.read, if_neg h]
    · split
      · next hd => subst hd; simp [Memory.read, h]
      · simp only [Memory.read]
        split
        · rfl
        · exact ih

theorem memory_above_of_le {m : Memory} {lo lo' : Nat} (h : lo' ≤ lo) (hm : Memory.above lo m = true) :
    Memory.above lo' m = true := by
  cases m with
  | nil => rfl
  | cons c m =>
    obtain ⟨b, v⟩ := c
    simp only [Memory.above, Bool.and_eq_true, decide_eq_true_eq] at hm ⊢
    exact ⟨by omega, hm.2⟩

theorem memory_above_write {m : Memory} {lo a : Nat} (x : Byte) (hm : Memory.above lo m = true) (h : lo < a) :
    Memory.above lo (Memory.write m a x) = true := by
  induction m generalizing lo with
  | nil => simp [Memory.write, Memory.above, h]
  | cons c m ih =>
    obtain ⟨b, v⟩ := c
    simp only [Memory.above, Bool.and_eq_true, decide_eq_true_eq] at hm
    simp only [Memory.write]
    split
    · simp [Memory.above, *]
    · split
      · next hb => subst hb; simp [Memory.above, *]
      · simp only [Memory.above, Bool.and_eq_true, decide_eq_true_eq]
        exact ⟨hm.1, ih hm.2 (by omega)⟩

/-- A write keeps the canonical form. -/
theorem memory_wf_write {m : Memory} (a : Nat) (x : Byte) (hm : m.wf = true) : (Memory.write m a x).wf = true := by
  cases m with
  | nil => rfl
  | cons c m =>
    obtain ⟨b, v⟩ := c
    simp only [Memory.wf] at hm
    simp only [Memory.write]
    split
    · simp [Memory.wf, Memory.above, *]
    · split
      · next hb => simpa [Memory.wf] using hm
      · simp only [Memory.wf]
        exact memory_above_write x hm (by omega)

theorem memory_read_of_above {m : Memory} {lo a : Nat} (hm : Memory.above lo m = true) (h : a ≤ lo) :
    Memory.read m a = none := by
  induction m generalizing lo with
  | nil => rfl
  | cons c m ih =>
    obtain ⟨b, v⟩ := c
    simp only [Memory.above, Bool.and_eq_true, decide_eq_true_eq] at hm
    rw [Memory.read, if_neg (by omega)]
    exact ih hm.2 (by omega)

theorem memory_ext_above {m n : Memory} {lo : Nat} (hm : Memory.above lo m = true) (hn : Memory.above lo n = true)
    (h : ∀ a, Memory.read m a = Memory.read n a) : m = n := by
  induction m generalizing n lo with
  | nil =>
    cases n with
    | nil => rfl
    | cons d n => simpa [Memory.read] using h d.1
  | cons c m ih =>
    obtain ⟨b, v⟩ := c
    cases n with
    | nil => simpa [Memory.read] using h b
    | cons d n =>
      obtain ⟨d, w⟩ := d
      simp only [Memory.above, Bool.and_eq_true, decide_eq_true_eq] at hm hn
      have hb := h b
      have hd := h d
      simp only [Memory.read, if_true] at hb hd
      rcases Nat.lt_trichotomy b d with hlt | heq | hgt
      · rw [if_neg (by omega), memory_read_of_above hn.2 (by omega)] at hb
        cases hb
      · subst heq
        simp only [if_true, Option.some.injEq] at hb
        subst hb
        congr 1
        refine ih hm.2 hn.2 fun a => ?_
        by_cases ha : a ≤ b
        · rw [memory_read_of_above hm.2 ha, memory_read_of_above hn.2 ha]
        · simpa [Memory.read, show a ≠ b by omega] using h a
      · rw [if_neg (by omega), memory_read_of_above hm.2 (by omega)] at hd
        cases hd

/-- Equal memories are equal data: two memories in canonical form that read alike are the same list. -/
theorem memory_ext {m n : Memory} (hm : m.wf = true) (hn : n.wf = true)
    (h : ∀ a, Memory.read m a = Memory.read n a) : m = n := by
  cases m with
  | nil =>
    cases n with
    | nil => rfl
    | cons d n => simpa [Memory.read] using h d.1
  | cons c m =>
    obtain ⟨b, v⟩ := c
    cases n with
    | nil => simpa [Memory.read] using h b
    | cons d n =>
      obtain ⟨d, w⟩ := d
      simp only [Memory.wf] at hm hn
      have hb := h b
      have hd := h d
      simp only [Memory.read, if_true] at hb hd
      rcases Nat.lt_trichotomy b d with hlt | heq | hgt
      · rw [if_neg (by omega), memory_read_of_above hn (by omega)] at hb
        cases hb
      · subst heq
        simp only [if_true, Option.some.injEq] at hb
        subst hb
        congr 1
        refine memory_ext_above hm hn fun a => ?_
        by_cases ha : a ≤ b
        · rw [memory_read_of_above hm ha, memory_read_of_above hn ha]
        · simpa [Memory.read, show a ≠ b by omega] using h a
      · rw [if_neg (by omega), memory_read_of_above hm (by omega)] at hd
        cases hd

theorem reset_inMem_wf : State.reset.inMem.wf = true := rfl

theorem reset_outMem_wf : State.reset.outMem.wf = true := rfl

/-! ## The bytes of IN and OUT -/

/-- IN reads alike in two states that agree on its cells and the epoch. -/
theorem inByte_congr {s t : State} (hm : t.inMem = s.inMem) (he : t.epoch = s.epoch) (a : Nat) :
    t.inByte a = s.inByte a := by
  simp only [State.inByte, hm, he]

/-- OUT reads alike in two states that agree on its cells and the epoch. -/
theorem outByte_congr {s t : State} (hm : t.outMem = s.outMem) (he : t.epoch = s.epoch) (a : Nat) :
    t.outByte a = s.outByte a := by
  simp only [State.outByte, hm, he]

@[simp] theorem outByte_writeOut_same (s : State) (a : Nat) (x : Byte) : (s.writeOut a x).outByte a = x := by
  simp [State.outByte, memory_read_write_same]

theorem outByte_writeOut_other (s : State) {a b : Nat} (x : Byte) (h : b ≠ a) :
    (s.writeOut a x).outByte b = s.outByte b := by
  simp [State.outByte, memory_read_write_other, h]

@[simp] theorem inByte_writeOut (s : State) (a b : Nat) (x : Byte) : (s.writeOut a x).inByte b = s.inByte b := rfl

/-- A host write of OUT changes OUT as any write of it does. -/
theorem outByte_writeHostOut (s : State) (a b : Nat) (x : Byte) :
    (s.writeHostOut a x).outByte b = (s.writeOut a x).outByte b := rfl

@[simp] theorem inByte_writeHostOut (s : State) (a b : Nat) (x : Byte) : (s.writeHostOut a x).inByte b = s.inByte b := rfl

@[simp] theorem status_writeHostOut (s : State) (a : Nat) (x : Byte) : (s.writeHostOut a x).status = s.status := rfl

theorem leftOutByte_writeHostOut_same (s : State) (a : Nat) (x : Byte) : (s.writeHostOut a x).leftOutByte a = x := by
  simp [State.leftOutByte, memory_read_write_same]

theorem leftOutByte_writeHostOut_other (s : State) {a b : Nat} (x : Byte) (h : b ≠ a) :
    (s.writeHostOut a x).leftOutByte b = s.leftOutByte b := by
  simp [State.leftOutByte, memory_read_write_other, h]

/-- What the host reads of OUT while not BUSY depends on neither the count of free values nor what was read before
(20_memory.md R69). -/
theorem readOutByte_congr {s t : State} {a : Nat} (hs : s.status ≠ .busy) (h1 : t.status = s.status)
    (h2 : t.outLen = s.outLen) (h3 : t.outByte a = s.outByte a) (h4 : t.leftOutByte a = s.leftOutByte a) :
    t.readOutByte a = s.readOutByte a := by
  rw [State.readOutByte, State.readOutByte, h1, h2, h3, h4]
  cases h : s.status with
  | busy => exact absurd h hs
  | idle => rfl
  | done => rfl
  | error => rfl

@[simp] theorem inByte_writeIn_same (s : State) (a : Nat) (x : Byte) : (s.writeIn a x).inByte a = x := by
  simp [State.inByte, memory_read_write_same]

theorem inByte_writeIn_other (s : State) {a b : Nat} (x : Byte) (h : b ≠ a) :
    (s.writeIn a x).inByte b = s.inByte b := by
  simp [State.inByte, memory_read_write_other, h]

@[simp] theorem outByte_writeIn (s : State) (a b : Nat) (x : Byte) : (s.writeIn a x).outByte b = s.outByte b := rfl

end Sys2Proof.Machine
end

