-- ==== Sys2Proof/Laws/Ops.lean ====
section
/-! SUPPORT. The shared operations: sequencing, errors, the bit cursor, OUT_APPEND and COPY. One lemma each says what the
operation does; a caller cites it and does not unfold it. -/

namespace Sys2Proof.Machine

/-! ## Sequencing and errors -/

@[simp] theorem res_ok_bind {α β : Type} (a : α) (s : State) (f : α → State → Res β) :
    (Res.ok a s).bind f = f a s := rfl

@[simp] theorem res_raised_bind {α β : Type} (c : Cause) (s : State) (f : α → State → Res β) :
    (Res.raised c s : Res α).bind f = .raised c s := rfl

@[simp] theorem res_refused_bind {α β : Type} (r : Refusal) (f : α → State → Res β) :
    (Res.refused r : Res α).bind f = .refused r := rfl

theorem res_bind_assoc {α β γ : Type} (x : Res α) (f : α → State → Res β) (g : β → State → Res γ) :
    (x.bind f).bind g = x.bind fun a s => (f a s).bind g := by
  cases x <;> rfl

theorem res_bind_eq_ok {α β : Type} {x : Res α} {f : α → State → Res β} {b : β} {t : State} :
    x.bind f = .ok b t ↔ ∃ a s, x = .ok a s ∧ f a s = .ok b t := by
  cases x <;> simp [Res.bind]

theorem res_bind_eq_raised {α β : Type} {x : Res α} {f : α → State → Res β} {c : Cause} {t : State} :
    x.bind f = .raised c t ↔ x = .raised c t ∨ ∃ a s, x = .ok a s ∧ f a s = .raised c t := by
  cases x <;> simp [Res.bind]

theorem res_bind_eq_refused {α β : Type} {x : Res α} {f : α → State → Res β} {r : Refusal} :
    x.bind f = .refused r ↔ x = .refused r ∨ ∃ a s, x = .ok a s ∧ f a s = .refused r := by
  cases x <;> simp [Res.bind]

@[simp] theorem toOutcome_ok (u : Unit) (s : State) : (Res.ok u s).toOutcome = .next s := rfl

@[simp] theorem toOutcome_raised (c : Cause) (s : State) : (Res.raised c s).toOutcome = .next (s.raiseError c) := rfl

@[simp] theorem toOutcome_refused (r : Refusal) : (Res.refused r).toOutcome = .refused r := rfl

/-- An operation's outcome is a next state when it answers, or when it raises. -/
theorem toOutcome_eq_next {x : Res Unit} {t : State} :
    x.toOutcome = .next t ↔ x = .ok () t ∨ ∃ c s, x = .raised c s ∧ t = s.raiseError c := by
  cases x with
  | ok a s => simp [Res.toOutcome]
  | raised c s => simp [Res.toOutcome, eq_comm]
  | refused r => simp [Res.toOutcome]

theorem toOutcome_ne_fault (x : Res Unit) (f : Fault) : x.toOutcome ≠ .fault f := by
  cases x <;> simp [Res.toOutcome]

@[simp] theorem atomic_ok {α : Type} (s t : State) (a : α) : (Res.ok a t).atomic s = .ok a t := rfl

/-- What an element that raises leaves: its start, but for the bits it has consumed (60_exceptions.md R235). -/
@[simp] theorem atomic_raised {α : Type} (s t : State) (c : Cause) :
    (Res.raised c t : Res α).atomic s = .raised c { s with curByte := t.curByte, curBit := t.curBit } := rfl

@[simp] theorem atomic_refused {α : Type} (s : State) (r : Refusal) :
    (Res.refused r : Res α).atomic s = .refused r := rfl

/-- An element that raises with no bit consumed leaves its start. -/
theorem atomic_raised_self {α : Type} (s : State) (c : Cause) : (Res.raised c s : Res α).atomic s = .raised c s := rfl

/-- An element that raises behind `k` bits leaves its start, advanced by them. -/
theorem atomic_raised_advance {α : Type} {s t : State} (c : Cause) {k : Nat} (h1 : t.curByte = (s.advance k).curByte)
    (h2 : t.curBit = (s.advance k).curBit) : (Res.raised c t : Res α).atomic s = .raised c (s.advance k) := by
  rw [atomic_raised, h1, h2]
  rfl

theorem atomic_eq_ok {α : Type} {x : Res α} {s t : State} {a : α} : x.atomic s = .ok a t ↔ x = .ok a t := by
  cases x <;> simp [Res.atomic]

theorem atomic_eq_raised {α : Type} {x : Res α} {s t : State} {c : Cause} :
    x.atomic s = .raised c t ↔ ∃ u, x = .raised c u ∧ t = { s with curByte := u.curByte, curBit := u.curBit } := by
  cases x <;> simp [Res.atomic, eq_comm]

theorem atomic_eq_refused {α : Type} {x : Res α} {s : State} {r : Refusal} :
    x.atomic s = .refused r ↔ x = .refused r := by
  cases x <;> simp [Res.atomic]

/-- An element whose writes take effect together raises precisely, if it leaves no error where it succeeds (60_exceptions.md
R235). -/
theorem raiseIsPrecise_of_atomic {x : Res Unit} {s t : State} (hok : ∀ u, x = .ok () u → u.phase ≠ .error)
    (h : (x.atomic s).toOutcome = .next t) : RaiseIsPrecise s t := by
  intro _ h1
  cases x with
  | ok a u =>
    simp only [atomic_ok, Res.toOutcome, Host.Outcome.next.injEq] at h
    subst h
    exact absurd h1 (hok u rfl)
  | raised c u =>
    simp only [atomic_raised, Res.toOutcome, Host.Outcome.next.injEq] at h
    subst h
    rfl
  | refused r => simp [Res.toOutcome] at h

@[simp] theorem raiseError_status (s : State) (c : Cause) : (s.raiseError c).status = .error := rfl

@[simp] theorem startSession_status (s : State) : s.startSession.status = .busy := rfl

theorem raiseError_eq (s : State) (c : Cause) :
    s.raiseError c = { s with errKind := c.kind, errCause := c, phase := .error } := rfl

/-! ## The bit cursor -/

@[simp] theorem cursorPos_advance (s : State) (n : Nat) : (s.advance n).cursorPos = s.cursorPos + n := by
  simp only [State.cursorPos, State.advance]
  omega

theorem advance_curBit_lt (s : State) (n : Nat) : (s.advance n).curBit < 8 := Nat.mod_lt _ (by decide)

@[simp] theorem bitsRemaining_advance (s : State) (n : Nat) :
    (s.advance n).bitsRemaining = s.bitsRemaining - n := by
  simp only [State.bitsRemaining, State.advance, State.cursorPos]
  omega

/-- Two advances are one. -/
@[simp] theorem advance_advance (s : State) (m n : Nat) : (s.advance m).advance n = s.advance (m + n) := by
  have h : (s.advance m).cursorPos + n = s.cursorPos + (m + n) := by rw [cursorPos_advance]; omega
  show { s.advance m with
    curByte := ((s.advance m).cursorPos + n) / 8, curBit := ((s.advance m).cursorPos + n) % 8 } = _
  rw [h]
  rfl

/-- An advance by no bits leaves a normalised cursor alone. -/
theorem advance_zero {s : State} (h : s.curBit < 8) : s.advance 0 = s := by
  have h1 : (8 * s.curByte + s.curBit + 0) / 8 = s.curByte := by omega
  have h2 : (8 * s.curByte + s.curBit + 0) % 8 = s.curBit := by omega
  simp only [State.advance, State.cursorPos, h1, h2]

@[simp] theorem inByte_advance (s : State) (n a : Nat) : (s.advance n).inByte a = s.inByte a := rfl

@[simp] theorem outByte_advance (s : State) (n a : Nat) : (s.advance n).outByte a = s.outByte a := rfl

@[simp] theorem inBit_advance (s : State) (n p : Nat) : (s.advance n).inBit p = s.inBit p := rfl

@[simp] theorem inBits_advance (s : State) (m p n : Nat) : (s.advance m).inBits p n = s.inBits p n := by
  induction n generalizing p with
  | zero => rfl
  | succ n ih => simp [State.inBits, ih]

/-- An advance within the remaining bits keeps the cursor normalised and within the input. -/
theorem cursorOk_advance {s : State} {n : Nat} (h : CursorOk s) (hn : n ≤ s.bitsRemaining) : CursorOk (s.advance n) := by
  obtain ⟨h1, h2, h3, h4⟩ := h
  simp only [State.bitsRemaining] at hn
  refine ⟨advance_curBit_lt s n, ?_, ?_, h4⟩ <;> simp only [State.advance, State.cursorPos] <;> omega

theorem cursorPos_le {s : State} (h : CursorOk s) : s.cursorPos + s.bitsRemaining = 8 * s.inLen := by
  obtain ⟨h1, h2, h3, h4⟩ := h
  simp only [State.cursorPos, State.bitsRemaining]
  omega

/-- A value read from the stream has as many bits as were read. -/
theorem inBits_lt (s : State) (p n : Nat) : s.inBits p n < 2 ^ n := by
  induction n generalizing p with
  | zero => simp [State.inBits]
  | succ n ih =>
    have := ih (p + 1)
    have hb : (s.inBit p).toNat ≤ 1 := Bool.toNat_le _
    simp only [State.inBits, Nat.pow_succ]
    omega

/-- Bit `k` of the bits at `p` is the bit at `p + k`: the first bit read is the least significant (20_memory.md R62). -/
theorem inBits_testBit (s : State) (p n k : Nat) :
    (s.inBits p n).testBit k = (decide (k < n) && s.inBit (p + k)) := by
  induction n generalizing p k with
  | zero => simp [State.inBits]
  | succ n ih =>
    simp only [State.inBits]
    cases k with
    | zero => cases h : s.inBit p <;> simp [Nat.testBit_zero]
    | succ k =>
      have h2 : ((s.inBit p).toNat + 2 * s.inBits (p + 1) n) / 2 = s.inBits (p + 1) n := by
        have hb : (s.inBit p).toNat ≤ 1 := Bool.toNat_le _
        omega
      rw [Nat.testBit_succ, h2, ih]
      simp [Nat.add_assoc, Nat.add_comm 1 k]

/-- Two states whose input bits agree below the end of the read return the same bits. -/
theorem inBits_congr {s t : State} {p n : Nat} (h : ∀ q, q < p + n → p ≤ q → t.inBit q = s.inBit q) :
    t.inBits p n = s.inBits p n := by
  induction n generalizing p with
  | zero => rfl
  | succ n ih =>
    simp only [State.inBits]
    rw [h p (by omega) (by omega), ih fun q hq hp => h q (by omega) (by omega)]

theorem bcPeek_of_le {n : Nat} {s : State} (h : n ≤ s.bitsRemaining) : bcPeek n s = .ok (s.inBits s.cursorPos n) s := by
  rw [bcPeek, if_neg (by omega)]

theorem bcPeek_of_lt {n : Nat} {s : State} (h : s.bitsRemaining < n) : bcPeek n s = .raised .inExhausted s := by
  rw [bcPeek, if_pos h]

theorem bcConsume_of_le {n : Nat} {s : State} (h : n ≤ s.bitsRemaining) :
    bcConsume n s = .ok (s.inBits s.cursorPos n) (s.advance n) := by
  rw [bcConsume, bcPeek_of_le h, res_ok_bind]

theorem bcConsume_of_lt {n : Nat} {s : State} (h : s.bitsRemaining < n) : bcConsume n s = .raised .inExhausted s := by
  rw [bcConsume, bcPeek_of_lt h, res_raised_bind]

theorem bcSkip_of_le {n : Nat} {s : State} (h : n ≤ s.bitsRemaining) : bcSkip n s = .ok () (s.advance n) := by
  rw [bcSkip, bcConsume_of_le h, res_ok_bind]

theorem bcSkip_of_lt {n : Nat} {s : State} (h : s.bitsRemaining < n) : bcSkip n s = .raised .inExhausted s := by
  rw [bcSkip, bcConsume_of_lt h, res_raised_bind]

theorem bcConsumeBit_of_le {s : State} (h : 1 ≤ s.bitsRemaining) :
    bcConsumeBit s = .ok (s.inBit s.cursorPos) (s.advance 1) := by
  rw [bcConsumeBit, bcConsume_of_le h, res_ok_bind]
  cases hb : s.inBit s.cursorPos <;> simp [State.inBits, hb]

theorem bcConsumeBit_of_zero {s : State} (h : s.bitsRemaining = 0) : bcConsumeBit s = .raised .inExhausted s := by
  rw [bcConsumeBit, bcConsume_of_lt (by omega), res_raised_bind]

/-- Everything a skipped field can do. -/
theorem bcSkip_cases (n : Nat) (s : State) :
    (n ≤ s.bitsRemaining ∧ bcSkip n s = .ok () (s.advance n)) ∨
      (s.bitsRemaining < n ∧ bcSkip n s = .raised .inExhausted s) := by
  rcases Nat.lt_or_ge s.bitsRemaining n with h | h
  · exact .inr ⟨h, bcSkip_of_lt h⟩
  · exact .inl ⟨h, bcSkip_of_le h⟩

/-- Everything a read of one bit can do. -/
theorem bcConsumeBit_cases (s : State) :
    (1 ≤ s.bitsRemaining ∧ bcConsumeBit s = .ok (s.inBit s.cursorPos) (s.advance 1)) ∨
      (s.bitsRemaining = 0 ∧ bcConsumeBit s = .raised .inExhausted s) := by
  rcases Nat.eq_zero_or_pos s.bitsRemaining with h | h
  · exact .inr ⟨h, bcConsumeBit_of_zero h⟩
  · exact .inl ⟨h, bcConsumeBit_of_le h⟩

/-! ## The output -/

theorem outFull_eq_true {s : State} : s.outFull = true ↔ s.params.outCap = some s.outLen := by
  simp [State.outFull]

/-- The state after an append that fits. -/
theorem outAppend_of_room {s : State} (v : Byte) (h : s.params.outCap ≠ some s.outLen) :
    outAppend v s = .ok () { s.writeOut s.outLen v with outLen := s.outLen + 1 } := by
  rw [outAppend, if_neg (by simpa [State.outFull] using h)]

theorem outAppend_of_full {s : State} (v : Byte) (h : s.params.outCap = some s.outLen) :
    outAppend v s = .raised .outFull s := by
  rw [outAppend, if_pos (outFull_eq_true.2 h)]

/-- Everything `n` appends of a copy can do: some `k` of the bytes are written, all of them unless the output fills up; the
other registers, and the bytes outside the `k`, stay; each byte written repeats the one `cur_dist` before it. -/
theorem copyBytes_cases (n : Nat) (s : State) :
    ∃ k m, k ≤ n ∧
      (k = n ∧ copyBytes n s = .ok () { s with outMem := m, outLen := s.outLen + k } ∨
        k < n ∧ s.params.outCap = some (s.outLen + k) ∧
          copyBytes n s = .raised .outFull { s with outMem := m, outLen := s.outLen + k }) ∧
      (∀ j, j < k → s.params.outCap ≠ some (s.outLen + j)) ∧
      (s.outMem.wf = true → Memory.wf m = true) ∧
      (∀ a, a < s.outLen ∨ s.outLen + k ≤ a → ({ s with outMem := m } : State).outByte a = s.outByte a) ∧
      (0 < s.curDist → s.curDist ≤ s.outLen → ∀ j, j < k →
        ({ s with outMem := m } : State).outByte (s.outLen + j) =
          ({ s with outMem := m } : State).outByte (s.outLen + j - s.curDist)) := by
  induction n generalizing s with
  | zero => exact ⟨0, s.outMem, by simp [copyBytes]⟩
  | succ n ih =>
    by_cases hf : s.params.outCap = some s.outLen
    · refine ⟨0, s.outMem, by omega, .inr ⟨by omega, hf, ?_⟩, by omega, id, fun _ _ => rfl, by omega⟩
      rw [copyBytes, outAppend_of_full _ hf, res_raised_bind]
      rfl
    · obtain ⟨k, m, hk, hr, hroom, hwf, hout, hrep⟩ :=
        ih { s.writeOut s.outLen (s.outByte (s.outLen - s.curDist)) with outLen := s.outLen + 1 }
      have hstep : copyBytes (n + 1) s = copyBytes n
          { s.writeOut s.outLen (s.outByte (s.outLen - s.curDist)) with outLen := s.outLen + 1 } := by
        rw [copyBytes, outAppend_of_room _ hf, res_ok_bind]
      have hst : ∀ l, ({ ({ s.writeOut s.outLen (s.outByte (s.outLen - s.curDist)) with outLen := s.outLen + 1 } : State)
          with outMem := m, outLen := l } : State) = { s with outMem := m, outLen := l } := fun _ => rfl
      refine ⟨k + 1, m, by omega, ?_, ?_, ?_, ?_, ?_⟩
      · rw [hstep]
        rcases hr with ⟨h1, h2⟩ | ⟨h1, h2, h3⟩
        · refine .inl ⟨by omega, h2.trans ?_⟩
          rw [hst]
          congr 2
          show s.outLen + 1 + k = s.outLen + (k + 1)
          omega
        · refine .inr ⟨by omega, ?_, h3.trans ?_⟩
          · rw [show s.outLen + (k + 1) = s.outLen + 1 + k by omega]
            exact h2
          · rw [hst]
            congr 2
            show s.outLen + 1 + k = s.outLen + (k + 1)
            omega
      · intro j hj
        cases j with
        | zero => exact hf
        | succ j =>
          rw [show s.outLen + (j + 1) = s.outLen + 1 + j by omega]
          exact hroom j (by omega)
      · exact fun hm => hwf (memory_wf_write _ _ hm)
      · intro a ha
        exact (hout a (by dsimp only; omega)).trans (outByte_writeOut_other s _ (by omega))
      · intro hd hle j hj
        cases j with
        | zero =>
          have h1 := hout s.outLen (.inl (by dsimp only; omega))
          have h2 := hout (s.outLen - s.curDist) (.inl (by dsimp only; omega))
          exact (h1.trans (outByte_writeOut_same s _ _)).trans
            (h2.trans (outByte_writeOut_other s _ (by omega))).symm
        | succ j =>
          have h := hrep hd (by show s.curDist ≤ s.outLen + 1; omega) j (by omega)
          rw [show s.outLen + (j + 1) = s.outLen + 1 + j by omega]
          exact h

/-- The distance check comes before any byte is copied (44_block_body.md R195). -/
theorem copyBackref_of_far {s : State} (h : s.outLen < s.curDist) : copyBackref s = .raised .distTooFar s := by
  rw [copyBackref, if_pos h]

theorem copyBackref_of_near {s : State} (h : s.curDist ≤ s.outLen) : copyBackref s = copyBytes s.curLen s := by
  rw [copyBackref, if_neg (by omega)]

end Sys2Proof.Machine
end

