-- ==== Sys2Proof/Laws/Huffman.lean ====
section
/-! SUPPORT. The Huffman decoder: the walk of a lookup, what a build leaves, and the shape of every arena. -/

namespace Sys2Proof.Machine

/-! ## Nodes -/

theorem nodeAt_mem_or (a : Arena) (k : Nat) :
    a.nodeAt k ∈ a ∨ a.nodeAt k = { child0 := none, child1 := none, isLeaf := false, sym := 0 } := by
  rcases Nat.lt_or_ge k a.length with h | h
  · left
    rw [Arena.nodeAt, List.getD_eq_getElem _ _ h]
    exact List.getElem_mem h
  · right
    rw [Arena.nodeAt, List.getD_eq_default _ _ h]

/-- Every node of a well-formed arena is well formed, an unallocated one too. -/
theorem nodeAt_wf {a : Arena} {c al : Nat} (h : Arena.wf c al a) (hal : 0 < al) (k : Nat) :
    (a.nodeAt k).wf a.length al := by
  rcases nodeAt_mem_or a k with hk | hk
  · exact h.nodes _ hk
  · rw [hk]
    exact ⟨by simp, by simp, hal⟩

theorem node_child_wf {nd : Node} {c al k : Nat} {b : Bool} (h : nd.wf c al) (hk : nd.child b = some k) :
    0 < k ∧ k < c := by
  cases b with
  | false => exact h.1 k hk
  | true => exact h.2.1 k hk

theorem node_setChild_isLeaf (nd : Node) (b : Bool) (k : Nat) : (nd.setChild b k).isLeaf = nd.isLeaf := by
  cases b <;> rfl

theorem node_setChild_sym (nd : Node) (b : Bool) (k : Nat) : (nd.setChild b k).sym = nd.sym := by
  cases b <;> rfl

theorem node_setChild_child_same (nd : Node) (b : Bool) (k : Nat) : (nd.setChild b k).child b = some k := by
  cases b <;> rfl

theorem node_setChild_child_other (nd : Node) {b c : Bool} (k : Nat) (h : c ≠ b) :
    (nd.setChild b k).child c = nd.child c := by
  cases b <;> cases c <;> first | rfl | exact absurd rfl h

theorem node_setChild_wf {nd : Node} {c d al k : Nat} (b : Bool) (h : nd.wf c al) (hcd : c ≤ d) (hk : 0 < k)
    (hkd : k < d) : (nd.setChild b k).wf d al := by
  obtain ⟨h0, h1, h2⟩ := h
  cases b
  · refine ⟨fun j hj => ?_, fun j hj => ⟨(h1 j hj).1, by have := (h1 j hj).2; omega⟩, h2⟩
    obtain rfl : k = j := by simpa [Node.setChild] using hj
    exact ⟨hk, hkd⟩
  · refine ⟨fun j hj => ⟨(h0 j hj).1, by have := (h0 j hj).2; omega⟩, fun j hj => ?_, h2⟩
    obtain rfl : k = j := by simpa [Node.setChild] using hj
    exact ⟨hk, hkd⟩

theorem node_wf_mono {nd : Node} {c d al : Nat} (h : nd.wf c al) (hcd : c ≤ d) : nd.wf d al :=
  ⟨fun k hk => ⟨(h.1 k hk).1, by have := (h.1 k hk).2; omega⟩,
   fun k hk => ⟨(h.2.1 k hk).1, by have := (h.2.1 k hk).2; omega⟩, h.2.2⟩

/-! ## Allocation -/

@[simp] theorem alloc_length (a : Arena) (node : Nat) (b : Bool) : (a.alloc node b).length = a.length + 1 := by
  simp [Arena.alloc, Arena.cleared]

theorem nodeAt_alloc_new (a : Arena) (node : Nat) (b : Bool) :
    (a.alloc node b).nodeAt a.length = { child0 := none, child1 := none, isLeaf := false, sym := 0 } := by
  rw [Arena.nodeAt, Arena.alloc, List.getD_append_right _ _ _ _ (by simp)]
  simp [Arena.cleared]

theorem nodeAt_alloc_other (a : Arena) {node k : Nat} (b : Bool) (hk : k ≠ node) (hl : k ≠ a.length) :
    (a.alloc node b).nodeAt k = a.nodeAt k := by
  rw [Arena.nodeAt, Arena.nodeAt, Arena.alloc]
  rcases Nat.lt_or_ge k a.length with h | h
  · rw [List.getD_append _ _ _ _ (by simpa using h)]
    simp [List.getD_eq_getElem?_getD, Ne.symm hk]
  · rw [List.getD_eq_default _ _ (by simp [Arena.cleared]; omega), List.getD_eq_default _ _ h]

theorem nodeAt_alloc_same {a : Arena} {node : Nat} (b : Bool) (h : node < a.length) :
    (a.alloc node b).nodeAt node = (a.nodeAt node).setChild b a.length := by
  rw [Arena.nodeAt, Arena.alloc, List.getD_append _ _ _ _ (by simpa using h)]
  simp [List.getD_eq_getElem?_getD, h]

theorem nodeAt_set_same {a : Arena} {node : Nat} (nd : Node) (h : node < a.length) :
    Arena.nodeAt (List.set a node nd) node = nd := by
  simp [Arena.nodeAt, List.getD_eq_getElem?_getD, h]

theorem nodeAt_set_other (a : Arena) {node k : Nat} (nd : Node) (h : k ≠ node) :
    Arena.nodeAt (List.set a node nd) k = a.nodeAt k := by
  simp [Arena.nodeAt, List.getD_eq_getElem?_getD, Ne.symm h]

/-- Allocation keeps an arena well formed. -/
theorem alloc_wf {a : Arena} {al node : Nat} (b : Bool) (h : Arena.wf a.length al a) (hal : 0 < al)
    (hn : node < a.length) : Arena.wf (a.alloc node b).length al (a.alloc node b) := by
  refine ⟨by simp, Nat.le_refl _, ?_, ?_⟩
  · have hroot := h.root
    by_cases h0 : 0 = node
    · subst h0
      rw [nodeAt_alloc_same b hn, node_setChild_isLeaf]
      exact h.inner
    · rw [nodeAt_alloc_other a b h0 (by omega)]
      exact h.inner
  · intro nd hnd
    rw [alloc_length]
    rcases List.mem_append.1 hnd with hnd | hnd
    · rcases List.mem_or_eq_of_mem_set hnd with hnd | rfl
      · exact node_wf_mono (h.nodes nd hnd) (by omega)
      · exact node_setChild_wf b (nodeAt_wf h hal node) (by omega) h.root (by omega)
    · obtain rfl : nd = _ := by simpa [Arena.cleared] using hnd
      exact ⟨by simp, by simp, hal⟩

theorem cleared_wf {al : Nat} (h : 0 < al) : Arena.wf Arena.cleared.length al Arena.cleared := by
  refine ⟨by decide, by decide, by decide, fun nd hnd => ?_⟩
  obtain rfl : nd = _ := by simpa [Arena.cleared] using hnd
  exact ⟨by simp, by simp, h⟩

/-- Everything an insertion can do to an arena's shape: it stays well formed, and no node goes. -/
theorem insertCode_wf {al sym : Nat} (code i : Nat) {node : Nat} {a : Arena} (hs : sym < al)
    (h : Arena.wf a.length al a) (hn : node < a.length) (hi : i = 0 → node ≠ 0) :
    Arena.wf (insertCode sym code i node a).1.length al (insertCode sym code i node a).1 ∧
      a.length ≤ (insertCode sym code i node a).1.length := by
  induction i generalizing node a with
  | zero =>
    rw [insertCode]
    split
    · have hne := hi rfl
      refine ⟨⟨by simpa using h.root, Nat.le_refl _, ?_, ?_⟩, by simp⟩
      · rw [nodeAt_set_other a _ (Ne.symm hne)]
        exact h.inner
      · intro nd hnd
        rw [List.length_set]
        rcases List.mem_or_eq_of_mem_set hnd with hnd | rfl
        · exact h.nodes nd hnd
        · obtain ⟨h0, h1, _⟩ := nodeAt_wf h (by omega) node
          exact ⟨h0, h1, hs⟩
    · exact ⟨h, Nat.le_refl _⟩
  | succ i ih =>
    rw [insertCode]
    split
    · exact ⟨h, Nat.le_refl _⟩
    · split
      · next k hk =>
        obtain ⟨hk0, hk1⟩ := node_child_wf (nodeAt_wf h (by omega) node) hk
        exact ih h hk1 fun _ => by omega
      · have hroot := h.root
        obtain ⟨h1, h2⟩ := ih (node := a.length) (alloc_wf (code.testBit i) h (by omega) hn) (by simp) fun _ => by omega
        rw [alloc_length] at h2
        exact ⟨h1, by omega⟩

/-! ## A build -/

@[simp] theorem countLengths_length (lens : List Nat) : (countLengths lens).length = 16 := by
  simp [countLengths]

theorem firstCodes_length (bl : List Nat) (n len code : Nat) (next : List Nat) :
    (firstCodes bl n len code next).1.length = next.length := by
  induction n generalizing len code next with
  | zero => rfl
  | succ n ih =>
    simp only [firstCodes]
    split
    · simp
    · rw [ih]
      simp

/-- Everything step 3 can do: the scratch registers keep their sizes, the arena its shape, and the one error is a
contradiction (41_huffman.md R131, R135). -/
theorem assignCodes_spec {al : Nat} (bl lens : List Nat) (s : Nat) (next : List Nat) (a : Arena)
    (hs : s + lens.length ≤ al) (h : Arena.wf a.length al a) :
    (assignCodes bl lens s next a).blCount = bl ∧
      (assignCodes bl lens s next a).nextCode.length = next.length ∧
      Arena.wf (assignCodes bl lens s next a).arena.length al (assignCodes bl lens s next a).arena ∧
      ((assignCodes bl lens s next a).error = none ∨
        (assignCodes bl lens s next a).error = some .treeContradiction) := by
  induction lens generalizing s next a with
  | nil => exact ⟨rfl, rfl, h, .inl rfl⟩
  | cons len rest ih =>
    rw [List.length_cons] at hs
    simp only [assignCodes]
    split
    · exact ih _ _ _ (by omega) h
    · next hl =>
      obtain ⟨hw, -⟩ := insertCode_wf (sym := s) (al := al) (next.getD len 0) len (by omega) h h.root fun h0 => absurd h0 hl
      split
      · next a' hb =>
        rw [hb] at hw
        have := ih (s + 1) (List.set next len (next.getD len 0 + 1)) a' (by omega) hw
        rw [List.length_set] at this
        exact this
      · next a' hb =>
        rw [hb] at hw
        exact ⟨rfl, by simp, hw, .inr rfl⟩

/-- Everything a build can leave. -/
theorem buildTree_spec {al : Nat} {lens : List Nat} (hs : lens.length ≤ al) (hal : 0 < al) :
    (buildTree lens).blCount.length = 16 ∧ (buildTree lens).nextCode.length = 16 ∧
      Arena.wf (buildTree lens).arena.length al (buildTree lens).arena ∧
      ((buildTree lens).error = none ∨ (buildTree lens).error = some .codeOverflow ∨
        (buildTree lens).error = some .treeContradiction) := by
  have hf := firstCodes_length (countLengths lens) 15 1 0 (List.replicate 16 0)
  rw [List.length_replicate] at hf
  simp only [buildTree]
  split
  · next next hb =>
    rw [hb] at hf
    obtain ⟨h1, h2, h3, h4⟩ := assignCodes_spec (countLengths lens) lens 0 next Arena.cleared (by omega) (cleared_wf hal)
    refine ⟨by rw [h1, countLengths_length], by rw [h2]; exact hf, h3, ?_⟩
    rcases h4 with h4 | h4
    · exact .inl h4
    · exact .inr (.inr h4)
  · next next hb =>
    rw [hb] at hf
    exact ⟨countLengths_length lens, hf, cleared_wf hal, .inr (.inl rfl)⟩

/-- A first code and the codes of its length stay within the code space of that length: the bound step 2 checks and step 3
keeps, with entry 0 unused (41_huffman.md R131, R134). -/
def NextFits (next : List Nat) (used : Nat → Nat) : Prop :=
  ∀ l, l < 16 → next.getD l 0 + (if l = 0 then 0 else used l) ≤ 32768

theorem getD_set_eq_ite (t : List Nat) (i j v : Nat) :
    (List.set t i v).getD j 0 = if i = j ∧ j < t.length then v else t.getD j 0 := by
  simp only [List.getD_eq_getElem?_getD, List.getElem?_set]
  by_cases h : i = j
  · subst h
    by_cases h2 : i < t.length <;> simp [h2]
  · simp [h]

theorem nextFits_le {next : List Nat} {used : Nat → Nat} (hn : next.length = 16) (h : NextFits next used) (l : Nat) :
    next.getD l 0 ≤ 32768 := by
  rcases Nat.lt_or_ge l 16 with hl | hl
  · exact le_trans (Nat.le_add_right _ _) (h l hl)
  · rw [List.getD_eq_default _ _ (by omega)]
    omega

/-- What step 2 leaves fits in 16 bits, and when no length overflows there is room for every code of step 3. -/
theorem firstCodes_fits (bl : List Nat) (n len code : Nat) (next : List Nat) (hn : next.length = 16) (hl : 0 < len)
    (hlen : len + n = 16) (hc : code + bl.getD (len - 1) 0 ≤ 2 ^ (len - 1))
    (hlow : NextFits next fun l => if l < len then bl.getD l 0 else 0) :
    (∀ l, (firstCodes bl n len code next).1.getD l 0 ≤ 32768) ∧
      ((firstCodes bl n len code next).2 = true →
        NextFits (firstCodes bl n len code next).1 fun l => bl.getD l 0) := by
  induction n generalizing len code next with
  | zero =>
    refine ⟨nextFits_le hn hlow, fun _ l hl' => ?_⟩
    have := hlow l hl'
    dsimp only at this ⊢
    rwa [if_pos (show l < len by omega)] at this
  | succ n ih =>
    simp only [firstCodes]
    have h2 : 2 ^ len = 2 * 2 ^ (len - 1) := by
      obtain ⟨k, rfl⟩ : ∃ k, len = k + 1 := ⟨len - 1, by omega⟩
      rw [Nat.pow_succ, Nat.add_sub_cancel, Nat.mul_comm]
    have h15 : 2 ^ len ≤ 32768 := Nat.pow_le_pow_right (n := 2) (by omega) (show len ≤ 15 by omega)
    have hset : NextFits (List.set next len ((code + bl.getD (len - 1) 0) * 2))
        fun l => if l < len then bl.getD l 0 else 0 := by
      intro l hl'
      rw [getD_set_eq_ite]
      have := hlow l hl'
      dsimp only at this ⊢
      split
      · next h => rw [if_neg (show ¬l < len by omega), if_neg (by omega)]; omega
      · exact this
    split
    · exact ⟨nextFits_le (by simpa using hn) hset, by simp⟩
    · next hno =>
      refine ih _ _ _ (by simpa using hn) (by omega) (by omega) (by rw [Nat.add_sub_cancel]; omega) fun l hl' => ?_
      have := hset l hl'
      rw [getD_set_eq_ite] at this ⊢
      dsimp only at this ⊢
      by_cases h : len = l
      · subst h
        rw [if_pos ⟨rfl, by omega⟩, if_neg (by omega), if_pos (by omega)]
        omega
      · rw [if_neg (fun hc => h hc.1)] at this ⊢
        by_cases h3 : l < len
        · rw [if_pos h3] at this
          rwa [if_pos (show l < len + 1 by omega)]
        · rw [if_neg h3] at this
          rwa [if_neg (show ¬l < len + 1 by omega)]

/-- Step 3 takes one code a symbol, so `next_code` keeps within the room step 2 has found. -/
theorem assignCodes_fits (bl lens : List Nat) (s : Nat) (next : List Nat) (a : Arena) (hn : next.length = 16)
    (h : NextFits next fun l => lens.count l) :
    ∀ l, (assignCodes bl lens s next a).nextCode.getD l 0 ≤ 32768 := by
  induction lens generalizing s next a with
  | nil => exact nextFits_le hn h
  | cons len rest ih =>
    simp only [assignCodes]
    have hrest : ∀ next', next'.length = 16 →
        (∀ l, l < 16 → next'.getD l 0 = next.getD l 0 + if l = len ∧ len ≠ 0 then 1 else 0) →
        NextFits next' fun l => rest.count l := by
      intro next' _ hv l hl
      have := h l hl
      dsimp only at this ⊢
      rw [List.count_cons] at this
      rw [hv l hl]
      by_cases h0 : l = 0
      · subst h0
        simp at this ⊢
        split <;> omega
      · rw [if_neg h0] at this ⊢
        by_cases hlen : l = len
        · subst hlen
          simp [h0] at this ⊢
          omega
        · simp [hlen, Ne.symm hlen] at this ⊢
          omega
    split
    · next h0 => exact ih _ _ _ hn (hrest next hn fun l _ => by simp [h0])
    · next h0 =>
      have hset : ∀ l, l < 16 → (List.set next len (next.getD len 0 + 1)).getD l 0 =
          next.getD l 0 + if l = len ∧ len ≠ 0 then 1 else 0 := by
        intro l hl
        rw [getD_set_eq_ite]
        by_cases hlen : len = l
        · subst hlen
          rw [if_pos ⟨rfl, by omega⟩, if_pos ⟨rfl, h0⟩]
        · rw [if_neg (fun hc => hlen hc.1), if_neg (fun hc => hlen hc.1.symm), Nat.add_zero]
      have hfit := hrest (List.set next len (next.getD len 0 + 1)) (by simpa using hn) hset
      split
      · exact ih _ _ _ (by simpa using hn) hfit
      · exact nextFits_le (by simpa using hn) hfit

theorem countLengths_getD (lens : List Nat) {l : Nat} (h : l < 16) :
    (countLengths lens).getD l 0 = if l = 0 then 0 else lens.count l := by
  cases l with
  | zero => rfl
  | succ l =>
    rw [countLengths, List.getD_cons_succ, if_neg (by omega), List.getD_eq_getElem?_getD, List.getElem?_map,
      List.getElem?_range (by omega)]
    rfl

/-- The scratch registers keep their widths in every build (10_state.md R31). -/
theorem buildTree_scratch_le (lens : List Nat) :
    (∀ c ∈ (buildTree lens).blCount, c ≤ lens.length) ∧ ∀ c ∈ (buildTree lens).nextCode, c ≤ 32768 := by
  obtain ⟨hb, hn, -, -⟩ := buildTree_spec (al := lens.length + 1) (lens := lens) (by omega) (by omega)
  have hcount : ∀ c ∈ countLengths lens, c ≤ lens.length := by
    intro c hc
    rcases List.mem_cons.1 hc with rfl | hc
    · omega
    · obtain ⟨i, -, rfl⟩ := List.mem_map.1 hc
      exact List.count_le_length
  obtain ⟨h1, h2⟩ := firstCodes_fits (countLengths lens) 15 1 0 (List.replicate 16 0) (by simp) (by omega) (by omega)
    (by rw [show (1 : Nat) - 1 = 0 from rfl, countLengths_getD lens (by omega)]; simp) (by
      intro l hl
      have : (List.replicate 16 0).getD l 0 = 0 := by
        rw [List.getD_eq_getElem?_getD, List.getElem?_replicate]
        split <;> rfl
      rw [this]
      dsimp only
      split
      · omega
      · rw [if_neg (by omega)]
        omega)
  have hle : ∀ l, (buildTree lens).nextCode.getD l 0 ≤ 32768 := by
    simp only [buildTree]
    split
    · next next hf =>
      rw [hf] at h2
      refine assignCodes_fits _ _ _ _ _ ?_ fun l hl => ?_
      · have := firstCodes_length (countLengths lens) 15 1 0 (List.replicate 16 0)
        rw [hf] at this
        simpa using this
      · have := h2 rfl l hl
        dsimp only at this ⊢
        rw [countLengths_getD lens hl] at this
        split at this <;> simp_all
    · next next hf =>
      rw [hf] at h1
      exact h1
  refine ⟨fun c hc => hcount c ?_, fun c hc => ?_⟩
  · have : (buildTree lens).blCount = countLengths lens := by
      simp only [buildTree]
      split
      · exact (assignCodes_spec (al := lens.length + 1) _ _ _ _ _ (by omega) (cleared_wf (by omega))).1
      · rfl
    rwa [this] at hc
  · obtain ⟨i, hi, rfl⟩ := List.getElem_of_mem hc
    have := hle i
    rwa [List.getD_eq_getElem _ _ hi] at this

/-- A raise is never without a cause. -/
theorem buildTree_error_ne {lens : List Nat} {c : Cause} (h : (buildTree lens).error = some c) : c ≠ .none := by
  obtain ⟨-, -, -, h4⟩ := buildTree_spec (al := lens.length + 1) (lens := lens) (by omega) (by omega)
  rw [h] at h4
  rcases h4 with h4 | h4 | h4 <;> cases h4 <;> decide

/-- Everything HUF_BUILD can do (41_huffman.md R131, R141, R142). -/
theorem hufBuild_cases (t : TreeId) (s : State) :
    (buildOutOfContract s t = true ∧ hufBuild t s = .refused .buildOutOfContract) ∨
      (buildOutOfContract s t = false ∧ (buildTree (s.buildTable t)).error = none ∧
        hufBuild t s = .ok () (s.afterBuild t)) ∨
      ∃ c, c ≠ .none ∧ buildOutOfContract s t = false ∧ (buildTree (s.buildTable t)).error = some c ∧
        hufBuild t s = .raised c s := by
  cases hb : buildOutOfContract s t with
  | true => exact .inl ⟨rfl, by simp [hufBuild, hb]⟩
  | false =>
    cases he : (buildTree (s.buildTable t)).error with
    | none => exact .inr (.inl ⟨rfl, rfl, by simp [hufBuild, hb, he]⟩)
    | some c => exact .inr (.inr ⟨c, buildTree_error_ne he, rfl, rfl, by simp [hufBuild, hb, he]⟩)

/-- A build changes its arena and the scratch registers, and nothing else (41_huffman.md R142). -/
theorem afterBuild_eq (s : State) (t : TreeId) :
    ∃ clt llt dt bl next,
      s.afterBuild t = { s with clt := clt, llt := llt, dt := dt, blCount := bl, nextCode := next } := by
  cases t <;> exact ⟨_, _, _, _, _, rfl⟩

theorem afterBuild_clt (s : State) : s.afterBuild .clt =
    { s with
      clt := (buildTree (s.clLens.map BitVec.toNat)).arena
      blCount := (buildTree (s.clLens.map BitVec.toNat)).blCount
      nextCode := (buildTree (s.clLens.map BitVec.toNat)).nextCode } := rfl

theorem afterBuild_llt (s : State) : s.afterBuild .llt =
    { s with
      llt := (buildTree ((s.lenTable.take s.hlit).map BitVec.toNat)).arena
      blCount := (buildTree ((s.lenTable.take s.hlit).map BitVec.toNat)).blCount
      nextCode := (buildTree ((s.lenTable.take s.hlit).map BitVec.toNat)).nextCode } := rfl

theorem afterBuild_dt (s : State) : s.afterBuild .dt =
    { s with
      dt := (buildTree (((s.lenTable.drop s.hlit).take s.hdist).map BitVec.toNat)).arena
      blCount := (buildTree (((s.lenTable.drop s.hlit).take s.hdist).map BitVec.toNat)).blCount
      nextCode := (buildTree (((s.lenTable.drop s.hlit).take s.hdist).map BitVec.toNat)).nextCode } := rfl

/-! ## A lookup -/

/-- A walk along a code of the arena answers its symbol and consumes the code. -/
theorem hufWalk_of_decodesTo {a : Arena} {sym : Nat} (code : List Bool) {n node : Nat} {s : State}
    (hd : a.decodesTo node code = some sym) (hn : code.length ≤ n) (hr : code.length ≤ s.bitsRemaining)
    (hb : ∀ k b, code[k]? = some b → s.inBit (s.cursorPos + k) = b) (hc : s.curBit < 8) :
    hufWalk a n node s = .ok sym (s.advance code.length) := by
  induction code generalizing n node s with
  | nil =>
    rw [Arena.decodesTo] at hd
    split at hd
    · next hl =>
      cases hd
      rw [List.length_nil, advance_zero hc]
      cases n <;> simp [hufWalk, hl]
    · cases hd
  | cons b code ih =>
    rw [Arena.decodesTo] at hd
    split at hd
    · cases hd
    · next hl =>
      split at hd
      · next k hk =>
        rw [List.length_cons] at hn hr
        obtain ⟨n, rfl⟩ : ∃ m, n = m + 1 := ⟨n - 1, by omega⟩
        have hbit : s.inBit s.cursorPos = b := hb 0 b rfl
        rw [hufWalk, if_neg hl, bcConsumeBit_of_le (by omega), res_ok_bind, hbit]
        simp only [hk]
        rw [ih hd (by omega) (by rw [bitsRemaining_advance]; omega) _ (advance_curBit_lt s 1), advance_advance,
          List.length_cons, Nat.add_comm 1]
        intro j c hj
        rw [cursorPos_advance, inBit_advance, show s.cursorPos + 1 + j = s.cursorPos + (j + 1) by omega]
        exact hb (j + 1) c (by simpa using hj)
      · cases hd

/-- A walk whose last bit selects a missing child raises INVALID_CODE behind that bit. -/
theorem hufWalk_of_missesAt {a : Arena} (bits : List Bool) {n node : Nat} {s : State}
    (hd : a.missesAt node bits = true) (hn : bits.length ≤ n) (hr : bits.length ≤ s.bitsRemaining)
    (hb : ∀ k b, bits[k]? = some b → s.inBit (s.cursorPos + k) = b) :
    hufWalk a n node s = .raised .invalidCode (s.advance bits.length) := by
  induction bits generalizing n node s with
  | nil => simp [Arena.missesAt] at hd
  | cons b bits ih =>
    rw [Arena.missesAt, Bool.and_eq_true, Bool.not_eq_true'] at hd
    obtain ⟨hl, hd⟩ := hd
    rw [List.length_cons] at hn hr
    obtain ⟨n, rfl⟩ : ∃ m, n = m + 1 := ⟨n - 1, by omega⟩
    have hbit : s.inBit s.cursorPos = b := hb 0 b rfl
    rw [hufWalk, if_neg (by simp [hl]), bcConsumeBit_of_le (by omega), res_ok_bind, hbit]
    split at hd
    · next k hk =>
      simp only [hk]
      rw [ih hd (by omega) (by rw [bitsRemaining_advance]; omega) _, advance_advance, List.length_cons, Nat.add_comm 1]
      intro j c hj
      rw [cursorPos_advance, inBit_advance, show s.cursorPos + 1 + j = s.cursorPos + (j + 1) by omega]
      exact hb (j + 1) c (by simpa using hj)
    · next hk =>
      simp only [hk]
      rw [List.isEmpty_iff] at hd
      subst hd
      rfl

/-- A walk that the end of the input stops inside the tree raises IN_EXHAUSTED there. -/
theorem hufWalk_of_staysInside {a : Arena} (bits : List Bool) {n node : Nat} {s : State}
    (hd : a.staysInside node bits = true) (hn : bits.length ≤ n) (hr : bits.length = s.bitsRemaining)
    (hb : ∀ k b, bits[k]? = some b → s.inBit (s.cursorPos + k) = b) (hc : s.curBit < 8) :
    hufWalk a n node s = .raised .inExhausted (s.advance bits.length) := by
  induction bits generalizing n node s with
  | nil =>
    rw [Arena.staysInside, Bool.not_eq_true'] at hd
    rw [List.length_nil, advance_zero hc]
    cases n with
    | zero => simp [hufWalk, hd]
    | succ n => rw [hufWalk, if_neg (by simp [hd]), bcConsumeBit_of_zero (by simpa using hr.symm), res_raised_bind]
  | cons b bits ih =>
    rw [Arena.staysInside, Bool.and_eq_true, Bool.not_eq_true'] at hd
    obtain ⟨hl, hd⟩ := hd
    rw [List.length_cons] at hn hr
    obtain ⟨n, rfl⟩ : ∃ m, n = m + 1 := ⟨n - 1, by omega⟩
    have hbit : s.inBit s.cursorPos = b := hb 0 b rfl
    rw [hufWalk, if_neg (by simp [hl]), bcConsumeBit_of_le (by omega), res_ok_bind, hbit]
    split at hd
    · next k hk =>
      simp only [hk]
      rw [ih hd (by omega) (by rw [bitsRemaining_advance]; omega) _ (advance_curBit_lt s 1), advance_advance,
        List.length_cons, Nat.add_comm 1]
      intro j c hj
      rw [cursorPos_advance, inBit_advance, show s.cursorPos + 1 + j = s.cursorPos + (j + 1) by omega]
      exact hb (j + 1) c (by simpa using hj)
    · cases hd

/-- Everything a walk can do: it consumes at most the bits there are, at least one from a node that is no leaf, and answers
the symbol of a node or raises INVALID_CODE or IN_EXHAUSTED (41_huffman.md R138, R139). -/
theorem hufWalk_cases (a : Arena) (n node : Nat) {s : State} (hn : n ≤ s.bitsRemaining) (hc : s.curBit < 8) :
    ∃ k, k ≤ s.bitsRemaining ∧
      ((∃ m, hufWalk a n node s = .ok (a.nodeAt m).sym (s.advance k) ∧ ((a.nodeAt node).isLeaf = false → 0 < k)) ∨
        hufWalk a n node s = .raised .invalidCode (s.advance k) ∨
        hufWalk a n node s = .raised .inExhausted (s.advance k)) := by
  induction n generalizing node s with
  | zero =>
    refine ⟨0, by omega, ?_⟩
    rw [hufWalk, advance_zero hc]
    split
    · next hl => exact .inl ⟨node, rfl, by simp [hl]⟩
    · exact .inr (.inr rfl)
  | succ n ih =>
    rw [hufWalk]
    split
    · next hl => exact ⟨0, by omega, .inl ⟨node, by rw [advance_zero hc], by simp [hl]⟩⟩
    · rw [bcConsumeBit_of_le (by omega), res_ok_bind]
      split
      · exact ⟨1, by omega, .inr (.inl rfl)⟩
      · next k _ =>
        obtain ⟨j, hj, h⟩ := ih (node := k) (s := s.advance 1) (by rw [bitsRemaining_advance]; omega)
          (advance_curBit_lt s 1)
        rw [bitsRemaining_advance] at hj
        rw [advance_advance] at h
        refine ⟨1 + j, by omega, ?_⟩
        rcases h with ⟨m, h, -⟩ | h | h
        · exact .inl ⟨m, h, fun _ => by omega⟩
        · exact .inr (.inl h)
        · exact .inr (.inr h)

/-- Everything decoding a symbol can do (41_huffman.md R138 to R140). -/
theorem hufDecode_cases (t : TreeId) {s : State} (hc : s.curBit < 8) :
    ∃ k, k ≤ s.bitsRemaining ∧
      ((∃ m, hufDecode t s = .ok ((s.arena t).nodeAt m).sym (s.advance k) ∧
          (((s.arena t).nodeAt 0).isLeaf = false → 0 < k)) ∨
        hufDecode t s = .raised .invalidCode (s.advance k) ∨ hufDecode t s = .raised .inExhausted (s.advance k)) :=
  hufWalk_cases (s.arena t) s.bitsRemaining 0 (Nat.le_refl _) hc

/-- Everything HUF_LOOKUP can do (41_huffman.md R138 to R140). -/
theorem hufLookup_cases (t : TreeId) {s : State} (hc : s.curBit < 8) :
    ∃ k, k ≤ s.bitsRemaining ∧
      ((∃ m, hufLookup t s = .ok ((s.arena t).nodeAt m).sym { s.advance k with sym := ((s.arena t).nodeAt m).sym } ∧
          (((s.arena t).nodeAt 0).isLeaf = false → 0 < k)) ∨
        hufLookup t s = .raised .invalidCode (s.advance k) ∨ hufLookup t s = .raised .inExhausted (s.advance k)) := by
  obtain ⟨k, hk, h⟩ := hufDecode_cases t hc
  refine ⟨k, hk, ?_⟩
  rw [hufLookup]
  rcases h with ⟨m, h, h'⟩ | h | h
  · exact .inl ⟨m, by rw [h, res_ok_bind], h'⟩
  · exact .inr (.inl (by rw [h, res_raised_bind]))
  · exact .inr (.inr (by rw [h, res_raised_bind]))

/-! ## The element of a symbol -/

/-- A symbol's element that completes writes `sym` with its other writes. -/
theorem symbolElement_of_ok {sym : Nat} {op : State → Res Unit} {s t : State} (h : op s = .ok () t) :
    symbolElement sym op s = .ok () { t with sym := sym } := by
  rw [symbolElement, h]
  rfl

/-- A symbol's element that raises leaves its start, but for the bits it has consumed. -/
theorem symbolElement_of_raised {sym : Nat} {op : State → Res Unit} {s t : State} {c : Cause} (h : op s = .raised c t) :
    symbolElement sym op s = .raised c { s with curByte := t.curByte, curBit := t.curBit } := by
  rw [symbolElement, h]
  rfl

theorem symbolElement_of_refused {sym : Nat} {op : State → Res Unit} {s : State} {r : Refusal} (h : op s = .refused r) :
    symbolElement sym op s = .refused r := by
  rw [symbolElement, h]
  rfl

end Sys2Proof.Machine
end

