-- ==== Sys2Proof/Laws/FixedTrees.lean ====
section
/-! SUPPORT. The fixed arenas are what HUF_BUILD makes of the fixed tables (42_fixed_tables.md R150, R151): the kernel
computes the builds. -/

namespace Sys2Proof.Machine

/-! ## Building into a trie: the same build over a representation the kernel computes with quickly -/

/-- Nodes by index: index 0 at the root, the others by their bits below it. -/
inductive NodeTrie where
  | tip
  | bin (v : Node) (l r : NodeTrie)

/-- The node at an index. -/
def NodeTrie.get : NodeTrie → Nat → Node
  | .tip, _ => { child0 := none, child1 := none, isLeaf := false, sym := 0 }
  | .bin v _ _, 0 => v
  | .bin _ l r, k + 1 => if k % 2 = 0 then l.get (k / 2) else r.get (k / 2)

/-- The trie with another node at an index. -/
def NodeTrie.set : NodeTrie → Nat → Node → NodeTrie
  | .tip, _, _ => .tip
  | .bin _ l r, 0, x => .bin x l r
  | .bin v l r, k + 1, x => if k % 2 = 0 then .bin v (l.set (k / 2) x) r else .bin v l (r.set (k / 2) x)

/-- Whether the trie has a place for an index. -/
def NodeTrie.has : NodeTrie → Nat → Bool
  | .tip, _ => false
  | .bin _ _ _, 0 => true
  | .bin _ l r, k + 1 => if k % 2 = 0 then l.has (k / 2) else r.has (k / 2)

/-- A trie of empty nodes. -/
def NodeTrie.blank : Nat → NodeTrie
  | 0 => .tip
  | n + 1 => .bin { child0 := none, child1 := none, isLeaf := false, sym := 0 } (blank n) (blank n)

theorem trie_get_set (t : NodeTrie) (k j : Nat) (x : Node) (h : t.has k = true) :
    (t.set k x).get j = if j = k then x else t.get j := by
  induction t generalizing k j with
  | tip => simp [NodeTrie.has] at h
  | bin v l r ihl ihr =>
    cases k with
    | zero => cases j <;> simp [NodeTrie.set, NodeTrie.get]
    | succ k =>
      simp only [NodeTrie.has] at h
      simp only [NodeTrie.set]
      split
      · next hk =>
        rw [if_pos hk] at h
        cases j with
        | zero => simp [NodeTrie.get]
        | succ j =>
          simp only [NodeTrie.get, ihl _ _ h, Nat.add_right_cancel_iff]
          split <;> [(congr 1; simp; omega); rw [if_neg (by omega)]]
      · next hk =>
        rw [if_neg hk] at h
        cases j with
        | zero => simp [NodeTrie.get]
        | succ j =>
          simp only [NodeTrie.get, ihr _ _ h, Nat.add_right_cancel_iff]
          split <;> [rw [if_neg (by omega)]; (congr 1; simp; omega)]

theorem trie_has_set (t : NodeTrie) (k j : Nat) (x : Node) : (t.set k x).has j = t.has j := by
  induction t generalizing k j with
  | tip => rfl
  | bin v l r ihl ihr =>
    cases k with
    | zero => cases j <;> rfl
    | succ k =>
      simp only [NodeTrie.set]
      split <;> cases j <;> simp [NodeTrie.has, ihl, ihr]

theorem trie_blank_get (n k : Nat) :
    (NodeTrie.blank n).get k = { child0 := none, child1 := none, isLeaf := false, sym := 0 } := by
  induction n generalizing k with
  | zero => rfl
  | succ n ih => cases k <;> simp [NodeTrie.blank, NodeTrie.get, ih]

theorem trie_blank_has (n k : Nat) (h : k + 1 < 2 ^ n) : (NodeTrie.blank n).has k = true := by
  induction n generalizing k with
  | zero => simp at h
  | succ n ih =>
    cases k with
    | zero => rfl
    | succ k =>
      rw [Nat.pow_succ] at h
      simp only [NodeTrie.blank, NodeTrie.has, ite_self]
      exact ih _ (by omega)

/-- The trie holds the arena, with places up to 1023. -/
structure Holds (a : Arena) (t : NodeTrie) : Prop where
  get : ∀ k, t.get k = a.nodeAt k
  has : ∀ k, k < 1023 → t.has k = true

theorem insertCode_of_some {sym code i node k : Nat} {a : Arena} (hl : ¬(a.nodeAt node).isLeaf = true)
    (hk : (a.nodeAt node).child (code.testBit i) = some k) :
    insertCode sym code (i + 1) node a = insertCode sym code i k a := by
  rw [insertCode, if_neg hl, hk]

theorem insertCode_of_none {sym code i node : Nat} {a : Arena} (hl : ¬(a.nodeAt node).isLeaf = true)
    (hk : (a.nodeAt node).child (code.testBit i) = none) :
    insertCode sym code (i + 1) node a = insertCode sym code i a.length (a.alloc node (code.testBit i)) := by
  rw [insertCode, if_neg hl, hk]

theorem buildTree_of_firstCodes {lens next : List Nat}
    (h : firstCodes (countLengths lens) 15 1 0 (List.replicate 16 0) = (next, true)) :
    buildTree lens = assignCodes (countLengths lens) lens 0 next Arena.cleared := by
  rw [buildTree, h]

/-- `insertCode` over a trie of `count` nodes; the flag is false also when the trie has no place left. -/
def insertTrie (sym code : Nat) : Nat → Nat → Nat → NodeTrie → NodeTrie × Nat × Bool
  | 0, node, count, t =>
    if (t.get node).vacant && decide (node < count) && decide (node < 1023) then
      (t.set node { t.get node with isLeaf := true, sym := sym }, count, true)
    else (t, count, false)
  | i + 1, node, count, t =>
    if (t.get node).isLeaf then (t, count, false)
    else
      match (t.get node).child (code.testBit i) with
      | some k => insertTrie sym code i k count t
      | none =>
        if decide (node < count) && decide (node < 1023) then
          insertTrie sym code i count (count + 1) (t.set node ((t.get node).setChild (code.testBit i) count))
        else (t, count, false)

theorem insertTrie_spec {a : Arena} {t t' : NodeTrie} {count count' sym code i node : Nat} (h : Holds a t)
    (hl : a.length = count) (hr : insertTrie sym code i node count t = (t', count', true)) :
    ∃ a', insertCode sym code i node a = (a', true) ∧ Holds a' t' ∧ a'.length = count' := by
  induction i generalizing a t count node with
  | zero =>
    simp only [insertTrie, h.get] at hr
    split at hr
    · next hv =>
      simp only [Bool.and_eq_true, decide_eq_true_eq] at hv
      simp only [Prod.mk.injEq, and_true] at hr
      obtain ⟨rfl, rfl⟩ := hr
      refine ⟨_, by rw [insertCode, if_pos hv.1.1], ⟨fun k => ?_, fun k hk => ?_⟩, by simpa using hl⟩
      · rw [trie_get_set _ _ _ _ (h.has _ hv.2), h.get]
        split
        · next hk => rw [hk, nodeAt_set_same _ (by omega)]
        · next hk => rw [nodeAt_set_other _ _ hk]
      · rw [trie_has_set]
        exact h.has k hk
    · simp at hr
  | succ i ih =>
    simp only [insertTrie, h.get] at hr
    split at hr
    · simp at hr
    · next hleaf =>
      split at hr
      · next k hk =>
        rw [insertCode_of_some hleaf hk]
        exact ih h hl hr
      · next hk =>
        rw [insertCode_of_none hleaf hk]
        split at hr
        · next hb =>
          simp only [Bool.and_eq_true, decide_eq_true_eq] at hb
          have hset : Holds (a.alloc node (code.testBit i))
              (t.set node ((a.nodeAt node).setChild (code.testBit i) count)) := by
            refine ⟨fun k => ?_, fun k hk => by rw [trie_has_set]; exact h.has k hk⟩
            rw [trie_get_set _ _ _ _ (h.has _ hb.2), h.get]
            split
            · next hkn => rw [hkn, nodeAt_alloc_same _ (by omega), hl]
            · next hkn =>
              by_cases hkl : k = a.length
              · rw [hkl, nodeAt_alloc_new, Arena.nodeAt, List.getD_eq_default _ _ (Nat.le_refl _)]
              · rw [nodeAt_alloc_other _ _ hkn hkl]
          rw [hl]
          exact ih hset (by rw [alloc_length, hl]) hr
        · simp at hr

/-- `assignCodes` over a trie: none on an error. -/
def assignTrie : List Nat → Nat → List Nat → Nat → NodeTrie → Option (NodeTrie × Nat)
  | [], _, _, count, t => some (t, count)
  | len :: rest, s, next, count, t =>
    if len = 0 then assignTrie rest (s + 1) next count t
    else
      match insertTrie s (next.getD len 0) len 0 count t with
      | (t, count, true) => assignTrie rest (s + 1) (List.set next len (next.getD len 0 + 1)) count t
      | (_, _, false) => none

theorem assignTrie_spec {bl lens : List Nat} {s : Nat} {next : List Nat} {a : Arena} {t t' : NodeTrie}
    {count count' : Nat} (h : Holds a t) (hl : a.length = count)
    (hr : assignTrie lens s next count t = some (t', count')) :
    (assignCodes bl lens s next a).error = none ∧ Holds (assignCodes bl lens s next a).arena t' ∧
      (assignCodes bl lens s next a).arena.length = count' := by
  induction lens generalizing s next a t count with
  | nil =>
    simp only [assignTrie, Option.some.injEq, Prod.mk.injEq] at hr
    obtain ⟨rfl, rfl⟩ := hr
    exact ⟨rfl, h, hl⟩
  | cons len rest ih =>
    simp only [assignTrie] at hr
    simp only [assignCodes]
    split at hr
    · next h0 =>
      rw [if_pos h0]
      exact ih h hl hr
    · next h0 =>
      rw [if_neg h0]
      split at hr
      · next t1 c1 he =>
        obtain ⟨a1, ha, h1, hl1⟩ := insertTrie_spec h hl he
        simp only [ha]
        exact ih h1 hl1 hr
      · cases hr

/-- The nodes of a list stand in the trie from index `i` on. -/
def NodeTrie.matchesFrom (t : NodeTrie) : Nat → List Node → Bool
  | _, [] => true
  | i, x :: xs => decide (t.get i = x) && t.matchesFrom (i + 1) xs

theorem matchesFrom_get {t : NodeTrie} {i k : Nat} {xs : List Node} (h : t.matchesFrom i xs = true)
    (hk : k < xs.length) : t.get (i + k) = xs[k] := by
  induction xs generalizing i k with
  | nil => simp at hk
  | cons x xs ih =>
    simp only [NodeTrie.matchesFrom, Bool.and_eq_true, decide_eq_true_eq] at h
    cases k with
    | zero => exact h.1
    | succ k =>
      have := ih h.2 (k := k) (by simpa using hk)
      rw [show i + (k + 1) = i + 1 + k by omega, this]
      rfl

/-- The build of `lens` is the arena `a`: what the kernel is asked to compute. -/
def buildsTo (lens : List Nat) (a : Arena) : Bool :=
  match firstCodes (countLengths lens) 15 1 0 (List.replicate 16 0) with
  | (next, true) =>
    match assignTrie lens 0 next 1 (NodeTrie.blank 10) with
    | some (t, count) => decide (a.length = count) && t.matchesFrom 0 a
    | none => false
  | (_, false) => false

theorem buildsTo_spec {lens : List Nat} {a : Arena} (h : buildsTo lens a = true) :
    (buildTree lens).error = none ∧ (buildTree lens).arena = a := by
  rw [buildsTo] at h
  split at h
  · next next hf =>
    rw [buildTree_of_firstCodes hf]
    split at h
    · next t count ht =>
      simp only [Bool.and_eq_true, decide_eq_true_eq] at h
      have hc : Holds Arena.cleared (NodeTrie.blank 10) := by
        refine ⟨fun k => ?_, fun k hk => trie_blank_has 10 k (by omega)⟩
        rw [trie_blank_get]
        cases k <;> rfl
      obtain ⟨h1, h2, h3⟩ := assignTrie_spec (bl := countLengths lens) hc rfl ht
      refine ⟨h1, List.ext_getElem (by omega) fun k hk hk' => ?_⟩
      have := matchesFrom_get h.2 hk'
      rw [Nat.zero_add, h2.get, Arena.nodeAt, List.getD_eq_getElem _ _ hk] at this
      exact this
    · cases h
  · cases h

theorem fixedLL_buildsTo (v : Config.FixedLong) : buildsTo (fixedLLLens v) (fixedLLArena v) = true := by
  cases v <;> decide +kernel

theorem fixedD_buildsTo : buildsTo fixedDLens fixedDArena = true := by decide +kernel

/-! ## The fixed arenas -/

/-- FLLT is the build of the fixed literal/length lengths (42_fixed_tables.md R150). -/
theorem fixedLLArena_eq (v : Config.FixedLong) : (buildTree (fixedLLLens v)).arena = fixedLLArena v :=
  (buildsTo_spec (fixedLL_buildsTo v)).2

/-- FDT is the build of the fixed distance lengths (42_fixed_tables.md R151). -/
theorem fixedDArena_eq : (buildTree fixedDLens).arena = fixedDArena := (buildsTo_spec fixedD_buildsTo).2

/-- The builds of the fixed tables raise nothing. -/
theorem fixedLL_error (v : Config.FixedLong) : (buildTree (fixedLLLens v)).error = none :=
  (buildsTo_spec (fixedLL_buildsTo v)).1

theorem fixedD_error : (buildTree fixedDLens).error = none := (buildsTo_spec fixedD_buildsTo).1

/-- The fixed arenas fill their capacities (10_state.md R34). -/
theorem fixedLLArena_length (p : Config.Params) : (fixedLLArena p.fixedLong).length = arenaCapacity p .fllt := by
  have h : ∀ v, (fixedLLArena v).length = match v with | .eight => 575 | .nine => 576 := by
    intro v
    cases v <;> decide +kernel
  exact h p.fixedLong

theorem fixedDArena_length : fixedDArena.length = 63 := by decide +kernel

theorem fixedLLLens_length (v : Config.FixedLong) : (fixedLLLens v).length = 288 := by
  simp only [fixedLLLens, List.length_append, List.length_replicate]

theorem fixedDLens_length : fixedDLens.length = 32 := by simp [fixedDLens]

theorem fixedLLArena_wf (v : Config.FixedLong) : Arena.wf (fixedLLArena v).length 288 (fixedLLArena v) := by
  obtain ⟨-, -, h, -⟩ := buildTree_spec (al := 288) (lens := fixedLLLens v) (by rw [fixedLLLens_length]) (by decide)
  rwa [fixedLLArena_eq] at h

theorem fixedDArena_wf : Arena.wf fixedDArena.length 32 fixedDArena := by
  obtain ⟨-, -, h, -⟩ := buildTree_spec (al := 32) (lens := fixedDLens) (by rw [fixedDLens_length]) (by decide)
  rwa [fixedDArena_eq] at h

/-- Every arena a state selects is well formed, for symbols below 288. -/
theorem arena_wf {s : State} (h : ArenasOk s) (t : TreeId) : Arena.wf (s.arena t).length 288 (s.arena t) := by
  cases t with
  | clt => exact ⟨h.clt.root, Nat.le_refl _, h.clt.inner, fun nd hn => by
      obtain ⟨h0, h1, h2⟩ := h.clt.nodes nd hn
      exact ⟨h0, h1, by omega⟩⟩
  | llt => exact ⟨h.llt.root, Nat.le_refl _, h.llt.inner, h.llt.nodes⟩
  | dt => exact ⟨h.dt.root, Nat.le_refl _, h.dt.inner, fun nd hn => by
      obtain ⟨h0, h1, h2⟩ := h.dt.nodes nd hn
      exact ⟨h0, h1, by omega⟩⟩
  | fllt => exact fixedLLArena_wf _
  | fdt => exact ⟨fixedDArena_wf.root, Nat.le_refl _, fixedDArena_wf.inner, fun nd hn => by
      obtain ⟨h0, h1, h2⟩ := fixedDArena_wf.nodes nd hn
      exact ⟨h0, h1, by omega⟩⟩

/-- The symbol of a lookup fits `sym` (10_state.md R31). -/
theorem arena_sym_lt {s : State} (h : ArenasOk s) (t : TreeId) (m : Nat) : ((s.arena t).nodeAt m).sym < 288 :=
  (nodeAt_wf (arena_wf h t) (by decide) m).2.2

/-- A build keeps every arena within its capacity and alphabet (10_state.md R34). -/
theorem arenasOk_afterBuild {s : State} {t : TreeId} (h : ArenasOk s) (hr : RegistersOk s)
    (hc : buildOutOfContract s t = false) : ArenasOk (s.afterBuild t) := by
  rw [buildOutOfContract, Bool.or_eq_false_iff, decide_eq_false_iff_not, decide_eq_false_iff_not] at hc
  have key : ∀ {lens : List Nat} {cap al : Nat}, lens.length ≤ al → 0 < al → ¬cap < (buildTree lens).arena.length →
      Arena.wf cap al (buildTree lens).arena := fun hl hal hcap => by
    obtain ⟨-, -, hw, -⟩ := buildTree_spec hl hal
    exact ⟨hw.root, by omega, hw.inner, hw.nodes⟩
  have hclt := hr.clLens
  have hll := hr.hlit
  have hd := hr.hdist
  obtain ⟨h1, h2, h3⟩ := h
  cases t with
  | clt =>
    rw [afterBuild_clt]
    refine ⟨?_, h2, h3⟩
    dsimp only
    exact key (by simp [hclt]) (by decide) hc.2
  | llt =>
    rw [afterBuild_llt]
    refine ⟨h1, ?_, h3⟩
    dsimp only
    exact key (by simp; omega) (by decide) hc.2
  | dt =>
    rw [afterBuild_dt]
    refine ⟨h1, h2, ?_⟩
    dsimp only
    exact key (by simp; omega) (by decide) hc.2
  | fllt =>
    have he : ∃ bl next, s.afterBuild .fllt = { s with blCount := bl, nextCode := next } := ⟨_, _, rfl⟩
    obtain ⟨bl, next, he⟩ := he
    rw [he]
    exact ⟨h1, h2, h3⟩
  | fdt =>
    have he : ∃ bl next, s.afterBuild .fdt = { s with blCount := bl, nextCode := next } := ⟨_, _, rfl⟩
    obtain ⟨bl, next, he⟩ := he
    rw [he]
    exact ⟨h1, h2, h3⟩

/-- A build within the contract keeps every register within its width (10_state.md R31). -/
theorem registersOk_afterBuild {s : State} {t : TreeId} (h : RegistersOk s) (hc : buildOutOfContract s t = false) :
    RegistersOk (s.afterBuild t) := by
  rw [buildOutOfContract, Bool.or_eq_false_iff, decide_eq_false_iff_not, Config.llAlphabet] at hc
  obtain ⟨hb, hn, -, -⟩ := buildTree_spec (al := (s.buildTable t).length + 1) (lens := s.buildTable t) (by omega)
    (by omega)
  obtain ⟨hbe, hne⟩ := buildTree_scratch_le (s.buildTable t)
  obtain ⟨clt, llt, dt, he⟩ : ∃ clt llt dt, s.afterBuild t = { s with
      clt := clt, llt := llt, dt := dt, blCount := (buildTree (s.buildTable t)).blCount
      nextCode := (buildTree (s.buildTable t)).nextCode } := by
    cases t <;> exact ⟨_, _, _, rfl⟩
  rw [he]
  exact { h with
    blCount := hb
    blCountEntry := fun c hm => le_trans (hbe c hm) (by omega)
    nextCode := hn
    nextCodeEntry := hne }

end Sys2Proof.Machine
end

