-- ==== Sys2Proof/Laws/Elements.lean ====
section
/-! SUPPORT. The shared operations behind the elements' meanings: which operation an element's meaning is, and everything each
operation can do. -/

namespace Sys2Proof.Machine

/-! ## Which operation an element is -/

/-- The meaning of a length symbol. -/
theorem exec_length {i : Instr} {sym e : Nat} (s : State) (h : i.element = (.llsym, sym, e)) (h1 : 257 ≤ sym)
    (h2 : sym ≤ 285) : exec i s = (lengthSymbol sym e s).toOutcome := by
  cases i <;> simp only [Instr.element, Prod.mk.injEq, reduceCtorEq, false_and, true_and] at h <;>
    obtain ⟨rfl, rfl⟩ := h <;> first | rfl | omega

/-- The meaning of a distance symbol. -/
theorem exec_distance {i : Instr} {d e : Nat} (s : State) (h : i.element = (.dsym, d, e)) (h1 : d ≤ 29) :
    exec i s = (distanceSymbol d e s).toOutcome := by
  cases i <;> simp only [Instr.element, Prod.mk.injEq, reduceCtorEq, false_and, true_and] at h <;>
    obtain ⟨rfl, rfl⟩ := h <;> first | rfl | omega

/-! ## The block body -/

/-- Everything a length symbol can do (44_block_body.md R192). -/
theorem lengthSymbol_cases (sym e : Nat) (s : State) :
    (lenExtra sym ≤ s.bitsRemaining ∧ lengthSymbol sym e s = .ok ()
        { s.advance (lenExtra sym) with extra := e, curLen := lenBase sym + e, seq := .dist, sym := sym }) ∨
      (s.bitsRemaining < lenExtra sym ∧ lengthSymbol sym e s = .raised .inExhausted s) := by
  rw [lengthSymbol]
  rcases bcSkip_cases (lenExtra sym) s with ⟨h, hs⟩ | ⟨h, hs⟩
  · exact .inl ⟨h, by rw [symbolElement_of_ok (by rw [hs, res_ok_bind])]; rfl⟩
  · exact .inr ⟨h, by rw [symbolElement_of_raised (by rw [hs, res_raised_bind])]⟩

/-- What a distance symbol does once its extra bits are there: the distance, the copy, and the next symbol
(44_block_body.md R193, R195). -/
theorem distanceSymbol_of_le {d : Nat} (e : Nat) {s : State} (h : distExtra d ≤ s.bitsRemaining) :
    distanceSymbol d e s =
      ((copyBackref { s.advance (distExtra d) with extra := e, curDist := distBase d + e }).bind fun _ s =>
        .ok () { s with seq := .ll, sym := d }).atomic s := by
  rw [distanceSymbol, symbolElement, bcSkip_of_le h, res_ok_bind, res_bind_assoc]
  rfl

theorem distanceSymbol_of_lt {d : Nat} (e : Nat) {s : State} (h : s.bitsRemaining < distExtra d) :
    distanceSymbol d e s = .raised .inExhausted s := by
  rw [distanceSymbol, symbolElement_of_raised (by rw [bcSkip_of_lt h, res_raised_bind])]

/-- The extra bits of a length symbol bound the length (10_state.md R31). -/
theorem lenBase_add_le {sym e : Nat} (h : e < 2 ^ lenExtra sym) : lenBase sym + e ≤ 258 := by
  rcases Nat.lt_or_ge sym 286 with hs | hs
  · have key : ∀ k, k < 29 → lenBase (257 + k) + 2 ^ lenExtra (257 + k) ≤ 259 := by decide
    rcases Nat.lt_or_ge sym 257 with h2 | h2
    · have h3 : lenExtra sym = 0 := by rw [lenExtra, if_pos h2]
      have h4 : lenBase sym = 3 := by rw [lenBase, show sym - 257 = 0 by omega]; rfl
      rw [h3] at h
      omega
    · have := key (sym - 257) (by omega)
      rw [show 257 + (sym - 257) = sym by omega] at this
      omega
  · have h1 : lenBase sym = 0 := by
      rw [lenBase, List.getD_eq_default _ _ (by simp [lenRows]; omega)]
    have h2 : lenExtra sym = 0 := by
      rw [lenExtra, if_neg (by omega), List.getD_eq_default _ _ (by simp [lenRows]; omega)]
    rw [h2] at h
    omega

/-- The extra bits of a distance symbol bound the distance (10_state.md R31). -/
theorem distBase_add_le {d e : Nat} (h : e < 2 ^ distExtra d) : distBase d + e ≤ 32768 := by
  rcases Nat.lt_or_ge d 30 with hs | hs
  · have key : ∀ d, d < 30 → distBase d + 2 ^ distExtra d ≤ 32769 := by decide
    have := key d hs
    omega
  · have h1 : distBase d = 0 := by rw [distBase, List.getD_eq_default _ _ (by simp [distRows]; omega)]
    have h2 : distExtra d = 0 := by rw [distExtra, List.getD_eq_default _ _ (by simp [distRows]; omega)]
    rw [h2] at h
    omega

theorem distBase_pos {d : Nat} (h : d ≤ 29) : 0 < distBase d := by
  have key : ∀ d, d < 30 → 0 < distBase d := by decide
  exact key d (by omega)

/-! ## The header elements -/

/-- Everything a block header's two reads can do (43_block_header.md R165). -/
theorem readBlockHeader_cases (b : Bool) (ty : BitVec 2) (s : State) :
    (3 ≤ s.bitsRemaining ∧ readBlockHeader b ty s = .ok ()
        { s.advance 3 with bfinal := b, btype := ty, blockFinal := b, blockType := ty }) ∨
      (s.bitsRemaining = 0 ∧ readBlockHeader b ty s = .raised .inExhausted s) ∨
      (0 < s.bitsRemaining ∧ s.bitsRemaining < 3 ∧
        readBlockHeader b ty s = .raised .inExhausted { s.advance 1 with bfinal := b }) := by
  rw [readBlockHeader]
  rcases bcSkip_cases 1 s with ⟨h, hs⟩ | ⟨h, hs⟩
  · rw [hs, res_ok_bind]
    have hr : ({ s.advance 1 with bfinal := b } : State).bitsRemaining = s.bitsRemaining - 1 :=
      bitsRemaining_advance s 1
    rcases bcSkip_cases 2 { s.advance 1 with bfinal := b } with ⟨h2, hs2⟩ | ⟨h2, hs2⟩
    · rw [hr] at h2
      refine .inl ⟨by omega, ?_⟩
      rw [hs2, res_ok_bind, ← advance_advance s 1 2]
      rfl
    · rw [hr] at h2
      exact .inr (.inr ⟨by omega, by omega, by rw [hs2, res_raised_bind]⟩)
  · exact .inr (.inl ⟨by omega, by rw [hs, res_raised_bind]⟩)

/-- A block header whose bits are there is recorded, and then its type's work is done (43_block_header.md R165). -/
theorem blockHeader_of_le (b : Bool) (ty : BitVec 2) (op : State → Res Unit) {s : State} (h : 3 ≤ s.bitsRemaining) :
    blockHeader b ty op s =
      (op { s.advance 3 with bfinal := b, btype := ty, blockFinal := b, blockType := ty }).atomic s := by
  rcases readBlockHeader_cases b ty s with ⟨-, hs⟩ | ⟨h0, -⟩ | ⟨-, h0, -⟩
  · rw [blockHeader, hs, res_ok_bind]
  · omega
  · omega

/-- A block header cut short leaves nothing but the cursor behind its first bit, if that is there (43_block_header.md R165,
60_exceptions.md R235). -/
theorem blockHeader_of_lt (b : Bool) (ty : BitVec 2) (op : State → Res Unit) {s : State} (h : s.bitsRemaining < 3) :
    (s.bitsRemaining = 0 ∧ blockHeader b ty op s = .raised .inExhausted s) ∨
      (0 < s.bitsRemaining ∧ blockHeader b ty op s = .raised .inExhausted (s.advance 1)) := by
  rcases readBlockHeader_cases b ty s with ⟨h0, -⟩ | ⟨h0, hs⟩ | ⟨h0, -, hs⟩
  · omega
  · exact .inl ⟨h0, by rw [blockHeader, hs]; rfl⟩
  · exact .inr ⟨h0, by rw [blockHeader, hs]; rfl⟩

/-- Everything the three counts can do (43_block_header.md R168). -/
theorem readDynHeader_cases (a b : BitVec 5) (c : BitVec 4) (s : State) :
    (14 ≤ s.bitsRemaining ∧ a.toNat ≤ 29 ∧ b.toNat ≤ 29 ∧ readDynHeader a b c s = .ok ()
        { s.advance 14 with hlit := a.toNat + 257, hdist := b.toNat + 1, hclen := c.toNat + 4 }) ∨
      (s.bitsRemaining < 5 ∧ readDynHeader a b c s = .raised .inExhausted s) ∨
      (5 ≤ s.bitsRemaining ∧ 30 ≤ a.toNat ∧
        readDynHeader a b c s = .raised .hlitRange { s.advance 5 with hlit := a.toNat + 257 }) ∨
      (5 ≤ s.bitsRemaining ∧ s.bitsRemaining < 10 ∧ a.toNat ≤ 29 ∧
        readDynHeader a b c s = .raised .inExhausted { s.advance 5 with hlit := a.toNat + 257 }) ∨
      (10 ≤ s.bitsRemaining ∧ a.toNat ≤ 29 ∧ 30 ≤ b.toNat ∧ readDynHeader a b c s = .raised .hdistRange
        { s.advance 10 with hlit := a.toNat + 257, hdist := b.toNat + 1 }) ∨
      (10 ≤ s.bitsRemaining ∧ s.bitsRemaining < 14 ∧ a.toNat ≤ 29 ∧ b.toNat ≤ 29 ∧
        readDynHeader a b c s = .raised .inExhausted
          { s.advance 10 with hlit := a.toNat + 257, hdist := b.toNat + 1 }) := by
  rw [readDynHeader]
  rcases bcSkip_cases 5 s with ⟨h, hs⟩ | ⟨h, hs⟩
  · rw [hs, res_ok_bind]
    dsimp only [hlitOf, hdistOf, hclenOf]
    have hr : ({ s.advance 5 with hlit := a.toNat + 257 } : State).bitsRemaining = s.bitsRemaining - 5 :=
      bitsRemaining_advance s 5
    by_cases ha : Config.hlitMax < a.toNat + 257
    · rw [if_pos ha]
      rw [Config.hlitMax] at ha
      exact .inr (.inr (.inl ⟨h, by omega, rfl⟩))
    · rw [if_neg ha]
      rw [Config.hlitMax] at ha
      rcases bcSkip_cases 5 { s.advance 5 with hlit := a.toNat + 257 } with ⟨h2, hs2⟩ | ⟨h2, hs2⟩
      · rw [hr] at h2
        rw [hs2, res_ok_bind]
        have he : ∀ n, ({ s.advance 5 with hlit := a.toNat + 257 } : State).advance n =
            { s.advance (5 + n) with hlit := a.toNat + 257 } := fun n => by rw [← advance_advance]; rfl
        rw [he]
        have hr2 : ({ s.advance 10 with hlit := a.toNat + 257, hdist := b.toNat + 1 } : State).bitsRemaining =
            s.bitsRemaining - 10 := bitsRemaining_advance s 10
        by_cases hb : Config.hdistMax < b.toNat + 1
        · rw [if_pos hb]
          rw [Config.hdistMax] at hb
          exact .inr (.inr (.inr (.inr (.inl ⟨by omega, by omega, by omega, rfl⟩))))
        · rw [if_neg hb]
          rw [Config.hdistMax] at hb
          rcases bcSkip_cases 4 { s.advance 10 with hlit := a.toNat + 257, hdist := b.toNat + 1 } with
            ⟨h3, hs3⟩ | ⟨h3, hs3⟩
          · rw [hr2] at h3
            refine .inl ⟨by omega, by omega, by omega, ?_⟩
            rw [hs3, res_ok_bind, ← advance_advance s 10 4]
            rfl
          · rw [hr2] at h3
            exact .inr (.inr (.inr (.inr (.inr ⟨by omega, by omega, by omega, by omega, by
              rw [hs3, res_raised_bind]⟩))))
      · rw [hr] at h2
        exact .inr (.inr (.inr (.inl ⟨by omega, by omega, by omega, by rw [hs2, res_raised_bind]⟩)))
  · exact .inr (.inl ⟨by omega, by rw [hs, res_raised_bind]⟩)

/-- Everything DYN_HEADER can do: the counts, or a raise that leaves nothing but the fields it has consumed (43_block_header.md
R168, 60_exceptions.md R235). -/
theorem execDynHeader_cases (a b : BitVec 5) (c : BitVec 4) (s : State) :
    (14 ≤ s.bitsRemaining ∧ a.toNat ≤ 29 ∧ b.toNat ≤ 29 ∧ execDynHeader a b c s = .next
        { s.advance 14 with
          hlit := a.toNat + 257, hdist := b.toNat + 1, hclen := c.toNat + 4
          clLens := List.replicate 19 0, clclIdx := 0, seq := .clcl }) ∨
      (s.bitsRemaining < 5 ∧ execDynHeader a b c s = .next (s.raiseError .inExhausted)) ∨
      (5 ≤ s.bitsRemaining ∧ 30 ≤ a.toNat ∧ execDynHeader a b c s = .next ((s.advance 5).raiseError .hlitRange)) ∨
      (5 ≤ s.bitsRemaining ∧ s.bitsRemaining < 10 ∧ a.toNat ≤ 29 ∧
        execDynHeader a b c s = .next ((s.advance 5).raiseError .inExhausted)) ∨
      (10 ≤ s.bitsRemaining ∧ a.toNat ≤ 29 ∧ 30 ≤ b.toNat ∧
        execDynHeader a b c s = .next ((s.advance 10).raiseError .hdistRange)) ∨
      (10 ≤ s.bitsRemaining ∧ s.bitsRemaining < 14 ∧ a.toNat ≤ 29 ∧ b.toNat ≤ 29 ∧
        execDynHeader a b c s = .next ((s.advance 10).raiseError .inExhausted)) := by
  rw [execDynHeader]
  rcases readDynHeader_cases a b c s with ⟨h1, h2, h3, h⟩ | ⟨h1, h⟩ | ⟨h1, h2, h⟩ | ⟨h1, h2, h3, h⟩ | ⟨h1, h2, h3, h⟩ |
    ⟨h1, h2, h3, h4, h⟩
  · exact .inl ⟨h1, h2, h3, by rw [h]; rfl⟩
  · exact .inr (.inl ⟨h1, by rw [h]; rfl⟩)
  · exact .inr (.inr (.inl ⟨h1, h2, by rw [h]; rfl⟩))
  · exact .inr (.inr (.inr (.inl ⟨h1, h2, h3, by rw [h]; rfl⟩)))
  · exact .inr (.inr (.inr (.inr (.inl ⟨h1, h2, h3, by rw [h]; rfl⟩))))
  · exact .inr (.inr (.inr (.inr (.inr ⟨h1, h2, h3, h4, by rw [h]; rfl⟩))))

/-! ## The code-length sequence -/

@[simp] theorem fillEntries_length (v : BitVec 4) (n i : Nat) (t : List (BitVec 4)) :
    (fillEntries v n i t).length = t.length := by
  induction n generalizing i t with
  | zero => rfl
  | succ n ih => rw [fillEntries, ih, List.length_set]

/-- The filled entries hold the value, the others what they held. -/
theorem fillEntries_getElem? (v : BitVec 4) (n i j : Nat) (t : List (BitVec 4)) :
    (fillEntries v n i t)[j]? = if i ≤ j ∧ j < i + n ∧ j < t.length then some v else t[j]? := by
  induction n generalizing i t with
  | zero => rw [fillEntries, if_neg (by omega)]
  | succ n ih =>
    rw [fillEntries, ih, List.length_set, List.getElem?_set]
    by_cases h : j < t.length
    · by_cases hij : i = j
      · subst hij
        simp [h]
      · by_cases h2 : i + 1 ≤ j ∧ j < i + 1 + n
        · rw [if_pos ⟨h2.1, h2.2, h⟩, if_pos ⟨by omega, by omega, h⟩]
        · rw [if_neg (by omega), if_neg hij, if_neg (by omega)]
    · have hn : t[j]? = none := List.getElem?_eq_none (by omega)
      have h1 : ¬(i + 1 ≤ j ∧ j < i + 1 + n ∧ j < t.length) := fun hc => h hc.2.2
      have h2 : ¬(i ≤ j ∧ j < i + (n + 1) ∧ j < t.length) := fun hc => h hc.2.2
      rw [if_neg h1, if_neg h2]
      split
      · next hij => rw [if_neg (by rw [hij]; exact h), hn]
      · rfl

/-- Everything a run can do (43_block_header.md R172 to R174). -/
theorem putRun_cases (v : BitVec 4) (rep : Nat) (s : State) :
    (s.lenIdx + rep ≤ s.hlit + s.hdist ∧ putRun v rep s = .ok ()
        { s with rep := rep, lenTable := fillEntries v rep s.lenIdx s.lenTable, lenIdx := s.lenIdx + rep }) ∨
      (s.hlit + s.hdist < s.lenIdx + rep ∧ putRun v rep s = .raised .repeatOverrun { s with rep := rep }) := by
  rw [putRun]
  by_cases h : s.hlit + s.hdist < s.lenIdx + rep
  · exact .inr ⟨h, if_pos h⟩
  · exact .inl ⟨by omega, if_neg h⟩

/-- Everything the end of a code-length symbol can do: go on, or build both trees and enter the body; the builds raise or
refuse as HUF_BUILD does (43_block_header.md R170, R175). -/
theorem clsymNext_cases (s : State) :
    (s.lenIdx < s.hlit + s.hdist ∧ clsymNext s = .ok () s) ∨
      (s.hlit + s.hdist ≤ s.lenIdx ∧ clsymNext s = splitAndBuild s) := by
  rw [clsymNext]
  by_cases h : s.lenIdx < s.hlit + s.hdist
  · exact .inl ⟨h, if_pos h⟩
  · exact .inr ⟨by omega, if_neg h⟩

/-- Everything the end of a code-length field can do (43_block_header.md R169, R170). -/
theorem clclNext_cases (s : State) :
    (s.clclIdx < s.hclen ∧ clclNext s = .ok () s) ∨
      (s.hclen ≤ s.clclIdx ∧ clclNext s = (hufBuild .clt s).bind fun _ s => .ok () s.enterClsym) := by
  rw [clclNext]
  by_cases h : s.clclIdx < s.hclen
  · exact .inl ⟨h, if_pos h⟩
  · exact .inr ⟨by omega, if_neg h⟩

/-! ## Fetching -/

/-- A field at the cursor, all of whose bits are there, reads as the bits of IN. -/
theorem fieldBits_of_le {s : State} {p n : Nat} (h : p + n ≤ 8 * s.inLen) : s.fieldBits p n = s.inBits p n := by
  induction n generalizing p with
  | zero => rfl
  | succ n ih => rw [State.fieldBits, State.inBits, if_pos (by omega), ih (by omega)]

/-- A field has as many bits as were read. -/
theorem fieldBits_lt (s : State) (p n : Nat) : s.fieldBits p n < 2 ^ n := by
  induction n generalizing p with
  | zero => simp [State.fieldBits]
  | succ n ih =>
    have := ih (p + 1)
    have hb : (s.inBit p).toNat ≤ 1 := Bool.toNat_le _
    rw [State.fieldBits, Nat.pow_succ]
    split <;> omega

/-- A field that begins at the cursor and ends within the input, as the bits of IN. -/
theorem nextField_of_le {s : State} {n : Nat} (h : n ≤ s.bitsRemaining) (hn : 0 < n) :
    s.nextField n = s.inBits s.cursorPos n := by
  rw [State.nextField]
  refine fieldBits_of_le ?_
  simp only [State.bitsRemaining] at h
  simp only [State.cursorPos]
  omega

/-- Everything a fetch of a Huffman-coded element can do: what its lookup does, and then what the decoder says. -/
theorem fetchSymbol_cases (f : Format) (t : TreeId) {s : State} (hc : s.curBit < 8) :
    ∃ k, k ≤ s.bitsRemaining ∧
      ((∃ m, fetchSymbol f t s =
            decodeWord f (((s.arena t).nodeAt m).sym + (s.advance k).nextField (f.extraBits ((s.arena t).nodeAt m).sym) *
              2 ^ f.symBits) (s.advance k) ∧
          (((s.arena t).nodeAt 0).isLeaf = false → 0 < k)) ∨
        fetchSymbol f t s = .raised .invalidCode (s.advance k) ∨
        fetchSymbol f t s = .raised .inExhausted (s.advance k)) := by
  obtain ⟨k, hk, h⟩ := hufDecode_cases t hc
  refine ⟨k, hk, ?_⟩
  rcases h with ⟨m, h, h'⟩ | h | h
  · exact .inl ⟨m, by rw [fetchSymbol, h, res_ok_bind], h'⟩
  · exact .inr (.inl (by rw [fetchSymbol, h, res_raised_bind]))
  · exact .inr (.inr (by rw [fetchSymbol, h, res_raised_bind]))

/-- The step of a machine with no input pending is the engine's turn. -/
theorem step_of_no_input {s : State} (h : s.inputs = []) : step s = engineStep s := by
  rw [step, machineStep, h]

/-- The step of a machine with an input pending takes it. -/
theorem step_of_input {s : State} {x : Input} {rest : List Input} (h : s.inputs = x :: rest) :
    step s = takeInput x { s with inputs := rest } := by
  rw [step, machineStep, h]

end Sys2Proof.Machine
end

