-- ==== Sys2Proof/Laws/PerInstr.lean ====
section
/-! SUPPORT. Statements made per instruction, one lemma for each constructor. -/

namespace Sys2Proof.Laws.WordFits

/-- The widest word of each format: the fixed formats' bits, or a symbol with the most extra bits its alphabet has
(30_encoding.md R81 to R88, R97). -/
def wordBits : Format → Nat
  | .zhdr => 16
  | .bhdr => 3
  | .dynhdr => 14
  | .clcl => 3
  | .clsym => 12
  | .llsym => 14
  | .dsym => 18
  | .bccmd => 9
  | .hufcmd => 4
  | .ctrl => 32

/-- The word of an instruction fits its format. -/
def Statement (i : Instr) : Prop := encode i < 2 ^ wordBits i.format

theorem zlibHeader (cmf flg : BitVec 8) : Statement (.zlibHeader cmf flg) := by
  have := cmf.isLt
  have := flg.isLt
  show cmf.toNat * 256 + flg.toNat + 0 * 2 ^ 0 < 2 ^ 16
  omega

theorem blockStored (bfinal : Bool) : Statement (.blockStored bfinal) := by
  show bfinal.toNat + 0 * 2 ^ 0 < 2 ^ 3
  cases bfinal <;> decide

theorem blockFixed (bfinal : Bool) : Statement (.blockFixed bfinal) := by
  show bfinal.toNat + 2 + 0 * 2 ^ 0 < 2 ^ 3
  cases bfinal <;> decide

theorem blockDynamic (bfinal : Bool) : Statement (.blockDynamic bfinal) := by
  show bfinal.toNat + 4 + 0 * 2 ^ 0 < 2 ^ 3
  cases bfinal <;> decide

theorem blockReserved (bfinal : Bool) : Statement (.blockReserved bfinal) := by
  show bfinal.toNat + 6 + 0 * 2 ^ 0 < 2 ^ 3
  cases bfinal <;> decide

theorem dynHeader (hlitF hdistF : BitVec 5) (hclenF : BitVec 4) : Statement (.dynHeader hlitF hdistF hclenF) := by
  have := hlitF.isLt
  have := hdistF.isLt
  have := hclenF.isLt
  show hlitF.toNat + hdistF.toNat * 32 + hclenF.toNat * 1024 + 0 * 2 ^ 0 < 2 ^ 14
  omega

theorem clclField (len : BitVec 3) : Statement (.clclField len) := by
  have := len.isLt
  show len.toNat + 0 * 2 ^ 0 < 2 ^ 3
  omega

theorem clLen (sym : BitVec 4) : Statement (.clLen sym) := by
  have := sym.isLt
  show sym.toNat + 0 * 2 ^ 5 < 2 ^ 12
  omega

theorem clRep16 (e : BitVec 2) : Statement (.clRep16 e) := by
  have := e.isLt
  show 16 + e.toNat * 2 ^ 5 < 2 ^ 12
  omega

theorem clZero17 (e : BitVec 3) : Statement (.clZero17 e) := by
  have := e.isLt
  show 17 + e.toNat * 2 ^ 5 < 2 ^ 12
  omega

theorem clZero18 (e : BitVec 7) : Statement (.clZero18 e) := by
  have := e.isLt
  show 18 + e.toNat * 2 ^ 5 < 2 ^ 12
  omega

theorem lit (byte : BitVec 8) : Statement (.lit byte) := by
  have := byte.isLt
  show byte.toNat + 0 * 2 ^ 9 < 2 ^ 14
  omega

theorem eob : Statement .eob := by
  show 256 + 0 * 2 ^ 9 < 2 ^ 14
  decide

theorem len257 : Statement .len257 := by
  show 257 + 0 * 2 ^ 9 < 2 ^ 14
  decide

theorem len258 : Statement .len258 := by
  show 258 + 0 * 2 ^ 9 < 2 ^ 14
  decide

theorem len259 : Statement .len259 := by
  show 259 + 0 * 2 ^ 9 < 2 ^ 14
  decide

theorem len260 : Statement .len260 := by
  show 260 + 0 * 2 ^ 9 < 2 ^ 14
  decide

theorem len261 : Statement .len261 := by
  show 261 + 0 * 2 ^ 9 < 2 ^ 14
  decide

theorem len262 : Statement .len262 := by
  show 262 + 0 * 2 ^ 9 < 2 ^ 14
  decide

theorem len263 : Statement .len263 := by
  show 263 + 0 * 2 ^ 9 < 2 ^ 14
  decide

theorem len264 : Statement .len264 := by
  show 264 + 0 * 2 ^ 9 < 2 ^ 14
  decide

theorem len265 (e : BitVec 1) : Statement (.len265 e) := by
  have := e.isLt
  show 265 + e.toNat * 2 ^ 9 < 2 ^ 14
  omega

theorem len266 (e : BitVec 1) : Statement (.len266 e) := by
  have := e.isLt
  show 266 + e.toNat * 2 ^ 9 < 2 ^ 14
  omega

theorem len267 (e : BitVec 1) : Statement (.len267 e) := by
  have := e.isLt
  show 267 + e.toNat * 2 ^ 9 < 2 ^ 14
  omega

theorem len268 (e : BitVec 1) : Statement (.len268 e) := by
  have := e.isLt
  show 268 + e.toNat * 2 ^ 9 < 2 ^ 14
  omega

theorem len269 (e : BitVec 2) : Statement (.len269 e) := by
  have := e.isLt
  show 269 + e.toNat * 2 ^ 9 < 2 ^ 14
  omega

theorem len270 (e : BitVec 2) : Statement (.len270 e) := by
  have := e.isLt
  show 270 + e.toNat * 2 ^ 9 < 2 ^ 14
  omega

theorem len271 (e : BitVec 2) : Statement (.len271 e) := by
  have := e.isLt
  show 271 + e.toNat * 2 ^ 9 < 2 ^ 14
  omega

theorem len272 (e : BitVec 2) : Statement (.len272 e) := by
  have := e.isLt
  show 272 + e.toNat * 2 ^ 9 < 2 ^ 14
  omega

theorem len273 (e : BitVec 3) : Statement (.len273 e) := by
  have := e.isLt
  show 273 + e.toNat * 2 ^ 9 < 2 ^ 14
  omega

theorem len274 (e : BitVec 3) : Statement (.len274 e) := by
  have := e.isLt
  show 274 + e.toNat * 2 ^ 9 < 2 ^ 14
  omega

theorem len275 (e : BitVec 3) : Statement (.len275 e) := by
  have := e.isLt
  show 275 + e.toNat * 2 ^ 9 < 2 ^ 14
  omega

theorem len276 (e : BitVec 3) : Statement (.len276 e) := by
  have := e.isLt
  show 276 + e.toNat * 2 ^ 9 < 2 ^ 14
  omega

theorem len277 (e : BitVec 4) : Statement (.len277 e) := by
  have := e.isLt
  show 277 + e.toNat * 2 ^ 9 < 2 ^ 14
  omega

theorem len278 (e : BitVec 4) : Statement (.len278 e) := by
  have := e.isLt
  show 278 + e.toNat * 2 ^ 9 < 2 ^ 14
  omega

theorem len279 (e : BitVec 4) : Statement (.len279 e) := by
  have := e.isLt
  show 279 + e.toNat * 2 ^ 9 < 2 ^ 14
  omega

theorem len280 (e : BitVec 4) : Statement (.len280 e) := by
  have := e.isLt
  show 280 + e.toNat * 2 ^ 9 < 2 ^ 14
  omega

theorem len281 (e : BitVec 5) : Statement (.len281 e) := by
  have := e.isLt
  show 281 + e.toNat * 2 ^ 9 < 2 ^ 14
  omega

theorem len282 (e : BitVec 5) : Statement (.len282 e) := by
  have := e.isLt
  show 282 + e.toNat * 2 ^ 9 < 2 ^ 14
  omega

theorem len283 (e : BitVec 5) : Statement (.len283 e) := by
  have := e.isLt
  show 283 + e.toNat * 2 ^ 9 < 2 ^ 14
  omega

theorem len284 (e : BitVec 5) : Statement (.len284 e) := by
  have := e.isLt
  show 284 + e.toNat * 2 ^ 9 < 2 ^ 14
  omega

theorem len285 : Statement .len285 := by
  show 285 + 0 * 2 ^ 9 < 2 ^ 14
  decide

theorem llRsv286 : Statement .llRsv286 := by
  show 286 + 0 * 2 ^ 9 < 2 ^ 14
  decide

theorem llRsv287 : Statement .llRsv287 := by
  show 287 + 0 * 2 ^ 9 < 2 ^ 14
  decide

theorem dist0 : Statement .dist0 := by
  show 0 + 0 * 2 ^ 5 < 2 ^ 18
  decide

theorem dist1 : Statement .dist1 := by
  show 1 + 0 * 2 ^ 5 < 2 ^ 18
  decide

theorem dist2 : Statement .dist2 := by
  show 2 + 0 * 2 ^ 5 < 2 ^ 18
  decide

theorem dist3 : Statement .dist3 := by
  show 3 + 0 * 2 ^ 5 < 2 ^ 18
  decide

theorem dist4 (e : BitVec 1) : Statement (.dist4 e) := by
  have := e.isLt
  show 4 + e.toNat * 2 ^ 5 < 2 ^ 18
  omega

theorem dist5 (e : BitVec 1) : Statement (.dist5 e) := by
  have := e.isLt
  show 5 + e.toNat * 2 ^ 5 < 2 ^ 18
  omega

theorem dist6 (e : BitVec 2) : Statement (.dist6 e) := by
  have := e.isLt
  show 6 + e.toNat * 2 ^ 5 < 2 ^ 18
  omega

theorem dist7 (e : BitVec 2) : Statement (.dist7 e) := by
  have := e.isLt
  show 7 + e.toNat * 2 ^ 5 < 2 ^ 18
  omega

theorem dist8 (e : BitVec 3) : Statement (.dist8 e) := by
  have := e.isLt
  show 8 + e.toNat * 2 ^ 5 < 2 ^ 18
  omega

theorem dist9 (e : BitVec 3) : Statement (.dist9 e) := by
  have := e.isLt
  show 9 + e.toNat * 2 ^ 5 < 2 ^ 18
  omega

theorem dist10 (e : BitVec 4) : Statement (.dist10 e) := by
  have := e.isLt
  show 10 + e.toNat * 2 ^ 5 < 2 ^ 18
  omega

theorem dist11 (e : BitVec 4) : Statement (.dist11 e) := by
  have := e.isLt
  show 11 + e.toNat * 2 ^ 5 < 2 ^ 18
  omega

theorem dist12 (e : BitVec 5) : Statement (.dist12 e) := by
  have := e.isLt
  show 12 + e.toNat * 2 ^ 5 < 2 ^ 18
  omega

theorem dist13 (e : BitVec 5) : Statement (.dist13 e) := by
  have := e.isLt
  show 13 + e.toNat * 2 ^ 5 < 2 ^ 18
  omega

theorem dist14 (e : BitVec 6) : Statement (.dist14 e) := by
  have := e.isLt
  show 14 + e.toNat * 2 ^ 5 < 2 ^ 18
  omega

theorem dist15 (e : BitVec 6) : Statement (.dist15 e) := by
  have := e.isLt
  show 15 + e.toNat * 2 ^ 5 < 2 ^ 18
  omega

theorem dist16 (e : BitVec 7) : Statement (.dist16 e) := by
  have := e.isLt
  show 16 + e.toNat * 2 ^ 5 < 2 ^ 18
  omega

theorem dist17 (e : BitVec 7) : Statement (.dist17 e) := by
  have := e.isLt
  show 17 + e.toNat * 2 ^ 5 < 2 ^ 18
  omega

theorem dist18 (e : BitVec 8) : Statement (.dist18 e) := by
  have := e.isLt
  show 18 + e.toNat * 2 ^ 5 < 2 ^ 18
  omega

theorem dist19 (e : BitVec 8) : Statement (.dist19 e) := by
  have := e.isLt
  show 19 + e.toNat * 2 ^ 5 < 2 ^ 18
  omega

theorem dist20 (e : BitVec 9) : Statement (.dist20 e) := by
  have := e.isLt
  show 20 + e.toNat * 2 ^ 5 < 2 ^ 18
  omega

theorem dist21 (e : BitVec 9) : Statement (.dist21 e) := by
  have := e.isLt
  show 21 + e.toNat * 2 ^ 5 < 2 ^ 18
  omega

theorem dist22 (e : BitVec 10) : Statement (.dist22 e) := by
  have := e.isLt
  show 22 + e.toNat * 2 ^ 5 < 2 ^ 18
  omega

theorem dist23 (e : BitVec 10) : Statement (.dist23 e) := by
  have := e.isLt
  show 23 + e.toNat * 2 ^ 5 < 2 ^ 18
  omega

theorem dist24 (e : BitVec 11) : Statement (.dist24 e) := by
  have := e.isLt
  show 24 + e.toNat * 2 ^ 5 < 2 ^ 18
  omega

theorem dist25 (e : BitVec 11) : Statement (.dist25 e) := by
  have := e.isLt
  show 25 + e.toNat * 2 ^ 5 < 2 ^ 18
  omega

theorem dist26 (e : BitVec 12) : Statement (.dist26 e) := by
  have := e.isLt
  show 26 + e.toNat * 2 ^ 5 < 2 ^ 18
  omega

theorem dist27 (e : BitVec 12) : Statement (.dist27 e) := by
  have := e.isLt
  show 27 + e.toNat * 2 ^ 5 < 2 ^ 18
  omega

theorem dist28 (e : BitVec 13) : Statement (.dist28 e) := by
  have := e.isLt
  show 28 + e.toNat * 2 ^ 5 < 2 ^ 18
  omega

theorem dist29 (e : BitVec 13) : Statement (.dist29 e) := by
  have := e.isLt
  show 29 + e.toNat * 2 ^ 5 < 2 ^ 18
  omega

theorem distRsv30 : Statement .distRsv30 := by
  show 30 + 0 * 2 ^ 5 < 2 ^ 18
  decide

theorem distRsv31 : Statement .distRsv31 := by
  show 31 + 0 * 2 ^ 5 < 2 ^ 18
  decide

theorem bcPeek (n : BitVec 7) : Statement (.bcPeek n) := by
  have := n.isLt
  show n.toNat + 0 * 2 ^ 0 < 2 ^ 9
  omega

theorem bcConsume (n : BitVec 7) : Statement (.bcConsume n) := by
  have := n.isLt
  show n.toNat + 128 + 0 * 2 ^ 0 < 2 ^ 9
  omega

theorem bcConsumeBit (n : BitVec 7) : Statement (.bcConsumeBit n) := by
  have := n.isLt
  show n.toNat + 256 + 0 * 2 ^ 0 < 2 ^ 9
  omega

theorem bcByteAlign (n : BitVec 7) : Statement (.bcByteAlign n) := by
  have := n.isLt
  show n.toNat + 384 + 0 * 2 ^ 0 < 2 ^ 9
  omega

theorem hufBuild (tree : TreeId) : Statement (.hufBuild tree) := by
  show tree.code + 0 * 2 ^ 0 < 2 ^ 4
  cases tree <;> decide

theorem hufLookup (tree : TreeId) : Statement (.hufLookup tree) := by
  show tree.code + 8 + 0 * 2 ^ 0 < 2 ^ 4
  cases tree <;> decide

theorem cmdStart (reserved : BitVec 31) : Statement (.cmdStart reserved) := by
  have := reserved.isLt
  show reserved.toNat * 2 + 1 + 0 * 2 ^ 0 < 2 ^ 32
  omega

end Sys2Proof.Laws.WordFits
end

