-- ==== Sys2Proof/Tests/Slice0.lean ====
section
/-! SUPPORT. The model's own tests: ill-formed instructions, every constructor's decoding from a word written out from the
spec's encoding, single steps with the spec's own examples as expected results, and for every obligation with hypotheses a
concrete state and operands that meet them. -/

namespace Sys2Proof.Tests

open Sys2Proof Sys2Proof.Machine

/-! ## Helpers -/

/-- The decoder reads `i` from the word. -/
def reads (f : Format) (w : Nat) (i : Instr) : Bool :=
  match decode f w with
  | .ok j => j == i
  | .error _ => false

/-- The decoder rejects the word for this reason. -/
def rejects (f : Format) (w : Nat) (e : DecodeError) : Bool :=
  match decode f w with
  | .ok _ => false
  | .error d => d == e

/-- A property of the next state. -/
def nextHas (x : Host.Outcome State Fault Refusal) (p : State → Bool) : Bool :=
  match x with
  | .next s => p s
  | .fault _ => false
  | .refused _ => false

/-- The outcome is this refusal. -/
def isRefused (x : Host.Outcome State Fault Refusal) (r : Refusal) : Bool :=
  match x with
  | .next _ => false
  | .fault _ => false
  | .refused q => q == r

/-- A memory of these bytes from offset `a` on. -/
def cells : Nat → List Nat → Memory
  | _, [] => []
  | a, b :: bs => (a, BitVec.ofNat 8 b) :: cells (a + 1) bs

/-- A session over these input bytes, with the cursor at offset 2 and the phase and place given. -/
def running (bytes : List Nat) (phase : Phase) (seq : Seq) : State :=
  { State.reset with
    phase := phase, seq := seq, inMem := cells 0 bytes, inLen := bytes.length
    inLenReg := BitVec.ofNat 32 bytes.length, curByte := 2 }

/-- The input of 40_bit_cursor.md's examples, the "abc" stream. -/
def abcBytes : List Nat := [0x78, 0x9C, 0x4B, 0x4C, 0x4A, 0x06, 0x00]

/-- The "abc" stream with the cursor at (2, `bit`). -/
def abcAt (bit : Nat) : State := { running abcBytes .bhdr .head with curBit := bit }

/-- The state raised this cause. -/
def raisedBy (c : Cause) (s : State) : Bool := s.phase == .error && s.errCause == c && s.errKind == c.kind

/-- The stream holds `bits` from bit address `p` on. -/
def holdsBits (s : State) : Nat → List Bool → Bool
  | _, [] => true
  | p, b :: bs => (s.inBit p == b) && holdsBits s (p + 1) bs

theorem holdsBits_get {s : State} {p : Nat} {bits : List Bool} (h : holdsBits s p bits = true) :
    ∀ k b, bits[k]? = some b → s.inBit (p + k) = b := by
  induction bits generalizing p with
  | nil => simp
  | cons c bits ih =>
    simp only [holdsBits, Bool.and_eq_true, beq_iff_eq] at h
    intro k b hk
    cases k with
    | zero =>
      simp only [List.getElem?_cons_zero, Option.some.injEq] at hk
      rw [Nat.add_zero, h.1, hk]
    | succ k =>
      rw [show p + (k + 1) = p + 1 + k by omega]
      exact ih h.2 k b (by simpa using hk)

theorem streamAt_of_holdsBits {s : State} {bits : List Bool} (h : holdsBits s s.cursorPos bits = true)
    (hl : bits.length ≤ s.bitsRemaining) : s.streamAt bits := ⟨hl, holdsBits_get h⟩

/-! ## Well-formedness -/

/-- 40_bit_cursor.md R126: a width above 64 is ill formed. -/
theorem test_wf_rejects_peek_65 : (Instr.bcPeek 65).wf = false := by decide

theorem test_wf_rejects_consume_127 : (Instr.bcConsume 127).wf = false := by decide

theorem test_wf_allows_width_64 : (Instr.bcPeek 64).wf = true ∧ (Instr.bcConsume 64).wf = true := by decide

/-- The ignored field of the other two commands may hold anything (30_encoding.md R97). -/
theorem test_wf_ignored_field : (Instr.bcConsumeBit 127).wf = true ∧ (Instr.bcByteAlign 127).wf = true := by decide

/-! ## Words written out from the spec's encodings, every constructor -/

/-- 30_encoding.md R81 to R85: CMF in bits 15:8; BFINAL bit 0, BTYPE bits 2:1; HLIT_F bits 4:0, HDIST_F bits 9:5, HCLEN_F bits
13:10; the length bits 2:0. -/
theorem test_decode_headers :
    reads .zhdr 0x789C (.zlibHeader 0x78 0x9C) = true ∧
    reads .bhdr 0b001 (.blockStored true) = true ∧
    reads .bhdr 0b011 (.blockFixed true) = true ∧
    reads .bhdr 0b100 (.blockDynamic false) = true ∧
    reads .bhdr 0b111 (.blockReserved true) = true ∧
    reads .dynhdr 0b1110_00001_00010 (.dynHeader 2 1 14) = true ∧
    reads .clcl 0b110 (.clclField 6) = true := by decide

/-- 30_encoding.md R86: the symbol value with its extra bits above it. -/
theorem test_decode_cl :
    reads .clsym 0b01111 (.clLen 15) = true ∧
    reads .clsym 0b10_10000 (.clRep16 2) = true ∧
    reads .clsym 0b111_10001 (.clZero17 7) = true ∧
    reads .clsym 0b1111111_10010 (.clZero18 127) = true := by decide

/-- 30_encoding.md R87: symbols 0 to 255, 256 and the reserved 286 and 287. -/
theorem test_decode_literals :
    reads .llsym 0b0_01100001 (.lit 0x61) = true ∧
    reads .llsym 0b1_00000000 (.eob) = true ∧
    reads .llsym 0b1_00011110 (.llRsv286) = true ∧
    reads .llsym 0b1_00011111 (.llRsv287) = true := by decide

/-- 30_encoding.md R87, 42_fixed_tables.md R153: symbols 257 to 271. -/
theorem test_decode_lengths_a :
    reads .llsym 0b100000001 (.len257) = true ∧
    reads .llsym 0b100000010 (.len258) = true ∧
    reads .llsym 0b100000011 (.len259) = true ∧
    reads .llsym 0b100000100 (.len260) = true ∧
    reads .llsym 0b100000101 (.len261) = true ∧
    reads .llsym 0b100000110 (.len262) = true ∧
    reads .llsym 0b100000111 (.len263) = true ∧
    reads .llsym 0b100001000 (.len264) = true ∧
    reads .llsym 0b1_100001001 (.len265 1) = true ∧
    reads .llsym 0b1_100001010 (.len266 1) = true ∧
    reads .llsym 0b1_100001011 (.len267 1) = true ∧
    reads .llsym 0b1_100001100 (.len268 1) = true ∧
    reads .llsym 0b10_100001101 (.len269 2) = true ∧
    reads .llsym 0b10_100001110 (.len270 2) = true ∧
    reads .llsym 0b10_100001111 (.len271 2) = true := by decide

/-- 30_encoding.md R87, 42_fixed_tables.md R153: symbols 272 to 285. -/
theorem test_decode_lengths_b :
    reads .llsym 0b10_100010000 (.len272 2) = true ∧
    reads .llsym 0b101_100010001 (.len273 5) = true ∧
    reads .llsym 0b101_100010010 (.len274 5) = true ∧
    reads .llsym 0b101_100010011 (.len275 5) = true ∧
    reads .llsym 0b101_100010100 (.len276 5) = true ∧
    reads .llsym 0b1001_100010101 (.len277 9) = true ∧
    reads .llsym 0b1001_100010110 (.len278 9) = true ∧
    reads .llsym 0b1001_100010111 (.len279 9) = true ∧
    reads .llsym 0b1001_100011000 (.len280 9) = true ∧
    reads .llsym 0b10101_100011001 (.len281 21) = true ∧
    reads .llsym 0b10101_100011010 (.len282 21) = true ∧
    reads .llsym 0b10101_100011011 (.len283 21) = true ∧
    reads .llsym 0b10101_100011100 (.len284 21) = true ∧
    reads .llsym 0b100011101 (.len285) = true := by decide

/-- 30_encoding.md R88, 42_fixed_tables.md R154: symbols 0 to 14. -/
theorem test_decode_distances_a :
    reads .dsym 0b00000 (.dist0) = true ∧
    reads .dsym 0b00001 (.dist1) = true ∧
    reads .dsym 0b00010 (.dist2) = true ∧
    reads .dsym 0b00011 (.dist3) = true ∧
    reads .dsym 0b1_00100 (.dist4 1) = true ∧
    reads .dsym 0b1_00101 (.dist5 1) = true ∧
    reads .dsym 0b10_00110 (.dist6 2) = true ∧
    reads .dsym 0b10_00111 (.dist7 2) = true ∧
    reads .dsym 0b101_01000 (.dist8 5) = true ∧
    reads .dsym 0b101_01001 (.dist9 5) = true ∧
    reads .dsym 0b1001_01010 (.dist10 9) = true ∧
    reads .dsym 0b1001_01011 (.dist11 9) = true ∧
    reads .dsym 0b10101_01100 (.dist12 21) = true ∧
    reads .dsym 0b10101_01101 (.dist13 21) = true ∧
    reads .dsym 0b101010_01110 (.dist14 42) = true := by decide

/-- 30_encoding.md R88, 42_fixed_tables.md R154: symbols 15 to 29, and the reserved 30 and 31. -/
theorem test_decode_distances_b :
    reads .dsym 0b101010_01111 (.dist15 42) = true ∧
    reads .dsym 0b1010101_10000 (.dist16 85) = true ∧
    reads .dsym 0b1010101_10001 (.dist17 85) = true ∧
    reads .dsym 0b10101010_10010 (.dist18 170) = true ∧
    reads .dsym 0b10101010_10011 (.dist19 170) = true ∧
    reads .dsym 0b101010101_10100 (.dist20 341) = true ∧
    reads .dsym 0b101010101_10101 (.dist21 341) = true ∧
    reads .dsym 0b1010101010_10110 (.dist22 682) = true ∧
    reads .dsym 0b1010101010_10111 (.dist23 682) = true ∧
    reads .dsym 0b10101010101_11000 (.dist24 1365) = true ∧
    reads .dsym 0b10101010101_11001 (.dist25 1365) = true ∧
    reads .dsym 0b101010101010_11010 (.dist26 2730) = true ∧
    reads .dsym 0b101010101010_11011 (.dist27 2730) = true ∧
    reads .dsym 0b1010101010101_11100 (.dist28 5461) = true ∧
    reads .dsym 0b1010101010101_11101 (.dist29 5461) = true ∧
    reads .dsym 0b11110 (.distRsv30) = true ∧
    reads .dsym 0b11111 (.distRsv31) = true := by decide

/-- 30_encoding.md R97: op in bits 8:7 and n in bits 6:0; op in bit 3 and the tree in bits 2:0; START is bit 0 of CTRL. -/
theorem test_decode_commands :
    reads .bccmd 0b00_0001101 (.bcPeek 13) = true ∧
    reads .bccmd 0b01_1000000 (.bcConsume 64) = true ∧
    reads .bccmd 0b10_0000001 (.bcConsumeBit 1) = true ∧
    reads .bccmd 0b11_1111111 (.bcByteAlign 127) = true ∧
    reads .hufcmd 0b0_000 (.hufBuild .clt) = true ∧
    reads .hufcmd 0b0_011 (.hufBuild .fllt) = true ∧
    reads .hufcmd 0b1_010 (.hufLookup .dt) = true ∧
    reads .hufcmd 0b1_100 (.hufLookup .fdt) = true ∧
    reads .ctrl 0x80000001 (.cmdStart 0x40000000) = true := by decide

/-- Reserved encodings do not fall through to a neighbour (30_encoding.md R89 to R91, R97, 40_bit_cursor.md R126). -/
theorem test_decode_rejects :
    rejects .clsym 19 .noSuchSymbol = true ∧
    rejects .llsym 288 .noSuchSymbol = true ∧
    rejects .dsym 0b1_00011 .wordTooWide = true ∧
    rejects .bccmd 0b00_1000001 .widthOver64 = true ∧
    rejects .hufcmd 0b0_101 .noSuchTree = true ∧
    rejects .hufcmd 0b1_111 .noSuchTree = true ∧
    rejects .ctrl 0xFFFFFFFE .startNotSet = true ∧
    rejects .zhdr 0x10000 .wordTooWide = true := by decide

/-! ## Single steps, with the spec's own examples -/

/-- 40_bit_cursor.md R121: at (2,3), BC_PEEK(8) returns 0x89 and the cursor stays. -/
theorem test_peek :
    nextHas (exec (.bcPeek 8) (abcAt 3)) (fun t => t.bcData == 0x89 && t.curByte == 2 && t.curBit == 3) = true := by decide

/-- 40_bit_cursor.md R122: at (2,1), BC_CONSUME(2) returns 1 (bits 1, 0) and moves to (2,3). -/
theorem test_consume :
    nextHas (exec (.bcConsume 2) (abcAt 1)) (fun t => t.bcData == 1 && t.curByte == 2 && t.curBit == 3) = true := by decide

/-- 40_bit_cursor.md R124: at (2,3), BC_CONSUME_BIT returns true and moves to (2,4). -/
theorem test_consume_bit :
    nextHas (exec (.bcConsumeBit 5) (abcAt 3)) (fun t => t.bcData == 1 && t.curBit == 4) = true := by decide

/-- 40_bit_cursor.md R125: at (2,3) BC_BYTE_ALIGN moves to (3,0); at (3,0) it stays. -/
theorem test_byte_align :
    nextHas (exec (.bcByteAlign 0) (abcAt 3)) (fun t => t.curByte == 3 && t.curBit == 0) = true ∧
    exec (.bcByteAlign 0) { abcAt 0 with curByte := 3 } = .next { abcAt 0 with curByte := 3 } := ⟨by decide, rfl⟩

/-- 40_bit_cursor.md R120, R126: a read past the end raises, a width above 64 is refused. -/
theorem test_cursor_stops :
    nextHas (exec (.bcConsume 64) (abcAt 0)) (raisedBy .inExhausted) = true ∧
    isRefused (exec (.bcPeek 65) (abcAt 0)) .bcWidthOver64 = true := by decide

/-- 41_huffman.md R131: `L = [2, 1, 3, 3]` gives codes `10`, `0`, `110`, `111` and 7 nodes. -/
theorem test_build_example :
    (buildTree [2, 1, 3, 3]).arena.length = 7 ∧
    (buildTree [2, 1, 3, 3]).arena.decodesTo 0 [true, false] = some 0 ∧
    (buildTree [2, 1, 3, 3]).arena.decodesTo 0 [false] = some 1 ∧
    (buildTree [2, 1, 3, 3]).arena.decodesTo 0 [true, true, false] = some 2 ∧
    (buildTree [2, 1, 3, 3]).arena.decodesTo 0 [true, true, true] = some 3 := by decide +kernel

/-- 95_test_vectors.md L1-1: `L = [1, 1, 1]` raises CODE_OVERFLOW; and HUF_BUILD says so (41_huffman.md R134). -/
theorem test_build_overflow :
    (buildTree [1, 1, 1]).error = some .codeOverflow ∧
    nextHas (exec (.hufBuild .clt) { abcAt 0 with clLens := List.replicate 19 1 }) (raisedBy .codeOverflow) = true := by
  decide +kernel

/-- 41_huffman.md R138: with the example's tree and the bits 1, 1, 0 a lookup returns symbol 2 and consumes 3 bits. Bits 3 on
of 0x0B are 1, 0: from (2,0) the stream 0x03 is 1, 1, 0. -/
theorem test_lookup :
    nextHas (exec (.hufLookup .clt) { running [0, 0, 0x03] .bhdr .head with clt := (buildTree [2, 1, 3, 3]).arena })
      (fun t => t.sym == 2 && t.curByte == 2 && t.curBit == 3) = true := by decide +kernel

/-- 45_stream.md R210: `78 9C` passes with CM = 8 and FDICT = 0; 95_test_vectors.md L1-7: `78 00` does not. -/
theorem test_zlib_header :
    nextHas (exec (.zlibHeader 0x78 0x9C) (abcAt 0)) (fun t => t.cm == 8 && !t.fdict && t.phase == .bhdr) = true ∧
    nextHas (exec (.zlibHeader 0x78 0x00) (abcAt 0)) (raisedBy .hdrFcheck) = true := by decide

/-- 43_block_header.md R165: stream bits 1, 1, 0 give bfinal = 1 and btype = 1; the step fetches them from 0x4B. -/
theorem test_step_block_fixed :
    nextHas (step (abcAt 0))
      (fun t => t.bfinal && t.btype == 1 && t.phase == .body && t.llSel == .fllt && t.curBit == 3) = true := by decide

/-- 45_stream.md R213, 43_block_header.md R166, R167: the other three types. -/
theorem test_other_blocks :
    nextHas (exec (.blockStored false) (abcAt 0)) (raisedBy .storedBlock) = true ∧
    nextHas (exec (.blockReserved true) (abcAt 0)) (raisedBy .btypeReserved) = true ∧
    nextHas (exec (.blockDynamic false) (abcAt 0)) (fun t => t.phase == .dynhdr && t.seq == .head) = true := by decide

/-- 43_block_header.md R168: HLIT_F = 2, HDIST_F = 1, HCLEN_F = 14 give 259, 2 and 18; HLIT_F = 30 is out of range. -/
theorem test_dyn_header :
    nextHas (exec (.dynHeader 2 1 14) (abcAt 3))
      (fun t => t.hlit == 259 && t.hdist == 2 && t.hclen == 18 && t.seq == .clcl) = true ∧
    nextHas (exec (.dynHeader 30 0 0) (abcAt 3)) (raisedBy .hlitRange) = true := by decide

/-- 43_block_header.md R169: of `hclen = 18` the field number 2 with value 1 gives `cl_lens[18] = 1`. -/
theorem test_clcl_field :
    nextHas (exec (.clclField 1) { abcAt 0 with hclen := 18, clclIdx := 2 })
      (fun t => t.clLens[18]? == some 1 && t.clclIdx == 3 && t.curBit == 3) = true := by decide

/-- A table in the making for `hlit = 259`, `hdist = 2`. -/
def filling (idx : Nat) (prev : Option (BitVec 4)) : State :=
  { running abcBytes .dynhdr .clsym with hlit := 259, hdist := 2, lenIdx := idx, prevLen := prev }

/-- 43_block_header.md R171: at `len_idx = 97`, `cl 2` writes `len_table[97] = 2` and sets `len_idx = 98`. -/
theorem test_cl_len :
    nextHas (exec (.clLen 2) (filling 97 (some 0)))
      (fun t => t.lenTable[97]? == some 2 && t.lenIdx == 98 && t.prevLen == some 2) = true := by decide +kernel

/-- 43_block_header.md R172: after `cl 8`, `cl 16 +2` writes five more entries of 8; without a previous length it raises. -/
theorem test_cl_rep16 :
    nextHas (exec (.clRep16 2) (filling 1 (some 8)))
      (fun t => (t.lenTable.drop 1).take 6 == [8, 8, 8, 8, 8, 0] && t.lenIdx == 6 && t.rep == 5) = true ∧
    nextHas (exec (.clRep16 2) (filling 0 none)) (raisedBy .repeatNoPrev) = true := by decide +kernel

/-- 43_block_header.md R173: `cl 17 +7` at `len_idx = 0` writes 10 zeros and sets `len_idx = 10`. -/
theorem test_cl_zero17 :
    nextHas (exec (.clZero17 7) { filling 0 none with lenTable := List.replicate 316 9 })
      (fun t => t.lenTable.take 11 == [0, 0, 0, 0, 0, 0, 0, 0, 0, 0, 9] && t.lenIdx == 10 && t.prevLen == some 0) = true := by
  decide +kernel

/-- 43_block_header.md R174: `cl 18 +86` at `len_idx = 0` writes 97 zeros; past the end of the table it raises. -/
theorem test_cl_zero18 :
    nextHas (exec (.clZero18 86) (filling 0 none)) (fun t => t.lenIdx == 97 && t.rep == 97) = true ∧
    nextHas (exec (.clZero18 127) (filling 124 (some 0))) (raisedBy .repeatOverrun) = true := by decide +kernel

/-- A body with `out` already written. -/
def writing (out : List Nat) (seq : Seq) : State :=
  { running abcBytes .body seq with outMem := cells 0 out, outLen := out.length }

/-- 44_block_body.md R190, R197: with `out_len = 0`, LIT 0x61 writes `OUT[0] = 0x61` and sets `out_len = 1`. -/
theorem test_lit :
    nextHas (exec (.lit 0x61) (writing [] .ll)) (fun t => t.outMem == cells 0 [0x61] && t.outLen == 1) = true := by decide

/-- 44_block_body.md R191: EOB ends the final block, and only that one ends the session. -/
theorem test_eob :
    nextHas (exec .eob { writing [] .ll with bfinal := true }) (fun t => t.status == .done) = true ∧
    nextHas (exec .eob { writing [] .ll with bfinal := false }) (fun t => t.phase == .bhdr) = true := by decide

/-- 42_fixed_tables.md R153: the lengths of symbols 257 to 285, with no extra bit set; 44_block_body.md R192: symbol 265 with
extra bit 1 gives 12. -/
theorem test_lengths :
    ([(.len257, 3), (.len258, 4), (.len259, 5), (.len260, 6), (.len261, 7), (.len262, 8), (.len263, 9), (.len264, 10),
      (.len265 0, 11), (.len265 1, 12), (.len266 0, 13), (.len267 0, 15), (.len268 0, 17), (.len269 0, 19),
      (.len270 0, 23), (.len271 0, 27), (.len272 0, 31), (.len273 0, 35), (.len274 0, 43), (.len275 0, 51),
      (.len276 0, 59), (.len277 0, 67), (.len278 0, 83), (.len279 0, 99), (.len280 0, 115), (.len281 0, 131),
      (.len282 0, 163), (.len283 0, 195), (.len284 0, 227), (.len285, 258)] : List (Instr × Nat)).all
      (fun x => nextHas (exec x.1 (writing [] .ll)) fun t => t.curLen == x.2 && t.seq == .dist) = true := by
  decide +kernel

/-- 42_fixed_tables.md R154: the distances of symbols 0 to 29; 44_block_body.md R193: symbol 4 with extra bit 1 gives 6. Each
is too far for an empty output (R195), and near enough for one of 24577 bytes. -/
theorem test_distances :
    ([(.dist0, 1), (.dist1, 2), (.dist2, 3), (.dist3, 4), (.dist4 0, 5), (.dist4 1, 6), (.dist5 0, 7), (.dist6 0, 9),
      (.dist7 0, 13), (.dist8 0, 17), (.dist9 0, 25), (.dist10 0, 33), (.dist11 0, 49), (.dist12 0, 65),
      (.dist13 0, 97), (.dist14 0, 129), (.dist15 0, 193), (.dist16 0, 257), (.dist17 0, 385), (.dist18 0, 513),
      (.dist19 0, 769), (.dist20 0, 1025), (.dist21 0, 1537), (.dist22 0, 2049), (.dist23 0, 3073), (.dist24 0, 4097),
      (.dist25 0, 6145), (.dist26 0, 8193), (.dist27 0, 12289), (.dist28 0, 16385), (.dist29 0, 24577)]
      : List (Instr × Nat)).all
      (fun x => nextHas (exec x.1 { writing [] .dist with outLen := 24577 }) (fun t => t.curDist == x.2) &&
        nextHas (exec x.1 (writing [] .dist)) (raisedBy .distTooFar)) = true := by
  decide +kernel

/-- 60_exceptions.md R235: an element that raises has had no effect beyond the bits it consumed: the counts of a dynamic
header whose HLIT is out of range, and the output of a copy of four bytes into room for one. -/
theorem test_raise_is_precise :
    nextHas (exec (.dynHeader 30 0 0) (abcAt 3)) (fun t => raisedBy .hlitRange t && t.hlit == 0 && t.curByte == 3) = true ∧
    nextHas (exec .dist0 { writing [1] .dist with curLen := 4, params := ({ outCap := some 2 } : Config.Params) })
      (fun t => raisedBy .outFull t && t.outLen == 1 && t.outMem == cells 0 [1] && t.curDist == 0) = true := by
  decide +kernel

/-- 44_block_body.md R195: `OUT = "A"`, `cur_len = 4`, `cur_dist = 1` gives `OUT = "AAAAA"`. -/
theorem test_copy_overlapping :
    nextHas (exec .dist0 { writing [0x41] .dist with curLen := 4 })
      (fun t => t.outMem == cells 0 [0x41, 0x41, 0x41, 0x41, 0x41] && t.outLen == 5 && t.seq == .ll) = true := by
  decide +kernel

/-- 44_block_body.md R195, R199: a copy of five bytes at distance 2 repeats the last two. -/
theorem test_copy_periodic :
    nextHas (exec .dist1 { writing [0x61, 0x62, 0x63] .dist with curLen := 5 })
      (fun t => t.outMem == cells 0 [0x61, 0x62, 0x63, 0x62, 0x63, 0x62, 0x63, 0x62]) = true := by decide +kernel

/-- 44_block_body.md R194, R196: the reserved symbols. -/
theorem test_reserved_symbols :
    nextHas (exec .llRsv286 (writing [] .ll)) (raisedBy .llSymbolReserved) = true ∧
    nextHas (exec .llRsv287 (writing [] .ll)) (raisedBy .llSymbolReserved) = true ∧
    nextHas (exec .distRsv30 (writing [] .dist)) (raisedBy .distSymbolReserved) = true ∧
    nextHas (exec .distRsv31 (writing [] .dist)) (raisedBy .distSymbolReserved) = true := by decide

/-- 44_block_body.md R190: fixed code `10010001` decodes to 97 and appends 0x61. The byte 0x89 holds it, its first bit the
least significant one. -/
theorem test_step_literal :
    nextHas (step (running [0x78, 0x9C, 0x89] .body .ll))
      (fun t => t.sym == 97 && t.outMem == cells 0 [0x61] && t.curByte == 3) = true := by decide +kernel

/-- 44_block_body.md R193: fixed distance code `00100` is d = 4, and its extra bit 1 gives `cur_dist = 6`: stream bits 0, 0,
1, 0, 0, 1 make the byte 0x24. -/
theorem test_step_distance :
    nextHas (step { writing [1, 2, 3, 4, 5, 6] .dist with
        inMem := cells 0 [0x78, 0x9C, 0x24], inLen := 3, curLen := 3 })
      (fun t => t.curDist == 6 && t.curBit == 6 && t.outMem == cells 0 [1, 2, 3, 4, 5, 6, 1, 2, 3]) = true := by
  decide +kernel

/-- 10_state.md R21, R43: START begins a session, and is ignored while BUSY. -/
theorem test_start :
    nextHas (exec (.cmdStart 0) { State.reset with inLenReg := 7, errCause := .outFull, phase := .error })
      (fun t => t.phase == .zhdr && t.inLen == 7 && t.errCause == .none) = true ∧
    exec (.cmdStart 0) (abcAt 3) = .next (abcAt 3) := ⟨by decide, rfl⟩

/-- 10_state.md R20, R23; 95_test_vectors.md L1-4: DIST_TOO_FAR reads as ERROR = 0x0C03. -/
theorem test_error_register :
    nextHas (step { (abcAt 0).raiseError .distTooFar with inputs := [.readReg 0x08] }) (fun t => t.regData == 0x0C03) =
      true := by decide

/-- 20_memory.md R69, 45_stream.md R220: after an error a byte the host has written reads back, and a byte it has not written
reads alike before and after another read. -/
theorem test_out_reads_agree :
    nextHas (step { ((abcAt 0).raiseError .distTooFar).writeHostOut 5 0x61 with inputs := [.readOut 5] })
      (fun t => t.outData == 0x61) = true ∧
    (((abcAt 0).raiseError .distTooFar).hostReadOut 4).readOutByte 4 = ((abcAt 0).raiseError .distTooFar).readOutByte 4 :=
  ⟨by decide, rfl⟩

/-- The first step after a placed word runs it: one word of each port and of the stream (assumption 15). -/
theorem test_placed_words :
    nextHas (step (State.reset.withFetchWord 3 0b011)) (fun t => t.phase == .body && t.bfinal) = true ∧
    nextHas (step (State.reset.withFetchWord 9 0b0_01100001)) (fun t => t.outMem == cells 0 [0x61]) = true ∧
    nextHas (step (State.reset.withFetchWord 32 1)) (fun t => t.phase == .zhdr) = true := by decide +kernel

/-! ## Witnesses: states and operands that meet the obligations' hypotheses -/

theorem witness_DecodeOfEncode :
    (Instr.bcPeek 64).wf = true ∧ (Instr.dist29 8191).wf = true ∧ (Instr.cmdStart 0x7FFFFFFF).wf = true := by decide

theorem witness_EncodeOfDecode :
    reads .bccmd 64 (.bcPeek 64) = true ∧ decode .dsym (29 + 8191 * 32) = .ok (.dist29 8191) ∧
    decode .clsym (18 + 127 * 32) = .ok (.clZero18 127) := ⟨by decide, rfl, rfl⟩

theorem witness_DecodedWordMatchesItsRowOnly :
    decode .llsym 285 = .ok .len285 ∧ (Instr.len285).tableRow.format = .llsym ∧
    285 &&& (Instr.len285).tableRow.mask = (Instr.len285).tableRow.pattern := ⟨rfl, rfl, rfl⟩

/-- Every clause: the header with its two bytes alone, and each fixed format with its bits alone in the input. -/
theorem witness_FixedFormatsAreFetched :
    2 ≤ (running [0x78, 0x9C] .zhdr .head).inLen ∧
    (Instr.blockReserved true).format = .bhdr ∧
    ({ running [0x78, 0x9C, 0xE0] .bhdr .head with curBit := 5 } : State).streamAt
      ((Instr.blockReserved true).streamBits fun _ => (0, 0)) ∧
    (Instr.dynHeader 31 31 15).format = .dynhdr ∧
    ({ running [0x78, 0x9C, 0xFC, 0xFF] .dynhdr .head with curBit := 2 } : State).streamAt
      ((Instr.dynHeader 31 31 15).streamBits fun _ => (0, 0)) ∧
    (Instr.clclField 7).format = .clcl ∧
    ({ running [0x78, 0x9C, 0xE0] .dynhdr .clcl with curBit := 5 } : State).streamAt
      ((Instr.clclField 7).streamBits fun _ => (0, 0)) :=
  ⟨by decide, rfl, streamAt_of_holdsBits (by decide) (by decide), rfl,
    streamAt_of_holdsBits (by decide) (by decide), rfl, streamAt_of_holdsBits (by decide) (by decide)⟩

/-- The code-length clause: the tree of `placedClLens` has symbol 18 at code 11111 and the seven extra bits of 127 follow. -/
def clWitness : State :=
  { running [0x78, 0x9C, 0xFF, 0xFF] .dynhdr .clsym with clt := (buildTree placedClLens).arena }

theorem witness_SymbolsAreFetched_cl :
    clWitness.curBit < 8 ∧ (Instr.clZero18 127).element = (.clsym, 18, 127) ∧
    clWitness.clt.decodesTo 0 (msbFirst 31 5) = some 18 ∧
    clWitness.streamAt (msbFirst 31 5 ++ lsbFirst 127 (clExtra 18)) :=
  ⟨by decide, rfl, by decide +kernel, streamAt_of_holdsBits (by decide +kernel) (by decide +kernel)⟩

/-- The literal/length clause: symbol 284 with extra bits 31, fixed code 11000100. -/
theorem witness_SymbolsAreFetched_ll :
    (running [0x78, 0x9C, 0x23, 0x1F] .body .ll).curBit < 8 ∧ (Instr.len284 31).element = (.llsym, 284, 31) ∧
    ((running [0x78, 0x9C, 0x23, 0x1F] .body .ll).arena (running [0x78, 0x9C, 0x23, 0x1F] .body .ll).llSel).decodesTo 0
      (msbFirst 0xC4 8) = some 284 ∧
    (running [0x78, 0x9C, 0x23, 0x1F] .body .ll).streamAt (msbFirst 0xC4 8 ++ lsbFirst 31 (lenExtra 284)) :=
  ⟨by decide, rfl, by decide +kernel, streamAt_of_holdsBits (by decide +kernel) (by decide +kernel)⟩

/-- The distance clause: symbol 29 with extra bits 8191, fixed code 11101. -/
theorem witness_SymbolsAreFetched_dist :
    (running [0x78, 0x9C, 0xF7, 0xFF, 0x03] .body .dist).curBit < 8 ∧ (Instr.dist29 8191).element = (.dsym, 29, 8191) ∧
    ((running [0x78, 0x9C, 0xF7, 0xFF, 0x03] .body .dist).arena
      (running [0x78, 0x9C, 0xF7, 0xFF, 0x03] .body .dist).dSel).decodesTo 0 (msbFirst 29 5) = some 29 ∧
    (running [0x78, 0x9C, 0xF7, 0xFF, 0x03] .body .dist).streamAt (msbFirst 29 5 ++ lsbFirst 8191 (distExtra 29)) :=
  ⟨by decide, rfl, by decide +kernel, streamAt_of_holdsBits (by decide +kernel) (by decide +kernel)⟩

/-- The widest and the narrowest read: 64 bits where 64 remain, and none where none remains. -/
theorem witness_PeekAndConsumeReadTheNextBits :
    (64 : BitVec 7).toNat ≤ 64 ∧ (64 : BitVec 7).toNat = (running (List.replicate 10 0xFF) .bhdr .head).bitsRemaining ∧
    (0 : BitVec 7).toNat = (running [0x78, 0x9C] .bhdr .head).bitsRemaining := by decide

theorem witness_ConsumeBitReadsOneBit : 1 ≤ ({ abcAt 7 with curByte := 6 } : State).bitsRemaining := by decide

theorem witness_ByteAlignMovesToTheNextByte : (abcAt 7).curBit ≠ 0 ∧ (abcAt 0).curBit = 0 := by decide

/-- None of one, one of two, and none at all. -/
theorem witness_ReadsPastTheEndRaise :
    8 * ((running [0x78, 0x9C] .bhdr .head).inLen - 2) - 0 < (1 : BitVec 7).toNat ∧ (1 : BitVec 7).toNat ≤ 64 ∧
    8 * (({ abcAt 7 with curByte := 6 } : State).inLen - 6) - 7 = 1 ∧ 1 < (2 : BitVec 7).toNat ∧
    8 * ((running [0x78, 0x9C] .bhdr .head).inLen - (running [0x78, 0x9C] .bhdr .head).curByte) = 0 := by decide

theorem witness_WidthsAbove64AreRefused : 64 < (65 : BitVec 7).toNat ∧ 64 < (127 : BitVec 7).toNat := by decide

/-- A block whose three tables are small complete codes. -/
def building : State :=
  { abcAt 0 with clLens := [1, 1] ++ List.replicate 17 0, hlit := 2, hdist := 2, lenTable := List.replicate 316 1 }

theorem witness_BuildWritesItsArenaOnly :
    [TreeId.clt, .llt, .dt].all (fun t =>
      decide (kraftSum (building.buildTable t) ≤ 2 ^ 15) && !buildOutOfContract building t) = true ∧
    building.clLens.length ≤ 19 ∧ building.hlit ≤ 286 ∧ building.hdist ≤ 30 := by
  decide +kernel

/-- The fixed trees meet the hypotheses too. -/
theorem witness_BuildWritesItsArenaOnly_fixed :
    kraftSum (building.buildTable .fllt) = 2 ^ 15 ∧ kraftSum (building.buildTable .fdt) = 2 ^ 15 ∧
    (buildTree (building.buildTable .fllt)).arena.length = arenaCapacity building.params .fllt ∧
    (buildTree (building.buildTable .fdt)).arena.length = arenaCapacity building.params .fdt :=
  ⟨by decide +kernel, by decide +kernel, by rw [show building.buildTable .fllt = fixedLLLens _ from rfl, fixedLLArena_eq]
                                            exact fixedLLArena_length _,
    by rw [show building.buildTable .fdt = fixedDLens from rfl, fixedDArena_eq]; exact fixedDArena_length⟩

/-- A table of 289 entries is out of contract. -/
theorem witness_BuildWritesItsArenaOnly_refused :
    kraftSum (({ building with hlit := 289, lenTable := List.replicate 316 0 } : State).buildTable .llt) ≤ 2 ^ 15 ∧
    buildOutOfContract { building with hlit := 289, lenTable := List.replicate 316 0 } .llt = true := by decide +kernel

theorem witness_BuildRaisesCodeOverflow :
    (({ building with hlit := 288 } : State).buildTable .llt).length = 288 ∧
    2 ^ 15 < kraftSum (({ building with hlit := 288 } : State).buildTable .llt) ∧
    kraftSum (({ building with hlit := 3 } : State).buildTable .llt) = 2 ^ 15 + 2 ^ 14 := by decide +kernel

/-- Just above 1 and just 1. -/
theorem witness_CodeOverflowIsKraftExcess :
    (∀ l ∈ [1, 1, 15], l ≤ 15) ∧ kraftSum [1, 1, 15] = 2 ^ 15 + 1 ∧
    (∀ l ∈ [1, 1], l ≤ 15) ∧ kraftSum [1, 1] = 2 ^ 15 := by decide

/-- One symbol of length 15 needs 16 nodes, the bound; so does the empty table its root. -/
theorem witness_BuildNodeBound :
    (∀ l ∈ [0, 15], l ≤ 15) ∧ kraftSum [0, 15] ≤ 2 ^ 15 ∧ 1 = [0, 15].countP (fun l => l ≠ 0) ∧
    (buildTree [0, 15]).arena.length = max 1 (2 * 1 - 1 + 15) ∧
    kraftSum [] ≤ 2 ^ 15 ∧ 0 = ([] : List Nat).countP (fun l => l ≠ 0) ∧
    (buildTree []).arena.length = max 1 (2 * 0 - 1 + 0) := by decide +kernel

theorem witness_BuiltTreeHoldsTheCanonicalCodes :
    (∀ l ∈ [2, 0, 1, 3, 3], l ≤ 15) ∧ (buildTree [2, 0, 1, 3, 3]).error = none ∧
    4 < [2, 0, 1, 3, 3].length ∧ [2, 0, 1, 3, 3].getD 4 0 ≠ 0 := by decide +kernel

/-- A block with the tree of 41_huffman.md R131's example in CLT, over the given input. -/
def withExampleTree (bytes : List Nat) : State :=
  { running bytes .dynhdr .clsym with clt := (buildTree [2, 1, 3, 3]).arena }

theorem witness_LookupDecodesACode :
    (withExampleTree [0x78, 0x9C, 0x03]).curBit < 8 ∧ (withExampleTree [0x78, 0x9C, 0x03]).streamAt [true, true, false] ∧
    ((withExampleTree [0x78, 0x9C, 0x03]).arena .clt).decodesTo 0 [true, true, false] = some 2 :=
  ⟨by decide, streamAt_of_holdsBits (by decide +kernel) (by decide +kernel), by decide +kernel⟩

/-- One code of length 1 leaves its sibling missing. -/
theorem witness_LookupRaisesWithoutACode_invalid :
    ({ running [0x78, 0x9C, 0x01] .dynhdr .clsym with clt := (buildTree [1]).arena } : State).streamAt [true] ∧
    (({ running [0x78, 0x9C, 0x01] .dynhdr .clsym with clt := (buildTree [1]).arena } : State).arena .clt).missesAt 0
      [true] = true :=
  ⟨streamAt_of_holdsBits (by decide +kernel) (by decide +kernel), by decide +kernel⟩

theorem witness_LookupRaisesWithoutACode_end :
    ({ withExampleTree [0x78, 0x9C, 0xC0] with curBit := 6 } : State).streamAt [true, true] ∧
    (({ withExampleTree [0x78, 0x9C, 0xC0] with curBit := 6 } : State).arena .clt).staysInside 0 [true, true] = true ∧
    [true, true].length = ({ withExampleTree [0x78, 0x9C, 0xC0] with curBit := 6 } : State).bitsRemaining ∧
    ({ withExampleTree [0x78, 0x9C, 0xC0] with curBit := 6 } : State).curBit < 8 :=
  ⟨streamAt_of_holdsBits (by decide +kernel) (by decide +kernel), by decide +kernel, by decide +kernel, by decide⟩

/-- With and without FDICT: `78 9C`, and `78 BB` under the policy IGNORE. -/
theorem witness_ZlibHeaderIsChecked_accepted :
    2 ≤ (running [0x78, 0x9C] .zhdr .head).inLen ∧
    ((0x78 : BitVec 8).toNat * 256 + (0x9C : BitVec 8).toNat) % 31 = 0 ∧ (0x9C : BitVec 8).getLsbD 5 = false ∧
    ((0x78 : BitVec 8).toNat * 256 + (0xBB : BitVec 8).toNat) % 31 = 0 ∧ (0xBB : BitVec 8).getLsbD 5 = true ∧
    (running [0x78, 0xBB] .zhdr .head).params.fdictPolicy = .ignore := by decide

/-- Each error: one byte, a checksum that fails, and FDICT under the policy REJECT. -/
theorem witness_ZlibHeaderIsChecked_rejected :
    (running [0x78] .zhdr .head).inLen < 2 ∧ 2 ≤ (running [0x78, 0x00] .zhdr .head).inLen ∧
    ((0x78 : BitVec 8).toNat * 256 + (0x00 : BitVec 8).toNat) % 31 ≠ 0 ∧
    ((0x78 : BitVec 8).toNat * 256 + (0xBB : BitVec 8).toNat) % 31 = 0 ∧ (0xBB : BitVec 8).getLsbD 5 = true ∧
    ({ running [0x78, 0xBB] .zhdr .head with
        params := ({ fdictPolicy := .reject } : Config.Params) } : State).params.fdictPolicy = .reject := by decide

/-- FixedAndReservedBlocks, DynamicBlockEntersTheTables, StoredBlockRaises: three bits remain, the fewest a header needs. -/
theorem witness_blockHeaders :
    3 ≤ ({ abcAt 5 with curByte := 6 } : State).bitsRemaining ∧
    ({ abcAt 5 with curByte := 6 } : State).bitsRemaining < 4 := by decide

theorem witness_CutShortBlockHeaderRaises :
    (Instr.blockFixed true).format = .bhdr ∧ ({ abcAt 6 with curByte := 6 } : State).bitsRemaining = 2 ∧
    (running [0x78, 0x9C] .bhdr .head).bitsRemaining = 0 := ⟨rfl, by decide, by decide⟩

/-- Each clause at its boundary: 14 bits and the largest legal counts; 5 and 10 bits and the smallest illegal ones; 4, 9 and
13 bits. -/
theorem witness_DynamicHeaderReadsTheCounts :
    14 = ({ abcAt 2 with curByte := 5 } : State).bitsRemaining ∧ (29 : BitVec 5).toNat ≤ 29 ∧
    5 = ({ abcAt 3 with curByte := 6 } : State).bitsRemaining ∧ 30 ≤ (30 : BitVec 5).toNat ∧
    10 = ({ abcAt 6 with curByte := 5 } : State).bitsRemaining ∧ 30 ≤ (31 : BitVec 5).toNat ∧
    ({ abcAt 4 with curByte := 6 } : State).bitsRemaining < 5 ∧
    ({ abcAt 7 with curByte := 5 } : State).bitsRemaining < 10 ∧
    5 ≤ ({ abcAt 7 with curByte := 5 } : State).bitsRemaining ∧
    ({ abcAt 3 with curByte := 5 } : State).bitsRemaining < 14 ∧
    10 ≤ ({ abcAt 3 with curByte := 5 } : State).bitsRemaining := by decide

/-- Among the code-length code lengths: field number `k` of `n`. -/
def amongFields (k n : Nat) : State :=
  { running abcBytes .dynhdr .clcl with
    hlit := 257, hdist := 1, hclen := n, clclIdx := k, clLens := [1] ++ List.replicate 18 0 }

/-- A field that is not the last, and the last of 4 and of 19. -/
theorem witness_CodeLengthFieldsFillAndBuild :
    3 ≤ (amongFields 3 4).bitsRemaining ∧
    [16, 17, 18, 0, 8, 7, 9, 6, 10, 5, 11, 4, 12, 3, 13, 2, 14, 1, 15][(amongFields 2 4).clclIdx]? = some 18 ∧
    (amongFields 2 4).clclIdx + 1 < (amongFields 2 4).hclen ∧
    [16, 17, 18, 0, 8, 7, 9, 6, 10, 5, 11, 4, 12, 3, 13, 2, 14, 1, 15][(amongFields 18 19).clclIdx]? = some 15 ∧
    (amongFields 18 19).hclen ≤ (amongFields 18 19).clclIdx + 1 ∧
    (amongFields 18 19).clLens.length = 19 ∧
    kraftSum (((amongFields 18 19).clLens.set 15 1).map BitVec.toNat) = 2 ^ 15 ∧
    2 ^ 15 < kraftSum ((([1, 1] ++ List.replicate 17 (0 : BitVec 3)).set 15 7).map BitVec.toNat) := by decide +kernel

/-- Each code-length symbol, at the first and at the last entry it may write without filling the table. -/
theorem witness_CodeLengthSymbolsFillTheTable :
    (Instr.clLen 15).element = (.clsym, 15, 0) ∧ (Instr.clRep16 3).element = (.clsym, 16, 3) ∧
    (Instr.clZero17 7).element = (.clsym, 17, 7) ∧ (Instr.clZero18 127).element = (.clsym, 18, 127) ∧
    (Instr.clLen 15).clRun (filling 0 none).prevLen = some (15, 1, 0) ∧
    (filling 0 none).lenIdx + 1 < (filling 0 none).hlit + (filling 0 none).hdist ∧
    (Instr.clRep16 3).clRun (filling 254 (some 7)).prevLen = some (7, 6, 2) ∧ 2 ≤ (filling 254 (some 7)).bitsRemaining ∧
    (filling 254 (some 7)).lenIdx + 6 < (filling 254 (some 7)).hlit + (filling 254 (some 7)).hdist ∧
    (Instr.clZero17 7).clRun (filling 0 none).prevLen = some (0, 10, 3) ∧
    (Instr.clZero18 127).clRun (filling 122 none).prevLen = some (0, 138, 7) ∧
    (filling 122 none).lenIdx + 138 < (filling 122 none).hlit + (filling 122 none).hdist ∧
    (filling 122 none).curBit < 8 := by decide

/-- One entry is missing from a table of zeros but for two code lengths each of LL and D. -/
def almostFull : State :=
  { filling 260 (some 0) with
    lenTable := [1] ++ List.replicate 255 0 ++ [1, 0, 0] ++ [1, 0] ++ List.replicate 55 0 }

theorem witness_FullTableBuildsBothTrees :
    (Instr.clLen 1).element = (.clsym, 1, 0) ∧ (Instr.clLen 1).clRun almostFull.prevLen = some (1, 1, 0) ∧ 0 ≤ almostFull.bitsRemaining ∧
    almostFull.lenIdx + 1 = almostFull.hlit + almostFull.hdist ∧ almostFull.hlit ≤ 286 ∧ almostFull.hdist ≤ 30 ∧
    almostFull.curBit < 8 ∧
    kraftSum (((fillEntries 1 1 260 almostFull.lenTable).take 259).map BitVec.toNat) = 2 ^ 15 ∧
    kraftSum ((((fillEntries 1 1 260 almostFull.lenTable).drop 259).take 2).map BitVec.toNat) = 2 ^ 15 := by
  decide +kernel

/-- Three codes of length 1: in the literal/length table, and in a distance table of three. -/
theorem witness_FullTableBuildsBothTrees_overflow :
    2 ^ 15 < kraftSum (((fillEntries 1 1 260 (almostFull.lenTable.set 1 1)).take 259).map BitVec.toNat) ∧
    kraftSum (((fillEntries 1 1 260 (almostFull.lenTable.set 259 1)).take 258).map BitVec.toNat) = 2 ^ 15 ∧
    2 ^ 15 < kraftSum ((((fillEntries 1 1 260 ((almostFull.lenTable.set 258 1).set 259 1)).drop 258).take 3).map
      BitVec.toNat) := by decide +kernel

theorem witness_RepeatErrors :
    (filling 0 none).prevLen = none ∧
    (Instr.clRep16 0).clRun (filling 259 (some 1)).prevLen = some (1, 3, 2) ∧ 2 ≤ (filling 259 (some 1)).bitsRemaining ∧
    (filling 259 (some 1)).hlit + (filling 259 (some 1)).hdist < (filling 259 (some 1)).lenIdx + 3 := by decide

/-- A block with room for exactly `cap` bytes. -/
def capped (cap : Nat) (out : List Nat) (seq : Seq) : State :=
  { writing out seq with params := ({ outCap := some cap } : Config.Params) }

/-- An empty output, one byte of room, and none. -/
theorem witness_LiteralAppendsItsByte :
    (writing [] .ll).params.outCap ≠ some (writing [] .ll).outLen ∧
    (capped 2 [1] .ll).params.outCap ≠ some (capped 2 [1] .ll).outLen ∧
    (capped 1 [1] .ll).params.outCap = some (capped 1 [1] .ll).outLen := by decide

theorem witness_EobEndsTheBlock :
    ({ writing [] .ll with bfinal := true } : State).bfinal = true ∧ (writing [] .ll).bfinal = false := by decide

/-- 42_fixed_tables.md R153 and R154: the rows the statements write out are the model's tables. -/
theorem test_tables :
    lenRows = [(0, 3), (0, 4), (0, 5), (0, 6), (0, 7), (0, 8), (0, 9), (0, 10), (1, 11), (1, 13), (1, 15), (1, 17), (2, 19),
      (2, 23), (2, 27), (2, 31), (3, 35), (3, 43), (3, 51), (3, 59), (4, 67), (4, 83), (4, 99), (4, 115), (5, 131),
      (5, 163), (5, 195), (5, 227), (0, 258)] ∧
    distRows = [(0, 1), (0, 2), (0, 3), (0, 4), (1, 5), (1, 7), (2, 9), (2, 13), (3, 17), (3, 25), (4, 33), (4, 49), (5, 65),
      (5, 97), (6, 129), (6, 193), (7, 257), (7, 385), (8, 513), (8, 769), (9, 1025), (9, 1537), (10, 2049), (10, 3073),
      (11, 4097), (11, 6145), (12, 8193), (12, 12289), (13, 16385), (13, 24577)] := ⟨rfl, rfl⟩

/-- The first and the last length symbol, one with all its extra bits, and one whose extra bit is missing; each with its row
of the length table. -/
theorem witness_LengthSymbolSetsTheLength :
    Instr.len257.element = (.llsym, 257, 0) ∧ lenRows[257 - 257]? = some (0, 3) ∧
    Instr.len285.element = (.llsym, 285, 0) ∧ lenRows[285 - 257]? = some (0, 258) ∧
    (Instr.len284 31).element = (.llsym, 284, 31) ∧ lenRows[284 - 257]? = some (5, 227) ∧
    5 ≤ (writing [] .ll).bitsRemaining ∧ (writing [] .ll).curBit < 8 ∧
    (Instr.len265 1).element = (.llsym, 265, 1) ∧ lenRows[265 - 257]? = some (1, 11) ∧
    ({ writing [] .ll with curByte := 7 } : State).bitsRemaining < 1 :=
  ⟨rfl, rfl, rfl, rfl, rfl, rfl, by decide, by decide, rfl, rfl, by decide⟩

theorem witness_ReservedSymbolsRaise :
    (Instr.llRsv286 = .llRsv286 ∨ Instr.llRsv286 = .llRsv287) ∧
    (Instr.distRsv31 = .distRsv30 ∨ Instr.distRsv31 = .distRsv31) := by decide

/-- The nearest distance, and a copy that fills the output exactly; each with its row of the distance table. -/
theorem witness_DistanceSymbolCopies :
    Instr.dist0.element = (.dsym, 0, 0) ∧ distRows[0]? = some (0, 1) ∧
    (Instr.dist4 1).element = (.dsym, 4, 1) ∧ distRows[4]? = some (1, 5) ∧
    1 ≤ (writing [1, 2, 3, 4, 5, 6] .dist).bitsRemaining ∧ (writing [1, 2, 3, 4, 5, 6] .dist).curBit < 8 ∧
    5 + 1 ≤ (writing [1, 2, 3, 4, 5, 6] .dist).outLen ∧ 1 + 0 ≤ (capped 5 [1] .dist).outLen ∧
    (∀ cap, ({ capped 5 [1] .dist with curLen := 4 } : State).params.outCap = some cap →
      ({ capped 5 [1] .dist with curLen := 4 } : State).outLen + 4 ≤ cap) :=
  ⟨rfl, rfl, rfl, rfl, by decide, by decide, by decide, by decide, fun cap h => by cases h; decide⟩

theorem witness_DistanceTooFarRaises :
    (Instr.dist4 1).element = (.dsym, 4, 1) ∧ distRows[4]? = some (1, 5) ∧
    1 ≤ (writing [1, 2, 3, 4, 5] .dist).bitsRemaining ∧
    (writing [1, 2, 3, 4, 5] .dist).curBit < 8 ∧ (writing [1, 2, 3, 4, 5] .dist).outLen < 5 + 1 :=
  ⟨rfl, rfl, by decide, by decide, by decide⟩

theorem witness_CopyIntoFullOutputRaises :
    Instr.dist0.element = (.dsym, 0, 0) ∧ distRows[0]? = some (0, 1) ∧ 0 ≤ (capped 4 [1] .dist).bitsRemaining ∧
    1 + 0 ≤ (capped 4 [1] .dist).outLen ∧ (capped 4 [1] .dist).params.outCap = some 4 ∧
    ({ capped 4 [1] .dist with curLen := 4 } : State).outLen ≤ 4 ∧
    4 < ({ capped 4 [1] .dist with curLen := 4 } : State).outLen + 4 :=
  ⟨rfl, rfl, by decide, by decide, rfl, by decide, by decide⟩

/-- One bit is left: too few for the two extra bits of a repeat and of a distance symbol. -/
theorem witness_CutShortExtraBitsRaise :
    (Instr.clRep16 0).element = (.clsym, 16, 0) ∧ ((16, 2) : Nat × Nat) ∈ [(16, 2), (17, 3), (18, 7)] ∧
    ({ filling 5 (some 1) with curByte := 6, curBit := 7 } : State).bitsRemaining < 2 ∧
    ({ filling 5 (some 1) with curByte := 6, curBit := 7 } : State).prevLen ≠ none ∧
    (Instr.dist6 0).element = (.dsym, 6, 0) ∧ distRows[6]? = some (2, 9) ∧
    ({ writing [] .ll with curByte := 6, curBit := 7 } : State).bitsRemaining < 2 :=
  ⟨rfl, by decide, by decide, by decide, rfl, rfl, by decide⟩

theorem witness_StartBeginsASession :
    State.reset.status ≠ .busy ∧ ((abcAt 0).raiseError .hdrShort).status ≠ .busy ∧ (abcAt 0).status = .busy := by decide

theorem witness_ControlRegister :
    (0xFFFFFFFF : Word).getLsbD 0 = true ∧ (0xFFFFFFFE : Word).getLsbD 0 = false ∧
    ((abcAt 0).raiseError .hdrShort).status ≠ .busy := by decide

theorem witness_WritesWhileBusy :
    (abcAt 0).status = .busy ∧ (0x1C : Nat) ∈ [0x00, 0x04, 0x08, 0x0C, 0x10, 0x14, 0x18, 0x1C] := by decide

theorem witness_WritesWhileNotBusy :
    State.reset.status ≠ .busy ∧ (0xFFFFFFFF : Word).toNat ≤ State.reset.params.inLenMax ∧
    (0x1C : Nat) ∈ [0x04, 0x08, 0x10, 0x14, 0x18, 0x1C] := by decide

theorem witness_HostReadsTheRegisters :
    ((abcAt 0).raiseError .outFull).status = .error ∧ State.reset.status = .idle ∧
    ({ writing [1] .ll with phase := .done } : State).status = .done ∧
    0 < ({ writing [1] .ll with phase := .done } : State).outLen ∧
    ({ writing [1] .ll with phase := .done } : State).outLen < 2 ^ 32 ∧
    ({ writing [1] .ll with phase := .done } : State).curByte < 2 ^ 29 ∧
    ({ writing [1] .ll with phase := .done } : State).curBit < 8 := by decide

theorem witness_HostReadsTheRegisters_noError : ErrorOk State.reset ∧ ErrorOk { writing [1] .ll with phase := .done } :=
  ⟨⟨rfl, by decide⟩, rfl, by decide⟩

/-- In each state but BUSY: a byte of the result, one above it, and any byte after an error. -/
theorem witness_HostReadsOfOutAgree :
    State.reset.status ≠ .busy ∧ ({ writing [1] .ll with phase := .done } : State).status ≠ .busy ∧
    ((abcAt 0).raiseError .outFull).status ≠ .busy ∧
    (0x1C : Nat) ∈ [0x00, 0x04, 0x08, 0x0C, 0x10, 0x14, 0x18, 0x1C] := by decide

theorem witness_HostReadsChangeNothing :
    (∃ offset, Input.readReg 0x1C = .readReg offset) ∧
    ∃ t, step { State.reset with inputs := [.readReg 0x1C] } = .next t := ⟨⟨_, rfl⟩, _, rfl⟩

/-- A step for each clause: a reset, a START, a reset while BUSY, EOB of a final block, an error while BUSY, and a reset out
of DONE. -/
theorem witness_StatusTransitions :
    (∃ t, step { State.reset with inputs := [.reset] } = .next t) ∧ Input.reset.isReset = true ∧
    (∃ t, step { State.reset with inputs := [.writeReg 0 1] } = .next t) ∧ (Input.writeReg 0 1).isStart = true ∧
    (∃ t, step { abcAt 0 with inputs := [.reset] } = .next t ∧ t.status = .idle) ∧
    nextHas (step { running [0x78, 0x9C, 0x00] .body .ll with bfinal := true }) (fun t => t.status == .done) = true ∧
    (∃ t, step (running [0x78, 0x9C] .bhdr .head) = .next t ∧ t.status = .error) ∧
    (∃ t, step { abcAt 0 with phase := .done, inputs := [.reset] } = .next t ∧ t.status ≠ .done) :=
  ⟨⟨_, rfl⟩, rfl, ⟨_, rfl⟩, rfl, ⟨_, rfl, rfl⟩, by decide +kernel, ⟨_, rfl, rfl⟩, _, rfl, by decide⟩

theorem witness_StepRunsTheFetchedElement :
    (abcAt 0).inputs = [] ∧ (abcAt 0).nextSlot = some .bhdr ∧ fetch .bhdr (abcAt 0) = .ok (.blockFixed true) (abcAt 0) ∧
    (running [0x78, 0x9C] .body .ll).nextSlot = some .llsym ∧
    (∃ u, fetch .llsym (running [0x78, 0x9C] .body .ll) = .raised .inExhausted u) ∧
    State.reset.inputs = [] ∧ State.reset.status ≠ .busy :=
  ⟨rfl, rfl, rfl, rfl, ⟨_, rfl⟩, rfl, by decide⟩

theorem witness_StepRunsAPortCommand :
    (abcAt 0).status = .busy ∧ decode .bccmd 0xC0 = .ok (.bcConsume 64) ∧ decode .hufcmd 12 = .ok (.hufLookup .fdt) :=
  ⟨rfl, rfl, rfl⟩

/-- The default parameters, and the largest finite OUT_CAP. -/
theorem witness_ResetHasTheInvariant :
    ({} : Config.Params).wf = true ∧ ({ outCap := some 4294967295 } : Config.Params).wf = true := by decide

/-! ### States with the invariant -/

/-- The header waits in the input. -/
def ready : State := { running [0x78, 0x9C] .zhdr .head with curByte := 0 }

theorem cleared_arena_wf {c al : Nat} (hc : 1 ≤ c) (hal : 0 < al) : Arena.wf c al Arena.cleared :=
  { cleared_wf hal with size := hc }

/-- The invariant for states that differ from the state after reset in their phase, input, output and cursor. -/
theorem inv_of_reset {s : State} (hp : s.params.wf = true) (hi : s.inMem.wf = true) (ho : s.outMem.wf = true)
    (hh : s.hostOut.wf = true)
    (hc : CursorOk s) (hr : RegistersOk s) (h1 : s.clt = Arena.cleared) (h2 : s.llt = Arena.cleared)
    (h3 : s.dt = Arena.cleared) (hs : s.llSel = .fllt ∧ s.dSel = .fdt) (hd : s.phase ≠ .dynhdr) (he : ErrorOk s)
    (hq : s.params.outCap = none) : Inv s where
  params := hp
  inMem := hi
  outMem := ho
  hostOut := hh
  cursor := hc
  registers := hr
  arenas := ⟨by rw [h1]; exact cleared_arena_wf (by show 1 ≤ 44; decide) (by decide),
    by rw [h2]; exact cleared_arena_wf (by show 1 ≤ 586; decide) (by decide),
    by rw [h3]; exact cleared_arena_wf (by show 1 ≤ 74; decide) (by decide)⟩
  pair := .inl hs
  table := ⟨fun h => absurd h hd, fun h => absurd h hd⟩
  error := he
  out := fun cap h => by rw [hq] at h; cases h

theorem ready_registers : RegistersOk ready := by constructor <;> decide +kernel

theorem ready_inv : Inv ready :=
  inv_of_reset (by decide) (by decide) (by decide) (by decide) ⟨by decide, by decide, by decide, by decide⟩ ready_registers rfl rfl rfl
    ⟨rfl, rfl⟩ (by decide) ⟨rfl, by decide⟩ rfl

/-- An idle block with the header in its input and IN_LEN = 2. -/
def loaded : State := { ready with phase := .idle }

theorem loaded_inv : Inv loaded :=
  inv_of_reset (by decide) (by decide) (by decide) (by decide) ⟨by decide, by decide, by decide, by decide⟩
    { ready_registers with } rfl rfl rfl ⟨rfl, rfl⟩ (by decide) ⟨rfl, by decide⟩ rfl

/-- The same with another byte beyond IN_LEN and other leftovers. -/
def loadedElse : State := { loaded with inMem := cells 0 [0x78, 0x9C, 0xFF], outMem := cells 0 [1], bfinal := true }

theorem loadedElse_inv : Inv loadedElse :=
  inv_of_reset (by decide) (by decide) (by decide) (by decide) ⟨by decide, by decide, by decide, by decide⟩
    { ready_registers with } rfl rfl rfl ⟨rfl, rfl⟩ (by decide) ⟨rfl, by decide⟩ rfl

theorem witness_EveryStepKeepsTheInvariant : Inv ready ∧ ∃ t, step ready = .next t := ⟨ready_inv, _, rfl⟩

theorem witness_EveryStepKeepsThePreviousLength : Inv ready ∧ PrevLenOk ready ∧ ∃ t, step ready = .next t :=
  ⟨ready_inv, fun h => absurd h (by decide), _, rfl⟩

theorem witness_EngineWritesOnlyNewOutput : Inv ready ∧ ∃ t, engineStep ready = .next t := ⟨ready_inv, _, rfl⟩

theorem witness_ParametersNeverChange : ∃ t, step (abcAt 0) = .next t := ⟨_, rfl⟩

theorem witness_EverySessionEnds : Inv ready ∧ ready.inputs = [] ∧ ready.busy = true := ⟨ready_inv, rfl, rfl⟩

theorem witness_SessionRunsTheSpecsAlgorithm : Inv loaded ∧ loaded.busy = false ∧ loaded.inputs = [] :=
  ⟨loaded_inv, rfl, rfl⟩

theorem witness_OutcomeDependsOnTheInputOnly :
    Inv loaded ∧ Inv loadedElse ∧ SameInput loaded loadedElse ∧ loaded.busy = false ∧ loadedElse.busy = false ∧
    loaded.inputs = [] ∧ loadedElse.inputs = [] ∧ loaded ≠ loadedElse := by
  refine ⟨loaded_inv, loadedElse_inv, ⟨rfl, rfl, fun a ha => ?_⟩, rfl, rfl, rfl, rfl, by decide⟩
  have h2 : a < 2 := ha
  interval_cases a <;> rfl

/-- An element of each kind that gives a next state. -/
theorem witness_frames :
    (∃ t, exec (.zlibHeader 0x78 0x9C) ready = .next t) ∧ (∃ t, exec (.blockFixed true) (abcAt 0) = .next t) ∧
    (∃ t, exec (.dynHeader 0 0 0) (abcAt 0) = .next t) ∧ (∃ t, exec (.clclField 1) (amongFields 0 4) = .next t) ∧
    (∃ t, exec (.clLen 1) (filling 0 none) = .next t) ∧ (∃ t, exec (.lit 1) (writing [] .ll) = .next t) ∧
    (∃ t, exec .dist0 (writing [1] .dist) = .next t) ∧ (∃ t, exec (.bcPeek 1) (abcAt 0) = .next t) ∧
    (∃ t, exec (.hufLookup .fdt) (abcAt 0) = .next t) :=
  ⟨⟨_, rfl⟩, ⟨_, rfl⟩, ⟨_, rfl⟩, ⟨_, rfl⟩, ⟨_, rfl⟩, ⟨_, rfl⟩, ⟨_, rfl⟩, ⟨_, rfl⟩, _, rfl⟩

/-- An element of each kind that raises, from a state without an error. -/
theorem witness_frames_raise :
    (abcAt 3).phase ≠ .error ∧
    nextHas (exec (.dynHeader 30 0 0) (abcAt 3)) (raisedBy .hlitRange) = true ∧
    nextHas (exec (.clRep16 0) (filling 259 (some 1))) (raisedBy .repeatOverrun) = true ∧
    nextHas (exec .dist0 (writing [] .dist)) (raisedBy .distTooFar) = true ∧
    nextHas (exec (.bcConsume 64) (abcAt 0)) (raisedBy .inExhausted) = true := by decide +kernel

end Sys2Proof.Tests
end

namespace Sys2Proof.Machine

/-! ## The invariant, with and without the place -/

/-- The rules of the code-length table speak of two places only. -/
theorem tableOk_of_place {s : State} (h : s.phase = .dynhdr → s.seq ≠ .clcl ∧ s.seq ≠ .clsym) : TableOk s :=
  ⟨fun hp hq => absurd hq (h hp).1, fun hp hq => absurd hq (h hp).2⟩

/-- The invariant is that of the state without its place, and what the place asks of the code-length table. -/
theorem inv_iff_forgetPlace {s : State} : Inv s ↔ Inv s.forgetPlace ∧ TableOk s := by
  constructor
  · intro h
    exact ⟨{ h with
      cursor := { h.cursor with }, registers := { h.registers with }, arenas := { h.arenas with }
      table := tableOk_of_place fun _ => ⟨nofun, nofun⟩
      error := { h.error with } }, h.table⟩
  · rintro ⟨h, ht⟩
    exact { h with
      cursor := { h.cursor with }, registers := { h.registers with }, arenas := { h.arenas with }
      table := ht
      error := { h.error with } }

theorem inv_forgetPlace {s : State} (h : Inv s) : Inv s.forgetPlace := (inv_iff_forgetPlace.1 h).1

/-- The invariant speaks of none of these fields: ZLIB_HDR, the block registers, `prev_len`, and the model's own but for
`hostOut`. -/
theorem inv_of_unread {s t : State} (h : Inv s) (ht : t = { s with
    cmf := t.cmf, flg := t.flg, cm := t.cm, fdict := t.fdict, blockFinal := t.blockFinal, blockType := t.blockType
    bfinal := t.bfinal, btype := t.btype, prevLen := t.prevLen, draws := t.draws, epoch := t.epoch
    sessions := t.sessions, inputs := t.inputs, regData := t.regData, outData := t.outData, bcData := t.bcData }) :
    Inv t := by
  rw [ht]
  exact { h with
    cursor := { h.cursor with }, registers := { h.registers with }, arenas := { h.arenas with }
    table := { h.table with }, error := { h.error with } }

theorem inv_cursor {s : State} {a b : Nat} (h : Inv s) (hc : CursorOk { s with curByte := a, curBit := b }) :
    Inv { s with curByte := a, curBit := b } :=
  { h with
    cursor := hc, registers := { h.registers with }, arenas := { h.arenas with }
    table := { h.table with }, error := { h.error with } }

theorem inv_advance {s : State} {n : Nat} (h : Inv s) (hn : n ≤ s.bitsRemaining) : Inv (s.advance n) :=
  inv_cursor h (cursorOk_advance h.cursor hn)

/-- Error entry, wherever the element stood (60_exceptions.md R236). -/
theorem inv_raiseError_place {s : State} {c : Cause} (h : Inv s.forgetPlace) (hc : c ≠ .none) : Inv (s.raiseError c) :=
  { h with
    cursor := { h.cursor with }, registers := { h.registers with }, arenas := { h.arenas with }
    table := tableOk_of_place nofun
    error := ⟨rfl, fun _ => hc, fun _ => rfl⟩ }

theorem inv_raiseError {s : State} {c : Cause} (h : Inv s) (hc : c ≠ .none) : Inv (s.raiseError c) :=
  inv_raiseError_place (inv_forgetPlace h) hc

/-- A move of the place between two phases of a session. -/
theorem inv_place {s : State} {p : Phase} {q : Seq} (h : Inv s.forgetPlace) (hs : s.phase ≠ .error) (hp : p ≠ .error)
    (ht : TableOk { s with phase := p, seq := q }) : Inv { s with phase := p, seq := q } :=
  { h with
    cursor := { h.cursor with }, registers := { h.registers with }, arenas := { h.arenas with }
    table := ht
    error := ⟨h.error.kind, fun hq => absurd hq hp, fun hc => absurd (h.error.cause.2 hc) hs⟩ }

theorem inv_sym {s : State} {v : Nat} (h : Inv s) (hv : v < 288) : Inv { s with sym := v } :=
  { h with
    cursor := { h.cursor with }, registers := { h.registers with sym := hv }, arenas := { h.arenas with }
    table := { h.table with }, error := { h.error with } }

theorem inv_startSession {s : State} (h : Inv s) : Inv s.startSession :=
  { h with
    hostOut := rfl
    cursor := ⟨Nat.zero_lt_succ 7, Nat.zero_le _, fun _ => rfl, h.registers.inLenReg⟩
    registers := { h.registers with }, arenas := { h.arenas with }
    table := tableOk_of_place nofun
    error := ⟨rfl, nofun, fun hc => absurd rfl hc⟩
    out := fun _ _ => Nat.zero_le _ }

/-! A build leaves the place and the cursor (41_huffman.md R142). -/

@[simp] theorem afterBuild_phase (s : State) (t : TreeId) : (s.afterBuild t).phase = s.phase := by
  obtain ⟨clt, llt, dt, bl, next, he⟩ := afterBuild_eq s t
  rw [he]

@[simp] theorem afterBuild_curByte (s : State) (t : TreeId) : (s.afterBuild t).curByte = s.curByte := by
  obtain ⟨clt, llt, dt, bl, next, he⟩ := afterBuild_eq s t
  rw [he]

@[simp] theorem afterBuild_curBit (s : State) (t : TreeId) : (s.afterBuild t).curBit = s.curBit := by
  obtain ⟨clt, llt, dt, bl, next, he⟩ := afterBuild_eq s t
  rw [he]

theorem inv_afterBuild {s : State} {t : TreeId} (h : Inv s.forgetPlace) (hc : buildOutOfContract s t = false) :
    Inv (s.afterBuild t).forgetPlace := by
  have htable : s.buildTable t = s.forgetPlace.buildTable t := by cases t <;> rfl
  have hcomm : (s.afterBuild t).forgetPlace = s.forgetPlace.afterBuild t := by
    rw [State.afterBuild, State.afterBuild, htable]
    generalize buildTree (s.forgetPlace.buildTable t) = r
    cases t <;> rfl
  rw [buildOutOfContract, htable] at hc
  have ha := arenasOk_afterBuild h.arenas h.registers hc
  have hr := registersOk_afterBuild h.registers hc
  obtain ⟨clt, llt, dt, bl, next, he⟩ := afterBuild_eq s.forgetPlace t
  rw [he] at ha hr
  rw [hcomm, he]
  exact { h with
    cursor := { h.cursor with }, registers := hr, arenas := ha, table := { h.table with }, error := { h.error with } }

theorem inv_output {s : State} {m : Memory} {n : Nat} (h : Inv s) (hm : m.wf = true)
    (hn : ({ s with outLen := n } : State).outOk) : Inv { s with outMem := m, outLen := n } :=
  { h with
    outMem := hm
    cursor := { h.cursor with }, registers := { h.registers with }, arenas := { h.arenas with }
    table := { h.table with }, error := { h.error with }, out := hn }

theorem inv_backref {s : State} {l d e : Nat} (h : Inv s) (hl : l ≤ 258) (hd : d ≤ 32768) (he : e < 8192) :
    Inv { s with curLen := l, curDist := d, extra := e } :=
  { h with
    cursor := { h.cursor with }, arenas := { h.arenas with }, table := { h.table with }, error := { h.error with }
    registers := { h.registers with curLen := hl, curDist := hd, extra := he } }

/-- The engine enters the body with one of the two legal pairs. -/
theorem inv_enterBody {s : State} {ll d : TreeId} (h : Inv s.forgetPlace) (hs : s.phase ≠ .error)
    (hp : ({ s with llSel := ll, dSel := d } : State).pairOk) : Inv (s.enterBody ll d) :=
  have hpair : Inv ({ s with llSel := ll, dSel := d } : State).forgetPlace :=
    { h with
      cursor := { h.cursor with }, registers := { h.registers with }, arenas := { h.arenas with }
      pair := hp, table := { h.table with }, error := { h.error with } }
  inv_place hpair hs nofun (tableOk_of_place nofun)

/-! ## Elements whose writes take effect together -/

/-- An operation begun in `s` completes with `P`, or raises a cause behind some bits of the input. -/
def Res.Ensures (s : State) (P : State → Prop) : Res Unit → Prop
  | .ok _ t => P t
  | .raised c t => c ≠ .none ∧
      ∃ k, k ≤ s.bitsRemaining ∧ t.curByte = (s.advance k).curByte ∧ t.curBit = (s.advance k).curBit
  | .refused _ => True

/-- A raise with no bit consumed. -/
theorem ensures_raised {s t : State} {P : State → Prop} {c : Cause} (hs : s.curBit < 8) (hc : c ≠ .none)
    (h1 : t.curByte = s.curByte) (h2 : t.curBit = s.curBit) : (Res.raised c t).Ensures s P :=
  ⟨hc, 0, Nat.zero_le _, by rw [advance_zero hs, h1], by rw [advance_zero hs, h2]⟩

/-- What a raise leaves of an element (60_exceptions.md R235) has the invariant after error entry. -/
theorem inv_raiseError_atomic {s t : State} {c : Cause} {k : Nat} (h : Inv s.forgetPlace) (hc : c ≠ .none)
    (hk : k ≤ s.bitsRemaining) (h1 : t.curByte = (s.advance k).curByte) (h2 : t.curBit = (s.advance k).curBit) :
    Inv (({ s with curByte := t.curByte, curBit := t.curBit } : State).raiseError c) := by
  rw [h1, h2]
  exact inv_raiseError_place (s := s.advance k) (inv_advance h hk) hc

theorem inv_of_atomic {s t : State} {x : Res Unit} (h : Inv s.forgetPlace) (hx : x.Ensures s Inv)
    (ht : (x.atomic s).toOutcome = .next t) : Inv t := by
  cases x with
  | ok _ u =>
    cases ht
    exact hx
  | raised c u =>
    obtain ⟨hc, k, hk, h1, h2⟩ := hx
    cases ht
    exact inv_raiseError_atomic h hc hk h1 h2
  | refused r => cases ht

/-! ## The header elements -/

/-- ZLIB_HEADER completes behind the two header bytes, or raises with no bit consumed (45_stream.md R210 to R212). -/
theorem zlibHeader_ensures {cmf flg : BitVec 8} {s : State} (h : Inv s) (hs : s.phase ≠ .error) :
    (zlibHeader cmf flg s).Ensures s Inv := by
  have hbit := h.cursor.curBit
  rw [zlibHeader]
  split
  · exact ensures_raised hbit nofun rfl rfl
  · next hlen =>
    dsimp only
    split
    · split
      · exact ensures_raised hbit nofun rfl rfl
      · have hz : Inv (s.setZlibHdr cmf flg) := inv_of_unread h rfl
        have hc : Inv { s.setZlibHdr cmf flg with curByte := 2, curBit := 0 } :=
          inv_cursor hz ⟨Nat.zero_lt_succ 7, Nat.le_of_not_lt hlen, fun _ => rfl, hz.cursor.inLen⟩
        exact inv_place (inv_forgetPlace hc) hs nofun (tableOk_of_place nofun)
    · exact ensures_raised hbit nofun rfl rfl

/-- A block header keeps the invariant if its type's work, behind the three bits, raises where it stands or completes
with the invariant. -/
theorem inv_blockHeader {b : Bool} {ty : BitVec 2} {op : State → Res Unit} {s t : State} (h : Inv s)
    (hop : ∀ u, Inv u → u.phase = s.phase →
      (∃ c, c ≠ .none ∧ op u = .raised c u) ∨ ∃ v, op u = .ok () v ∧ Inv v)
    (ht : (blockHeader b ty op s).toOutcome = .next t) : Inv t := by
  rcases Nat.lt_or_ge s.bitsRemaining 3 with hr | hr
  · rcases blockHeader_of_lt b ty op hr with ⟨-, hb⟩ | ⟨h1, hb⟩ <;> rw [hb] at ht <;> cases ht
    · exact inv_raiseError h nofun
    · exact inv_raiseError (inv_advance h h1) nofun
  · rw [blockHeader_of_le b ty op hr] at ht
    refine inv_of_atomic (inv_forgetPlace h) ?_ ht
    have hadv := inv_advance h hr
    rcases hop { s.advance 3 with bfinal := b, btype := ty, blockFinal := b, blockType := ty }
      (inv_of_unread hadv rfl) rfl with ⟨c, hc, he⟩ | ⟨v, he, hv⟩ <;> rw [he]
    · exact ⟨hc, 3, hr, rfl, rfl⟩
    · exact hv

/-- A block header keeps the invariant, whatever its type (43_block_header.md R165 to R167, 45_stream.md R213). -/
theorem inv_exec_bhdr {i : Instr} {s t : State} (hf : i.format = .bhdr) (h : Inv s) (hs : s.phase ≠ .error)
    (ht : exec i s = .next t) : Inv t := by
  cases i with
  | blockStored b =>
    refine inv_blockHeader h (fun u _ _ => .inl ?_) ht
    exact ⟨.storedBlock, nofun, rfl⟩
  | blockReserved b =>
    refine inv_blockHeader h (fun u _ _ => .inl ?_) ht
    exact ⟨.btypeReserved, nofun, rfl⟩
  | blockFixed b =>
    refine inv_blockHeader h (fun u hu hp => .inr ?_) ht
    exact ⟨_, rfl, inv_enterBody (inv_forgetPlace hu) (by rwa [hp]) (.inl ⟨rfl, rfl⟩)⟩
  | blockDynamic b =>
    refine inv_blockHeader h (fun u hu hp => .inr ?_) ht
    exact ⟨_, rfl, inv_place (inv_forgetPlace hu) (by rwa [hp]) nofun (tableOk_of_place fun _ => ⟨nofun, nofun⟩)⟩
  | _ => cases hf

/-- DYN_HEADER leaves legal counts and the first of the code-length fields next, or raises (43_block_header.md R168). -/
theorem inv_execDynHeader {a b : BitVec 5} {c : BitVec 4} {s t : State} (h : Inv s)
    (ht : execDynHeader a b c s = .next t) : Inv t := by
  have hc := c.isLt
  rcases execDynHeader_cases a b c s with ⟨hr, ha, hb, he⟩ | ⟨-, he⟩ | ⟨hr, -, he⟩ | ⟨hr, -, -, he⟩ | ⟨hr, -, -, he⟩ |
    ⟨hr, -, -, -, he⟩ <;> rw [he] at ht <;> cases ht
  · have hadv := inv_advance h hr
    exact { hadv with
      cursor := { hadv.cursor with }, arenas := { hadv.arenas with }, error := { hadv.error with }
      registers := { hadv.registers with
        hlit := show a.toNat + 257 ≤ 288 by omega
        hdist := show b.toNat + 1 ≤ 32 by omega
        hclen := show c.toNat + 4 ≤ 19 by omega
        clLens := List.length_replicate }
      table := ⟨fun _ _ => ⟨⟨Nat.le_add_left _ _, show a.toNat + 257 ≤ 286 by omega, Nat.le_add_left _ _,
        show b.toNat + 1 ≤ 30 by omega⟩, Nat.succ_pos _⟩, nofun⟩ }
  · exact inv_raiseError h nofun
  · exact inv_raiseError (inv_advance h hr) nofun
  · exact inv_raiseError (inv_advance h hr) nofun
  · exact inv_raiseError (inv_advance h hr) nofun
  · exact inv_raiseError (inv_advance h hr) nofun

/-! ## The code-length fields and the code-length sequence -/

/-- The code-length sequence begins with legal counts and an empty table (43_block_header.md R170). -/
theorem inv_enterClsym {s : State} (h : Inv s.forgetPlace) (hc : s.countsOk) : Inv s.enterClsym :=
  have hpos : 0 < s.hlit + s.hdist := by
    obtain ⟨hl, -, -, -⟩ := hc
    omega
  { h with
    cursor := { h.cursor with }, arenas := { h.arenas with }, error := { h.error with }
    registers := { h.registers with lenIdx := Nat.zero_le _ }
    table := ⟨nofun, fun _ _ => ⟨hc, hpos⟩⟩ }

/-- The end of a code-length field: another field, or the CL tree and the code-length sequence (43_block_header.md R169,
R170). -/
theorem inv_clclNext {s t : State} (h : Inv s.forgetPlace) (hq : s.seq = .clcl) (hc : s.countsOk)
    (ht : (clclNext s).toOutcome = .next t) : Inv t := by
  rcases clclNext_cases s with ⟨hlt, he⟩ | ⟨-, he⟩ <;> rw [he] at ht
  · cases ht
    exact inv_iff_forgetPlace.2 ⟨h, fun _ _ => ⟨hc, hlt⟩, fun _ hq' => by rw [hq] at hq'; cases hq'⟩
  · rcases hufBuild_cases .clt s with ⟨-, he⟩ | ⟨hb, -, he⟩ | ⟨c, hne, -, -, he⟩ <;> rw [he] at ht <;> cases ht
    · exact inv_enterClsym (inv_afterBuild h hb) hc
    · exact inv_raiseError_place h hne

theorem inv_putClLen {s : State} (len : BitVec 3) (h : Inv s) : Inv (s.putClLen len).forgetPlace :=
  have hlen : (s.putClLen len).clLens.length = 19 := by
    rw [State.putClLen]
    split
    · exact List.length_set.trans h.registers.clLens
    · exact h.registers.clLens
  { h with
    cursor := { h.cursor with }, arenas := { h.arenas with }, error := { h.error with }
    registers := { h.registers with clLens := hlen }
    table := tableOk_of_place fun _ => ⟨nofun, nofun⟩ }

/-- CLCL_FIELD (43_block_header.md R169). -/
theorem inv_execClclField {len : BitVec 3} {s t : State} (h : Inv s) (hp : s.phase = .dynhdr) (hq : s.seq = .clcl)
    (ht : execClclField len s = .next t) : Inv t := by
  rw [execClclField] at ht
  rcases bcSkip_cases 3 s with ⟨hr, he⟩ | ⟨-, he⟩ <;> rw [he] at ht
  · exact inv_clclNext (inv_putClLen len (inv_advance h hr)) hq (h.table.clcl hp hq).1 ht
  · cases ht
    exact inv_raiseError h nofun

/-- A state within the code-length sequence, before the loop's condition is checked (43_block_header.md R170). -/
structure InSequence (s : State) : Prop where
  inv : Inv s.forgetPlace
  phase : s.phase = .dynhdr
  seq : s.seq = .clsym
  counts : s.countsOk

/-- The build of DT behind that of LLT: the body is entered, or the build raises with no bit consumed. -/
theorem buildDt_ensures {s u : State} (h : Inv u.forgetPlace) (hu : u.phase ≠ .error) (h1 : u.curByte = s.curByte)
    (h2 : u.curBit = s.curBit) :
    ((hufBuild .dt u).bind fun _ s => .ok () (s.enterBody .llt .dt)).Ensures s Inv := by
  rcases hufBuild_cases .dt u with ⟨-, he⟩ | ⟨hb, -, he⟩ | ⟨c, hc, -, -, he⟩ <;> rw [he]
  · trivial
  · exact inv_enterBody (inv_afterBuild h hb) (by rwa [afterBuild_phase]) (.inr ⟨rfl, rfl⟩)
  · exact ensures_raised (h2 ▸ h.cursor.curBit) hc h1 h2

/-- Split and build: LLT and DT are built and the body entered, or neither tree is written (43_block_header.md R175). -/
theorem inv_splitAndBuild {s t : State} (h : InSequence s) (ht : (splitAndBuild s).toOutcome = .next t) : Inv t := by
  rw [splitAndBuild] at ht
  refine inv_of_atomic h.inv ?_ ht
  rcases hufBuild_cases .llt s with ⟨-, he⟩ | ⟨hb, -, he⟩ | ⟨c, hc, -, -, he⟩ <;> rw [he]
  · trivial
  · exact buildDt_ensures (inv_afterBuild h.inv hb) (by rw [afterBuild_phase, h.phase]; decide)
      (afterBuild_curByte s _) (afterBuild_curBit s _)
  · exact ensures_raised h.inv.cursor.curBit hc rfl rfl

/-- The loop's condition: the sequence goes on while the table is not full (43_block_header.md R170). -/
theorem inv_clsymNext {s t : State} (h : InSequence s) (ht : (clsymNext s).toOutcome = .next t) : Inv t := by
  rcases clsymNext_cases s with ⟨hlt, he⟩ | ⟨-, he⟩ <;> rw [he] at ht
  · cases ht
    exact inv_iff_forgetPlace.2
      ⟨h.inv, fun _ hq => (by rw [h.seq] at hq; cases hq), fun _ _ => ⟨h.counts, hlt⟩⟩
  · exact inv_splitAndBuild h ht

/-- A code-length symbol keeps the invariant if its operation stays within the sequence. -/
theorem inv_clSymbol {sym : Nat} {op : State → Res Unit} {s t : State} (h : Inv s) (hv : sym < 288)
    (hop : (op s).Ensures s InSequence) (ht : (clSymbol sym op s).toOutcome = .next t) : Inv t := by
  rw [clSymbol] at ht
  cases ho : op s with
  | ok a u =>
    rw [ho] at hop
    rw [symbolElement_of_ok ho, res_ok_bind] at ht
    refine inv_clsymNext ?_ ht
    exact ⟨inv_sym hop.inv hv, hop.phase, hop.seq, hop.counts⟩
  | raised c u =>
    rw [ho] at hop
    obtain ⟨hc, k, hk, h1, h2⟩ := hop
    rw [symbolElement_of_raised ho] at ht
    cases ht
    exact inv_raiseError_atomic (inv_forgetPlace h) hc hk h1 h2
  | refused r =>
    rw [symbolElement_of_refused ho] at ht
    cases ht

theorem inSequence_prevLen {s : State} {p : Option (BitVec 4)} (h : InSequence s) :
    InSequence { s with prevLen := p } :=
  ⟨inv_of_unread h.inv rfl, h.phase, h.seq, h.counts⟩

theorem inSequence_putLens {s : State} {n : Nat} (v : BitVec 4) (h : InSequence s)
    (hn : s.lenIdx + n ≤ s.hlit + s.hdist) : InSequence (s.putLens v n) := by
  obtain ⟨hi, hp, hq, hc⟩ := h
  obtain ⟨-, hl, -, hd⟩ := id hc
  refine ⟨?_, hp, hq, hc⟩
  exact { hi with
    cursor := { hi.cursor with }, arenas := { hi.arenas with }, error := { hi.error with }
    registers := { hi.registers with
      lenTable := (fillEntries_length _ _ _ _).trans hi.registers.lenTable
      lenIdx := show s.lenIdx + n ≤ 316 by omega }
    table := tableOk_of_place fun _ => ⟨nofun, nofun⟩ }

/-- A run behind its `k` extra bits (43_block_header.md R172 to R174). -/
theorem skipRun_ensures {v : BitVec 4} {k rep : Nat} {s : State} (h : InSequence s) (hr : rep ≤ 138) :
    ((bcSkip k s).bind fun _ s => putRun v rep s).Ensures s InSequence := by
  have hbit := h.inv.cursor.curBit
  rcases bcSkip_cases k s with ⟨hk, he⟩ | ⟨-, he⟩ <;> rw [he]
  · rw [res_ok_bind]
    rcases putRun_cases v rep (s.advance k) with ⟨hn, he⟩ | ⟨-, he⟩ <;> rw [he]
    · have hi : Inv (s.advance k).forgetPlace := inv_advance h.inv hk
      have hrep : InSequence { s.advance k with rep := rep } := ⟨{ hi with
        cursor := { hi.cursor with }, arenas := { hi.arenas with }, error := { hi.error with }
        table := { hi.table with }, registers := { hi.registers with rep := hr } }, h.phase, h.seq, h.counts⟩
      exact inSequence_putLens v hrep hn
    · exact ⟨nofun, k, hk, rfl, rfl⟩
  · exact ensures_raised hbit nofun rfl rfl

/-- A zero run behind its `k` extra bits (43_block_header.md R173, R174). -/
theorem skipZeroRun_ensures {k rep : Nat} {s : State} (h : InSequence s) (hr : rep ≤ 138) :
    ((bcSkip k s).bind fun _ s => putZeroRun rep s).Ensures s InSequence := by
  have hrun := skipRun_ensures (v := 0) (k := k) h hr
  simp only [putZeroRun, ← res_bind_assoc]
  cases hx : (bcSkip k s).bind fun _ s => putRun 0 rep s with
  | ok a u =>
    rw [hx] at hrun
    exact inSequence_prevLen hrun
  | raised c u => rwa [hx] at hrun
  | refused r => trivial

/-- A code-length symbol keeps the invariant (43_block_header.md R171 to R174). -/
theorem inv_exec_clsym {i : Instr} {s t : State} (hf : i.format = .clsym) (h : Inv s) (hp : s.phase = .dynhdr)
    (hq : s.seq = .clsym) (ht : exec i s = .next t) : Inv t := by
  obtain ⟨hc, hlt⟩ := h.table.clsym hp hq
  have hseq : InSequence s := ⟨inv_forgetPlace h, hp, hq, hc⟩
  cases i with
  | clLen sym =>
    refine inv_clSymbol h (by omega) ?_ ht
    exact inSequence_prevLen (inSequence_putLens sym hseq hlt)
  | clRep16 e =>
    refine inv_clSymbol h (by decide) ?_ ht
    rw [repeatPrev]
    split
    · exact ensures_raised h.cursor.curBit nofun rfl rfl
    · exact skipRun_ensures hseq (by rw [rep16Of]; omega)
  | clZero17 e =>
    refine inv_clSymbol h (by decide) ?_ ht
    exact skipZeroRun_ensures hseq (by rw [rep17Of]; omega)
  | clZero18 e =>
    refine inv_clSymbol h (by decide) ?_ ht
    exact skipZeroRun_ensures hseq (by rw [rep18Of]; omega)
  | _ => cases hf

/-! ## The block body -/

/-- The literal/length symbols: literals, EOB, the length symbols, and the two reserved ones (30_encoding.md R87,
R89). -/
theorem llsym_cases {i : Instr} (hf : i.format = .llsym) :
    (∃ b, i = .lit b) ∨ i = .eob ∨ (257 ≤ i.element.2.1 ∧ i.element.2.1 ≤ 285) ∨ i = .llRsv286 ∨ i = .llRsv287 := by
  cases i with
  | lit b => exact .inl ⟨b, rfl⟩
  | eob => exact .inr (.inl rfl)
  | llRsv286 => exact .inr (.inr (.inr (.inl rfl)))
  | llRsv287 => exact .inr (.inr (.inr (.inr rfl)))
  | _ => simp [Instr.format, Instr.element] at hf ⊢

/-- The distance symbols, and the two reserved ones (30_encoding.md R88, R90). -/
theorem dsym_cases {i : Instr} (hf : i.format = .dsym) :
    i.element.2.1 ≤ 29 ∨ i = .distRsv30 ∨ i = .distRsv31 := by
  cases i with
  | distRsv30 => exact .inr (.inl rfl)
  | distRsv31 => exact .inr (.inr rfl)
  | _ => simp [Instr.format, Instr.element] at hf ⊢

/-- The value of an element's extra bits fits in them (30_encoding.md R86 to R88). -/
theorem element_extra_lt (i : Instr) : i.element.2.2 < 2 ^ i.format.extraBits i.element.2.1 := by
  cases i with
  | clRep16 e | clZero17 e | clZero18 e => exact e.isLt
  | len265 e | len266 e | len267 e | len268 e | len269 e | len270 e | len271 e | len272 e | len273 e | len274 e
  | len275 e | len276 e | len277 e | len278 e | len279 e | len280 e | len281 e | len282 e | len283 e | len284 e =>
    simpa [Instr.element, Instr.format, Format.extraBits, lenExtra, lenRows] using e.isLt
  | dist4 e | dist5 e | dist6 e | dist7 e | dist8 e | dist9 e | dist10 e | dist11 e | dist12 e | dist13 e | dist14 e
  | dist15 e | dist16 e | dist17 e | dist18 e | dist19 e | dist20 e | dist21 e | dist22 e | dist23 e | dist24 e
  | dist25 e | dist26 e | dist27 e | dist28 e | dist29 e => exact e.isLt
  | _ => exact Nat.two_pow_pos _

/-- An append that fits stays within OUT_CAP (44_block_body.md R197). -/
theorem inv_execLit {b : BitVec 8} {s t : State} (h : Inv s) (ht : execLit b s = .next t) : Inv t := by
  have hb := b.isLt
  rw [execLit] at ht
  by_cases hf : s.params.outCap = some s.outLen
  · rw [symbolElement_of_raised (outAppend_of_full b hf)] at ht
    cases ht
    exact inv_raiseError h nofun
  · rw [symbolElement_of_ok (outAppend_of_room b hf)] at ht
    cases ht
    have hout : ({ s with outLen := s.outLen + 1 } : State).outOk := fun cap hcap =>
      Nat.lt_of_le_of_ne (h.out cap hcap) fun he => hf (he ▸ hcap)
    have happ : Inv { s with outMem := Memory.write s.outMem s.outLen b, outLen := s.outLen + 1 } :=
      inv_output h (memory_wf_write _ _ h.outMem) hout
    exact inv_sym happ (by omega)

/-- The block ends in DONE or before the next block header (44_block_body.md R191). -/
theorem inv_execEob {s t : State} (h : Inv s) (hs : s.phase ≠ .error) (ht : execEob s = .next t) : Inv t := by
  cases ht
  have hend : Inv s.endBlock :=
    inv_place (inv_forgetPlace h) hs (by split <;> exact nofun) (tableOk_of_place fun _ => ⟨nofun, nofun⟩)
  exact inv_sym hend (by decide)

/-- A length symbol (44_block_body.md R192). -/
theorem inv_lengthSymbol {sym e : Nat} {s t : State} (h : Inv s) (hs : s.phase ≠ .error) (hsym : sym < 288)
    (he : e < 2 ^ lenExtra sym) (ht : (lengthSymbol sym e s).toOutcome = .next t) : Inv t := by
  have hlen := lenBase_add_le he
  rcases lengthSymbol_cases sym e s with ⟨hr, hx⟩ | ⟨-, hx⟩ <;> rw [hx] at ht <;> cases ht
  · have hadv := inv_advance h hr
    have href : Inv { s.advance (lenExtra sym) with extra := e, curLen := lenBase sym + e } :=
      inv_backref hadv hlen hadv.registers.curDist (by omega)
    have hplace : Inv { s.advance (lenExtra sym) with extra := e, curLen := lenBase sym + e, seq := .dist } :=
      inv_place (inv_forgetPlace href) hs hs (tableOk_of_place fun _ => ⟨nofun, nofun⟩)
    exact inv_sym hplace hsym
  · exact inv_raiseError h nofun

/-- A copy that completes has written bytes below OUT_CAP; one that raises leaves the cursor (44_block_body.md R195). -/
theorem copyBackref_cases (s : State) :
    (∃ m n, copyBackref s = .ok () { s with outMem := m, outLen := n } ∧ (s.outMem.wf = true → Memory.wf m = true) ∧
      (s.outOk → ({ s with outLen := n } : State).outOk)) ∨
    ∃ c u, c ≠ .none ∧ copyBackref s = .raised c u ∧ u.curByte = s.curByte ∧ u.curBit = s.curBit := by
  rcases Nat.lt_or_ge s.outLen s.curDist with hd | hd
  · exact .inr ⟨.distTooFar, _, nofun, copyBackref_of_far hd, rfl, rfl⟩
  · rw [copyBackref_of_near hd]
    obtain ⟨k, m, -, ⟨-, he⟩ | ⟨-, -, he⟩, hroom, hwf, -, -⟩ := copyBytes_cases s.curLen s
    · refine .inl ⟨m, s.outLen + k, he, hwf, fun ho cap hcap => ?_⟩
      have hle := ho cap hcap
      by_contra hgt
      refine hroom (cap - s.outLen) ?_ ?_
      · have : ¬s.outLen + k ≤ cap := hgt
        omega
      · rw [Nat.add_sub_cancel' hle]
        exact hcap
    · exact .inr ⟨.outFull, _, nofun, he, rfl, rfl⟩

/-- A distance symbol and its copy (44_block_body.md R193, R195). -/
theorem inv_distanceSymbol {d e : Nat} {s t : State} (h : Inv s) (hs : s.phase ≠ .error) (hd : d ≤ 29)
    (he : e < 2 ^ distExtra d) (ht : (distanceSymbol d e s).toOutcome = .next t) : Inv t := by
  have hdist := distBase_add_le he
  have hextra : e < 8192 := by
    have key : ∀ d, d < 30 → 2 ^ distExtra d ≤ 8192 := by decide
    exact Nat.lt_of_lt_of_le he (key d (by omega))
  rcases Nat.lt_or_ge s.bitsRemaining (distExtra d) with hr | hr
  · rw [distanceSymbol_of_lt e hr] at ht
    cases ht
    exact inv_raiseError h nofun
  · rw [distanceSymbol_of_le e hr] at ht
    refine inv_of_atomic (inv_forgetPlace h) ?_ ht
    have hadv := inv_advance h hr
    have href : Inv { s.advance (distExtra d) with extra := e, curDist := distBase d + e } :=
      inv_backref hadv hadv.registers.curLen hdist hextra
    rcases copyBackref_cases { s.advance (distExtra d) with extra := e, curDist := distBase d + e } with
      ⟨m, n, hc, hwf, hout⟩ | ⟨c, u, hne, hc, h1, h2⟩ <;> rw [hc]
    · have hcopy := inv_output href (hwf href.outMem) (hout href.out)
      have hplace := inv_place (p := s.phase) (q := .ll) (inv_forgetPlace hcopy) hs hs
        (tableOk_of_place fun _ => ⟨nofun, nofun⟩)
      exact inv_sym hplace (by omega)
    · exact ⟨hne, _, hr, h1, h2⟩

/-- A literal/length symbol keeps the invariant (44_block_body.md R190 to R192, R196). -/
theorem inv_exec_llsym {i : Instr} {s t : State} (hf : i.format = .llsym) (h : Inv s) (hs : s.phase ≠ .error)
    (ht : exec i s = .next t) : Inv t := by
  have hextra := element_extra_lt i
  rw [hf] at hextra
  rcases llsym_cases hf with ⟨b, rfl⟩ | rfl | ⟨h1, h2⟩ | rfl | rfl
  · exact inv_execLit h ht
  · exact inv_execEob h hs ht
  · rw [exec_length (e := i.element.2.2) s (by rw [← hf]; rfl) h1 h2] at ht
    exact inv_lengthSymbol h hs (by omega) hextra ht
  · cases ht
    exact inv_raiseError h nofun
  · cases ht
    exact inv_raiseError h nofun

/-- A distance symbol keeps the invariant (44_block_body.md R193, R194). -/
theorem inv_exec_dsym {i : Instr} {s t : State} (hf : i.format = .dsym) (h : Inv s) (hs : s.phase ≠ .error)
    (ht : exec i s = .next t) : Inv t := by
  have hextra := element_extra_lt i
  rw [hf] at hextra
  rcases dsym_cases hf with h1 | rfl | rfl
  · rw [exec_distance (e := i.element.2.2) s (by rw [← hf]; rfl) h1] at ht
    exact inv_distanceSymbol h hs h1 hextra ht
  · cases ht
    exact inv_raiseError h nofun
  · cases ht
    exact inv_raiseError h nofun

/-! ## The internal commands -/

theorem inv_returnBits {s : State} {v : Nat} (h : Inv s) : Inv (s.returnBits v) := inv_of_unread h rfl

/-- The alignment moves the cursor to the next byte, which is not past the end: at the end no bit of a byte has been
consumed (40_bit_cursor.md R125). -/
theorem inv_bcByteAlign {s : State} (h : Inv s) : Inv (bcByteAlign s) := by
  obtain ⟨-, hle, hend, hin⟩ := h.cursor
  rw [bcByteAlign]
  split
  · exact h
  · next hbit =>
    exact inv_cursor h ⟨Nat.zero_lt_succ 7, Nat.lt_of_le_of_ne hle fun he => hbit (hend he), fun _ => rfl, hin⟩

/-- A bit-cursor command keeps the invariant (40_bit_cursor.md R121 to R126). -/
theorem inv_exec_bccmd {i : Instr} {s t : State} (hf : i.format = .bccmd) (h : Inv s) (ht : exec i s = .next t) :
    Inv t := by
  have hraise : ∀ {u}, Host.Outcome.next (s.raiseError .inExhausted) = (.next u : Host.Outcome State Fault Refusal) →
      Inv u := by
    rintro _ ⟨⟩
    exact inv_raiseError h nofun
  cases i with
  | bcPeek n =>
    simp only [exec, execBcPeek] at ht
    split at ht
    · rcases Nat.lt_or_ge s.bitsRemaining n.toNat with hr | hr
      · rw [bcPeek_of_lt hr] at ht
        exact hraise ht
      · rw [bcPeek_of_le hr] at ht
        cases ht
        exact inv_returnBits h
    · cases ht
  | bcConsume n =>
    simp only [exec, execBcConsume] at ht
    split at ht
    · rcases Nat.lt_or_ge s.bitsRemaining n.toNat with hr | hr
      · rw [bcConsume_of_lt hr] at ht
        exact hraise ht
      · rw [bcConsume_of_le hr] at ht
        cases ht
        exact inv_returnBits (inv_advance h hr)
    · cases ht
  | bcConsumeBit n =>
    simp only [exec, execBcConsumeBit] at ht
    rcases bcConsumeBit_cases s with ⟨hr, he⟩ | ⟨-, he⟩ <;> rw [he] at ht
    · cases ht
      exact inv_returnBits (inv_advance h hr)
    · exact hraise ht
  | bcByteAlign n =>
    cases ht
    exact inv_bcByteAlign h
  | _ => cases hf

/-- A Huffman command keeps the invariant (41_huffman.md R131, R138). -/
theorem inv_exec_hufcmd {i : Instr} {s t : State} (hf : i.format = .hufcmd) (h : Inv s) (ht : exec i s = .next t) :
    Inv t := by
  cases i with
  | hufBuild tree =>
    simp only [exec, execHufBuild] at ht
    rcases hufBuild_cases tree s with ⟨-, he⟩ | ⟨hb, -, he⟩ | ⟨c, hc, -, -, he⟩ <;> rw [he] at ht <;> cases ht
    · refine inv_iff_forgetPlace.2 ⟨inv_afterBuild (inv_forgetPlace h) hb, ?_⟩
      obtain ⟨clt, llt, dt, bl, next, he⟩ := afterBuild_eq s tree
      rw [he]
      exact { h.table with }
    · exact inv_raiseError h hc
  | hufLookup tree =>
    simp only [exec, execHufLookup] at ht
    obtain ⟨k, hk, ⟨m, he, -⟩ | he | he⟩ := hufLookup_cases tree h.cursor.curBit <;> rw [he] at ht <;> cases ht
    · exact inv_sym (inv_advance h hk) (arena_sym_lt h.arenas tree m)
    · exact inv_raiseError (inv_advance h hk) nofun
    · exact inv_raiseError (inv_advance h hk) nofun
  | _ => cases hf

/-! ## The format of a decoded word -/

theorem decodeSymbolRow_eq_ok {row : Option SymbolRow} {e : Nat} {i : Instr} (h : decodeSymbolRow row e = .ok i) :
    ∃ r, row = some r ∧ i = r.2 e := by
  cases row with
  | none => cases h
  | some r =>
    rw [decodeSymbolRow] at h
    split at h <;> cases h
    exact ⟨r, rfl, rfl⟩

/-- A row of an alphabet whose rows all make instructions of format `f` makes one. -/
theorem decodeSymbolRow_format {rows : List SymbolRow} {f : Format} {k e : Nat} {i : Instr}
    (hrows : ∀ r ∈ rows, ∀ e, (r.2 e).format = f) (h : decodeSymbolRow rows[k]? e = .ok i) : i.format = f := by
  obtain ⟨r, hr, rfl⟩ := decodeSymbolRow_eq_ok h
  exact hrows r (List.mem_of_getElem? hr) e

theorem clSymbolRows_format : ∀ r ∈ clSymbolRows, ∀ e, (r.2 e).format = .clsym := by
  intro r hr e
  fin_cases hr <;> rfl

theorem llSymbolRows_format : ∀ r ∈ llSymbolRows, ∀ e, (r.2 e).format = .llsym := by
  intro r hr e
  fin_cases hr <;> rfl

theorem distSymbolRows_format : ∀ r ∈ distSymbolRows, ∀ e, (r.2 e).format = .dsym := by
  intro r hr e
  fin_cases hr <;> rfl

/-- A decoded instruction has the format its word was read in. -/
theorem decode_format {f : Format} {w : Nat} {i : Instr} (h : decode f w = .ok i) : i.format = f := by
  cases f with
  | zhdr | dynhdr | clcl =>
    rw [decode] at h
    split at h <;> cases h
    rfl
  | bhdr =>
    simp only [decode, decodeBhdr] at h
    split at h <;> cases h <;> rfl
  | clsym =>
    simp only [decode, decodeClsym] at h
    split at h
    · split at h <;> cases h
      rfl
    · exact decodeSymbolRow_format clSymbolRows_format h
  | llsym =>
    simp only [decode, decodeLlsym] at h
    split at h
    · split at h <;> cases h
      rfl
    · exact decodeSymbolRow_format llSymbolRows_format h
  | dsym => exact decodeSymbolRow_format distSymbolRows_format h
  | bccmd =>
    simp only [decode, decodeBccmd, decodeWidth] at h
    split at h
    · split at h <;> cases h
      rfl
    · split at h <;> cases h
      rfl
    all_goals cases h <;> rfl
  | hufcmd =>
    simp only [decode, decodeHufcmd] at h
    split at h <;> cases h <;> rfl
  | ctrl =>
    simp only [decode] at h
    split at h
    · split at h <;> cases h
      rfl
    · cases h

/-! ## The engine's turn -/

/-- The format the sequencer reads an element in (30_encoding.md R80). -/
def Slot.format : Slot → Format
  | .zhdr => .zhdr
  | .bhdr => .bhdr
  | .dynhdr => .dynhdr
  | .clcl => .clcl
  | .clsym => .clsym
  | .llsym => .llsym
  | .dsym => .dsym

theorem decodeWord_eq_ok {f : Format} {w : Nat} {s u : State} {i : Instr} (h : decodeWord f w s = .ok i u) :
    i.format = f ∧ u = s := by
  rw [decodeWord] at h
  split at h
  · next hd =>
    cases h
    exact ⟨decode_format hd, rfl⟩
  · cases h

theorem decodeWord_ne_raised (f : Format) (w : Nat) (s u : State) (c : Cause) : decodeWord f w s ≠ .raised c u := by
  rw [decodeWord]
  split <;> exact nofun

/-- A fetch that answers gives an instruction of the slot's format, with nothing changed but the bits of a symbol's code
consumed (30_encoding.md R80). -/
theorem fetch_eq_ok {k : Slot} {s u : State} {i : Instr} (hc : s.curBit < 8) (h : fetch k s = .ok i u) :
    i.format = k.format ∧ ∃ n, n ≤ s.bitsRemaining ∧ u = s.advance n := by
  have hword : ∀ {f w}, decodeWord f w s = .ok i u → i.format = f ∧ ∃ n, n ≤ s.bitsRemaining ∧ u = s.advance n :=
    fun hd => ⟨(decodeWord_eq_ok hd).1, 0, Nat.zero_le _, by rw [advance_zero hc, (decodeWord_eq_ok hd).2]⟩
  have hsym : ∀ {f t}, fetchSymbol f t s = .ok i u → i.format = f ∧ ∃ n, n ≤ s.bitsRemaining ∧ u = s.advance n := by
    intro f t hd
    obtain ⟨n, hn, ⟨m, he, -⟩ | he | he⟩ := fetchSymbol_cases f t hc <;> rw [he] at hd
    · exact ⟨(decodeWord_eq_ok hd).1, n, hn, (decodeWord_eq_ok hd).2⟩
    · cases hd
    · cases hd
  cases k with
  | zhdr | bhdr | dynhdr | clcl =>
    rw [fetch] at h
    exact hword h
  | clsym | llsym | dsym =>
    rw [fetch] at h
    exact hsym h

/-- A fetch that raises has a cause, and has consumed bits of a symbol's code (41_huffman.md R138, R139). -/
theorem fetch_eq_raised {k : Slot} {s u : State} {c : Cause} (hc : s.curBit < 8) (h : fetch k s = .raised c u) :
    c ≠ .none ∧ ∃ n, n ≤ s.bitsRemaining ∧ u = s.advance n := by
  have hsym : ∀ {f t}, fetchSymbol f t s = .raised c u → c ≠ .none ∧ ∃ n, n ≤ s.bitsRemaining ∧ u = s.advance n := by
    intro f t hd
    obtain ⟨n, hn, ⟨m, he, -⟩ | he | he⟩ := fetchSymbol_cases f t hc <;> rw [he] at hd
    · exact absurd hd (decodeWord_ne_raised _ _ _ _ _)
    · cases hd
      exact ⟨nofun, n, hn, rfl⟩
    · cases hd
      exact ⟨nofun, n, hn, rfl⟩
  cases k with
  | zhdr | bhdr | dynhdr | clcl =>
    rw [fetch] at h
    exact absurd h (decodeWord_ne_raised _ _ _ _ _)
  | clsym | llsym | dsym =>
    rw [fetch] at h
    exact hsym h

/-- The place an element of format `f` is fetched at: a session runs, and the code lengths are read at their own places
(43_block_header.md R169, R170). -/
structure FetchedAt (f : Format) (s : State) : Prop where
  phase : s.phase ≠ .error
  clcl : f = .clcl → s.phase = .dynhdr ∧ s.seq = .clcl
  clsym : f = .clsym → s.phase = .dynhdr ∧ s.seq = .clsym

theorem fetchedAt_of_nextSlot {s : State} {k : Slot} (h : s.nextSlot = some k) : FetchedAt k.format s := by
  rw [State.nextSlot] at h
  cases hp : s.phase with
  | idle | done | error => simp [hp] at h
  | zhdr | bhdr =>
    obtain rfl : _ = k := by simpa [hp] using h
    exact ⟨by simp [hp], nofun, nofun⟩
  | dynhdr | body =>
    cases hq : s.seq <;> obtain rfl : _ = k := by { simpa [hp, hq] using h }
    all_goals exact ⟨by simp [hp], by simp [Slot.format, hp, hq], by simp [Slot.format, hp, hq]⟩

/-- CMD_START keeps the invariant (10_state.md R21, R43). -/
theorem inv_exec_ctrl {i : Instr} {s t : State} (hf : i.format = .ctrl) (h : Inv s) (ht : exec i s = .next t) :
    Inv t := by
  cases i with
  | cmdStart r =>
    simp only [exec, execCmdStart] at ht
    split at ht <;> cases ht
    · exact h
    · exact inv_startSession h
  | _ => cases hf

/-- A stream element keeps the invariant where the sequencer fetches it, and a command wherever it comes. -/
theorem inv_exec {i : Instr} {s t : State} (hat : FetchedAt i.format s) (h : Inv s) (ht : exec i s = .next t) :
    Inv t := by
  cases hf : i.format with
  | zhdr =>
    cases i with
    | zlibHeader cmf flg => exact inv_of_atomic (inv_forgetPlace h) (zlibHeader_ensures h hat.phase) ht
    | _ => cases hf
  | bhdr => exact inv_exec_bhdr hf h hat.phase ht
  | dynhdr =>
    cases i with
    | dynHeader a b c => exact inv_execDynHeader h ht
    | _ => cases hf
  | clcl =>
    cases i with
    | clclField len => exact inv_execClclField h (hat.clcl hf).1 (hat.clcl hf).2 ht
    | _ => cases hf
  | clsym => exact inv_exec_clsym hf h (hat.clsym hf).1 (hat.clsym hf).2 ht
  | llsym => exact inv_exec_llsym hf h hat.phase ht
  | dsym => exact inv_exec_dsym hf h hat.phase ht
  | bccmd => exact inv_exec_bccmd hf h ht
  | hufcmd => exact inv_exec_hufcmd hf h ht
  | ctrl => exact inv_exec_ctrl hf h ht

/-- The engine's turn keeps the invariant. -/
theorem inv_engineStep {s t : State} (h : Inv s) (ht : engineStep s = .next t) : Inv t := by
  rw [engineStep] at ht
  cases hk : s.nextSlot with
  | none =>
    rw [hk] at ht
    cases ht
    exact h
  | some k =>
    simp only [hk] at ht
    cases hx : fetch k s with
    | ok i u =>
      rw [hx] at ht
      obtain ⟨hf, n, hn, rfl⟩ := fetch_eq_ok h.cursor.curBit hx
      have hat := fetchedAt_of_nextSlot hk
      rw [← hf] at hat
      refine inv_exec ?_ (inv_advance h hn) ht
      exact ⟨hat.phase, hat.clcl, hat.clsym⟩
    | raised c u =>
      rw [hx] at ht
      obtain ⟨hc, n, hn, rfl⟩ := fetch_eq_raised h.cursor.curBit hx
      cases ht
      exact inv_raiseError (inv_advance h hn) hc
    | refused r =>
      rw [hx] at ht
      cases ht

/-! ## The host's moves and the command ports -/

theorem cleared_wf_of_le {c al : Nat} (hc : 1 ≤ c) (hal : 0 < al) : Arena.wf c al Arena.cleared :=
  { cleared_wf hal with size := hc }

/-- The state after reset has the invariant (10_state.md R42). -/
theorem inv_resetWith {p : Config.Params} (hp : p.wf = true) : Inv (State.resetWith p) where
  params := hp
  inMem := rfl
  outMem := rfl
  hostOut := rfl
  cursor := ⟨Nat.zero_lt_succ 7, Nat.le_refl _, fun _ => rfl, Nat.zero_le _⟩
  registers :=
    { clLens := List.length_replicate, lenTable := List.length_replicate, blCount := List.length_replicate
      nextCode := List.length_replicate
      blCountEntry := fun c hc => by rw [List.eq_of_mem_replicate hc]; exact Nat.zero_le _
      nextCodeEntry := fun c hc => by rw [List.eq_of_mem_replicate hc]; exact Nat.zero_le _
      inLenReg := Nat.zero_le _, hlit := Nat.zero_le _, hdist := Nat.zero_le _, hclen := Nat.zero_le _
      lenIdx := Nat.zero_le _, rep := Nat.zero_le _, sym := Nat.zero_lt_succ _, curLen := Nat.zero_le _
      curDist := Nat.zero_le _, extra := Nat.zero_lt_succ _ }
  arenas :=
    { clt := cleared_wf_of_le (show 1 ≤ 44 by decide) (by decide)
      llt := cleared_wf_of_le (show 1 ≤ 586 by decide) (by decide)
      dt := cleared_wf_of_le (show 1 ≤ 74 by decide) (by decide) }
  pair := .inl ⟨rfl, rfl⟩
  table := tableOk_of_place nofun
  error := ⟨rfl, nofun, fun h => absurd rfl h⟩
  out := fun _ _ => Nat.zero_le _

theorem inv_assertReset {s : State} (h : Inv s) : Inv s.assertReset := inv_of_unread (inv_resetWith h.params) rfl

theorem inv_writeIn {s : State} (a : Nat) (b : Byte) (h : Inv s) : Inv (s.writeIn a b) :=
  { h with
    inMem := memory_wf_write a b h.inMem
    cursor := { h.cursor with }, registers := { h.registers with }, arenas := { h.arenas with }
    table := { h.table with }, error := { h.error with } }

theorem inv_writeHostOut {s : State} (a : Nat) (b : Byte) (h : Inv s) : Inv (s.writeHostOut a b) :=
  { h with
    outMem := memory_wf_write a b h.outMem, hostOut := memory_wf_write a b h.hostOut
    cursor := { h.cursor with }, registers := { h.registers with }, arenas := { h.arenas with }
    table := { h.table with }, error := { h.error with } }

theorem inv_inLenReg {s : State} {v : Word} (h : Inv s) (hv : v.toNat ≤ s.params.inLenMax) :
    Inv { s with inLenReg := v } :=
  { h with
    registers := { h.registers with inLenReg := hv }
    cursor := { h.cursor with }, arenas := { h.arenas with }, table := { h.table with }, error := { h.error with } }

/-- A host write of a register keeps the invariant (10_state.md R20, R21, R24). -/
theorem inv_hostWriteReg {r : HostReg} {v : Word} {s t : State} (h : Inv s) (ht : hostWriteReg r v s = .next t) :
    Inv t := by
  cases r with
  | ctrl =>
    simp only [hostWriteReg, hostWriteCtrl] at ht
    split at ht
    · next i hd => exact inv_exec_ctrl (decode_format hd) h ht
    · cases ht
      exact h
  | inLen =>
    simp only [hostWriteReg, hostWriteInLen] at ht
    split at ht
    · cases ht
      exact h
    · split at ht <;> cases ht
      exact inv_inLenReg h (by omega)
  | status | error | outLen | zlibHdr | block | cursor =>
    cases ht
    exact h

/-- A command on a port keeps the invariant (30_encoding.md R97). -/
theorem inv_runCommand {port : CommandPort} {w : Nat} {s t : State} (h : Inv s) (ht : runCommand port w s = .next t) :
    Inv t := by
  rw [runCommand] at ht
  split at ht
  · split at ht
    · next i hd =>
      cases port with
      | bitCursor => exact inv_exec_bccmd (decode_format hd) h ht
      | huffman => exact inv_exec_hufcmd (decode_format hd) h ht
    · cases ht
  · cases ht

/-- Whatever happens next outside the engine keeps the invariant. -/
theorem inv_takeInput {x : Input} {s t : State} (h : Inv s) (ht : takeInput x s = .next t) : Inv t := by
  cases x with
  | engine => exact inv_engineStep h ht
  | writeIn a b =>
    simp only [takeInput, hostWriteIn] at ht
    split at ht <;> cases ht
    exact inv_writeIn a b h
  | writeOut a b =>
    simp only [takeInput, hostWriteOut] at ht
    split at ht <;> cases ht
    exact inv_writeHostOut a b h
  | writeReg offset v =>
    simp only [takeInput] at ht
    split at ht
    · exact inv_hostWriteReg h ht
    · cases ht
  | readReg offset =>
    simp only [takeInput] at ht
    split at ht <;> cases ht
    exact inv_of_unread h rfl
  | readOut a =>
    cases ht
    exact inv_of_unread h rfl
  | reset =>
    cases ht
    exact inv_assertReset h
  | command port w => exact inv_runCommand h ht

/-- Settles O50: a step takes the next input or the engine's turn. A host's move and a command keep the invariant in
every state, and an element at the place where the sequencer fetches it. -/
theorem everyStepKeepsTheInvariant : Obligations.EveryStepKeepsTheInvariant := by
  intro s t h ht
  cases hi : s.inputs with
  | nil =>
    rw [step_of_no_input hi] at ht
    exact inv_engineStep h ht
  | cons x rest =>
    rw [step_of_input hi] at ht
    have hrest : Inv { s with inputs := rest } := inv_of_unread h rfl
    exact inv_takeInput hrest ht

/-! ## What a host move does -/

theorem step_input (s : State) (x : Input) (rest : List Input) :
    step { s with inputs := x :: rest } = takeInput x { s with inputs := rest } := step_of_input rfl

theorem step_writeReg (s : State) {offset : Nat} {r : HostReg} (v : Word) (rest : List Input)
    (h : hostRegAt offset = some r) :
    step { s with inputs := .writeReg offset v :: rest } = hostWriteReg r v { s with inputs := rest } := by
  rw [step_input, takeInput, h]

/-- A host read of a register whose contents are defined returns what the register shows (10_state.md R45). -/
theorem step_readReg_defined (s : State) {offset : Nat} {r : HostReg} (rest : List Input)
    (h : hostRegAt offset = some r) (hd : s.isDefined r = true) :
    ∃ t, step { s with inputs := .readReg offset :: rest } = .next t ∧ t.regData = s.shownWord r := by
  refine ⟨State.hostReadReg { s with inputs := rest } r, by rw [step_input, takeInput, h], ?_⟩
  rw [hostReadReg_regData]
  exact if_pos hd

/-- The eight registers stand at the eight offsets (10_state.md R20). -/
theorem hostRegAt_of_mem {offset : Nat} (h : offset ∈ [0x00, 0x04, 0x08, 0x0C, 0x10, 0x14, 0x18, 0x1C]) :
    ∃ r, hostRegAt offset = some r := by
  fin_cases h <;> exact ⟨_, rfl⟩

/-- The six read-only registers stand at the other offsets than CTRL's and IN_LEN's (10_state.md R20). -/
theorem hostRegAt_of_mem_readOnly {offset : Nat} (h : offset ∈ [0x04, 0x08, 0x10, 0x14, 0x18, 0x1C]) :
    ∃ r, hostRegAt offset = some r ∧ r ≠ .ctrl ∧ r ≠ .inLen := by
  fin_cases h <;> exact ⟨_, rfl, nofun, nofun⟩

/-- A write of a read-only register is ignored (10_state.md R20). -/
theorem hostWriteReg_readOnly {r : HostReg} (v : Word) (s : State) (hc : r ≠ .ctrl) (hi : r ≠ .inLen) :
    hostWriteReg r v s = .next s := by
  cases r with
  | ctrl => exact absurd rfl hc
  | inLen => exact absurd rfl hi
  | status | error | outLen | zlibHdr | block | cursor => rfl

/-- START = 1 encodes CMD_START, whatever the reserved bits hold (10_state.md R21). -/
theorem decode_ctrl_set {v : Word} (h : v.getLsbD 0 = true) :
    decode .ctrl v.toNat = .ok (.cmdStart (.ofNat 31 (v.toNat / 2))) := by
  have hv : v.toNat % 2 = 1 := by simpa [BitVec.getLsbD, Nat.testBit_zero] using h
  rw [decode, if_pos v.isLt, if_pos hv]

theorem decode_ctrl_clear {v : Word} (h : v.getLsbD 0 = false) : decode .ctrl v.toNat = .error .startNotSet := by
  have hv : ¬v.toNat % 2 = 1 := by simpa [BitVec.getLsbD, Nat.testBit_zero] using h
  rw [decode, if_pos v.isLt, if_neg hv]

theorem hostWriteCtrl_set {v : Word} (s : State) (h : v.getLsbD 0 = true) :
    hostWriteCtrl v s = exec (.cmdStart (.ofNat 31 (v.toNat / 2))) s := by
  rw [hostWriteCtrl, decode_ctrl_set h]

theorem hostWriteCtrl_clear {v : Word} (s : State) (h : v.getLsbD 0 = false) : hostWriteCtrl v s = .next s := by
  rw [hostWriteCtrl, decode_ctrl_clear h]

theorem exec_cmdStart_busy (r : BitVec 31) {s : State} (h : s.status = .busy) : exec (.cmdStart r) s = .next s := by
  rw [exec, execCmdStart, if_pos h]

theorem exec_cmdStart_not_busy (r : BitVec 31) {s : State} (h : s.status ≠ .busy) :
    exec (.cmdStart r) s = .next s.startSession := by
  rw [exec, execCmdStart, if_neg h]

/-- While BUSY a write of any register is ignored (10_state.md R20, R21, R24). -/
theorem hostWriteReg_busy (r : HostReg) (v : Word) {s : State} (h : s.status = .busy) :
    hostWriteReg r v s = .next s := by
  cases r with
  | ctrl =>
    cases hv : v.getLsbD 0 with
    | true => exact (hostWriteCtrl_set s hv).trans (exec_cmdStart_busy _ h)
    | false => exact hostWriteCtrl_clear s hv
  | inLen => exact if_pos h
  | status | error | outLen | zlibHdr | block | cursor => rfl

/-- A write of IN_LEN up to IN_LEN_MAX sets it while not BUSY (10_state.md R24). -/
theorem hostWriteInLen_not_busy {v : Word} {s : State} (h : s.status ≠ .busy) (hv : v.toNat ≤ s.params.inLenMax) :
    hostWriteInLen v s = .next { s with inLenReg := v } := by
  rw [hostWriteInLen, if_neg h, if_neg (Nat.not_lt.2 hv)]

/-! ## The words of the registers -/

theorem isDefined_status (s : State) : s.isDefined .status = true := by
  rw [State.isDefined]
  cases s.status <;> rfl

/-- While no session runs and none has ended in an error, every register is defined (10_state.md R45). -/
theorem isDefined_of_idle_or_done {s : State} (r : HostReg) (h : s.status = .idle ∨ s.status = .done) :
    s.isDefined r = true := by
  rw [State.isDefined]
  rcases h with h | h <;> rw [h]

theorem isDefined_ctrl {s : State} (h : s.status ≠ .busy) : s.isDefined .ctrl = true := by
  rw [State.isDefined]
  cases hs : s.status with
  | busy => exact absurd hs h
  | idle | done | error => rfl

theorem isDefined_error {s : State} (h : s.status = .error) : s.isDefined .error = true := by
  rw [State.isDefined, h]
  rfl

theorem errorWord_toNat (s : State) : s.errorWord.toNat = s.errKind.code + 2 ^ 8 * s.errCause.code := by
  have hk : s.errKind.code ≤ 5 := by cases s.errKind <;> decide
  have hc : s.errCause.code ≤ 17 := by cases s.errCause <;> decide
  rw [State.errorWord, BitVec.toNat_ofNat]
  omega

/-- ERROR reads 0 where no error is recorded (10_state.md R23). -/
theorem errorWord_eq_zero {s : State} (h : ErrorOk s) (hp : s.phase ≠ .error) : s.errorWord = 0 := by
  have hc : s.errCause = .none := by
    by_contra hne
    exact hp (h.cause.2 hne)
  rw [State.errorWord, h.kind, hc]
  rfl

theorem zlibHdrWord_toNat (s : State) :
    s.zlibHdrWord.toNat = s.cmf.toNat + s.flg.toNat * 2 ^ 8 + s.cm.toNat * 2 ^ 16 + s.fdict.toNat * 2 ^ 20 := by
  have h1 := s.cmf.isLt
  have h2 := s.flg.isLt
  have h3 := s.cm.isLt
  have h4 := Bool.toNat_le s.fdict
  rw [State.zlibHdrWord, BitVec.toNat_ofNat]
  omega

theorem blockWord_toNat (s : State) : s.blockWord.toNat = s.blockFinal.toNat + s.blockType.toNat * 2 := by
  have h1 := s.blockType.isLt
  have h2 := Bool.toNat_le s.blockFinal
  rw [State.blockWord, BitVec.toNat_ofNat]
  omega

theorem outLenWord_toNat {s : State} (h : s.outLen < 2 ^ 32) : s.outLenWord.toNat = s.outLen := by
  have hw : s.outLenWord = BitVec.ofNat 32 s.outLen := if_pos h
  rw [hw, BitVec.toNat_ofNat, Nat.mod_eq_of_lt h]

theorem cursorWord_toNat {s : State} (h1 : s.curByte < 2 ^ 29) (h2 : s.curBit < 8) :
    s.cursorWord.toNat = s.curBit + s.curByte * 2 ^ 3 := by
  have hw : s.cursorWord = BitVec.ofNat 32 (s.curByte * 8 + s.curBit) := if_pos h1
  rw [hw, BitVec.toNat_ofNat]
  omega

/-- After DONE a host read of an OUT byte below OUT_LEN returns the result's (45_stream.md R215). -/
theorem readOutByte_done {s : State} {a : Nat} (h : s.status = .done) (ha : a < s.outLen) :
    s.readOutByte a = s.outByte a := by
  rw [State.readOutByte, h]
  exact if_pos ha

theorem status_eq_error {s : State} (h : s.phase = .error) : s.status = .error := by rw [State.status, h]; rfl

/-! ## The statements of 10_state.md -/

/-- Settles O42: each register's word, read while the register is defined. -/
theorem hostReadsTheRegisters : Obligations.HostReadsTheRegisters := by
  intro s rest
  refine ⟨?_, fun he => ?_, fun hs => ⟨fun hok => ?_, ?_⟩,
    fun hd => ⟨fun a ha => ?_, fun ho => ?_, ?_, ?_, fun hb hc => ?_⟩⟩
  · obtain ⟨t, ht, hr⟩ := step_readReg_defined s (offset := 0x04) rest rfl (isDefined_status s)
    refine ⟨t, ht, hr.trans ?_⟩
    rw [State.shownWord, State.statusWord]
    cases s.status <;> rfl
  · obtain ⟨t, ht, hr⟩ := step_readReg_defined s (offset := 0x08) rest rfl (isDefined_error he)
    refine ⟨t, ht, ?_⟩
    rw [hr, State.shownWord, errorWord_toNat]
    congr 1
  · obtain ⟨t, ht, hr⟩ := step_readReg_defined s (offset := 0x08) rest rfl (isDefined_of_idle_or_done _ hs)
    refine ⟨t, ht, hr.trans (errorWord_eq_zero hok fun hp => ?_)⟩
    rw [status_eq_error hp] at hs
    rcases hs with hs | hs <;> cases hs
  · exact step_readReg_defined s (offset := 0x0C) rest rfl (isDefined_of_idle_or_done _ hs)
  · exact ⟨_, step_input s _ rest, readOutByte_done (s := { s with inputs := rest }) hd ha⟩
  · obtain ⟨t, ht, hr⟩ := step_readReg_defined s (offset := 0x10) rest rfl (isDefined_of_idle_or_done _ (.inr hd))
    exact ⟨t, ht, by rw [hr, State.shownWord, outLenWord_toNat ho]⟩
  · obtain ⟨t, ht, hr⟩ := step_readReg_defined s (offset := 0x14) rest rfl (isDefined_of_idle_or_done _ (.inr hd))
    exact ⟨t, ht, by rw [hr, State.shownWord, zlibHdrWord_toNat]⟩
  · obtain ⟨t, ht, hr⟩ := step_readReg_defined s (offset := 0x18) rest rfl (isDefined_of_idle_or_done _ (.inr hd))
    exact ⟨t, ht, by rw [hr, State.shownWord, blockWord_toNat]⟩
  · obtain ⟨t, ht, hr⟩ := step_readReg_defined s (offset := 0x1C) rest rfl (isDefined_of_idle_or_done _ (.inr hd))
    exact ⟨t, ht, by rw [hr, State.shownWord, cursorWord_toNat hb hc]⟩

/-- Settles O38: CMD_START is `startSession`, but while BUSY. -/
theorem startBeginsASession : Obligations.StartBeginsASession :=
  fun r _ => ⟨exec_cmdStart_not_busy r, exec_cmdStart_busy r⟩

/-- Settles O39: bit 0 of the word written decides, and CTRL shows 0. -/
theorem controlRegister : Obligations.ControlRegister := by
  intro s v rest
  refine ⟨fun hv => ⟨.ofNat 31 (v.toNat / 2), ?_⟩, fun hv => ?_, fun hs => ?_⟩
  · rw [step_writeReg s v rest rfl]
    exact hostWriteCtrl_set _ hv
  · rw [step_writeReg s v rest rfl]
    exact hostWriteCtrl_clear _ hv
  · exact step_readReg_defined s (offset := 0x00) rest rfl (isDefined_ctrl hs)

/-- Settles O40: no register write has an effect while BUSY, and a write of a memory faults. -/
theorem writesWhileBusy : Obligations.WritesWhileBusy := by
  intro s rest hs
  refine ⟨fun v offset ho => ?_, fun a b => ?_, fun a b => ?_⟩
  · obtain ⟨r, hr⟩ := hostRegAt_of_mem ho
    rw [step_writeReg s v rest hr]
    exact hostWriteReg_busy r v hs
  · rw [step_input]
    exact if_pos hs
  · rw [step_input]
    exact if_pos hs

/-- Settles O41: the writes of the memories and of IN_LEN take effect while not BUSY, those of the other registers have
none. -/
theorem writesWhileNotBusy : Obligations.WritesWhileNotBusy := by
  intro s rest hs
  refine ⟨fun a b => ?_, fun a b => ?_, fun v hv => ?_, fun v offset ho => ?_⟩
  · refine ⟨State.writeIn { s with inputs := rest } a b, ?_, inByte_writeIn_same _ a b,
      fun c hc => inByte_writeIn_other _ b hc, rfl⟩
    rw [step_input]
    exact if_neg hs
  · refine ⟨State.writeHostOut { s with inputs := rest } a b, ?_, outByte_writeOut_same _ a b,
      fun c hc => outByte_writeOut_other _ b hc, rfl⟩
    rw [step_input]
    exact if_neg hs
  · rw [step_writeReg s v rest rfl]
    exact hostWriteInLen_not_busy hs hv
  · obtain ⟨r, hr, hc, hi⟩ := hostRegAt_of_mem_readOnly ho
    rw [step_writeReg s v rest hr]
    exact hostWriteReg_readOnly v _ hc hi

/-- Settles O45: the reset input is `assertReset`, which is the state after reset but for the model's own counters and
schedule. -/
theorem resetLeavesTheSpecsValues : Obligations.ResetLeavesTheSpecsValues := by
  intro s rest
  refine ⟨State.assertReset { s with inputs := rest }, step_input s _ rest, ?_⟩
  exact ⟨rfl, rfl, rfl, rfl, rfl, rfl, rfl, rfl, rfl, rfl, rfl, rfl, rfl, rfl, rfl, rfl⟩

end Sys2Proof.Machine

namespace Sys2Proof.Machine

/-! ## Host reads -/

/-- A host read of a register or of OUT touches the returned value and the count of free values alone. -/
theorem takeInput_read {s t : State} {x : Input} (hx : (∃ offset, x = .readReg offset) ∨ ∃ a, x = .readOut a)
    (ht : takeInput x s = .next t) : t = { s with regData := t.regData, outData := t.outData, draws := t.draws } := by
  rcases hx with ⟨offset, rfl⟩ | ⟨a, rfl⟩
  · rw [takeInput] at ht
    split at ht <;> cases ht
    rfl
  · cases ht
    rfl

/-- Settles O43: a read's effect on the state behind the schedule's move. -/
theorem hostReadsChangeNothing : Obligations.HostReadsChangeNothing := by
  intro s t x rest hx ht
  rw [step_input] at ht
  exact takeInput_read hx ht

/-- While no session runs the engine's turn does nothing (60_exceptions.md R241). -/
theorem engineStep_not_busy {s : State} (h : s.status ≠ .busy) : engineStep s = .next s := by
  have hslot : s.nextSlot = none := by
    rw [State.nextSlot]
    cases hp : s.phase with
    | idle | done | error => rfl
    | zhdr | bhdr | dynhdr | body => exact absurd (by rw [State.status, hp]; rfl) h
  rw [engineStep, hslot]

/-- A byte of OUT the host has written reads back while not BUSY, whether the session leaves it open or not. -/
theorem readOutByte_writeHostOut_same {s : State} (a : Nat) (b : Byte) (h : s.status ≠ .busy) :
    (s.writeHostOut a b).readOutByte a = b := by
  have hout : (s.writeHostOut a b).outByte a = b := outByte_writeOut_same s a b
  rw [State.readOutByte, status_writeHostOut, hout, leftOutByte_writeHostOut_same]
  cases hs : s.status with
  | busy => exact absurd hs h
  | idle | error => rfl
  | done => exact ite_self b

/-- Every other byte of OUT reads as before the host's write. -/
theorem readOutByte_writeHostOut_other {s : State} {a c : Nat} (b : Byte) (h : s.status ≠ .busy) (hne : a ≠ c) :
    (s.writeHostOut c b).readOutByte a = s.readOutByte a :=
  readOutByte_congr h rfl rfl (outByte_writeOut_other s b hne) (leftOutByte_writeHostOut_other s b hne)

/-- A read of OUT behind an input `x` returns what the state after `x` shows. -/
theorem step_readOut_behind {s u : State} {x : Input} {a : Nat} {rest : List Input}
    (hu : takeInput x { s with inputs := .readOut a :: rest } = .next u) (hi : u.inputs = .readOut a :: rest) :
    ∃ t u' v, step { s with inputs := .readOut a :: rest } = .next t ∧
      step { s with inputs := x :: .readOut a :: rest } = .next u' ∧ step u' = .next v ∧
      v.outData = u.readOutByte a ∧ t.outData = s.readOutByte a :=
  ⟨_, u, _, step_input s _ rest, (step_input s x _).trans hu, step_of_input hi, rfl, rfl⟩

/-- An idle turn and the host's reads leave what a read of OUT returns while not BUSY (20_memory.md R69). -/
theorem takeInput_keeps_readOutByte {s : State} {x : Input} (a : Nat) (h : s.status ≠ .busy)
    (hx : x = .engine ∨ (∃ c, x = .readOut c) ∨
      ∃ offset, x = .readReg offset ∧ offset ∈ [0x00, 0x04, 0x08, 0x0C, 0x10, 0x14, 0x18, 0x1C]) :
    ∃ u, takeInput x s = .next u ∧ u.inputs = s.inputs ∧ u.readOutByte a = s.readOutByte a := by
  rcases hx with rfl | ⟨c, rfl⟩ | ⟨offset, rfl, ho⟩
  · exact ⟨s, engineStep_not_busy h, rfl, rfl⟩
  · exact ⟨_, rfl, rfl, readOutByte_congr h rfl rfl rfl rfl⟩
  · obtain ⟨r, hr⟩ := hostRegAt_of_mem ho
    exact ⟨s.hostReadReg r, by rw [takeInput, hr], rfl, readOutByte_congr h rfl rfl rfl rfl⟩

/-- Settles O44: what a read of OUT returns is a function of fields that the moves before it leave, or of the byte
written. -/
theorem hostReadsOfOutAgree : Obligations.HostReadsOfOutAgree := by
  intro s a rest h
  constructor
  · intro x hx
    obtain ⟨u, hu, hi, hr⟩ := takeInput_keeps_readOutByte (s := { s with inputs := .readOut a :: rest }) a h hx
    obtain ⟨t, u, v, ht, hu, hv, h1, h2⟩ := step_readOut_behind hu hi
    exact ⟨t, u, v, ht, hu, hv, h1.trans (hr.trans h2.symm)⟩
  · intro c b
    have hw : takeInput (.writeOut c b) { s with inputs := .readOut a :: rest } =
        .next (State.writeHostOut { s with inputs := .readOut a :: rest } c b) := if_neg h
    obtain ⟨t, u, v, ht, hu, hv, h1, h2⟩ := step_readOut_behind hw rfl
    refine ⟨t, u, v, ht, hu, hv, h1.trans ?_⟩
    split
    · next hac =>
      subst hac
      exact readOutByte_writeHostOut_same a b h
    · next hac => exact (readOutByte_writeHostOut_other b h hac).trans h2.symm

/-! ## The fixed formats: the stream's bits, the field, and the decoder -/

@[simp] theorem lsbFirst_length (v n : Nat) : (lsbFirst v n).length = n := by
  induction n generalizing v with
  | zero => rfl
  | succ n ih => rw [lsbFirst, List.length_cons, ih]

/-- Entry `k` of a field's bits is bit `k` of its value (20_memory.md R62). -/
theorem lsbFirst_getElem? {k n : Nat} (v : Nat) (h : k < n) : (lsbFirst v n)[k]? = some (v.testBit k) := by
  induction n generalizing v k with
  | zero => exact absurd h (Nat.not_lt_zero k)
  | succ n ih =>
    cases k with
    | zero =>
      rw [lsbFirst, List.getElem?_cons_zero, Nat.testBit_zero]
      rfl
    | succ k => rw [lsbFirst, List.getElem?_cons_succ, ih (v / 2) (by omega), Nat.testBit_succ]

/-- A field whose bits the stream holds at the cursor reads as its value. -/
theorem nextField_of_streamAt {s : State} {v n : Nat} (hv : v < 2 ^ n) (hn : 0 < n) (h : s.streamAt (lsbFirst v n)) :
    s.nextField n = v := by
  obtain ⟨hlen, hbits⟩ := h
  rw [lsbFirst_length] at hlen
  rw [nextField_of_le hlen hn]
  refine Nat.eq_of_testBit_eq fun k => ?_
  rw [inBits_testBit]
  rcases Nat.lt_or_ge k n with hk | hk
  · rw [hbits k _ (lsbFirst_getElem? v hk), decide_eq_true hk, Bool.true_and]
  · rw [decide_eq_false (Nat.not_lt.2 hk), Bool.false_and]
    exact (Nat.testBit_lt_two_pow (Nat.lt_of_lt_of_le hv (Nat.pow_le_pow_right (by decide) hk))).symm

theorem decodeWord_of_ok {f : Format} {w : Nat} {i : Instr} (s : State) (h : decode f w = .ok i) :
    decodeWord f w s = .ok i s := by
  rw [decodeWord, h]

/-! The word of a fixed-format element fits its field and decodes to it (30_encoding.md R82, R84, R85). -/

theorem decode_bhdr_element {i : Instr} (hf : i.format = .bhdr) :
    i.element.2.1 < 2 ^ 3 ∧ decode .bhdr i.element.2.1 = .ok i := by
  cases i with
  | blockStored b | blockFixed b | blockDynamic b | blockReserved b => cases b <;> exact ⟨by decide, rfl⟩
  | _ => cases hf

theorem decode_dynhdr_element {i : Instr} (hf : i.format = .dynhdr) :
    i.element.2.1 < 2 ^ 14 ∧ decode .dynhdr i.element.2.1 = .ok i := by
  cases i with
  | dynHeader a b c =>
    have ha := a.isLt
    have hb := b.isLt
    have hc := c.isLt
    have hlt : a.toNat + b.toNat * 32 + c.toNat * 1024 < 16384 := by omega
    refine ⟨hlt, ?_⟩
    have h1 : BitVec.ofNat 5 (a.toNat + b.toNat * 32 + c.toNat * 1024) = a := by bv_omega
    have h2 : BitVec.ofNat 5 ((a.toNat + b.toNat * 32 + c.toNat * 1024) / 32) = b := by bv_omega
    have h3 : BitVec.ofNat 4 ((a.toNat + b.toNat * 32 + c.toNat * 1024) / 1024) = c := by bv_omega
    rw [Instr.element, decode, if_pos hlt, h1, h2, h3]
  | _ => cases hf

theorem decode_clcl_element {i : Instr} (hf : i.format = .clcl) :
    i.element.2.1 < 2 ^ 3 ∧ decode .clcl i.element.2.1 = .ok i := by
  cases i with
  | clclField len =>
    refine ⟨len.isLt, ?_⟩
    rw [Instr.element, decode, if_pos len.isLt, BitVec.ofNat_toNat, BitVec.setWidth_eq]
  | _ => cases hf

/-- The header word holds IN offsets 0 and 1 (20_memory.md R65, 30_encoding.md R81). -/
theorem decode_headerWord {s : State} (h : 2 ≤ s.inLen) :
    decode .zhdr s.headerWord = .ok (.zlibHeader (s.inByte 0) (s.inByte 1)) := by
  generalize h0 : s.inByte 0 = x
  generalize h1 : s.inByte 1 = y
  have hx := x.isLt
  have hy := y.isLt
  have hword : s.headerWord = x.toNat * 256 + y.toNat := by rw [State.headerWord, if_neg (Nat.not_lt.2 h), h0, h1]
  have hcmf : BitVec.ofNat 8 ((x.toNat * 256 + y.toNat) / 256) = x := by bv_omega
  have hflg : BitVec.ofNat 8 (x.toNat * 256 + y.toNat) = y := by bv_omega
  rw [hword, decode, if_pos (by omega), hcmf, hflg]

/-- An element whose word fits a field of `n` bits and decodes to it is read where the stream holds the field's bits. -/
theorem decodeWord_nextField {f : Format} {n : Nat} {i : Instr} {s : State} (hn : 0 < n)
    (hi : i.element.2.1 < 2 ^ n ∧ decode f i.element.2.1 = .ok i) (hs : s.streamAt (lsbFirst i.element.2.1 n)) :
    decodeWord f (s.nextField n) s = .ok i s := by
  obtain ⟨hlt, hd⟩ := hi
  rw [nextField_of_streamAt hlt hn hs]
  exact decodeWord_of_ok s hd

theorem element_eq_of_format {i : Instr} {f : Format} (hf : i.format = f) :
    i.element = (f, i.element.2.1, i.element.2.2) := by
  rw [← hf, Instr.format]

/-- Settles O5: the field at the cursor is the element's word, which the decoder takes back to the element. -/
theorem fixedFormatsAreFetched : Obligations.FixedFormatsAreFetched := by
  refine ⟨fun s h => decodeWord_of_ok s (decode_headerWord h), fun i codes s hs => ⟨fun hf => ?_, fun hf => ?_,
    fun hf => ?_⟩⟩ <;> (rw [Instr.streamBits, element_eq_of_format hf] at hs; rw [fetch])
  · exact decodeWord_nextField (by decide) (decode_bhdr_element hf) hs
  · exact decodeWord_nextField (by decide) (decode_dynhdr_element hf) hs
  · exact decodeWord_nextField (by decide) (decode_clcl_element hf) hs

/-! ## What an element keeps of the memories -/

/-- The two memories, with what their unwritten bytes read as, and the length of the output. -/
def State.contents (s : State) : Memory × Memory × Nat × Nat := (s.inMem, s.outMem, s.epoch, s.outLen)

/-- IN and the output already produced are as they were (20_memory.md R60, R66). -/
structure KeepsBytes (s t : State) : Prop where
  inByte : ∀ a, t.inByte a = s.inByte a
  outByte : ∀ a, a < s.outLen → t.outByte a = s.outByte a
  outLen : s.outLen ≤ t.outLen

/-- The bytes are kept, and the cursor has not moved back (40_bit_cursor.md R123). -/
structure MovesOn (s t : State) : Prop extends KeepsBytes s t where
  cursor : s.cursorPos ≤ t.cursorPos

theorem keepsBytes_of_contents {s t : State} (h : t.contents = s.contents) : KeepsBytes s t := by
  simp only [State.contents, Prod.mk.injEq] at h
  obtain ⟨hin, hout, hepoch, hlen⟩ := h
  exact ⟨inByte_congr hin hepoch, fun a _ => outByte_congr hout hepoch a, Nat.le_of_eq hlen.symm⟩

/-- Behind `n` bits of the input, with the memories untouched. -/
theorem movesOn_of_contents {s t : State} {n : Nat} (h : t.contents = s.contents) (hc : t.cursorPos = s.cursorPos + n) :
    MovesOn s t :=
  ⟨keepsBytes_of_contents h, hc ▸ Nat.le_add_right _ _⟩

/-- An update of fields that are neither of the memories nor of the cursor. -/
theorem movesOn_of_same {s t : State} (h : t.contents = s.contents) (hc : t.cursorPos = s.cursorPos) : MovesOn s t :=
  movesOn_of_contents (n := 0) h hc

theorem movesOn_advance (s : State) (n : Nat) : MovesOn s (s.advance n) :=
  movesOn_of_contents rfl (cursorPos_advance s n)

theorem keepsBytes_trans {s t u : State} (h : KeepsBytes s t) (h' : KeepsBytes t u) : KeepsBytes s u where
  inByte a := (h'.inByte a).trans (h.inByte a)
  outByte a ha := (h'.outByte a (Nat.lt_of_lt_of_le ha h.outLen)).trans (h.outByte a ha)
  outLen := Nat.le_trans h.outLen h'.outLen

theorem movesOn_trans {s t u : State} (h : MovesOn s t) (h' : MovesOn t u) : MovesOn s u :=
  ⟨keepsBytes_trans h.toKeepsBytes h'.toKeepsBytes, Nat.le_trans h.cursor h'.cursor⟩

/-! ## Operations that move on -/

/-- An operation begun in `s` answers or raises in a state that has moved on from it. -/
def Res.Onward {α : Type} (s : State) : Res α → Prop
  | .ok _ t => MovesOn s t
  | .raised _ t => MovesOn s t
  | .refused _ => True

theorem onward_of_movesOn {α : Type} {x : Res α} {s t : State} (h : MovesOn s t) (hx : x.Onward t) : x.Onward s := by
  cases x with
  | ok a u => exact movesOn_trans h hx
  | raised c u => exact movesOn_trans h hx
  | refused r => trivial

theorem onward_bind {α β : Type} {x : Res α} {f : α → State → Res β} {s : State} (hx : x.Onward s)
    (hf : ∀ a t, (f a t).Onward t) : (x.bind f).Onward s := by
  cases x with
  | ok a t => exact onward_of_movesOn hx (hf a t)
  | raised c t => exact hx
  | refused r => trivial

/-- What a raise leaves of an element keeps the memories whole, and the bits consumed (60_exceptions.md R235). -/
theorem onward_atomic {α : Type} {x : Res α} {s : State} (hx : x.Onward s) : (x.atomic s).Onward s := by
  cases x with
  | ok a t => exact hx
  | raised c t => exact ⟨keepsBytes_of_contents rfl, hx.cursor⟩
  | refused r => trivial

theorem movesOn_of_onward {x : Res Unit} {s t : State} (hx : x.Onward s) (ht : x.toOutcome = .next t) :
    MovesOn s t := by
  rcases toOutcome_eq_next.1 ht with rfl | ⟨c, u, rfl, rfl⟩
  · exact hx
  · exact movesOn_trans hx (movesOn_of_same rfl rfl)

theorem onward_bcSkip (n : Nat) (s : State) : (bcSkip n s).Onward s := by
  rcases bcSkip_cases n s with ⟨-, he⟩ | ⟨-, he⟩ <;> rw [he]
  · exact movesOn_advance s n
  · exact movesOn_of_same rfl rfl

theorem onward_hufBuild (t : TreeId) (s : State) : (hufBuild t s).Onward s := by
  rcases hufBuild_cases t s with ⟨-, he⟩ | ⟨-, -, he⟩ | ⟨c, -, -, -, he⟩ <;> rw [he]
  · trivial
  · obtain ⟨clt, llt, dt, bl, next, he⟩ := afterBuild_eq s t
    rw [he]
    exact movesOn_of_same rfl rfl
  · exact movesOn_of_same rfl rfl

/-- An append writes at `out_len` (44_block_body.md R197). -/
theorem onward_outAppend (v : Byte) (s : State) : (outAppend v s).Onward s := by
  by_cases hf : s.params.outCap = some s.outLen
  · rw [outAppend_of_full v hf]
    exact movesOn_of_same rfl rfl
  · rw [outAppend_of_room v hf]
    exact {
      inByte := fun _ => rfl
      outByte := fun a ha => outByte_writeOut_other s v (Nat.ne_of_lt ha)
      outLen := Nat.le_succ _
      cursor := Nat.le_refl _ }

/-- The copy is made of appends (44_block_body.md R195). -/
theorem onward_copyBytes (n : Nat) (s : State) : (copyBytes n s).Onward s := by
  induction n generalizing s with
  | zero => exact movesOn_of_same rfl rfl
  | succ n ih => exact onward_bind (onward_outAppend _ s) fun _ t => ih t

theorem onward_copyBackref (s : State) : (copyBackref s).Onward s := by
  rcases Nat.lt_or_ge s.outLen s.curDist with hd | hd
  · rw [copyBackref_of_far hd]
    exact movesOn_of_same rfl rfl
  · rw [copyBackref_of_near hd]
    exact onward_copyBytes s.curLen s

/-! ## Elements that move on -/

theorem onward_symbolElement {sym : Nat} {op : State → Res Unit} {s : State} (h : (op s).Onward s) :
    (symbolElement sym op s).Onward s :=
  onward_atomic (onward_bind h fun _ _ => movesOn_of_same rfl rfl)

theorem onward_lengthSymbol (sym e : Nat) (s : State) : (lengthSymbol sym e s).Onward s :=
  onward_symbolElement (onward_bind (onward_bcSkip _ s) fun _ _ => movesOn_of_same rfl rfl)

theorem onward_distanceSymbol (d e : Nat) (s : State) : (distanceSymbol d e s).Onward s := by
  refine onward_symbolElement (onward_bind (onward_bcSkip _ s) fun _ t => ?_)
  have href : MovesOn t { t with extra := e, curDist := distanceOf d e } := movesOn_of_same rfl rfl
  refine onward_of_movesOn href (onward_bind (onward_copyBackref _) fun _ _ => ?_)
  exact movesOn_of_same rfl rfl

theorem onward_blockHeader (b : Bool) (ty : BitVec 2) {op : State → Res Unit} (s : State)
    (hop : ∀ t, (op t).Onward t) : (blockHeader b ty op s).Onward s := by
  refine onward_atomic (onward_bind ?_ fun _ t => hop t)
  refine onward_bind (onward_bcSkip 1 s) fun _ t => ?_
  have hfinal : MovesOn t { t with bfinal := b } := movesOn_of_same rfl rfl
  refine onward_of_movesOn hfinal (onward_bind (onward_bcSkip 2 _) fun _ _ => ?_)
  exact movesOn_of_same rfl rfl

theorem onward_clclNext (s : State) : (clclNext s).Onward s := by
  rcases clclNext_cases s with ⟨-, he⟩ | ⟨-, he⟩ <;> rw [he]
  · exact movesOn_of_same rfl rfl
  · exact onward_bind (onward_hufBuild .clt s) fun _ _ => movesOn_of_same rfl rfl

theorem onward_splitAndBuild (s : State) : (splitAndBuild s).Onward s :=
  onward_atomic <| onward_bind (onward_hufBuild .llt s) fun _ t =>
    onward_bind (onward_hufBuild .dt t) fun _ _ => movesOn_of_same rfl rfl

theorem onward_clSymbol {sym : Nat} {op : State → Res Unit} {s : State} (h : (op s).Onward s) :
    (clSymbol sym op s).Onward s := by
  refine onward_bind (onward_symbolElement h) fun _ t => ?_
  rcases clsymNext_cases t with ⟨-, he⟩ | ⟨-, he⟩ <;> rw [he]
  · exact movesOn_of_same rfl rfl
  · exact onward_splitAndBuild t

theorem onward_putRun (v : BitVec 4) (rep : Nat) (s : State) : (putRun v rep s).Onward s := by
  rcases putRun_cases v rep s with ⟨-, he⟩ | ⟨-, he⟩ <;> rw [he] <;> exact movesOn_of_same rfl rfl

theorem onward_putZeroRun (rep : Nat) (s : State) : (putZeroRun rep s).Onward s :=
  onward_bind (onward_putRun 0 rep s) fun _ _ => movesOn_of_same rfl rfl

theorem onward_repeatPrev (e : BitVec 2) (s : State) : (repeatPrev e s).Onward s := by
  rw [repeatPrev]
  split
  · exact movesOn_of_same rfl rfl
  · exact onward_bind (onward_bcSkip 2 s) fun _ t => onward_putRun _ _ t

/-! ## The engine's turn -/

/-- The header places the cursor, and writes neither memory (45_stream.md R210, R212). -/
theorem keepsBytes_execZlibHeader {cmf flg : BitVec 8} {s t : State} (ht : execZlibHeader cmf flg s = .next t) :
    KeepsBytes s t := by
  refine keepsBytes_of_contents ?_
  rw [execZlibHeader, zlibHeader] at ht
  split at ht
  · cases ht
    rfl
  · dsimp only at ht
    split at ht
    · split at ht <;> cases ht <;> rfl
    · cases ht
      rfl

theorem movesOn_exec_bhdr {i : Instr} {s t : State} (hf : i.format = .bhdr) (ht : exec i s = .next t) :
    MovesOn s t := by
  cases i with
  | blockStored b | blockFixed b | blockDynamic b | blockReserved b =>
    refine movesOn_of_onward (onward_blockHeader b _ s fun u => ?_) ht
    exact movesOn_of_same rfl rfl
  | _ => cases hf

theorem movesOn_exec_dynHeader {a b : BitVec 5} {c : BitVec 4} {s t : State} (ht : execDynHeader a b c s = .next t) :
    MovesOn s t := by
  rcases execDynHeader_cases a b c s with ⟨-, -, -, he⟩ | ⟨-, he⟩ | ⟨-, -, he⟩ | ⟨-, -, -, he⟩ | ⟨-, -, -, he⟩ |
    ⟨-, -, -, -, he⟩ <;> rw [he] at ht <;> cases ht
  · exact movesOn_of_contents rfl (cursorPos_advance s 14)
  · exact movesOn_of_same rfl rfl
  · exact movesOn_of_contents rfl (cursorPos_advance s 5)
  · exact movesOn_of_contents rfl (cursorPos_advance s 5)
  · exact movesOn_of_contents rfl (cursorPos_advance s 10)
  · exact movesOn_of_contents rfl (cursorPos_advance s 10)

theorem movesOn_exec_clclField {len : BitVec 3} {s t : State} (ht : execClclField len s = .next t) : MovesOn s t := by
  refine movesOn_of_onward (onward_bind (onward_bcSkip 3 s) fun _ u => ?_) ht
  have hput : MovesOn u (u.putClLen len) := movesOn_of_same rfl rfl
  exact onward_of_movesOn hput (onward_clclNext _)

theorem movesOn_exec_clsym {i : Instr} {s t : State} (hf : i.format = .clsym) (ht : exec i s = .next t) :
    MovesOn s t := by
  cases i with
  | clLen sym =>
    refine movesOn_of_onward (onward_clSymbol ?_) ht
    exact movesOn_of_same rfl rfl
  | clRep16 e => exact movesOn_of_onward (onward_clSymbol (onward_repeatPrev e s)) ht
  | clZero17 e | clZero18 e =>
    refine movesOn_of_onward (onward_clSymbol ?_) ht
    exact onward_bind (onward_bcSkip _ s) fun _ u => onward_putZeroRun _ u
  | _ => cases hf

theorem movesOn_exec_llsym {i : Instr} {s t : State} (hf : i.format = .llsym) (ht : exec i s = .next t) :
    MovesOn s t := by
  rcases llsym_cases hf with ⟨b, rfl⟩ | rfl | ⟨h1, h2⟩ | rfl | rfl
  · exact movesOn_of_onward (onward_symbolElement (onward_outAppend b s)) ht
  · cases ht
    exact movesOn_of_same rfl rfl
  · rw [exec_length s (element_eq_of_format hf) h1 h2] at ht
    exact movesOn_of_onward (onward_lengthSymbol _ _ s) ht
  all_goals
    cases ht
    exact movesOn_of_same rfl rfl

theorem movesOn_exec_dsym {i : Instr} {s t : State} (hf : i.format = .dsym) (ht : exec i s = .next t) :
    MovesOn s t := by
  rcases dsym_cases hf with h1 | rfl | rfl
  · rw [exec_distance s (element_eq_of_format hf) h1] at ht
    exact movesOn_of_onward (onward_distanceSymbol _ _ s) ht
  all_goals
    cases ht
    exact movesOn_of_same rfl rfl

/-- A stream element keeps IN and the output already produced, and moves the cursor on if it is not the header. -/
theorem exec_keepsBytes_and_cursor {i : Instr} {k : Slot} {s t : State} (hf : i.format = k.format)
    (ht : exec i s = .next t) :
    KeepsBytes s t ∧ (k ≠ .zhdr → s.cursorPos ≤ t.cursorPos) := by
  have hon : MovesOn s t → KeepsBytes s t ∧ (k ≠ .zhdr → s.cursorPos ≤ t.cursorPos) :=
    fun h => ⟨h.toKeepsBytes, fun _ => h.cursor⟩
  cases k with
  | zhdr =>
    cases i with
    | zlibHeader cmf flg => exact ⟨keepsBytes_execZlibHeader ht, fun hk => absurd rfl hk⟩
    | _ => cases hf
  | bhdr => exact hon (movesOn_exec_bhdr hf ht)
  | dynhdr =>
    cases i with
    | dynHeader a b c => exact hon (movesOn_exec_dynHeader ht)
    | _ => cases hf
  | clcl =>
    cases i with
    | clclField len => exact hon (movesOn_exec_clclField ht)
    | _ => cases hf
  | clsym => exact hon (movesOn_exec_clsym hf ht)
  | llsym => exact hon (movesOn_exec_llsym hf ht)
  | dsym => exact hon (movesOn_exec_dsym hf ht)

theorem phase_of_nextSlot_zhdr {s : State} (h : s.nextSlot = some .zhdr) : s.phase = .zhdr := by
  rw [State.nextSlot] at h
  cases hp : s.phase with
  | zhdr => rfl
  | idle | done | error | bhdr => simp [hp] at h
  | dynhdr | body => cases hq : s.seq <;> simp [hp, hq] at h

/-- The engine's turn fetches an element, which consumes bits at most, and runs it or takes the fetch's error. -/
theorem engineStep_keepsBytes_and_cursor {s t : State} (hc : s.curBit < 8) (ht : engineStep s = .next t) :
    KeepsBytes s t ∧ (s.phase ≠ .zhdr → s.cursorPos ≤ t.cursorPos) := by
  rw [engineStep] at ht
  cases hk : s.nextSlot with
  | none =>
    rw [hk] at ht
    cases ht
    exact ⟨keepsBytes_of_contents rfl, fun _ => Nat.le_refl _⟩
  | some k =>
    simp only [hk] at ht
    cases hx : fetch k s with
    | ok i u =>
      rw [hx] at ht
      obtain ⟨hf, n, -, rfl⟩ := fetch_eq_ok hc hx
      obtain ⟨hbytes, hcur⟩ := exec_keepsBytes_and_cursor hf ht
      have hfetch := movesOn_advance s n
      refine ⟨keepsBytes_trans hfetch.toKeepsBytes hbytes, fun hp => Nat.le_trans hfetch.cursor (hcur fun hz => hp ?_)⟩
      exact phase_of_nextSlot_zhdr (hz ▸ hk)
    | raised c u =>
      rw [hx] at ht
      obtain ⟨-, n, -, rfl⟩ := fetch_eq_raised hc hx
      cases ht
      have hraise : MovesOn s ((s.advance n).raiseError c) := movesOn_of_contents rfl (cursorPos_advance s n)
      exact ⟨hraise.toKeepsBytes, fun _ => hraise.cursor⟩
    | refused r =>
      rw [hx] at ht
      cases ht

/-- Settles O52: the invariant's part that the turn needs is a normalised cursor. -/
theorem engineWritesOnlyNewOutput : Obligations.EngineWritesOnlyNewOutput := by
  intro s t h ht
  obtain ⟨⟨hin, hout, hlen⟩, hcur⟩ := engineStep_keepsBytes_and_cursor h.cursor.curBit ht
  exact ⟨hin, hout, hlen, hcur⟩

end Sys2Proof.Machine

namespace Sys2Proof.Machine

/-! ## Commands on the ports -/

/-- In a session, a word that decodes in its port's format runs as the command it encodes (30_encoding.md R97). -/
theorem runCommand_of_ok {port : CommandPort} {w : Nat} {i : Instr} {s : State} (hb : s.status = .busy)
    (hd : decode port.format w = .ok i) : runCommand port w s = exec i s := by
  rw [runCommand, if_pos hb, hd]

/-- Settles O48: the step takes the command as its input, and taking an input leaves the status. -/
theorem stepRunsAPortCommand : Obligations.StepRunsAPortCommand := by
  intro s i w rest hb
  refine ⟨fun hd => ?_, fun hd => ?_⟩ <;> rw [step_input, takeInput]
  · exact runCommand_of_ok hb hd
  · exact runCommand_of_ok hb hd

/-! ## The Huffman-coded formats: the code, the extra bits, and the decoder -/

/-- Where the stream holds two pieces, it holds the first at the cursor and the second behind it. -/
theorem streamAt_append {s : State} {xs ys : List Bool} (h : s.streamAt (xs ++ ys)) :
    s.streamAt xs ∧ (s.advance xs.length).streamAt ys := by
  obtain ⟨hlen, hbits⟩ := h
  rw [List.length_append] at hlen
  refine ⟨⟨by omega, fun k b hk => hbits k b ?_⟩, by rw [bitsRemaining_advance]; omega, fun k b hk => ?_⟩
  · rw [List.getElem?_append_left (List.getElem?_eq_some_iff.1 hk).1, hk]
  · rw [cursorPos_advance, inBit_advance, Nat.add_assoc]
    exact hbits _ b (by rw [List.getElem?_append_right (by omega), Nat.add_sub_cancel_left, hk])

/-- The field of a symbol's extra bits, which may be none (30_encoding.md R86 to R88). -/
theorem nextField_extra_of_streamAt {s : State} {e n : Nat} (he : e < 2 ^ n) (h : s.streamAt (lsbFirst e n)) :
    s.nextField n = e := by
  rcases Nat.eq_zero_or_pos n with rfl | hn
  · exact (Nat.lt_one_iff.1 he).symm
  · exact nextField_of_streamAt he hn h

/-- A code of the selected tree at the cursor is decoded and consumed (41_huffman.md R138). -/
theorem hufDecode_of_decodesTo {t : TreeId} {s : State} {code : List Bool} {sym : Nat} (hc : s.curBit < 8)
    (hd : (s.arena t).decodesTo 0 code = some sym) (hs : s.streamAt code) :
    hufDecode t s = .ok sym (s.advance code.length) :=
  hufWalk_of_decodesTo code hd hs.1 hs.1 hs.2 hc

/-- The value of the element's extra bits fits them, and its word decodes to it (30_encoding.md R86 to R88). -/
structure ElementDecodes (i : Instr) : Prop where
  extra : i.element.2.2 < 2 ^ i.format.extraBits i.element.2.1
  word : decode i.format (encode i) = .ok i

/-- The fetch of a Huffman-coded element whose code and extra bits stand at the cursor: the code is consumed, the extra
bits are read into the element's word (30_encoding.md R86 to R88). -/
theorem fetchSymbol_of_streamAt {f : Format} {t : TreeId} {s : State} {i : Instr} {sym e : Nat} {code : List Bool}
    (hc : s.curBit < 8) (hi : i.element = (f, sym, e)) (hw : ElementDecodes i)
    (hd : (s.arena t).decodesTo 0 code = some sym) (hs : s.streamAt (code ++ lsbFirst e (f.extraBits sym))) :
    fetchSymbol f t s = .ok i (s.advance code.length) := by
  obtain ⟨hextra, hword⟩ := hw
  rw [encode, Instr.format, hi] at hword
  rw [Instr.format, hi] at hextra
  obtain ⟨hcode, hbits⟩ := streamAt_append hs
  rw [fetchSymbol, hufDecode_of_decodesTo hc hd hcode, res_ok_bind, nextField_extra_of_streamAt hextra hbits]
  exact decodeWord_of_ok _ hword

/-- The decoder takes the word of a code-length symbol apart into the symbol and its extra bits (30_encoding.md R86). -/
theorem elementDecodes_of_clsym {i : Instr} {sym e : Nat} (hi : i.element = (.clsym, sym, e)) (hs : sym < 32)
    (he : e < 2 ^ clExtra sym) (hd : decodeClsym sym e = .ok i) : ElementDecodes i := by
  refine ⟨by rwa [Instr.format, hi], ?_⟩
  rw [encode, Instr.format, hi, decode, Format.symBits, show (sym + e * 2 ^ 5) % 32 = sym by omega,
    show (sym + e * 2 ^ 5) / 32 = e by omega]
  exact hd

/-- The decoder takes the word of a literal/length symbol apart likewise (30_encoding.md R87). -/
theorem elementDecodes_of_llsym {i : Instr} {sym e : Nat} (hi : i.element = (.llsym, sym, e)) (hs : sym < 512)
    (he : e < 2 ^ lenExtra sym) (hd : decodeLlsym sym e = .ok i) : ElementDecodes i := by
  refine ⟨by rwa [Instr.format, hi], ?_⟩
  rw [encode, Instr.format, hi, decode, Format.symBits, show (sym + e * 2 ^ 9) % 512 = sym by omega,
    show (sym + e * 2 ^ 9) / 512 = e by omega]
  exact hd

/-- The decoder takes the word of a distance symbol apart likewise (30_encoding.md R88). -/
theorem elementDecodes_of_dsym {i : Instr} {sym e : Nat} (hi : i.element = (.dsym, sym, e)) (hs : sym < 32)
    (he : e < 2 ^ distExtra sym) (hd : decodeDsym sym e = .ok i) : ElementDecodes i := by
  refine ⟨by rwa [Instr.format, hi], ?_⟩
  rw [encode, Instr.format, hi, decode, Format.symBits, show (sym + e * 2 ^ 5) % 32 = sym by omega,
    show (sym + e * 2 ^ 5) / 32 = e by omega]
  exact hd

/-- An alphabet's entry makes the instruction of a value that fits its extra bits. -/
theorem decodeSymbolRow_of_toNat {k : Nat} {f : BitVec k → Instr} (e : BitVec k) :
    decodeSymbolRow (some (k, fun n => f (.ofNat k n))) e.toNat = .ok (f e) := by
  rw [decodeSymbolRow, if_pos e.isLt, BitVec.ofNat_toNat, BitVec.setWidth_eq]


theorem elementDecodes_clsym {i : Instr} (hf : i.format = .clsym) : ElementDecodes i := by
  cases i with
  | clLen sym =>
    have hs : sym.toNat < 16 := sym.isLt
    refine elementDecodes_of_clsym rfl (by omega) (Nat.two_pow_pos _) ?_
    rw [decodeClsym, if_pos hs, if_pos rfl, BitVec.ofNat_toNat, BitVec.setWidth_eq]
  | clRep16 e | clZero17 e | clZero18 e =>
    refine elementDecodes_of_clsym rfl (by decide) e.isLt ?_
    rw [decodeClsym, if_neg (by decide)]
    exact decodeSymbolRow_of_toNat e
  | _ => cases hf

theorem elementDecodes_llsym {i : Instr} (hf : i.format = .llsym) : ElementDecodes i := by
  cases i with
  | lit b =>
    have hb : b.toNat < 256 := b.isLt
    refine elementDecodes_of_llsym rfl (by omega) (Nat.two_pow_pos _) ?_
    rw [decodeLlsym, if_pos hb, if_pos rfl, BitVec.ofNat_toNat, BitVec.setWidth_eq]
  | eob | len257 | len258 | len259 | len260 | len261 | len262 | len263 | len264 | len285 | llRsv286 | llRsv287 =>
    exact elementDecodes_of_llsym rfl (by decide) (Nat.two_pow_pos _) rfl
  | len265 e | len266 e | len267 e | len268 e | len269 e | len270 e | len271 e | len272 e | len273 e | len274 e
  | len275 e | len276 e | len277 e | len278 e | len279 e | len280 e | len281 e | len282 e | len283 e | len284 e =>
    refine elementDecodes_of_llsym rfl (by decide) e.isLt ?_
    rw [decodeLlsym, if_neg (by decide)]
    exact decodeSymbolRow_of_toNat e
  | _ => cases hf

theorem elementDecodes_dsym {i : Instr} (hf : i.format = .dsym) : ElementDecodes i := by
  cases i with
  | dist0 | dist1 | dist2 | dist3 | distRsv30 | distRsv31 =>
    exact elementDecodes_of_dsym rfl (by decide) (Nat.two_pow_pos _) rfl
  | dist4 e | dist5 e | dist6 e | dist7 e | dist8 e | dist9 e | dist10 e | dist11 e | dist12 e | dist13 e | dist14 e
  | dist15 e | dist16 e | dist17 e | dist18 e | dist19 e | dist20 e | dist21 e | dist22 e | dist23 e | dist24 e
  | dist25 e | dist26 e | dist27 e | dist28 e | dist29 e =>
    refine elementDecodes_of_dsym rfl (by decide) e.isLt (decodeSymbolRow_of_toNat e)
  | _ => cases hf

/-- Settles O6: the lookup consumes the code, the field behind it is the extra bits, and the word of the two decodes to
the element. -/
theorem symbolsAreFetched : Obligations.SymbolsAreFetched := by
  intro i sym e code s hc
  refine ⟨fun hi hd hs => ?_, fun hi hd hs => ?_, fun hi hd hs => ?_⟩ <;>
    have hf := congrArg Prod.fst hi <;> rw [fetch]
  · exact fetchSymbol_of_streamAt hc hi (elementDecodes_clsym hf) hd hs
  · exact fetchSymbol_of_streamAt hc hi (elementDecodes_llsym hf) hd hs
  · exact fetchSymbol_of_streamAt hc hi (elementDecodes_dsym hf) hd hs

end Sys2Proof.Machine

namespace Sys2Proof.Machine

/-! ## Canonical first codes and the Kraft sum (41_huffman.md R132, R134) -/

/-- The first code of the next length, past the codes of a length that may be used. -/
theorem canonicalFirst_succ (lens : List Nat) {l : Nat} (h : l ≠ 0) :
    canonicalFirst lens (l + 1) = 2 * (canonicalFirst lens l + lens.count l) := by
  rw [canonicalFirst, if_neg h, Nat.mul_comm]

@[simp] theorem canonicalFirst_one (lens : List Nat) : canonicalFirst lens 1 = 0 := rfl

theorem two_mul_canonicalFirst_le (lens : List Nat) (l : Nat) :
    2 * canonicalFirst lens l ≤ canonicalFirst lens (l + 1) := by
  rw [canonicalFirst]
  omega

/-- The codes before a length, cut to `k` bits more, are still before the first of the longer ones. -/
theorem canonicalFirst_mul_two_pow_le (lens : List Nat) (l k : Nat) :
    canonicalFirst lens l * 2 ^ k ≤ canonicalFirst lens (l + k) := by
  induction k with
  | zero => rw [Nat.pow_zero, Nat.mul_one, Nat.add_zero]
  | succ k ih =>
    have hstep := two_mul_canonicalFirst_le lens (l + k)
    rw [Nat.pow_succ, ← Nat.mul_assoc, ← Nat.add_assoc]
    omega

/-- One more length takes its share of the code space of every longer one. -/
theorem canonicalFirst_cons (x : Nat) (lens : List Nat) (l : Nat) :
    canonicalFirst (x :: lens) l = canonicalFirst lens l + if x ≠ 0 ∧ x < l then 2 ^ (l - x) else 0 := by
  induction l with
  | zero => rw [if_neg (by omega)]; rfl
  | succ l ih =>
    rcases Nat.eq_zero_or_pos l with rfl | hl
    · rw [if_neg (by omega), canonicalFirst_one, canonicalFirst_one]
    · rw [canonicalFirst_succ _ (by omega), canonicalFirst_succ _ (by omega), ih, List.count_cons]
      rcases Nat.lt_trichotomy x l with hx | rfl | hx
      · rw [if_neg (show ¬(x == l) = true by rw [beq_iff_eq]; omega), Nat.succ_sub hx.le, Nat.pow_succ]
        by_cases h0 : x = 0
        · rw [if_neg fun hc => hc.1 h0, if_neg fun hc => hc.1 h0]
          omega
        · rw [if_pos ⟨h0, hx⟩, if_pos ⟨h0, by omega⟩]
          omega
      · rw [if_neg (show ¬(x ≠ 0 ∧ x < x) by omega), if_pos (show (x == x) = true by simp), if_pos ⟨by omega, by omega⟩,
          Nat.add_sub_cancel_left]
        omega
      · rw [if_neg (show ¬(x ≠ 0 ∧ x < l) by omega), if_neg (show ¬(x == l) = true by rw [beq_iff_eq]; omega),
          if_neg (by omega)]
        omega

/-- The Kraft sum, in units of 2^-15, is the code space that all the codes take: half of what would be the first code of 16
bits. -/
theorem canonicalFirst_sixteen {lens : List Nat} (h : ∀ l ∈ lens, l ≤ 15) :
    canonicalFirst lens 16 = 2 * kraftSum lens := by
  induction lens with
  | nil => rfl
  | cons x lens ih =>
    rw [List.forall_mem_cons] at h
    obtain ⟨hx, hlens⟩ := h
    have hcons : kraftSum (x :: lens) = (if x = 0 then 0 else 2 ^ (15 - x)) + kraftSum lens := by
      rw [kraftSum, List.map_cons, List.sum_cons, kraftSum]
    rw [canonicalFirst_cons, ih hlens, hcons]
    by_cases h0 : x = 0
    · rw [if_neg (by omega), if_pos h0]
      omega
    · rw [if_pos ⟨h0, by omega⟩, if_neg h0, Nat.succ_sub hx, Nat.pow_succ]
      omega

/-- The lengths up to `l` fit the code space where the next first code does. -/
theorem canonicalFirst_le_of_kraftSum {lens : List Nat} {l : Nat} (h : ∀ l ∈ lens, l ≤ 15)
    (hk : kraftSum lens ≤ 2 ^ 15) (hl : l ≤ 16) : canonicalFirst lens l ≤ 2 ^ l := by
  have hgrow := canonicalFirst_mul_two_pow_le lens l (16 - l)
  rw [Nat.add_sub_cancel' hl, canonicalFirst_sixteen h] at hgrow
  have hsplit : 2 ^ l * 2 ^ (16 - l) = 2 * 2 ^ 15 := by
    rw [← Nat.pow_add, Nat.add_sub_cancel' hl]
    rfl
  exact Nat.le_of_mul_le_mul_right (by omega) (Nat.two_pow_pos (16 - l))

/-- A code of the canonical code book: `c`, of `l` bits (41_huffman.md R132). -/
structure IsCode (lens : List Nat) (l c : Nat) : Prop where
  used : l ≠ 0
  first : canonicalFirst lens l ≤ c
  last : c < canonicalFirst lens l + lens.count l

/-- Every code is below the codes that its length leaves to the longer ones. -/
theorem isCode_lt {lens : List Nat} {l c k : Nat} (h : IsCode lens l c) (hk : 0 < k) :
    (c + 1) * 2 ^ k ≤ canonicalFirst lens (l + k) := by
  obtain ⟨k, rfl⟩ : ∃ j, k = j + 1 := ⟨k - 1, by omega⟩
  have hnext := canonicalFirst_succ lens h.used
  have hlast := h.last
  calc (c + 1) * 2 ^ (k + 1) = (2 * (c + 1)) * 2 ^ k := by rw [Nat.pow_succ]; ac_rfl
    _ ≤ canonicalFirst lens (l + 1) * 2 ^ k := Nat.mul_le_mul_right _ (by omega)
    _ ≤ canonicalFirst lens (l + 1 + k) := canonicalFirst_mul_two_pow_le lens (l + 1) k
    _ = canonicalFirst lens (l + (k + 1)) := by rw [Nat.add_assoc, Nat.add_comm 1]

/-- No code begins a longer one (41_huffman.md R135). -/
theorem isCode_prefixFree {lens : List Nat} {l c l' c' : Nat} (h : IsCode lens l c) (h' : IsCode lens l' c')
    (hl : l < l') : c' / 2 ^ (l' - l) ≠ c := by
  have hlt := isCode_lt h (k := l' - l) (by omega)
  rw [Nat.add_sub_cancel' hl.le] at hlt
  have hdiv : c + 1 ≤ c' / 2 ^ (l' - l) :=
    (Nat.le_div_iff_mul_le (Nat.two_pow_pos _)).2 (Nat.le_trans hlt h'.first)
  omega

/-- A code fits its length where the Kraft sum is at most 1. -/
theorem isCode_lt_two_pow {lens : List Nat} {l c : Nat} (h : ∀ l ∈ lens, l ≤ 15) (hk : kraftSum lens ≤ 2 ^ 15)
    (hc : IsCode lens l c) (hl : l ≤ 15) : c < 2 ^ l := by
  have hlt := isCode_lt hc (k := 1) (by decide)
  have hle := canonicalFirst_le_of_kraftSum (l := l + 1) h hk (by omega)
  rw [Nat.pow_succ] at hle
  omega

/-- The length of a code is one of the table's. -/
theorem isCode_length_mem {lens : List Nat} {l c : Nat} (h : IsCode lens l c) : l ∈ lens := by
  have hfirst := h.first
  have hlast := h.last
  exact List.count_pos_iff.1 (by omega)

/-! ## Step 2 of a build (41_huffman.md R131, R134) -/

/-- Step 2 begun behind length `m` computes the first code of each length, while the code space holds. -/
theorem firstCodes_succ (lens : List Nat) {n m : Nat} (next : List Nat) (hm : m < 15) :
    firstCodes (countLengths lens) (n + 1) (m + 1) (canonicalFirst lens m) next =
      if canonicalFirst lens (m + 2) ≤ 2 ^ (m + 2) then
        firstCodes (countLengths lens) n (m + 2) (canonicalFirst lens (m + 1))
          (List.set next (m + 1) (canonicalFirst lens (m + 1)))
      else (List.set next (m + 1) (canonicalFirst lens (m + 1)), false) := by
  have hcode : (canonicalFirst lens m + (countLengths lens).getD (m + 1 - 1) 0) * 2 = canonicalFirst lens (m + 1) := by
    rw [Nat.add_sub_cancel, countLengths_getD lens (by omega)]
    rfl
  have hcount : (countLengths lens).getD (m + 1) 0 = lens.count (m + 1) := by
    rw [countLengths_getD lens (by omega), if_neg (by omega)]
  rw [canonicalFirst_succ lens (show m + 1 ≠ 0 by omega), Nat.pow_succ]
  simp only [firstCodes, hcode, hcount]
  by_cases hover : 2 ^ (m + 1) < canonicalFirst lens (m + 1) + lens.count (m + 1)
  · rw [if_pos hover, if_neg (by omega)]
  · rw [if_neg hover, if_pos (by omega)]

/-- Step 2 passes exactly where each length fits the code space. -/
theorem firstCodes_flag (lens : List Nat) {n m : Nat} (next : List Nat) (h : m + n ≤ 15) :
    (firstCodes (countLengths lens) n (m + 1) (canonicalFirst lens m) next).2 = true ↔
      ∀ l, m < l → l ≤ m + n → canonicalFirst lens (l + 1) ≤ 2 ^ (l + 1) := by
  induction n generalizing m next with
  | zero => exact iff_of_true rfl fun l h1 h2 => by omega
  | succ n ih =>
    rw [firstCodes_succ lens next (by omega)]
    split
    · next hfit =>
      rw [ih _ (by omega)]
      constructor
      · intro hall l h1 h2
        rcases Nat.eq_or_lt_of_le h1 with rfl | h1
        · exact hfit
        · exact hall l h1 (by omega)
      · exact fun hall l h1 h2 => hall l (by omega) (by omega)
    · next hover => exact iff_of_false nofun fun hall => hover (hall (m + 1) (by omega) (by omega))

/-- Where step 2 passes, each length's entry is its first code. -/
theorem firstCodes_getD (lens : List Nat) {n m l : Nat} {next : List Nat} (hn : next.length = 16) (h : m + n ≤ 15)
    (hf : (firstCodes (countLengths lens) n (m + 1) (canonicalFirst lens m) next).2 = true) :
    (firstCodes (countLengths lens) n (m + 1) (canonicalFirst lens m) next).1.getD l 0 =
      if m < l ∧ l ≤ m + n then canonicalFirst lens l else next.getD l 0 := by
  induction n generalizing m next with
  | zero => rw [if_neg (by omega)]; rfl
  | succ n ih =>
    rw [firstCodes_succ lens next (by omega)] at hf ⊢
    split at hf
    · next hfit =>
      rw [if_pos hfit, ih (by rw [List.length_set, hn]) (by omega) hf, getD_set_eq_ite, hn]
      by_cases hl : m + 1 < l ∧ l ≤ m + 1 + n
      · rw [if_pos hl, if_pos (by omega)]
      · rw [if_neg hl]
        by_cases he : m + 1 = l
        · subst he
          rw [if_pos ⟨rfl, by omega⟩, if_pos (by omega)]
        · rw [if_neg fun hc => he hc.1, if_neg (by omega)]
    · cases hf

/-- Step 2 passes exactly where the Kraft sum is at most 1 (41_huffman.md R134). -/
theorem firstCodes_flag_iff_kraftSum {lens : List Nat} (h : ∀ l ∈ lens, l ≤ 15) :
    (firstCodes (countLengths lens) 15 1 0 (List.replicate 16 0)).2 = true ↔ kraftSum lens ≤ 2 ^ 15 := by
  refine (firstCodes_flag lens (m := 0) (List.replicate 16 0) (by decide)).trans ⟨fun hall => ?_, fun hk l _ hl => ?_⟩
  · have hlast := hall 15 (by decide) (by decide)
    rw [canonicalFirst_sixteen h] at hlast
    omega
  · exact canonicalFirst_le_of_kraftSum h hk (by omega)

/-- A table whose Kraft sum exceeds 1 raises CODE_OVERFLOW before any node is made (41_huffman.md R134). -/
theorem buildTree_of_kraftSum_gt {lens : List Nat} (h : ∀ l ∈ lens, l ≤ 15) (hk : 2 ^ 15 < kraftSum lens) :
    (buildTree lens).error = some .codeOverflow ∧ (buildTree lens).arena = Arena.cleared := by
  have hflag := (firstCodes_flag_iff_kraftSum h).not.2 (by omega)
  rw [buildTree]
  split
  · next next hf => exact absurd (by rw [hf]) hflag
  · exact ⟨rfl, rfl⟩

/-! ## The tree of a set of codes (41_huffman.md R131, R133, R135) -/

theorem two_mul_div_add_testBit (c i : Nat) : 2 * (c / 2 ^ (i + 1)) + (c.testBit i).toNat = c / 2 ^ i := by
  rw [Nat.toNat_testBit, Nat.pow_succ, ← Nat.div_div_eq_div_mul]
  omega

theorem getElem?_concat_eq_some {α : Type} {xs : List α} {x y : α} {k : Nat} :
    (xs ++ [x])[k]? = some y ↔ xs[k]? = some y ∨ k = xs.length ∧ x = y := by
  rw [List.getElem?_append]
  split
  · next h => simp [Nat.ne_of_lt h]
  · next h =>
    have hk : k - xs.length = 0 ↔ k = xs.length := by omega
    simp [List.getElem?_singleton, hk, List.getElem?_eq_none (Nat.le_of_not_lt h)]

theorem node_vacant_of_child {nd : Node} (hl : ¬nd.isLeaf = true) (hc : ∀ b, nd.child b = none) : nd.vacant = true := by
  have h0 : nd.child0 = none := hc false
  have h1 : nd.child1 = none := hc true
  simp [Node.vacant, hl, h0, h1]

/-- An allocation gives its node one child, and no other node another. -/
theorem child_alloc {a : Arena} {node k : Nat} (b c : Bool) (hn : node < a.length) (hk : k < a.length) :
    ((a.alloc node b).nodeAt k).child c = if k = node ∧ c = b then some a.length else (a.nodeAt k).child c := by
  by_cases hkn : k = node
  · subst hkn
    rw [nodeAt_alloc_same b hn]
    by_cases hc : c = b
    · rw [if_pos ⟨rfl, hc⟩, hc, node_setChild_child_same]
    · rw [if_neg fun h => hc h.2, node_setChild_child_other _ _ hc]
  · rw [if_neg fun h => hkn h.1, nodeAt_alloc_other a b hkn (Nat.ne_of_lt hk)]

theorem isLeaf_alloc {a : Arena} {node k : Nat} (b : Bool) (hn : node < a.length) :
    ((a.alloc node b).nodeAt k).isLeaf = (a.nodeAt k).isLeaf := by
  by_cases hkn : k = node
  · rw [hkn, nodeAt_alloc_same b hn, node_setChild_isLeaf]
  · by_cases hkl : k = a.length
    · rw [hkl, nodeAt_alloc_new, Arena.nodeAt, List.getD_eq_default _ _ (Nat.le_refl _)]
    · rw [nodeAt_alloc_other a b hkn hkl]

/-- The arena is a tree that holds codes: `labels` gives each node the bits that lead to it, as (how many, their number with
the first bit the most significant). The nodes' bits differ, are those of the parent and one more, end at a leaf where `leaf`
says, and begin a code of `code`. -/
structure Labelled (a : Arena) (labels : List (Nat × Nat)) (leaf code : Nat → Nat → Prop) : Prop where
  length : labels.length = a.length
  nodup : labels.Nodup
  root : labels[0]? = some (0, 0)
  child : ∀ {k d v b j}, labels[k]? = some (d, v) → (a.nodeAt k).child b = some j →
    labels[j]? = some (d + 1, 2 * v + b.toNat)
  parent : ∀ {j d v b}, labels[j]? = some (d + 1, 2 * v + b.toNat) →
    ∃ k, labels[k]? = some (d, v) ∧ (a.nodeAt k).child b = some j
  isLeaf : ∀ {k d v}, labels[k]? = some (d, v) → ((a.nodeAt k).isLeaf = true ↔ leaf d v)
  begins : ∀ {d v}, (d, v) ∈ labels → (d = 0 ∧ v = 0) ∨ ∃ l c, code l c ∧ d ≤ l ∧ c / 2 ^ (l - d) = v

section
variable {a : Arena} {labels : List (Nat × Nat)} {leaf code : Nat → Nat → Prop} {k node d v : Nat} {b : Bool}

theorem labelled_lt (h : Labelled a labels leaf code) (hk : labels[k]? = some (d, v)) : k < a.length :=
  h.length ▸ (List.getElem?_eq_some_iff.1 hk).1

theorem labelled_index_unique (h : Labelled a labels leaf code) (hk : labels[k]? = some (d, v))
    (hn : labels[node]? = some (d, v)) : k = node :=
  (List.getElem?_inj (List.getElem?_eq_some_iff.1 hk).1 h.nodup).1 (hk.trans hn.symm)

/-- A cleared arena holds no code. -/
theorem labelled_cleared (hleaf : ¬leaf 0 0) : Labelled Arena.cleared [(0, 0)] leaf code := by
  have hroot : ∀ {k d v}, [((0 : Nat), (0 : Nat))][k]? = some (d, v) → k = 0 ∧ d = 0 ∧ v = 0 := by
    intro k d v hk
    rw [List.getElem?_singleton] at hk
    split at hk
    · next h0 =>
      cases hk
      exact ⟨h0, rfl, rfl⟩
    · cases hk
  have hchild : ∀ b, (Arena.cleared.nodeAt 0).child b = none := by decide
  refine ⟨rfl, by decide, rfl, fun hk hc => ?_, fun hj => ?_, fun hk => ?_, fun hm => ?_⟩
  · obtain ⟨rfl, -, -⟩ := hroot hk
    rw [hchild] at hc
    cases hc
  · obtain ⟨-, hd, -⟩ := hroot hj
    cases hd
  · obtain ⟨rfl, rfl, rfl⟩ := hroot hk
    exact iff_of_false (by decide) hleaf
  · cases List.mem_singleton.1 hm
    exact .inl ⟨rfl, rfl⟩

/-- No node has the bits that lead from a node to a child it does not have. -/
theorem label_not_mem_of_child_none (h : Labelled a labels leaf code) (hn : labels[node]? = some (d, v))
    (hc : (a.nodeAt node).child b = none) : (d + 1, 2 * v + b.toNat) ∉ labels := by
  intro hm
  obtain ⟨j, hj⟩ := List.mem_iff_getElem?.1 hm
  obtain ⟨k, hk, hkc⟩ := h.parent hj
  rw [labelled_index_unique h hk hn, hc] at hkc
  cases hkc

/-- An allocation labels the new node with its parent's bits and one more. -/
theorem labelled_alloc (h : Labelled a labels leaf code) (hn : labels[node]? = some (d, v))
    (hc : (a.nodeAt node).child b = none) (hleaf : ¬leaf (d + 1) (2 * v + b.toNat))
    (hcode : ∃ l c, code l c ∧ d + 1 ≤ l ∧ c / 2 ^ (l - (d + 1)) = 2 * v + b.toNat) :
    Labelled (a.alloc node b) (labels ++ [(d + 1, 2 * v + b.toNat)]) leaf code := by
  have hlt := labelled_lt h hn
  have hnode : (labels ++ [(d + 1, 2 * v + b.toNat)])[node]? = some (d, v) := getElem?_concat_eq_some.2 (.inl hn)
  have hnew : (labels ++ [(d + 1, 2 * v + b.toNat)])[a.length]? = some (d + 1, 2 * v + b.toNat) :=
    getElem?_concat_eq_some.2 (.inr ⟨h.length.symm, rfl⟩)
  refine ⟨by simp [h.length], ?_, getElem?_concat_eq_some.2 (.inl h.root), fun {k e w c j} hk hkc => ?_,
    fun {j e w c} hj => ?_, fun {k e w} hk => ?_, fun {e w} hm => ?_⟩
  · rw [← List.concat_eq_append]
    exact h.nodup.concat (label_not_mem_of_child_none h hn hc)
  · rcases getElem?_concat_eq_some.1 hk with hold | ⟨rfl, -⟩
    · rw [child_alloc b c hlt (labelled_lt h hold)] at hkc
      split at hkc
      · next heq =>
        obtain ⟨rfl, rfl⟩ := heq
        cases hkc
        cases hold.symm.trans hn
        exact hnew
      · exact getElem?_concat_eq_some.2 (.inl (h.child hold hkc))
    · rw [h.length, nodeAt_alloc_new] at hkc
      cases c <;> cases hkc
  · rcases getElem?_concat_eq_some.1 hj with hj | ⟨rfl, heq⟩
    · obtain ⟨k, hk, hkc⟩ := h.parent hj
      refine ⟨k, getElem?_concat_eq_some.2 (.inl hk), ?_⟩
      rw [child_alloc b c hlt (labelled_lt h hk), if_neg, hkc]
      rintro ⟨rfl, rfl⟩
      rw [hc] at hkc
      cases hkc
    · simp only [Prod.mk.injEq, Nat.add_right_cancel_iff] at heq
      obtain ⟨rfl, heq⟩ := heq
      have hbit := Bool.toNat_lt b
      have hbit' := Bool.toNat_lt c
      obtain rfl : v = w := by omega
      have hinj : ∀ b c : Bool, b.toNat = c.toNat → b = c := by decide
      obtain rfl := hinj b c (by omega)
      exact ⟨node, hnode, by rw [child_alloc b b hlt hlt, if_pos ⟨rfl, rfl⟩, h.length]⟩
  · rw [isLeaf_alloc b hlt]
    rcases getElem?_concat_eq_some.1 hk with hk | ⟨rfl, heq⟩
    · exact h.isLeaf hk
    · cases heq
      rw [h.length, Arena.nodeAt, List.getD_eq_default _ _ (Nat.le_refl _)]
      exact iff_of_false nofun hleaf
  · rcases List.mem_append.1 hm with hm | hm
    · exact h.begins hm
    · cases List.mem_singleton.1 hm
      exact .inr hcode

/-- Making a node a leaf labels no other. -/
theorem labelled_setLeaf (sym : Nat) (h : Labelled a labels leaf code) (hn : labels[node]? = some (d, v)) :
    Labelled (List.set a node { a.nodeAt node with isLeaf := true, sym := sym }) labels
      (fun l c => leaf l c ∨ l = d ∧ c = v) code := by
  have hlt := labelled_lt h hn
  have hchild : ∀ k c, (Arena.nodeAt (List.set a node { a.nodeAt node with isLeaf := true, sym := sym }) k).child c =
      (a.nodeAt k).child c := by
    intro k c
    by_cases hkn : k = node
    · rw [hkn, nodeAt_set_same _ hlt]
      cases c <;> rfl
    · rw [nodeAt_set_other _ _ hkn]
  refine ⟨by rw [List.length_set, h.length], h.nodup, h.root, fun hk hkc => ?_, fun hj => ?_, fun {k e w} hk => ?_,
    h.begins⟩
  · rw [hchild] at hkc
    exact h.child hk hkc
  · obtain ⟨k, hk, hkc⟩ := h.parent hj
    exact ⟨k, hk, by rw [hchild, hkc]⟩
  · by_cases hkn : k = node
    · subst hkn
      cases hk.symm.trans hn
      rw [nodeAt_set_same _ hlt]
      exact iff_of_true rfl (.inr ⟨rfl, rfl⟩)
    · rw [nodeAt_set_other _ _ hkn, h.isLeaf hk]
      refine ⟨.inl, fun ho => ho.resolve_right ?_⟩
      rintro ⟨rfl, rfl⟩
      exact hkn (labelled_index_unique h hk hn)

/-- Inserting a code that no leaf's code begins and that begins no other code meets no contradiction, and makes its leaf
(41_huffman.md R131 step 3, R135). -/
theorem insertCode_labelled {sym c len : Nat} (i : Nat) (h : Labelled a labels leaf code) (hd : d + i = len)
    (hn : labels[node]? = some (d, c / 2 ^ i)) (hcode : code len c)
    (hleaf : ∀ l w, leaf l w → l ≤ len → c / 2 ^ (len - l) ≠ w)
    (hlong : ∀ l w, code l w → len < l → w / 2 ^ (l - len) ≠ c) :
    ∃ a' labels', insertCode sym c i node a = (a', true) ∧
      Labelled a' labels' (fun l w => leaf l w ∨ l = len ∧ w = c) code := by
  have hinner : ¬(a.nodeAt node).isLeaf = true := fun hl =>
    hleaf _ _ ((h.isLeaf hn).1 hl) (by omega) (by rw [← hd, Nat.add_sub_cancel_left])
  induction i generalizing d node a labels with
  | zero =>
    obtain rfl : d = len := hd
    rw [Nat.pow_zero, Nat.div_one] at hn
    have hvacant : (a.nodeAt node).vacant = true := by
      refine node_vacant_of_child hinner fun b => ?_
      cases hb : (a.nodeAt node).child b with
      | none => rfl
      | some j =>
        rcases h.begins (List.mem_of_getElem? (h.child hn hb)) with ⟨h0, -⟩ | ⟨l, w, hw, hl, heq⟩
        · cases h0
        · refine absurd ?_ (hlong l w hw hl)
          rw [show l - d = l - (d + 1) + 1 by omega, Nat.pow_succ, ← Nat.div_div_eq_div_mul, heq]
          have hbit := Bool.toNat_le b
          omega
    exact ⟨_, labels, by rw [insertCode, if_pos hvacant], labelled_setLeaf sym h hn⟩
  | succ i ih =>
    have hnext := two_mul_div_add_testBit c i
    have hbegin : c / 2 ^ (len - (d + 1)) = 2 * (c / 2 ^ (i + 1)) + (c.testBit i).toNat := by
      rw [hnext, show len - (d + 1) = i by omega]
    have hfree : ¬leaf (d + 1) (2 * (c / 2 ^ (i + 1)) + (c.testBit i).toNat) := fun hl =>
      hleaf _ _ hl (by omega) hbegin
    have hgo : ∀ {k a labels}, Labelled a labels leaf code →
        labels[k]? = some (d + 1, 2 * (c / 2 ^ (i + 1)) + (c.testBit i).toNat) →
        ∃ a' labels', insertCode sym c i k a = (a', true) ∧
          Labelled a' labels' (fun l w => leaf l w ∨ l = len ∧ w = c) code := fun h' hk =>
      ih h' (d := d + 1) (by omega) (hnext ▸ hk) fun hl => hfree ((h'.isLeaf hk).1 hl)
    cases hb : (a.nodeAt node).child (c.testBit i) with
    | some k =>
      rw [insertCode_of_some hinner hb]
      exact hgo h (h.child hn hb)
    | none =>
      rw [insertCode_of_none hinner hb]
      exact hgo (labelled_alloc h hn hb hfree ⟨len, c, hcode, by omega, hbegin⟩)
        (getElem?_concat_eq_some.2 (.inr ⟨h.length.symm, rfl⟩))

end

/-! ## Step 3 of a build (41_huffman.md R131, R135) -/

theorem assignCodes_zero (bl rest : List Nat) (s : Nat) (next : List Nat) (a : Arena) :
    assignCodes bl (0 :: rest) s next a = assignCodes bl rest (s + 1) next a := rfl

theorem assignCodes_of_insertCode {len s : Nat} {next : List Nat} {a a' : Arena} (bl rest : List Nat) (hl : len ≠ 0)
    (hi : insertCode s (next.getD len 0) len 0 a = (a', true)) :
    assignCodes bl (len :: rest) s next a =
      assignCodes bl rest (s + 1) (List.set next len (next.getD len 0 + 1)) a' := by
  rw [assignCodes, if_neg hl]
  simp only [hi]

/-- Each length's entry of `next` is one of its codes or just past them, with one code left for each symbol of `rest`. -/
def NextCodes (lens next rest : List Nat) : Prop :=
  ∀ l, l ≠ 0 → l ≤ 15 → canonicalFirst lens l ≤ next.getD l 0 ∧
    next.getD l 0 + rest.count l = canonicalFirst lens l + lens.count l

theorem nextCodes_tail_zero {lens next rest : List Nat} (h : NextCodes lens next (0 :: rest)) :
    NextCodes lens next rest := fun l h0 hl => by
  have hcount : (0 :: rest).count l = rest.count l := List.count_cons_of_ne (Ne.symm h0)
  have := h l h0 hl
  rwa [hcount] at this

theorem nextCodes_tail {lens next rest : List Nat} {len : Nat} (hn : next.length = 16) (hlen : len ≤ 15)
    (h : NextCodes lens next (len :: rest)) : NextCodes lens (List.set next len (next.getD len 0 + 1)) rest :=
  fun l h0 hl => by
  obtain ⟨hfirst, hlast⟩ := h l h0 hl
  rw [getD_set_eq_ite, hn]
  by_cases he : len = l
  · subst he
    rw [List.count_cons_self] at hlast
    rw [if_pos ⟨rfl, by omega⟩]
    omega
  · rw [List.count_cons_of_ne he] at hlast
    rw [if_neg fun hc => he hc.1]
    exact ⟨hfirst, hlast⟩

/-- The next code of the length of a symbol still to come is a code. -/
theorem isCode_next {lens next rest : List Nat} {len : Nat} (h0 : len ≠ 0) (hlen : len ≤ 15)
    (h : NextCodes lens next (len :: rest)) : IsCode lens len (next.getD len 0) := by
  obtain ⟨hfirst, hlast⟩ := h len h0 hlen
  rw [List.count_cons_self] at hlast
  exact ⟨h0, hfirst, by omega⟩

/-- Step 3 meets no contradiction where the Kraft sum is at most 1: the codes are prefix-free, and each is taken once
(41_huffman.md R135). -/
theorem assignCodes_labelled {lens : List Nat} (hle : ∀ l ∈ lens, l ≤ 15) (hk : kraftSum lens ≤ 2 ^ 15)
    (bl rest : List Nat) (s : Nat) {next : List Nat} {a : Arena} {labels : List (Nat × Nat)} {leaf : Nat → Nat → Prop}
    (hn : next.length = 16) (hrest : ∀ l ∈ rest, l ≤ 15) (h : Labelled a labels leaf (IsCode lens))
    (hleaf : ∀ l c, leaf l c → IsCode lens l c ∧ c < next.getD l 0) (hnext : NextCodes lens next rest) :
    (assignCodes bl rest s next a).error = none ∧
      ∃ labels' leaf', Labelled (assignCodes bl rest s next a).arena labels' leaf' (IsCode lens) := by
  induction rest generalizing s next a labels leaf with
  | nil => exact ⟨rfl, labels, leaf, h⟩
  | cons len rest ih =>
    rw [List.forall_mem_cons] at hrest
    obtain ⟨hlen, hrest⟩ := hrest
    by_cases h0 : len = 0
    · subst h0
      rw [assignCodes_zero]
      exact ih _ hn hrest h hleaf (nextCodes_tail_zero hnext)
    · have hcode := isCode_next h0 hlen hnext
      have hlt := isCode_lt_two_pow hle hk hcode hlen
      obtain ⟨a', labels', hi, h'⟩ := insertCode_labelled (sym := s) len h (Nat.zero_add len)
        (by rw [Nat.div_eq_of_lt hlt]; exact h.root) hcode
        (fun l w hw hl => by
          obtain ⟨hw, hwlt⟩ := hleaf l w hw
          rcases Nat.eq_or_lt_of_le hl with rfl | hl
          · rw [Nat.sub_self, Nat.pow_zero, Nat.div_one]
            exact (Nat.ne_of_lt hwlt).symm
          · exact isCode_prefixFree hw hcode hl)
        (fun l w hw hl => isCode_prefixFree hcode hw hl)
      rw [assignCodes_of_insertCode bl rest h0 hi]
      refine ih _ (by rw [List.length_set, hn]) hrest h' (fun l c hc => ?_) (nextCodes_tail hn hlen hnext)
      rw [getD_set_eq_ite, hn]
      rcases hc with hc | ⟨rfl, rfl⟩
      · obtain ⟨hc, hclt⟩ := hleaf l c hc
        refine ⟨hc, ?_⟩
        split
        · next he => exact Nat.lt_succ_of_lt (he.1 ▸ hclt)
        · exact hclt
      · exact ⟨hcode, by rw [if_pos ⟨rfl, by omega⟩]; omega⟩

/-- A table whose Kraft sum is at most 1 is built, to a tree of its canonical codes (41_huffman.md R134, R135). -/
theorem buildTree_of_kraftSum_le {lens : List Nat} (hle : ∀ l ∈ lens, l ≤ 15) (hk : kraftSum lens ≤ 2 ^ 15) :
    (buildTree lens).error = none ∧ ∃ labels leaf, Labelled (buildTree lens).arena labels leaf (IsCode lens) := by
  have hflag := (firstCodes_flag_iff_kraftSum hle).2 hk
  have hget := fun l => firstCodes_getD lens (m := 0) (n := 15) (l := l) (next := List.replicate 16 0) rfl
    (by decide) hflag
  have hlen := firstCodes_length (countLengths lens) 15 1 0 (List.replicate 16 0)
  generalize hf : firstCodes (countLengths lens) 15 1 0 (List.replicate 16 0) = r at hflag hlen
  obtain ⟨next, flag⟩ := r
  obtain rfl : flag = true := hflag
  rw [buildTree_of_firstCodes hf]
  refine assignCodes_labelled hle hk _ lens 0 hlen hle (labelled_cleared (leaf := fun _ _ => False) id) nofun ?_
  intro l h0 hl
  have hfirst : next.getD l 0 = canonicalFirst lens l := by
    have := hget l
    rw [if_pos ⟨by omega, by omega⟩] at this
    rw [← this]
    exact congrArg (fun r => r.1.getD l 0) hf.symm
  rw [hfirst]
  exact ⟨Nat.le_refl _, rfl⟩

/-! ## The number of nodes (41_huffman.md R136) -/

/-- How many lengths are used and below `l`. -/
def usedBelow (lens : List Nat) (l : Nat) : Nat := lens.countP fun x => x ≠ 0 ∧ x < l

theorem usedBelow_one (lens : List Nat) : usedBelow lens 1 = 0 :=
  List.countP_eq_zero.2 fun x _ => by
    rw [decide_eq_true_eq]
    omega

theorem usedBelow_succ (lens : List Nat) {l : Nat} (h : l ≠ 0) :
    usedBelow lens (l + 1) = usedBelow lens l + lens.count l := by
  rw [usedBelow, usedBelow]
  induction lens with
  | nil => rfl
  | cons x lens ih =>
    rw [List.countP_cons, List.countP_cons, List.count_cons, ih]
    simp only [decide_eq_true_eq, beq_iff_eq]
    by_cases he : x = l
    · rw [if_pos (by omega), if_neg (show ¬(x ≠ 0 ∧ x < l) by omega), if_pos he]
      omega
    · by_cases hlt : x ≠ 0 ∧ x < l
      · rw [if_pos (by omega), if_pos hlt, if_neg he]
        omega
      · rw [if_neg (by omega), if_neg hlt, if_neg he]
        omega

/-- Where no length exceeds `l`, every used one is below `l + 1`. -/
theorem usedBelow_eq_countP {lens : List Nat} {l : Nat} (h : ∀ x ∈ lens, x ≤ l) :
    usedBelow lens (l + 1) = lens.countP fun x => x ≠ 0 :=
  List.countP_congr fun x hx => by
    have hle := h x hx
    rw [decide_eq_true_eq, decide_eq_true_eq]
    omega

/-- The numbers from the first code of each depth to a bound that at least doubles with each depth: the sum telescopes,
because the first code of the next depth is twice what is past the codes of this one. -/
theorem sum_range_width_le (lens : List Nat) {e : Nat → Nat} {n : Nat} (he : ∀ d, d < n → 2 * e d ≤ e (d + 1)) :
    (∑ d ∈ Finset.range (n + 1), (e d + 1 - canonicalFirst lens d)) + 1 ≤
      2 * (e n + 1 - canonicalFirst lens n) + 2 * usedBelow lens n + n := by
  induction n with
  | zero =>
    rw [Finset.sum_range_one, canonicalFirst]
    omega
  | succ n ih =>
    have hprev := ih fun d hd => he d (Nat.lt_succ_of_lt hd)
    have hdouble := he n (Nat.lt_succ_self n)
    rw [Finset.sum_range_succ]
    rcases Nat.eq_zero_or_pos n with rfl | hn
    · have h0 : usedBelow lens 0 = 0 := List.countP_eq_zero.2 fun x _ => by simp
      rw [canonicalFirst_one, usedBelow_one]
      rw [h0, canonicalFirst] at hprev
      omega
    · rw [canonicalFirst_succ lens (by omega), usedBelow_succ lens (by omega)]
      omega

/-- A tree has no more nodes than its labels have room, depth by depth. -/
theorem labelled_length_le_sum {a : Arena} {labels : List (Nat × Nat)} {leaf code : Nat → Nat → Prop}
    {n : Nat} {lo hi : Nat → Nat} (h : Labelled a labels leaf code)
    (hroom : ∀ d v, (d, v) ∈ labels → d ≤ n ∧ lo d ≤ v ∧ v ≤ hi d) :
    a.length ≤ ∑ d ∈ Finset.range (n + 1), (hi d + 1 - lo d) := by
  have hcard := Finset.card_le_card_of_injOn (s := labels.toFinset)
    (t := (Finset.range (n + 1)).sigma fun d => Finset.Icc (lo d) (hi d)) (fun p => ⟨p.1, p.2⟩)
    (fun p hp => by
      obtain ⟨hd, hv⟩ := hroom p.1 p.2 (by simpa using hp)
      simpa using ⟨by omega, hv⟩)
    (fun p _ q _ heq => by
      simp only [Sigma.mk.injEq, heq_eq_eq] at heq
      exact Prod.ext heq.1 heq.2)
  rw [List.toFinset_card_of_nodup h.nodup, h.length, Finset.card_sigma] at hcard
  simpa using hcard

/-- The bits that begin a code lie between the first code of their depth and what begins the last code of all. -/
theorem begins_bounds {lens : List Nat} {lmax last d l c : Nat} (hlast : canonicalFirst lens (lmax + 1) = 2 * last)
    (hc : IsCode lens l c) (hd : d ≤ l) (hl : l ≤ lmax) :
    canonicalFirst lens d ≤ c / 2 ^ (l - d) ∧ c / 2 ^ (l - d) ≤ (last - 1) / 2 ^ (lmax - d) := by
  constructor
  · rw [Nat.le_div_iff_mul_le (Nat.two_pow_pos _)]
    have hgrow := canonicalFirst_mul_two_pow_le lens d (l - d)
    rw [Nat.add_sub_cancel' hd] at hgrow
    exact Nat.le_trans hgrow hc.first
  · rw [Nat.le_div_iff_mul_le (Nat.two_pow_pos _)]
    have hbelow := isCode_lt hc (k := lmax - l + 1) (by omega)
    rw [show l + (lmax - l + 1) = lmax + 1 by omega, hlast, Nat.pow_succ, ← Nat.mul_assoc, Nat.add_one_mul] at hbelow
    have hpos := Nat.two_pow_pos (lmax - l)
    calc c / 2 ^ (l - d) * 2 ^ (lmax - d) = c / 2 ^ (l - d) * 2 ^ (l - d) * 2 ^ (lmax - l) := by
          rw [Nat.mul_assoc, ← Nat.pow_add, show l - d + (lmax - l) = lmax - d by omega]
      _ ≤ c * 2 ^ (lmax - l) := Nat.mul_le_mul_right _ (Nat.div_mul_le_self c _)
      _ ≤ last - 1 := by omega

/-- A tree of canonical codes has at most `max(1, 2n - 1 + lmax)` nodes (41_huffman.md R136). -/
theorem labelled_length_le {lens : List Nat} {lmax : Nat} {a : Arena} {labels : List (Nat × Nat)}
    {leaf : Nat → Nat → Prop} (hmax : ∀ l ∈ lens, l ≤ lmax) (h : Labelled a labels leaf (IsCode lens)) :
    a.length ≤ max 1 (2 * (lens.countP fun l => l ≠ 0) - 1 + lmax) := by
  by_cases hnone : canonicalFirst lens (lmax + 1) = 0
  · have hroot : ∀ d v, (d, v) ∈ labels → d ≤ 0 ∧ 0 ≤ v ∧ v ≤ 0 := by
      intro d v hm
      rcases h.begins hm with ⟨rfl, rfl⟩ | ⟨l, c, hc, -, -⟩
      · decide
      · have hlmax := hmax l (isCode_length_mem hc)
        have hlt := isCode_lt hc (k := lmax + 1 - l) (by omega)
        rw [Nat.add_sub_cancel' (by omega), hnone] at hlt
        exact absurd hlt (Nat.not_le.2 (Nat.mul_pos (Nat.succ_pos c) (Nat.two_pow_pos _)))
    have hsum := labelled_length_le_sum (lo := fun _ => 0) (hi := fun _ => 0) h hroot
    rw [Finset.sum_range_one] at hsum
    omega
  · have h0 : lmax ≠ 0 := by
      rintro rfl
      exact hnone rfl
    have hlast := canonicalFirst_succ lens h0
    have hroom : ∀ d v, (d, v) ∈ labels → d ≤ lmax ∧ canonicalFirst lens d ≤ v ∧
        v ≤ (canonicalFirst lens lmax + lens.count lmax - 1) / 2 ^ (lmax - d) := by
      intro d v hm
      rcases h.begins hm with ⟨rfl, rfl⟩ | ⟨l, c, hc, hd, rfl⟩
      · exact ⟨Nat.zero_le _, Nat.le_refl _, Nat.zero_le _⟩
      · have hl := hmax l (isCode_length_mem hc)
        exact ⟨Nat.le_trans hd hl, begins_bounds hlast hc hd hl⟩
    have hsum := labelled_length_le_sum h hroom
    have hwidth := sum_range_width_le lens (n := lmax)
      (e := fun d => (canonicalFirst lens lmax + lens.count lmax - 1) / 2 ^ (lmax - d)) fun d hd => by
        rw [show lmax - d = lmax - (d + 1) + 1 by omega, Nat.pow_succ, ← Nat.div_div_eq_div_mul]
        omega
    have hused := usedBelow_succ lens h0
    rw [usedBelow_eq_countP hmax] at hused
    simp only [Nat.sub_self, Nat.pow_zero, Nat.div_one] at hwidth
    omega

/-- A build without overflow keeps the bound on the nodes (41_huffman.md R136). -/
theorem buildTree_length_le {lens : List Nat} {lmax : Nat} (hl : lmax ≤ 15) (hmax : ∀ l ∈ lens, l ≤ lmax)
    (hk : kraftSum lens ≤ 2 ^ 15) :
    (buildTree lens).arena.length ≤ max 1 (2 * (lens.countP fun l => l ≠ 0) - 1 + lmax) := by
  obtain ⟨-, labels, leaf, h⟩ := buildTree_of_kraftSum_le (fun l hm => Nat.le_trans (hmax l hm) hl) hk
  exact labelled_length_le hmax h

/-! ## HUF_BUILD by the Kraft sum -/

theorem fixedLLLens_le (v : Config.FixedLong) : ∀ l ∈ fixedLLLens v, l ≤ 15 := by
  intro l hl
  have hlong : fixedLongBits v ≤ 9 := by cases v <;> decide
  simp only [fixedLLLens, List.mem_append, List.mem_replicate] at hl
  omega

/-- An entry of a table of 3-bit or 4-bit registers, or of the fixed lengths, is at most 15 (41_huffman.md R141). -/
theorem buildTable_le (s : State) (t : TreeId) : ∀ l ∈ s.buildTable t, l ≤ 15 := by
  have hregs : ∀ {w : Nat} (xs : List (BitVec w)), w ≤ 4 → ∀ l ∈ xs.map BitVec.toNat, l ≤ 15 := by
    intro w xs hw l hl
    obtain ⟨x, -, rfl⟩ := List.mem_map.1 hl
    have hpow : 2 ^ w ≤ 2 ^ 4 := Nat.pow_le_pow_right (by decide) hw
    have hx := x.isLt
    omega
  cases t with
  | clt => exact hregs _ (by decide)
  | llt => exact hregs _ (by decide)
  | dt => exact hregs _ (by decide)
  | fllt => exact fixedLLLens_le _
  | fdt => exact fun l hl => by rw [List.eq_of_mem_replicate hl]; decide

/-- A build within the contract whose Kraft sum is at most 1 completes (41_huffman.md R131, R135). -/
theorem hufBuild_of_kraftSum_le {t : TreeId} {s : State} (hc : buildOutOfContract s t = false)
    (hk : kraftSum (s.buildTable t) ≤ 2 ^ 15) : hufBuild t s = .ok () (s.afterBuild t) := by
  rw [hufBuild, hc, (buildTree_of_kraftSum_le (buildTable_le s t) hk).1]
  rfl

/-- A build of at most 288 lengths whose Kraft sum exceeds 1 raises CODE_OVERFLOW, with no effect (41_huffman.md R134). -/
theorem hufBuild_of_kraftSum_gt {t : TreeId} {s : State} (hlen : (s.buildTable t).length ≤ 288)
    (hk : 2 ^ 15 < kraftSum (s.buildTable t)) : hufBuild t s = .raised .codeOverflow s := by
  obtain ⟨herror, harena⟩ := buildTree_of_kraftSum_gt (buildTable_le s t) hk
  have hcap : 1 ≤ arenaCapacity s.params t := by
    cases t with
    | fllt =>
      rw [arenaCapacity]
      split <;> decide
    | clt | llt | dt | fdt => exact Nat.succ_pos _
  have hc : buildOutOfContract s t = false := by
    rw [buildOutOfContract, harena, Bool.or_eq_false_iff, decide_eq_false_iff_not, decide_eq_false_iff_not]
    exact ⟨Nat.not_lt.2 hlen, Nat.not_lt.2 hcap⟩
  rw [hufBuild, hc, herror]
  rfl

/-- The CL tree of 19 code-length code lengths never passes its arena's capacity (10_state.md R34). -/
theorem clt_inContract {s : State} (hlen : s.clLens.length ≤ 19) (hk : kraftSum (s.buildTable .clt) ≤ 2 ^ 15) :
    buildOutOfContract s .clt = false := by
  have hmax : ∀ l ∈ s.buildTable .clt, l ≤ 7 := by
    intro l hl
    obtain ⟨x, -, rfl⟩ := List.mem_map.1 hl
    omega
  have htable : (s.buildTable .clt).length ≤ 19 := by rwa [State.buildTable, List.length_map]
  have hused := List.countP_le_length (p := fun l => decide (l ≠ 0)) (l := s.buildTable .clt)
  have hnodes := buildTree_length_le (by decide) hmax hk
  rw [buildOutOfContract, Bool.or_eq_false_iff, decide_eq_false_iff_not, decide_eq_false_iff_not, Config.llAlphabet,
    arenaCapacity]
  omega

/-! ## CLCL_FIELD -/

/-- A field whose three bits are there is written at the symbol that the code-length order gives, and then the next one or
the build follows (43_block_header.md R169). -/
theorem exec_clclField_of_le {len : BitVec 3} {s : State} {j : Nat} (h : 3 ≤ s.bitsRemaining)
    (hj : clOrder[s.clclIdx]? = some j) : exec (.clclField len) s = (clclNext { s.advance 3 with
      clLens := s.clLens.set j len, clclIdx := s.clclIdx + 1 }).toOutcome := by
  have hput : (s.advance 3).putClLen len =
      { s.advance 3 with clLens := s.clLens.set j len, clclIdx := s.clclIdx + 1 } := by
    rw [State.putClLen, show clOrder[(s.advance 3).clclIdx]? = some j from hj]
    rfl
  rw [exec, execClclField, bcSkip_of_le h, res_ok_bind, hput]

theorem clclNext_of_lt {s : State} (h : s.clclIdx < s.hclen) : clclNext s = .ok () s := by
  rw [clclNext, if_pos h]

theorem clclNext_of_le {s : State} (h : s.hclen ≤ s.clclIdx) :
    clclNext s = (hufBuild .clt s).bind fun _ s => .ok () s.enterClsym := by
  rw [clclNext, if_neg (Nat.not_lt.2 h)]

/-- The end of the last field, where the lengths fit the code space: CLT is built and the sequence starts. -/
theorem clclNext_of_kraftSum_le {s : State} (h : s.hclen ≤ s.clclIdx) (hlen : s.clLens.length = 19)
    (hk : kraftSum (s.buildTable .clt) ≤ 2 ^ 15) : clclNext s = .ok () (s.afterBuild .clt).enterClsym := by
  rw [clclNext_of_le h, hufBuild_of_kraftSum_le (clt_inContract hlen.le hk) hk, res_ok_bind]

/-- The end of the last field, where the lengths overflow the code space. -/
theorem clclNext_of_kraftSum_gt {s : State} (h : s.hclen ≤ s.clclIdx) (hlen : s.clLens.length = 19)
    (hk : 2 ^ 15 < kraftSum (s.buildTable .clt)) : clclNext s = .raised .codeOverflow s := by
  have htable : (s.buildTable .clt).length ≤ 288 := by
    rw [State.buildTable, List.length_map, hlen]
    decide
  rw [clclNext_of_le h, hufBuild_of_kraftSum_gt htable hk, res_raised_bind]

/-- Settles O26: the field is written at its symbol, and the last one's build is decided by the Kraft sum: 19 lengths of 3
bits whose sum is at most 1 fit CLT, and meet no contradiction. -/
theorem codeLengthFieldsFillAndBuild : Obligations.CodeLengthFieldsFillAndBuild := by
  intro len s j hr hj
  have hexec := exec_clclField_of_le (len := len) hr hj
  refine ⟨fun hlt => ?_, fun hle hlen lens hlens => ?_⟩
  · rw [hexec, clclNext_of_lt hlt]
    rfl
  · subst hlens
    have hset : (s.clLens.set j len).length = 19 := by rw [List.length_set, hlen]
    refine ⟨fun hk => ?_, fun hk => ?_⟩
    · rw [hexec, clclNext_of_kraftSum_le, afterBuild_clt]
      exacts [rfl, hle, hset, hk]
    · rw [hexec, clclNext_of_kraftSum_gt]
      exacts [rfl, hle, hset, hk]

end Sys2Proof.Machine

namespace Sys2Proof.Machine

/-! ## Decoding an encoded instruction (30_encoding.md) -/

/-- An element without extra bits is its own word. -/
theorem encode_of_element {i : Instr} {f : Format} {w : Nat} (h : i.element = (f, w, 0)) : encode i = w := by
  rw [encode, h, Nat.zero_mul, Nat.add_zero]

/-- In a format without extra bits, an element is read back from its word where its number is decoded to it. -/
theorem decode_encode_of_fixed {i : Instr} {f : Format} (hf : i.format = f) (hx : ∀ sym, f.extraBits sym = 0)
    (hd : decode f i.element.2.1 = .ok i) : decode f (encode i) = .ok i := by
  have hextra := element_extra_lt i
  rw [hf, hx, Nat.pow_zero, Nat.lt_one_iff] at hextra
  rwa [encode, hextra, Nat.zero_mul, Nat.add_zero]

/-! The word of a header or of a command decodes to it (30_encoding.md R81, R97, 10_state.md R21). -/

theorem decode_zhdr_element {i : Instr} (hf : i.format = .zhdr) : decode .zhdr i.element.2.1 = .ok i := by
  cases i with
  | zlibHeader cmf flg =>
    have hc := cmf.isLt
    have hg := flg.isLt
    have hcmf : BitVec.ofNat 8 ((cmf.toNat * 256 + flg.toNat) / 256) = cmf := by bv_omega
    have hflg : BitVec.ofNat 8 (cmf.toNat * 256 + flg.toNat) = flg := by bv_omega
    show decode .zhdr (cmf.toNat * 256 + flg.toNat) = _
    rw [decode, if_pos (by omega), hcmf, hflg]
  | _ => cases hf

@[simp] theorem bcWidthOk_eq_true {n : BitVec 7} : bcWidthOk n = true ↔ n.toNat ≤ 64 := by
  rw [bcWidthOk, decide_eq_true_iff, Config.peekMax]

/-- The word of a bit-cursor command holds the operation above the field `n`. -/
theorem bccmd_fields (n : BitVec 7) (op : Nat) :
    BitVec.ofNat 7 (n.toNat + op * 128) = n ∧ (n.toNat + op * 128) / 128 = op := by
  have hn := n.isLt
  exact ⟨by bv_omega, by omega⟩

theorem decode_bccmd_element {i : Instr} (hf : i.format = .bccmd) (hw : i.wf = true) :
    decode .bccmd i.element.2.1 = .ok i := by
  cases i with
  | bcPeek n =>
    obtain ⟨hn, hop⟩ := bccmd_fields n 0
    show decodeBccmd (n.toNat + 0 * 128) = _
    simp only [decodeBccmd, hn, hop]
    exact if_pos hw
  | bcConsume n =>
    obtain ⟨hn, hop⟩ := bccmd_fields n 1
    show decodeBccmd (n.toNat + 1 * 128) = _
    simp only [decodeBccmd, hn, hop]
    exact if_pos hw
  | bcConsumeBit n =>
    obtain ⟨hn, hop⟩ := bccmd_fields n 2
    show decodeBccmd (n.toNat + 2 * 128) = _
    simp only [decodeBccmd, hn, hop]
  | bcByteAlign n =>
    obtain ⟨hn, hop⟩ := bccmd_fields n 3
    show decodeBccmd (n.toNat + 3 * 128) = _
    simp only [decodeBccmd, hn, hop]
  | _ => cases hf

theorem decode_hufcmd_element {i : Instr} (hf : i.format = .hufcmd) : decode .hufcmd i.element.2.1 = .ok i := by
  cases i with
  | hufBuild tree | hufLookup tree => cases tree <;> rfl
  | _ => cases hf

theorem decode_ctrl_element {i : Instr} (hf : i.format = .ctrl) : decode .ctrl i.element.2.1 = .ok i := by
  cases i with
  | cmdStart r =>
    have hr := r.isLt
    have hfield : BitVec.ofNat 31 ((r.toNat * 2 + 1) / 2) = r := by bv_omega
    show decode .ctrl (r.toNat * 2 + 1) = _
    rw [decode, if_pos (by omega), if_pos (by omega), hfield]
  | _ => cases hf

/-- Settles O1: in each format the word holds the operands in fields that the decoder takes apart again. -/
theorem decodeOfEncode : Obligations.DecodeOfEncode := by
  intro i hw
  cases hf : i.format with
  | zhdr => exact decode_encode_of_fixed hf (fun _ => rfl) (decode_zhdr_element hf)
  | bhdr => exact decode_encode_of_fixed hf (fun _ => rfl) (decode_bhdr_element hf).2
  | dynhdr => exact decode_encode_of_fixed hf (fun _ => rfl) (decode_dynhdr_element hf).2
  | clcl => exact decode_encode_of_fixed hf (fun _ => rfl) (decode_clcl_element hf).2
  | clsym => exact hf ▸ (elementDecodes_clsym hf).word
  | llsym => exact hf ▸ (elementDecodes_llsym hf).word
  | dsym => exact hf ▸ (elementDecodes_dsym hf).word
  | bccmd => exact decode_encode_of_fixed hf (fun _ => rfl) (decode_bccmd_element hf hw)
  | hufcmd => exact decode_encode_of_fixed hf (fun _ => rfl) (decode_hufcmd_element hf)
  | ctrl => exact decode_encode_of_fixed hf (fun _ => rfl) (decode_ctrl_element hf)

/-! ## Encoding a decoded word -/

/-! The instruction that an alphabet's entry makes has the entry's symbol and the extra bits that fit it (30_encoding.md R86
to R88). -/

theorem clSymbolRows_element {k : Nat} {r : SymbolRow} (h : clSymbolRows[k]? = some r) (e : Nat) :
    (r.2 e).element = (.clsym, 16 + k, e % 2 ^ r.1) := by
  have hk : k < 3 := (List.getElem?_eq_some_iff.1 h).1
  interval_cases k <;> cases h <;> rfl

theorem llSymbolRows_element {k : Nat} {r : SymbolRow} (h : llSymbolRows[k]? = some r) (e : Nat) :
    (r.2 e).element = (.llsym, 256 + k, e % 2 ^ r.1) := by
  have hk : k < 32 := (List.getElem?_eq_some_iff.1 h).1
  interval_cases k <;> cases h <;> simp [Instr.element, Nat.mod_one]

theorem distSymbolRows_element {k : Nat} {r : SymbolRow} (h : distSymbolRows[k]? = some r) (e : Nat) :
    (r.2 e).element = (.dsym, k, e % 2 ^ r.1) := by
  have hk : k < 32 := (List.getElem?_eq_some_iff.1 h).1
  interval_cases k <;> cases h <;> simp [Instr.element, Nat.mod_one]

/-- An alphabet's entry is taken only for extra bits that fit it. -/
theorem decodeSymbolRow_eq_ok_iff {row : Option SymbolRow} {e : Nat} {i : Instr} :
    decodeSymbolRow row e = .ok i ↔ ∃ r, row = some r ∧ e < 2 ^ r.1 ∧ r.2 e = i := by
  cases row with
  | none => simp [decodeSymbolRow]
  | some r => by_cases he : e < 2 ^ r.1 <;> simp [decodeSymbolRow, he]

/-- A row of an alphabet gives back the symbol and the extra bits it was decoded from. -/
theorem decodeSymbolRow_element {row : Option SymbolRow} {f : Format} {sym e : Nat} {i : Instr}
    (hrow : ∀ r, row = some r → (r.2 e).element = (f, sym, e % 2 ^ r.1)) (h : decodeSymbolRow row e = .ok i) :
    i.element = (f, sym, e) := by
  obtain ⟨r, hr, he, rfl⟩ := decodeSymbolRow_eq_ok_iff.1 h
  rw [hrow r hr, Nat.mod_eq_of_lt he]

theorem decodeClsym_element {sym e : Nat} {i : Instr} (h : decodeClsym sym e = .ok i) : i.element = (.clsym, sym, e) := by
  rw [decodeClsym] at h
  split at h
  · next hs =>
    split at h <;> cases h
    next he => rw [Instr.element, BitVec.toNat_ofNat, Nat.mod_eq_of_lt hs, he]
  · next hs =>
    refine decodeSymbolRow_element (fun r hr => ?_) h
    rw [clSymbolRows_element hr, Nat.add_sub_cancel' (Nat.not_lt.1 hs)]

theorem decodeLlsym_element {sym e : Nat} {i : Instr} (h : decodeLlsym sym e = .ok i) : i.element = (.llsym, sym, e) := by
  rw [decodeLlsym] at h
  split at h
  · next hs =>
    split at h <;> cases h
    next he => rw [Instr.element, BitVec.toNat_ofNat, Nat.mod_eq_of_lt hs, he]
  · next hs =>
    refine decodeSymbolRow_element (fun r hr => ?_) h
    rw [llSymbolRows_element hr, Nat.add_sub_cancel' (Nat.not_lt.1 hs)]

theorem decodeDsym_element {sym e : Nat} {i : Instr} (h : decodeDsym sym e = .ok i) : i.element = (.dsym, sym, e) :=
  decodeSymbolRow_element (fun _ hr => distSymbolRows_element hr e) h

/-- The word of a Huffman-coded element is the symbol below the extra bits, so it is the word they were taken from. -/
theorem encode_of_symbol {i : Instr} {f : Format} {w : Nat}
    (h : i.element = (f, w % 2 ^ f.symBits, w / 2 ^ f.symBits)) : encode i = w := by
  rw [encode, Instr.format, h]
  exact Nat.mod_add_div' w _

theorem toNat_mod_two_beq_one (w : Nat) : (w % 2 == 1).toNat = w % 2 := by
  rcases Nat.mod_two_eq_zero_or_one w with h | h <;> rw [h] <;> rfl

theorem encode_of_decodeBhdr {w : Nat} {i : Instr} (h : decodeBhdr w = .ok i) : encode i = w := by
  have hb := toNat_mod_two_beq_one w
  simp only [decodeBhdr] at h
  split at h <;> cases h <;> rw [encode_of_element rfl] <;> omega

/-- A bit-cursor command is decoded from its own word, and only with a width of the contract (40_bit_cursor.md R126). -/
theorem encode_of_decodeBccmd {w : Nat} {i : Instr} (h : decodeBccmd w = .ok i) : encode i = w ∧ i.wf = true := by
  have hn := BitVec.toNat_ofNat w 7
  simp only [decodeBccmd, decodeWidth] at h
  split at h
  · split at h <;> cases h
    next hw => exact ⟨by rw [encode_of_element rfl]; omega, hw⟩
  · split at h <;> cases h
    next hw => exact ⟨by rw [encode_of_element rfl]; omega, hw⟩
  · cases h
    exact ⟨by rw [encode_of_element rfl]; omega, rfl⟩
  · cases h
    exact ⟨by rw [encode_of_element rfl]; omega, rfl⟩
  · cases h

theorem code_of_ofCode {c : Nat} {t : TreeId} (h : TreeId.ofCode c = some t) : t.code = c := by
  unfold TreeId.ofCode at h
  split at h <;> cases h <;> rfl

theorem encode_of_decodeHufcmd {w : Nat} {i : Instr} (h : decodeHufcmd w = .ok i) : encode i = w := by
  rw [decodeHufcmd] at h
  split at h <;> cases h
  all_goals
    next ht _ =>
      rw [encode_of_element rfl, code_of_ofCode ht]
      omega

/-- The word a decoder accepts is the encoding of what it decodes to. -/
theorem encode_of_decode {f : Format} {w : Nat} {i : Instr} (h : decode f w = .ok i) : encode i = w := by
  cases f with
  | zhdr =>
    rw [decode] at h
    split at h <;> cases h
    rw [encode_of_element rfl, BitVec.toNat_ofNat, BitVec.toNat_ofNat]
    omega
  | bhdr => exact encode_of_decodeBhdr h
  | dynhdr =>
    rw [decode] at h
    split at h <;> cases h
    rw [encode_of_element rfl, BitVec.toNat_ofNat, BitVec.toNat_ofNat, BitVec.toNat_ofNat]
    omega
  | clcl =>
    rw [decode] at h
    split at h <;> cases h
    rw [encode_of_element rfl, BitVec.toNat_ofNat]
    omega
  | clsym => exact encode_of_symbol (decodeClsym_element h)
  | llsym => exact encode_of_symbol (decodeLlsym_element h)
  | dsym => exact encode_of_symbol (decodeDsym_element h)
  | bccmd => exact (encode_of_decodeBccmd h).1
  | hufcmd => exact encode_of_decodeHufcmd h
  | ctrl =>
    rw [decode] at h
    split at h
    · split at h <;> cases h
      rw [encode_of_element rfl, BitVec.toNat_ofNat]
      omega
    · cases h

/-- Only a bit-cursor command can have a width outside the contract (40_bit_cursor.md R126). -/
theorem wf_of_format_ne_bccmd {i : Instr} (h : i.format ≠ .bccmd) : i.wf = true := by
  cases i with
  | bcPeek n | bcConsume n => exact absurd rfl h
  | _ => rfl

theorem wf_of_decode {f : Format} {w : Nat} {i : Instr} (h : decode f w = .ok i) : i.wf = true := by
  by_cases hf : f = .bccmd
  · subst hf
    exact (encode_of_decodeBccmd h).2
  · exact wf_of_format_ne_bccmd (decode_format h ▸ hf)

/-- Settles O2: the fields the decoder takes a word apart into make the word again. -/
theorem encodeOfDecode : Obligations.EncodeOfDecode :=
  fun _ _ _ h => ⟨decode_format h, encode_of_decode h, wf_of_decode h⟩

/-! ## The bit-cursor commands -/

/-! What each command leaves, where the bits are there, where they are not, and where its width is outside the contract
(40_bit_cursor.md R120 to R126). -/

theorem exec_bcPeek_of_le {n : BitVec 7} {s : State} (hn : n.toNat ≤ 64) (h : n.toNat ≤ s.bitsRemaining) :
    exec (.bcPeek n) s = .next (s.returnBits (s.inBits s.cursorPos n.toNat)) := by
  rw [exec, execBcPeek, if_pos (bcWidthOk_eq_true.2 hn), bcPeek_of_le h]
  rfl

theorem exec_bcPeek_of_lt {n : BitVec 7} {s : State} (hn : n.toNat ≤ 64) (h : s.bitsRemaining < n.toNat) :
    exec (.bcPeek n) s = .next (s.raiseError .inExhausted) := by
  rw [exec, execBcPeek, if_pos (bcWidthOk_eq_true.2 hn), bcPeek_of_lt h]
  rfl

theorem exec_bcPeek_of_wide {n : BitVec 7} (s : State) (hn : 64 < n.toNat) :
    exec (.bcPeek n) s = .refused .bcWidthOver64 := by
  rw [exec, execBcPeek, if_neg fun h => Nat.not_lt.2 (bcWidthOk_eq_true.1 h) hn]

theorem exec_bcConsume_of_le {n : BitVec 7} {s : State} (hn : n.toNat ≤ 64) (h : n.toNat ≤ s.bitsRemaining) :
    exec (.bcConsume n) s = .next ((s.advance n.toNat).returnBits (s.inBits s.cursorPos n.toNat)) := by
  rw [exec, execBcConsume, if_pos (bcWidthOk_eq_true.2 hn), bcConsume_of_le h]
  rfl

theorem exec_bcConsume_of_lt {n : BitVec 7} {s : State} (hn : n.toNat ≤ 64) (h : s.bitsRemaining < n.toNat) :
    exec (.bcConsume n) s = .next (s.raiseError .inExhausted) := by
  rw [exec, execBcConsume, if_pos (bcWidthOk_eq_true.2 hn), bcConsume_of_lt h]
  rfl

theorem exec_bcConsume_of_wide {n : BitVec 7} (s : State) (hn : 64 < n.toNat) :
    exec (.bcConsume n) s = .refused .bcWidthOver64 := by
  rw [exec, execBcConsume, if_neg fun h => Nat.not_lt.2 (bcWidthOk_eq_true.1 h) hn]

theorem exec_bcConsumeBit_of_le (n : BitVec 7) {s : State} (h : 1 ≤ s.bitsRemaining) :
    exec (.bcConsumeBit n) s = .next ((s.advance 1).returnBits (s.inBit s.cursorPos).toNat) := by
  rw [exec, execBcConsumeBit, bcConsumeBit_of_le h]
  rfl

theorem exec_bcConsumeBit_of_zero (n : BitVec 7) {s : State} (h : s.bitsRemaining = 0) :
    exec (.bcConsumeBit n) s = .next (s.raiseError .inExhausted) := by
  rw [exec, execBcConsumeBit, bcConsumeBit_of_zero h]
  rfl

theorem exec_bcByteAlign (n : BitVec 7) (s : State) : exec (.bcByteAlign n) s = .next (bcByteAlign s) := rfl

theorem bcByteAlign_of_ne {s : State} (h : s.curBit ≠ 0) :
    bcByteAlign s = { s with curByte := s.curByte + 1, curBit := 0 } := if_neg h

theorem bcByteAlign_of_aligned {s : State} (h : s.curBit = 0) : bcByteAlign s = s := if_pos h

/-- Settles O8: the value is the bits read, whose bit `k` is the stream's, cut to the port's 64 bits. -/
theorem peekAndConsumeReadTheNextBits : Obligations.PeekAndConsumeReadTheNextBits := by
  intro n s hn hr
  refine ⟨.ofNat 64 (s.inBits s.cursorPos n.toNat), fun k hk => ?_, exec_bcPeek_of_le hn hr, exec_bcConsume_of_le hn hr⟩
  rw [BitVec.getLsbD_ofNat, decide_eq_true hk, Bool.true_and, inBits_testBit]

/-- Settles O9: a read of one bit returns it as 0 or 1. -/
theorem consumeBitReadsOneBit : Obligations.ConsumeBitReadsOneBit := by
  intro n s hr
  have hvalue : BitVec.ofNat 64 (s.inBit s.cursorPos).toNat = if s.inBit s.cursorPos then 1 else 0 := by
    cases s.inBit s.cursorPos <;> rfl
  rw [exec_bcConsumeBit_of_le n hr, State.returnBits, hvalue]
  rfl

/-- Settles O10: the two cases of the alignment. -/
theorem byteAlignMovesToTheNextByte : Obligations.ByteAlignMovesToTheNextByte := by
  intro n s
  rw [exec_bcByteAlign]
  exact ⟨fun h => by rw [bcByteAlign_of_ne h], fun h => by rw [bcByteAlign_of_aligned h]⟩

/-- Settles O11: `rem` is what the commands' bound check compares the width with. -/
theorem readsPastTheEndRaise : Obligations.ReadsPastTheEndRaise := by
  rintro n s rem rfl
  exact ⟨fun hn hr => ⟨exec_bcPeek_of_lt hn hr, exec_bcConsume_of_lt hn hr⟩, exec_bcConsumeBit_of_zero n⟩

/-- Settles O12: both commands check their width first. -/
theorem widthsAbove64AreRefused : Obligations.WidthsAbove64AreRefused :=
  fun _ s hn => ⟨exec_bcPeek_of_wide s hn, exec_bcConsume_of_wide s hn⟩

/-! ## What a command leaves unchanged -/

/-- A walk that answers or raises has moved the cursor at most, wherever it stood (41_huffman.md R138, R139). -/
theorem hufWalk_eq_cursor (a : Arena) (n node : Nat) (s : State) :
    ∃ p q, (∃ v, hufWalk a n node s = .ok v { s with curByte := p, curBit := q }) ∨
      ∃ c, hufWalk a n node s = .raised c { s with curByte := p, curBit := q } := by
  induction n generalizing node s with
  | zero =>
    refine ⟨s.curByte, s.curBit, ?_⟩
    rw [hufWalk]
    split
    · exact .inl ⟨_, rfl⟩
    · exact .inr ⟨_, rfl⟩
  | succ n ih =>
    rw [hufWalk]
    split
    · exact ⟨s.curByte, s.curBit, .inl ⟨_, rfl⟩⟩
    · rcases bcConsumeBit_cases s with ⟨-, he⟩ | ⟨-, he⟩ <;> rw [he]
      · rw [res_ok_bind]
        split
        · exact ⟨_, _, .inr ⟨_, rfl⟩⟩
        · exact ih _ (s.advance 1)
      · exact ⟨s.curByte, s.curBit, .inr ⟨_, rfl⟩⟩

/-- What an internal command can leave: a value on the port behind some bits, a built tree, a decoded symbol behind its code,
or an error behind the bits consumed, of which a build has none (40_bit_cursor.md R128, 41_huffman.md R142, 60_exceptions.md
R235). -/
inductive CommandEffect (s : State) : Instr → State → Prop
  | bits {i : Instr} (hf : i.format = .bccmd) (p q : Nat) (v : BitVec 64) :
    CommandEffect s i { s with curByte := p, curBit := q, bcData := v }
  | build (tree : TreeId) (clt llt dt : Arena) (bl next : List Nat) :
    CommandEffect s (.hufBuild tree) { s with clt := clt, llt := llt, dt := dt, blCount := bl, nextCode := next }
  | lookup (tree : TreeId) (p q v : Nat) :
    CommandEffect s (.hufLookup tree) { s with curByte := p, curBit := q, sym := v }
  | raise {i : Instr} (p q : Nat) (c : Cause) (hb : ∀ tree, i = .hufBuild tree → p = s.curByte ∧ q = s.curBit) :
    CommandEffect s i (({ s with curByte := p, curBit := q } : State).raiseError c)

/-- A command that raises with no bit consumed. -/
theorem CommandEffect.raise_self {s : State} (i : Instr) (c : Cause) : CommandEffect s i (s.raiseError c) :=
  .raise s.curByte s.curBit c fun _ _ => ⟨rfl, rfl⟩

/-- A command that checks its width, and then that its bits are there (40_bit_cursor.md R120, R126). -/
theorem commandEffect_of_width {i : Instr} {n : Nat} {s t : State} (hf : i.format = .bccmd)
    (hwide : 64 < n → exec i s = .refused .bcWidthOver64)
    (hlt : n ≤ 64 → s.bitsRemaining < n → exec i s = .next (s.raiseError .inExhausted))
    (hle : n ≤ 64 → n ≤ s.bitsRemaining → ∃ p q v, exec i s = .next { s with curByte := p, curBit := q, bcData := v })
    (ht : exec i s = .next t) : CommandEffect s i t := by
  rcases Nat.lt_or_ge 64 n with hn | hn
  · rw [hwide hn] at ht
    cases ht
  · rcases Nat.lt_or_ge s.bitsRemaining n with hr | hr
    · rw [hlt hn hr] at ht
      cases ht
      exact .raise_self i _
    · obtain ⟨p, q, v, he⟩ := hle hn hr
      rw [he] at ht
      cases ht
      exact .bits hf p q v

theorem commandEffect_bccmd {i : Instr} {s t : State} (hf : i.format = .bccmd) (ht : exec i s = .next t) :
    CommandEffect s i t := by
  cases i with
  | bcPeek n =>
    exact commandEffect_of_width hf (exec_bcPeek_of_wide s) exec_bcPeek_of_lt
      (fun hn hr => ⟨s.curByte, s.curBit, _, exec_bcPeek_of_le hn hr⟩) ht
  | bcConsume n =>
    exact commandEffect_of_width hf (exec_bcConsume_of_wide s) exec_bcConsume_of_lt
      (fun hn hr => ⟨_, _, _, exec_bcConsume_of_le hn hr⟩) ht
  | bcConsumeBit n =>
    rcases Nat.eq_zero_or_pos s.bitsRemaining with hr | hr
    · rw [exec_bcConsumeBit_of_zero n hr] at ht
      cases ht
      exact .raise_self _ _
    · rw [exec_bcConsumeBit_of_le n hr] at ht
      cases ht
      exact .bits rfl _ _ _
  | bcByteAlign n =>
    cases ht
    rw [bcByteAlign]
    split
    · exact .bits rfl s.curByte s.curBit s.bcData
    · exact .bits rfl (s.curByte + 1) 0 s.bcData
  | _ => cases hf

theorem commandEffect_hufcmd {i : Instr} {s t : State} (hf : i.format = .hufcmd) (ht : exec i s = .next t) :
    CommandEffect s i t := by
  cases i with
  | hufBuild tree =>
    rw [exec, execHufBuild] at ht
    rcases hufBuild_cases tree s with ⟨-, he⟩ | ⟨-, -, he⟩ | ⟨c, -, -, -, he⟩ <;> rw [he] at ht <;> cases ht
    · obtain ⟨clt, llt, dt, bl, next, he⟩ := afterBuild_eq s tree
      rw [he]
      exact .build tree clt llt dt bl next
    · exact .raise_self _ c
  | hufLookup tree =>
    rw [exec, execHufLookup, hufLookup, hufDecode] at ht
    obtain ⟨p, q, ⟨v, he⟩ | ⟨c, he⟩⟩ := hufWalk_eq_cursor (s.arena tree) s.bitsRemaining 0 s <;> rw [he] at ht <;>
      cases ht
    · exact .lookup tree p q v
    · exact .raise p q c nofun
  | _ => cases hf

/-! What each effect leaves unchanged. -/

theorem CommandEffect.same {i : Instr} {s t : State} (h : CommandEffect s i t) :
    SameMemory s t ∧ SameZlibHdr s t ∧ SameBlock s t ∧ SameCounts s t ∧ SameTable s t ∧ SameClLens s t ∧ SamePair s t ∧
      SameBackref s t ∧ SameHost s t ∧ t.outLen = s.outLen ∧ t.seq = s.seq := by
  cases h <;> exact ⟨⟨fun _ => rfl, fun _ => rfl⟩, ⟨rfl, rfl, rfl, rfl⟩, ⟨rfl, rfl, rfl, rfl⟩, ⟨rfl, rfl, rfl⟩,
    ⟨rfl, rfl, rfl, rfl⟩, ⟨rfl, rfl⟩, ⟨rfl, rfl⟩, ⟨rfl, rfl, rfl⟩, ⟨rfl, rfl, rfl, rfl, rfl, rfl, rfl, rfl, rfl, rfl⟩,
    rfl, rfl⟩

theorem CommandEffect.bccmd_same {i : Instr} {s t : State} (h : CommandEffect s i t) (hf : i.format = .bccmd) :
    SameTrees s t ∧ t.sym = s.sym := by
  cases h with
  | bits | raise => exact ⟨⟨rfl, rfl, rfl, rfl, rfl⟩, rfl⟩
  | build | lookup => cases hf

theorem CommandEffect.hufcmd_bcData {i : Instr} {s t : State} (h : CommandEffect s i t) (hf : i.format = .hufcmd) :
    t.bcData = s.bcData := by
  cases h with
  | bits hb =>
    rw [hb] at hf
    cases hf
  | build | lookup | raise => rfl

theorem CommandEffect.hufBuild_same {tree : TreeId} {s t : State} (h : CommandEffect s (.hufBuild tree) t) :
    SameCursor s t ∧ t.sym = s.sym := by
  cases h with
  | bits hb => cases hb
  | build => exact ⟨⟨rfl, rfl⟩, rfl⟩
  | raise p q c hb => exact ⟨hb tree rfl, rfl⟩

theorem CommandEffect.hufLookup_sameTrees {tree : TreeId} {s t : State} (h : CommandEffect s (.hufLookup tree) t) :
    SameTrees s t := by
  cases h with
  | bits hb => cases hb
  | lookup | raise => exact ⟨rfl, rfl, rfl, rfl, rfl⟩

theorem CommandEffect.error_or_same {i : Instr} {s t : State} (h : CommandEffect s i t) :
    t.phase = .error ∨ (t.phase = s.phase ∧ SameError s t) := by
  cases h with
  | bits | build | lookup => exact .inr ⟨rfl, rfl, rfl⟩
  | raise => exact .inl rfl

theorem CommandEffect.raiseIsPrecise {i : Instr} {s t : State} (h : CommandEffect s i t) : RaiseIsPrecise s t := by
  intro hs ht
  cases h with
  | bits | build | lookup => exact absurd ht hs
  | raise => rfl

/-- Settles O60: whatever effect the command has leaves the registers that the statement names. -/
theorem commandsFrame : Obligations.CommandsFrame := by
  intro i s t hf ht
  have h : CommandEffect s i t := hf.elim (commandEffect_bccmd · ht) (commandEffect_hufcmd · ht)
  obtain ⟨hmem, hzlib, hblock, hcounts, htable, hcl, hpair, hback, hhost, hlen, hseq⟩ := h.same
  exact ⟨hmem, hzlib, hblock, hcounts, htable, hcl, hpair, hback, hhost, hlen, hseq, h.bccmd_same, h.hufcmd_bcData,
    fun tree hi => CommandEffect.hufBuild_same (hi ▸ h), fun tree hi => CommandEffect.hufLookup_sameTrees (hi ▸ h),
    h.error_or_same, h.raiseIsPrecise⟩

end Sys2Proof.Machine

namespace Sys2Proof.Machine

/-! ## What an insertion keeps of an arena's codes (41_huffman.md R131 step 3, R133) -/

/-- `a'` has every leaf of `a` with its symbol, and every edge of `a` out of a node that is no leaf. -/
structure Arena.Extends (a a' : Arena) : Prop where
  leaf : ∀ {k}, (a.nodeAt k).isLeaf = true → (a'.nodeAt k).isLeaf = true ∧ (a'.nodeAt k).sym = (a.nodeAt k).sym
  edge : ∀ {k b j}, ¬(a.nodeAt k).isLeaf = true → (a.nodeAt k).child b = some j →
    ¬(a'.nodeAt k).isLeaf = true ∧ (a'.nodeAt k).child b = some j

theorem extends_refl (a : Arena) : a.Extends a := ⟨fun hl => ⟨hl, rfl⟩, fun hl hk => ⟨hl, hk⟩⟩

theorem extends_trans {a b c : Arena} (hab : a.Extends b) (hbc : b.Extends c) : a.Extends c := by
  refine ⟨fun hl => ?_, fun hl hk => ?_⟩
  · obtain ⟨hlb, hsb⟩ := hab.leaf hl
    obtain ⟨hlc, hsc⟩ := hbc.leaf hlb
    exact ⟨hlc, hsc.trans hsb⟩
  · obtain ⟨hlb, hkb⟩ := hab.edge hl hk
    exact hbc.edge hlb hkb

theorem decodesTo_nil {a : Arena} {node : Nat} (h : (a.nodeAt node).isLeaf = true) :
    a.decodesTo node [] = some (a.nodeAt node).sym := by
  rw [Arena.decodesTo, if_pos h]

theorem decodesTo_cons {a : Arena} {node k : Nat} {b : Bool} (bits : List Bool) (hl : ¬(a.nodeAt node).isLeaf = true)
    (hk : (a.nodeAt node).child b = some k) : a.decodesTo node (b :: bits) = a.decodesTo k bits := by
  rw [Arena.decodesTo, if_neg hl, hk]

/-- A code of an arena is a code of every extension. -/
theorem decodesTo_of_extends {a a' : Arena} (h : a.Extends a') {node sym : Nat} {bits : List Bool}
    (hd : a.decodesTo node bits = some sym) : a'.decodesTo node bits = some sym := by
  induction bits generalizing node with
  | nil =>
    rw [Arena.decodesTo] at hd
    split at hd
    · next hl =>
      obtain ⟨hl', hs⟩ := h.leaf hl
      rw [decodesTo_nil hl', hs, hd]
    · cases hd
  | cons b bits ih =>
    rw [Arena.decodesTo] at hd
    split at hd
    · cases hd
    · next hl =>
      split at hd
      · next k hk =>
        obtain ⟨hl', hk'⟩ := h.edge hl hk
        rw [decodesTo_cons bits hl' hk']
        exact ih hd
      · cases hd

theorem node_child_of_vacant {nd : Node} (h : nd.vacant = true) (b : Bool) : nd.child b = none := by
  simp only [Node.vacant, Bool.and_eq_true, Option.isNone_iff_eq_none] at h
  obtain ⟨⟨-, h0⟩, h1⟩ := h
  cases b
  · exact h0
  · exact h1

theorem not_isLeaf_of_vacant {nd : Node} (h : nd.vacant = true) : ¬nd.isLeaf = true := by
  simp only [Node.vacant, Bool.and_eq_true, Bool.not_eq_true'] at h
  obtain ⟨⟨hl, -⟩, -⟩ := h
  simp [hl]

/-- An edge leads out of an allocated node only. -/
theorem lt_length_of_child {a : Arena} {k j : Nat} {b : Bool} (h : (a.nodeAt k).child b = some j) : k < a.length := by
  by_contra hk
  rw [Arena.nodeAt, List.getD_eq_default _ _ (Nat.le_of_not_lt hk)] at h
  cases b <;> cases h

/-- The new edge takes the place of none. -/
theorem extends_alloc {a : Arena} {node : Nat} {b : Bool} (hn : node < a.length) (hl : ¬(a.nodeAt node).isLeaf = true)
    (hb : (a.nodeAt node).child b = none) : a.Extends (a.alloc node b) := by
  refine ⟨fun {k} hk => ⟨by rw [isLeaf_alloc b hn, hk], ?_⟩, fun {k c j} hk hc => ⟨by rwa [isLeaf_alloc b hn], ?_⟩⟩
  · by_cases hkn : k = node
    · exact absurd (hkn ▸ hk) hl
    · by_cases hka : k = a.length
      · rw [hka, nodeAt_alloc_new, Arena.nodeAt, List.getD_eq_default _ _ (Nat.le_refl _)]
      · rw [nodeAt_alloc_other a b hkn hka]
  · rw [child_alloc b c hn (lt_length_of_child hc), if_neg, hc]
    rintro ⟨rfl, rfl⟩
    rw [hb] at hc
    cases hc

/-- A node that becomes a leaf had no edge. -/
theorem extends_setLeaf {a : Arena} {node : Nat} (nd : Node) (hv : (a.nodeAt node).vacant = true) :
    a.Extends (List.set a node nd) := by
  have hother : ∀ {k}, k ≠ node → Arena.nodeAt (List.set a node nd) k = a.nodeAt k := nodeAt_set_other a nd
  refine ⟨fun {k} hk => ?_, fun {k b j} hk hb => ?_⟩
  · have hkn : k ≠ node := fun he => not_isLeaf_of_vacant hv (he ▸ hk)
    rw [hother hkn]
    exact ⟨hk, rfl⟩
  · have hkn : k ≠ node := by
      rintro rfl
      rw [node_child_of_vacant hv] at hb
      cases hb
    rw [hother hkn]
    exact ⟨hk, hb⟩

/-- An insertion without contradiction adds its code, and takes none away (41_huffman.md R133). -/
theorem insertCode_extends_and_decodesTo {al sym c : Nat} (i : Nat) {node : Nat} {a a' : Arena} (hs : sym < al)
    (hw : Arena.wf a.length al a) (hn : node < a.length) (h : insertCode sym c i node a = (a', true)) :
    a.Extends a' ∧ a'.decodesTo node (msbFirst c i) = some sym := by
  induction i generalizing node a with
  | zero =>
    rw [insertCode] at h
    split at h
    · next hv =>
      cases h
      refine ⟨extends_setLeaf _ hv, ?_⟩
      rw [msbFirst, decodesTo_nil] <;> rw [nodeAt_set_same _ hn]
    · cases h
  | succ i ih =>
    by_cases hl : (a.nodeAt node).isLeaf = true
    · rw [insertCode, if_pos hl] at h
      cases h
    · cases hk : (a.nodeAt node).child (c.testBit i) with
      | some k =>
        rw [insertCode_of_some hl hk] at h
        obtain ⟨-, hklt⟩ := node_child_wf (nodeAt_wf hw (by omega) node) hk
        obtain ⟨hext, hd⟩ := ih hw hklt h
        obtain ⟨hl', hk'⟩ := hext.edge hl hk
        exact ⟨hext, by rw [msbFirst, decodesTo_cons _ hl' hk', hd]⟩
      | none =>
        rw [insertCode_of_none hl hk] at h
        obtain ⟨hext, hd⟩ := ih (alloc_wf _ hw (by omega) hn) (by rw [alloc_length]; omega) h
        obtain ⟨hl', hk'⟩ := hext.edge (by rwa [isLeaf_alloc _ hn])
          (by rw [child_alloc _ (c.testBit i) hn hn, if_pos ⟨rfl, rfl⟩])
        exact ⟨extends_trans (extends_alloc hn hl hk) hext, by rw [msbFirst, decodesTo_cons _ hl' hk', hd]⟩

/-! ## The codes that a build assigns (41_huffman.md R132, R137) -/

/-- Step 3 without contradiction has inserted the code of its first used symbol. -/
theorem insertCode_of_assignCodes {bl rest next : List Nat} {len s : Nat} {a : Arena} (h0 : len ≠ 0)
    (he : (assignCodes bl (len :: rest) s next a).error = none) :
    ∃ a', insertCode s (next.getD len 0) len 0 a = (a', true) := by
  simp only [assignCodes, if_neg h0] at he
  split at he
  · next a' hins => exact ⟨a', hins⟩
  · cases he

/-- Step 3 without contradiction keeps the codes that are there, and gives each used symbol the next code of its length
(41_huffman.md R131 step 3, R132). -/
theorem assignCodes_extends_and_decodesTo {al : Nat} (bl lens : List Nat) (s : Nat) (next : List Nat) {a : Arena}
    (hs : s + lens.length ≤ al) (hw : Arena.wf a.length al a) (hn : next.length = 16) (hle : ∀ l ∈ lens, l ≤ 15)
    (he : (assignCodes bl lens s next a).error = none) :
    a.Extends (assignCodes bl lens s next a).arena ∧
      ∀ i, i < lens.length → lens.getD i 0 ≠ 0 →
        (assignCodes bl lens s next a).arena.decodesTo 0
          (msbFirst (next.getD (lens.getD i 0) 0 + (lens.take i).count (lens.getD i 0)) (lens.getD i 0)) =
          some (s + i) := by
  induction lens generalizing s next a with
  | nil => exact ⟨extends_refl a, nofun⟩
  | cons len rest ih =>
    rw [List.forall_mem_cons] at hle
    obtain ⟨hlen, hle⟩ := hle
    rw [List.length_cons] at hs
    by_cases h0 : len = 0
    · subst h0
      rw [assignCodes_zero] at he ⊢
      obtain ⟨hext, hcodes⟩ := ih (s + 1) next (by omega) hw hn hle he
      refine ⟨hext, fun i hi hused => ?_⟩
      cases i with
      | zero => exact absurd rfl hused
      | succ i =>
        rw [List.getD_cons_succ] at hused ⊢
        rw [List.take_succ_cons, List.count_cons_of_ne (Ne.symm hused), show s + (i + 1) = s + 1 + i by omega]
        exact hcodes i (Nat.lt_of_succ_lt_succ hi) hused
    · obtain ⟨a1, hins⟩ := insertCode_of_assignCodes h0 he
      rw [assignCodes_of_insertCode bl rest h0 hins] at he ⊢
      have hsym : s < al := by omega
      obtain ⟨hext1, hcode⟩ := insertCode_extends_and_decodesTo len hsym hw hw.root hins
      obtain ⟨hw1, -⟩ := insertCode_wf (next.getD len 0) len hsym hw hw.root fun hl => absurd hl h0
      rw [hins] at hw1
      obtain ⟨hext, hcodes⟩ := ih (s + 1) _ (by omega) hw1 (by rw [List.length_set, hn]) hle he
      refine ⟨extends_trans hext1 hext, fun i hi hused => ?_⟩
      cases i with
      | zero => exact decodesTo_of_extends hext hcode
      | succ i =>
        have hnext : (List.set next len (next.getD len 0 + 1)).getD (rest.getD i 0) 0 +
            (rest.take i).count (rest.getD i 0) =
            next.getD (rest.getD i 0) 0 + ((len :: rest).take (i + 1)).count (rest.getD i 0) := by
          rw [getD_set_eq_ite, hn, List.take_succ_cons, List.count_cons]
          by_cases hl : len = rest.getD i 0
          · rw [← hl, if_pos ⟨rfl, by omega⟩, if_pos (beq_self_eq_true len)]
            omega
          · rw [if_neg fun hc => hl hc.1, if_neg (by rwa [beq_iff_eq]), Nat.add_zero]
        rw [List.getD_cons_succ] at hused ⊢
        rw [← hnext, show s + (i + 1) = s + 1 + i by omega]
        exact hcodes i (Nat.lt_of_succ_lt_succ hi) hused

/-- A build's step 2 passes where the Kraft sum is at most 1, and leaves step 3 the first code of each length (41_huffman.md
R131, R132). -/
theorem buildTree_eq_assignCodes {lens : List Nat} (hle : ∀ l ∈ lens, l ≤ 15) (hk : kraftSum lens ≤ 2 ^ 15) :
    ∃ next : List Nat, next.length = 16 ∧ (∀ l, l ≠ 0 → l ≤ 15 → next.getD l 0 = canonicalFirst lens l) ∧
      buildTree lens = assignCodes (countLengths lens) lens 0 next Arena.cleared := by
  have hflag := (firstCodes_flag_iff_kraftSum hle).2 hk
  refine ⟨_, firstCodes_length (countLengths lens) 15 1 0 (List.replicate 16 0), fun l h0 hl => ?_,
    buildTree_of_firstCodes (Prod.ext rfl hflag)⟩
  have hget := firstCodes_getD lens (m := 0) (n := 15) (l := l) (next := List.replicate 16 0) rfl (by decide) hflag
  rwa [if_pos ⟨by omega, by omega⟩] at hget

/-- Settles O15: the overflow check is the Kraft sum's, and codes of which none begins another meet no contradiction. -/
theorem codeOverflowIsKraftExcess : Obligations.CodeOverflowIsKraftExcess := by
  intro lens hle
  rcases Nat.lt_or_ge (2 ^ 15) (kraftSum lens) with hk | hk
  · obtain ⟨he, -⟩ := buildTree_of_kraftSum_gt hle hk
    rw [he]
    exact ⟨iff_of_true rfl hk, iff_of_false nofun (Nat.not_le.2 hk)⟩
  · obtain ⟨he, -⟩ := buildTree_of_kraftSum_le hle hk
    rw [he]
    exact ⟨iff_of_false nofun (Nat.not_lt.2 hk), iff_of_true rfl hk⟩

/-- Settles O17, by induction on the table in step 3: each insertion adds its symbol's code and keeps the earlier ones. -/
theorem builtTreeHoldsTheCanonicalCodes : Obligations.BuiltTreeHoldsTheCanonicalCodes := by
  intro lens sym hle he hsym hused
  obtain ⟨-, hok⟩ := codeOverflowIsKraftExcess lens hle
  obtain ⟨next, hn, hfirst, hbuild⟩ := buildTree_eq_assignCodes hle (hok.1 he)
  rw [hbuild] at he ⊢
  obtain ⟨-, hcodes⟩ := assignCodes_extends_and_decodesTo (al := lens.length + 1) _ lens 0 next (by omega)
    (cleared_wf (by omega)) hn hle he
  have hlen : lens.getD sym 0 ≤ 15 := by
    rw [List.getD_eq_getElem _ _ hsym]
    exact hle _ (List.getElem_mem hsym)
  rw [canonicalCode, ← hfirst _ hused hlen, hcodes sym hsym hused, Nat.zero_add]

/-- Settles O16: the tree's nodes are labelled by the beginnings of codes, which are few at each depth. -/
theorem buildNodeBound : Obligations.BuildNodeBound := by
  rintro lens n lmax hl hmax hk rfl
  exact buildTree_length_le hl hmax hk

/-! ## HUF_BUILD -/

/-- A build is within the contract where its table and its nodes fit (41_huffman.md R141). -/
theorem buildOutOfContract_eq_false {s : State} {t : TreeId} :
    buildOutOfContract s t = false ↔
      (s.buildTable t).length ≤ 288 ∧ (buildTree (s.buildTable t)).arena.length ≤ arenaCapacity s.params t := by
  rw [buildOutOfContract, Bool.or_eq_false_iff, decide_eq_false_iff_not, decide_eq_false_iff_not, Nat.not_lt, Nat.not_lt,
    Config.llAlphabet]

/-- A table whose bound on the nodes is within the arena's capacity is within the contract (41_huffman.md R136, R141). -/
theorem inContract_of_bound {s : State} {t : TreeId} (hk : kraftSum (s.buildTable t) ≤ 2 ^ 15)
    (hlen : (s.buildTable t).length ≤ 288)
    (hcap : max 1 (2 * (s.buildTable t).length - 1 + 15) ≤ arenaCapacity s.params t) :
    buildOutOfContract s t = false := by
  have hused := List.countP_le_length (p := fun l => decide (l ≠ 0)) (l := s.buildTable t)
  have hnodes := buildTree_length_le (Nat.le_refl 15) (buildTable_le s t) hk
  exact buildOutOfContract_eq_false.2 ⟨hlen, by omega⟩

/-- The builds of the engine's counts, and of the fixed tables, are within the contract (10_state.md R34). -/
theorem inContract_of_counts {s : State} (t : TreeId) (hk : kraftSum (s.buildTable t) ≤ 2 ^ 15)
    (hcl : s.clLens.length ≤ 19) (hhlit : s.hlit ≤ 286) (hhdist : s.hdist ≤ 30) : buildOutOfContract s t = false := by
  cases t with
  | clt => exact clt_inContract hcl hk
  | llt =>
    have hlen : (s.buildTable .llt).length ≤ 286 := by
      rw [State.buildTable, List.length_map, List.length_take]
      omega
    refine inContract_of_bound hk (by omega) ?_
    rw [arenaCapacity]
    omega
  | dt =>
    have hlen : (s.buildTable .dt).length ≤ 30 := by
      rw [State.buildTable, List.length_map, List.length_take]
      omega
    refine inContract_of_bound hk (by omega) ?_
    rw [arenaCapacity]
    omega
  | fllt =>
    refine buildOutOfContract_eq_false.2 ⟨(fixedLLLens_length _).le, ?_⟩
    rw [State.buildTable, fixedLLArena_eq, fixedLLArena_length]
  | fdt =>
    refine buildOutOfContract_eq_false.2 ⟨by rw [State.buildTable, fixedDLens_length]; decide, ?_⟩
    rw [State.buildTable, fixedDArena_eq, fixedDArena_length, arenaCapacity]

/-- The selected arena holds the built tree; a fixed one held it before (42_fixed_tables.md R152). -/
theorem arena_afterBuild_same (s : State) (t : TreeId) :
    (s.afterBuild t).arena t = (buildTree (s.buildTable t)).arena := by
  cases t with
  | clt | llt | dt => rfl
  | fllt => exact (fixedLLArena_eq _).symm
  | fdt => exact fixedDArena_eq.symm

theorem arena_setArena_other (s : State) {t u : TreeId} (a : Arena) (h : u ≠ t) : (s.setArena t a).arena u = s.arena u := by
  cases t with
  | clt =>
    cases u with
    | clt => exact absurd rfl h
    | llt | dt | fllt | fdt => rfl
  | llt =>
    cases u with
    | llt => exact absurd rfl h
    | clt | dt | fllt | fdt => rfl
  | dt =>
    cases u with
    | dt => exact absurd rfl h
    | clt | llt | fllt | fdt => rfl
  | fllt | fdt => rfl

/-- No arena depends on the scratch registers. -/
theorem arena_scratch (s : State) (bl next : List Nat) (u : TreeId) :
    ({ s with blCount := bl, nextCode := next } : State).arena u = s.arena u := by
  cases u <;> rfl

theorem arena_afterBuild_other (s : State) {t u : TreeId} (h : u ≠ t) : (s.afterBuild t).arena u = s.arena u := by
  rw [State.afterBuild, arena_scratch, arena_setArena_other s _ h]

theorem exec_hufBuild_of_kraftSum_le {t : TreeId} {s : State} (hc : buildOutOfContract s t = false)
    (hk : kraftSum (s.buildTable t) ≤ 2 ^ 15) : exec (.hufBuild t) s = .next (s.afterBuild t) := by
  rw [exec, execHufBuild, hufBuild_of_kraftSum_le hc hk, toOutcome_ok]

theorem exec_hufBuild_of_kraftSum_gt {t : TreeId} {s : State} (hlen : (s.buildTable t).length ≤ 288)
    (hk : 2 ^ 15 < kraftSum (s.buildTable t)) : exec (.hufBuild t) s = .next (s.raiseError .codeOverflow) := by
  rw [exec, execHufBuild, hufBuild_of_kraftSum_gt hlen hk, toOutcome_raised]

theorem exec_hufBuild_of_outOfContract {t : TreeId} {s : State} (hc : buildOutOfContract s t = true) :
    exec (.hufBuild t) s = .refused .buildOutOfContract := by
  rw [exec, execHufBuild, hufBuild, if_pos hc, toOutcome_refused]

/-- Settles O13: the node bound keeps the engine's tables within the contract, and a build within it completes. -/
theorem buildWritesItsArenaOnly : Obligations.BuildWritesItsArenaOnly := by
  intro tree s hk
  refine ⟨inContract_of_counts tree hk, fun hc => ⟨_, exec_hufBuild_of_kraftSum_le hc hk, arena_afterBuild_same s tree,
    fun u => arena_afterBuild_other s, ?_⟩, exec_hufBuild_of_outOfContract⟩
  obtain ⟨clt, llt, dt, bl, next, he⟩ := afterBuild_eq s tree
  rw [he]

/-- Settles O14: a table's entries are at most 15, so its overflow is found before a node is made. -/
theorem buildRaisesCodeOverflow : Obligations.BuildRaisesCodeOverflow :=
  fun _ _ => exec_hufBuild_of_kraftSum_gt

/-! ## HUF_LOOKUP -/

theorem exec_hufLookup_of_decodesTo {t : TreeId} {s : State} {code : List Bool} {sym : Nat} (hc : s.curBit < 8)
    (hs : s.streamAt code) (hd : (s.arena t).decodesTo 0 code = some sym) :
    exec (.hufLookup t) s = .next { s.advance code.length with sym := sym } := by
  rw [exec, execHufLookup, hufLookup, hufDecode_of_decodesTo hc hd hs, res_ok_bind, res_ok_bind, toOutcome_ok]

/-- A lookup that decodes nothing ends in the error that its walk raises. -/
theorem exec_hufLookup_of_raised {t : TreeId} {s s' : State} {c : Cause} (h : hufDecode t s = .raised c s') :
    exec (.hufLookup t) s = .next (s'.raiseError c) := by
  rw [exec, execHufLookup, hufLookup, h, res_raised_bind, res_raised_bind, toOutcome_raised]

/-- Settles O18: the walk follows the code to its leaf. -/
theorem lookupDecodesACode : Obligations.LookupDecodesACode :=
  fun _ _ _ _ => exec_hufLookup_of_decodesTo

/-- Settles O19: the walk ends behind the bit of the missing child, or with the input. -/
theorem lookupRaisesWithoutACode : Obligations.LookupRaisesWithoutACode := by
  rintro tree s bits ⟨hlen, hbits⟩
  refine ⟨fun hmiss => ?_, fun hin hend hc => ?_⟩
  · exact exec_hufLookup_of_raised (hufWalk_of_missesAt bits hmiss hlen hlen hbits)
  · exact exec_hufLookup_of_raised (hufWalk_of_staysInside bits hin hlen hend hbits hc)

end Sys2Proof.Machine

namespace Sys2Proof.Machine

/-! ## The block headers (43_block_header.md R165 to R167) -/

theorem exec_blockFixed_of_le (b : Bool) {s : State} (h : 3 ≤ s.bitsRemaining) :
    exec (.blockFixed b) s = .next { s.advance 3 with
      bfinal := b, btype := 1, blockFinal := b, blockType := 1
      llSel := .fllt, dSel := .fdt, phase := .body, seq := .ll } := by
  rw [exec, execBlockFixed, blockHeader_of_le b 1 _ h]
  rfl

theorem exec_blockDynamic_of_le (b : Bool) {s : State} (h : 3 ≤ s.bitsRemaining) :
    exec (.blockDynamic b) s = .next { s.advance 3 with
      bfinal := b, btype := 2, blockFinal := b, blockType := 2, phase := .dynhdr, seq := .head } := by
  rw [exec, execBlockDynamic, blockHeader_of_le b 2 _ h]
  rfl

theorem exec_blockReserved_of_le (b : Bool) {s : State} (h : 3 ≤ s.bitsRemaining) :
    exec (.blockReserved b) s = .next ((s.advance 3).raiseError .btypeReserved) := by
  rw [exec, execBlockReserved, blockHeader_of_le b 3 _ h]
  rfl

/-- Every element of the block header's format is a block header, and then its type's work. -/
theorem exec_bhdr {i : Instr} (s : State) (hf : i.format = .bhdr) :
    ∃ b ty op, exec i s = (blockHeader b ty op s).toOutcome := by
  cases i with
  | blockStored b | blockFixed b | blockDynamic b | blockReserved b => exact ⟨_, _, _, rfl⟩
  | _ => cases hf

/-- Settles O21: with the three bits there, the header is recorded and its type's work done; where that raises, only the
bits stay consumed. -/
theorem fixedAndReservedBlocks : Obligations.FixedAndReservedBlocks :=
  fun b _ h => ⟨exec_blockFixed_of_le b h, exec_blockReserved_of_le b h⟩

/-- Settles O22: with the three bits there, the header is recorded and the place is that of the dynamic header. -/
theorem dynamicBlockEntersTheTables : Obligations.DynamicBlockEntersTheTables :=
  fun b _ h => exec_blockDynamic_of_le b h

/-- Settles O24: the first read or the second one raises, whatever the type's work would be. -/
theorem cutShortBlockHeaderRaises : Obligations.CutShortBlockHeaderRaises := by
  intro i s hf hr
  obtain ⟨b, ty, op, he⟩ := exec_bhdr s hf
  rw [he]
  rcases blockHeader_of_lt b ty op hr with ⟨h0, hb⟩ | ⟨hpos, hb⟩ <;> rw [hb]
  · exact ⟨fun _ => rfl, fun hpos => by omega⟩
  · exact ⟨fun h0 => by omega, fun _ => rfl⟩

/-! ## The dynamic header (43_block_header.md R168) -/

/-- Settles O25: of the six things a dynamic header can do, each clause's premises leave one. -/
theorem dynamicHeaderReadsTheCounts : Obligations.DynamicHeaderReadsTheCounts := by
  intro a b c s
  rcases execDynHeader_cases a b c s with ⟨hr, ha, hb, he⟩ | ⟨hr, he⟩ | ⟨hr, ha, he⟩ | ⟨hr, hr', ha, he⟩ |
    ⟨hr, ha, hb, he⟩ | ⟨hr, hr', ha, hb, he⟩
  · exact ⟨fun _ _ _ => he, by omega, by omega, by omega, by omega, by omega⟩
  · exact ⟨by omega, by omega, by omega, fun _ => he, by omega, by omega⟩
  · exact ⟨by omega, fun _ _ => he, by omega, by omega, by omega, by omega⟩
  · exact ⟨by omega, by omega, by omega, by omega, fun _ _ _ => he, by omega⟩
  · exact ⟨by omega, by omega, fun _ _ _ => he, by omega, by omega, by omega⟩
  · exact ⟨by omega, by omega, by omega, by omega, by omega, fun _ _ _ _ => he⟩

/-! ## The runs of the code-length sequence (43_block_header.md R171 to R174) -/

/-- The state behind a symbol's `k` extra bits. Where it has none nothing is read, and the cursor stays as it is. -/
def State.behind (s : State) (k : Nat) : State := if k = 0 then s else s.advance k

theorem behind_of_pos (s : State) {k : Nat} (h : 0 < k) : s.behind k = s.advance k := if_neg (by omega)

theorem behind_eq_advance {s : State} (k : Nat) (h : s.curBit < 8) : s.behind k = s.advance k := by
  rcases Nat.eq_zero_or_pos k with rfl | hk
  · rw [advance_zero h]
    rfl
  · exact behind_of_pos s hk

theorem behind_eq_cursor (s : State) (k : Nat) : ∃ p q, s.behind k = { s with curByte := p, curBit := q } := by
  rw [State.behind]
  split
  · exact ⟨_, _, rfl⟩
  · exact ⟨_, _, rfl⟩

/-- The state in which a code-length symbol `sym` has written `n` entries of the value `v` (43_block_header.md R171 to
R174). -/
def State.putSymbol (s : State) (sym : Nat) (v : BitVec 4) (n rep : Nat) : State :=
  { s with
    lenTable := fillEntries v n s.lenIdx s.lenTable, lenIdx := s.lenIdx + n, prevLen := some v, rep := rep, sym := sym }

/-- A run has at least one entry (30_encoding.md R86). -/
theorem clRun_pos {i : Instr} {p : Option (BitVec 4)} {v : BitVec 4} {n k : Nat} (h : i.clRun p = some (v, n, k)) :
    0 < n := by
  cases i with
  | clLen sym =>
    cases h
    exact Nat.one_pos
  | clRep16 e =>
    obtain ⟨w, -, hw⟩ := Option.map_eq_some_iff.1 h
    cases hw
    omega
  | clZero17 e | clZero18 e =>
    cases h
    omega
  | _ => cases h

/-- A code-length symbol has a run, but for a repeat without a previous length (43_block_header.md R172). -/
theorem clRun_cases {i : Instr} (p : Option (BitVec 4)) (hf : i.format = .clsym) :
    (∃ v n k, i.clRun p = some (v, n, k)) ∨ ∃ e, i = .clRep16 e ∧ p = none := by
  cases i with
  | clLen sym | clZero17 e | clZero18 e => exact .inl ⟨_, _, _, rfl⟩
  | clRep16 e =>
    cases p with
    | none => exact .inr ⟨e, rfl, rfl⟩
    | some v => exact .inl ⟨v, _, _, rfl⟩
  | _ => cases hf

/-- Everything the extra bits and the run behind them can do. -/
theorem skipRun_cases (v : BitVec 4) (k n : Nat) (s : State) :
    (k ≤ s.bitsRemaining ∧ s.lenIdx + n ≤ s.hlit + s.hdist ∧
      ((bcSkip k s).bind fun _ s => putRun v n s) = .ok () { s.advance k with
        rep := n, lenTable := fillEntries v n s.lenIdx s.lenTable, lenIdx := s.lenIdx + n }) ∨
    (k ≤ s.bitsRemaining ∧ s.hlit + s.hdist < s.lenIdx + n ∧
      ((bcSkip k s).bind fun _ s => putRun v n s) = .raised .repeatOverrun { s.advance k with rep := n }) ∨
    (s.bitsRemaining < k ∧ ((bcSkip k s).bind fun _ s => putRun v n s) = .raised .inExhausted s) := by
  rcases bcSkip_cases k s with ⟨hk, he⟩ | ⟨hk, he⟩ <;> rw [he]
  · rw [res_ok_bind]
    rcases putRun_cases v n (s.advance k) with ⟨hn, he⟩ | ⟨hn, he⟩
    · exact .inl ⟨hk, hn, he⟩
    · exact .inr (.inl ⟨hk, hn, he⟩)
  · exact .inr (.inr ⟨hk, rfl⟩)

/-- The operation of a symbol with extra bits: its run, whose value the previous length then is. -/
def putRunBehind (v : BitVec 4) (k n : Nat) (s : State) : Res Unit :=
  ((bcSkip k s).bind fun _ s => putRun v n s).bind fun _ s => .ok () { s with prevLen := some v }

theorem putZeroRun_eq_putRunBehind (k n : Nat) (s : State) :
    ((bcSkip k s).bind fun _ s => putZeroRun n s) = putRunBehind 0 k n s := by
  rw [putRunBehind, res_bind_assoc]
  rfl

/-- A repeat's value is the previous length already. -/
theorem repeatPrev_eq_putRunBehind (e : BitVec 2) {v : BitVec 4} {s : State} (h : s.prevLen = some v) :
    repeatPrev e s = putRunBehind v 2 (3 + e.toNat) s := by
  simp only [repeatPrev, h, rep16Of]
  rw [putRunBehind]
  rcases skipRun_cases v 2 (3 + e.toNat) s with ⟨-, -, he⟩ | ⟨-, -, he⟩ | ⟨-, he⟩ <;> rw [he]
  · rw [res_ok_bind, ← h]
    rfl
  · rfl
  · rfl

/-- Everything the element of a symbol with extra bits can do. -/
theorem clSymbol_putRunBehind_cases {op : State → Res Unit} {sym k n : Nat} {v : BitVec 4} {s : State}
    (h : op s = putRunBehind v k n s) :
    (k ≤ s.bitsRemaining ∧ s.lenIdx + n ≤ s.hlit + s.hdist ∧
      clSymbol sym op s = clsymNext ((s.advance k).putSymbol sym v n n)) ∨
    (k ≤ s.bitsRemaining ∧ s.hlit + s.hdist < s.lenIdx + n ∧
      clSymbol sym op s = .raised .repeatOverrun (s.advance k)) ∨
    (s.bitsRemaining < k ∧ clSymbol sym op s = .raised .inExhausted s) := by
  rw [putRunBehind] at h
  rw [clSymbol]
  rcases skipRun_cases v k n s with ⟨hk, hn, he⟩ | ⟨hk, hn, he⟩ | ⟨hk, he⟩ <;> rw [he] at h
  · exact .inl ⟨hk, hn, by rw [symbolElement_of_ok h]; rfl⟩
  · exact .inr (.inl ⟨hk, hn, by rw [symbolElement_of_raised h]; rfl⟩)
  · exact .inr (.inr ⟨hk, by rw [symbolElement_of_raised h]; rfl⟩)

/-- A symbol without extra bits writes its run. -/
theorem exec_clRun_of_zero {i : Instr} {s : State} {v : BitVec 4} {n : Nat} (h : i.clRun s.prevLen = some (v, n, 0)) :
    exec i s = (clsymNext (s.putSymbol i.element.2.1 v n s.rep)).toOutcome := by
  cases i with
  | clLen sym =>
    cases h
    rfl
  | clRep16 e =>
    obtain ⟨w, -, he⟩ := Option.map_eq_some_iff.1 h
    cases he
  | _ => cases h

/-- A symbol with extra bits puts its run behind them. -/
theorem exec_clRun_of_pos {i : Instr} {s : State} {v : BitVec 4} {n k : Nat} (h : i.clRun s.prevLen = some (v, n, k))
    (hk : 0 < k) : ∃ op, op s = putRunBehind v k n s ∧ exec i s = (clSymbol i.element.2.1 op s).toOutcome := by
  cases i with
  | clLen sym =>
    cases h
    cases hk
  | clRep16 e =>
    obtain ⟨w, hw, he⟩ := Option.map_eq_some_iff.1 h
    cases he
    exact ⟨_, repeatPrev_eq_putRunBehind e hw, rfl⟩
  | clZero17 e | clZero18 e =>
    cases h
    exact ⟨_, putZeroRun_eq_putRunBehind _ _ s, rfl⟩
  | _ => cases h

/-- Everything a code-length symbol with a run can do: write it and go on, raise behind its extra bits, or raise before
them. -/
theorem exec_clRun_cases {i : Instr} {s : State} {v : BitVec 4} {n k : Nat} (h : i.clRun s.prevLen = some (v, n, k)) :
    (k ≤ s.bitsRemaining ∧ (k = 0 ∨ s.lenIdx + n ≤ s.hlit + s.hdist) ∧
      exec i s = (clsymNext ((s.behind k).putSymbol i.element.2.1 v n (if k = 0 then s.rep else n))).toOutcome) ∨
    (0 < k ∧ k ≤ s.bitsRemaining ∧ s.hlit + s.hdist < s.lenIdx + n ∧
      exec i s = .next ((s.advance k).raiseError .repeatOverrun)) ∨
    (s.bitsRemaining < k ∧ exec i s = .next (s.raiseError .inExhausted)) := by
  rcases Nat.eq_zero_or_pos k with rfl | hpos
  · exact .inl ⟨Nat.zero_le _, .inl rfl, exec_clRun_of_zero h⟩
  · obtain ⟨op, hop, hexec⟩ := exec_clRun_of_pos h hpos
    rw [hexec, behind_of_pos s hpos, if_neg (Nat.ne_of_gt hpos)]
    rcases clSymbol_putRunBehind_cases hop with ⟨hk, hn, he⟩ | ⟨hk, hn, he⟩ | ⟨hk, he⟩ <;> rw [he]
    · exact .inl ⟨hk, .inr hn, rfl⟩
    · exact .inr (.inl ⟨hpos, hk, hn, rfl⟩)
    · exact .inr (.inr ⟨hk, rfl⟩)

/-- A repeat without a previous length raises before its extra bits (43_block_header.md R172). -/
theorem exec_clRep16_of_none (e : BitVec 2) {s : State} (h : s.prevLen = none) :
    exec (.clRep16 e) s = .next (s.raiseError .repeatNoPrev) := by
  have hop : repeatPrev e s = .raised .repeatNoPrev s := by rw [repeatPrev, h]
  rw [exec, execClRep16, clSymbol, symbolElement_of_raised hop]
  rfl

/-- Settles O29: the previous length is looked at first, the extra bits are read next, and the run's end is checked
before an entry is written. -/
theorem repeatErrors : Obligations.RepeatErrors := by
  refine ⟨fun e s => exec_clRep16_of_none e, fun i s v n k hrun hpos hk hover => ?_⟩
  rcases exec_clRun_cases hrun with ⟨-, hfit, -⟩ | ⟨-, -, -, he⟩ | ⟨hlt, -⟩
  · omega
  · exact he
  · omega

/-- A symbol whose extra bits are there and whose run fits is written, and the loop's condition is checked. -/
theorem exec_clRun_of_fits {i : Instr} {sym e n k : Nat} {s : State} {v : BitVec 4} (hi : i.element = (.clsym, sym, e))
    (hrun : i.clRun s.prevLen = some (v, n, k)) (hk : k ≤ s.bitsRemaining) (hfit : s.lenIdx + n ≤ s.hlit + s.hdist)
    (hc : s.curBit < 8) :
    exec i s = (clsymNext ((s.advance k).putSymbol sym v n (if k = 0 then s.rep else n))).toOutcome := by
  rcases exec_clRun_cases hrun with ⟨-, -, he⟩ | ⟨-, -, hover, -⟩ | ⟨hlt, -⟩
  · rw [he, behind_eq_advance k hc, hi]
  · omega
  · omega

theorem clsymNext_of_lt {s : State} (h : s.lenIdx < s.hlit + s.hdist) : clsymNext s = .ok () s := if_pos h

theorem clsymNext_of_le {s : State} (h : s.hlit + s.hdist ≤ s.lenIdx) : clsymNext s = splitAndBuild s :=
  if_neg (Nat.not_lt.2 h)

/-- Settles O27: the run is written entry by entry, and the table is not full behind it. -/
theorem codeLengthSymbolsFillTheTable : Obligations.CodeLengthSymbolsFillTheTable := by
  intro i sym e s v n k hi hrun hk hlt hc
  refine ⟨fillEntries v n s.lenIdx s.lenTable, fun j => fillEntries_getElem? v n s.lenIdx j s.lenTable, ?_⟩
  rw [exec_clRun_of_fits hi hrun hk hlt.le hc, clsymNext_of_lt]
  exacts [rfl, hlt]

/-! ## Split and build (43_block_header.md R175) -/

/-- The builds of LLT and DT from the engine's counts are within the contract, whatever `cl_lens` holds, which neither
reads. -/
theorem llt_inContract {s : State} (h1 : s.hlit ≤ 286) (h2 : s.hdist ≤ 30)
    (hk : kraftSum (s.buildTable .llt) ≤ 2 ^ 15) : buildOutOfContract s .llt = false :=
  inContract_of_counts (s := { s with clLens := [] }) .llt hk (Nat.zero_le _) h1 h2

theorem dt_inContract {s : State} (h1 : s.hlit ≤ 286) (h2 : s.hdist ≤ 30)
    (hk : kraftSum (s.buildTable .dt) ≤ 2 ^ 15) : buildOutOfContract s .dt = false :=
  inContract_of_counts (s := { s with clLens := [] }) .dt hk (Nat.zero_le _) h1 h2

/-- Where both tables fit their code space, both trees are built and the body is entered. -/
theorem splitAndBuild_of_kraftSum_le {s : State} (h1 : s.hlit ≤ 286) (h2 : s.hdist ≤ 30)
    (hll : kraftSum (s.buildTable .llt) ≤ 2 ^ 15) (hd : kraftSum (s.buildTable .dt) ≤ 2 ^ 15) :
    splitAndBuild s = .ok () (((s.afterBuild .llt).afterBuild .dt).enterBody .llt .dt) := by
  have hdt : hufBuild .dt (s.afterBuild .llt) = .ok () ((s.afterBuild .llt).afterBuild .dt) :=
    hufBuild_of_kraftSum_le (dt_inContract (s := s.afterBuild .llt) h1 h2 hd) hd
  rw [splitAndBuild, hufBuild_of_kraftSum_le (llt_inContract h1 h2 hll) hll, res_ok_bind, hdt, res_ok_bind, atomic_ok]

/-- Where a table overflows its code space, neither tree is written: an overflow of DT undoes the build of LLT too. -/
theorem splitAndBuild_of_kraftSum_gt {s : State} (h1 : s.hlit ≤ 286) (h2 : s.hdist ≤ 30)
    (h : 2 ^ 15 < kraftSum (s.buildTable .llt) ∨ 2 ^ 15 < kraftSum (s.buildTable .dt)) :
    splitAndBuild s = .raised .codeOverflow s := by
  have hlll : (s.buildTable .llt).length ≤ 288 := by
    rw [State.buildTable, List.length_map, List.length_take]
    omega
  have hdl : ((s.afterBuild .llt).buildTable .dt).length ≤ 288 := by
    have hhdist : (s.afterBuild .llt).hdist ≤ 30 := h2
    rw [State.buildTable, List.length_map, List.length_take]
    omega
  rw [splitAndBuild]
  by_cases hll : 2 ^ 15 < kraftSum (s.buildTable .llt)
  · rw [hufBuild_of_kraftSum_gt hlll hll]
    rfl
  · have hle := Nat.le_of_not_lt hll
    have hd : hufBuild .dt (s.afterBuild .llt) = .raised .codeOverflow (s.afterBuild .llt) :=
      hufBuild_of_kraftSum_gt hdl (h.resolve_left hll)
    rw [hufBuild_of_kraftSum_le (llt_inContract h1 h2 hle) hle, res_ok_bind, hd, res_raised_bind, atomic_raised,
      afterBuild_curByte, afterBuild_curBit]

/-- Settles O28: the run fills the table, and the Kraft sums of its two parts decide the split. -/
theorem fullTableBuildsBothTrees : Obligations.FullTableBuildsBothTrees := by
  intro i sym e s v n k hi hrun hk hfull h1 h2 hc
  refine ⟨fillEntries v n s.lenIdx s.lenTable, fun j => fillEntries_getElem? v n s.lenIdx j s.lenTable, ?_⟩
  rintro ll d rfl rfl
  rw [exec_clRun_of_fits hi hrun hk hfull.le hc, clsymNext_of_le (by exact hfull.ge)]
  refine ⟨fun hll hd => ?_, fun hover => ?_⟩
  · rw [splitAndBuild_of_kraftSum_le, afterBuild_llt, afterBuild_dt]
    exacts [rfl, h1, h2, hll, hd]
  · rw [splitAndBuild_of_kraftSum_gt]
    exacts [rfl, h1, h2, hover]

/-! ## What the code-length elements leave unchanged -/

/-- The two causes a build can raise (41_huffman.md R134, R135). -/
theorem buildTree_error_cases {lens : List Nat} {c : Cause} (h : (buildTree lens).error = some c) :
    c = .codeOverflow ∨ c = .treeContradiction := by
  obtain ⟨-, -, -, he⟩ := buildTree_spec (al := lens.length + 1) (lens := lens) (by omega) (by omega)
  simpa [h] using he

/-- Everything the split can do: build both trees and enter the body, raise a build's cause with neither tree written,
or refuse (43_block_header.md R175). -/
theorem splitAndBuild_cases (s : State) :
    (∃ llt dt bl next, splitAndBuild s = .ok ()
      ({ s with llt := llt, dt := dt, blCount := bl, nextCode := next }.enterBody .llt .dt)) ∨
    (∃ c, (c = .codeOverflow ∨ c = .treeContradiction) ∧ splitAndBuild s = .raised c s) ∨
    ∃ r, splitAndBuild s = .refused r := by
  rw [splitAndBuild]
  rcases hufBuild_cases .llt s with ⟨-, he⟩ | ⟨-, -, he⟩ | ⟨c, -, -, hc, he⟩ <;> rw [he]
  · exact .inr (.inr ⟨_, rfl⟩)
  · rw [res_ok_bind]
    rcases hufBuild_cases .dt (s.afterBuild .llt) with ⟨-, he⟩ | ⟨-, -, he⟩ | ⟨c, -, -, hc, he⟩ <;> rw [he]
    · exact .inr (.inr ⟨_, rfl⟩)
    · exact .inl ⟨_, _, _, _, rfl⟩
    · exact .inr (.inl ⟨c, buildTree_error_cases hc, rfl⟩)
  · exact .inr (.inl ⟨c, buildTree_error_cases hc, rfl⟩)

/-- What CLCL_FIELD and a code-length symbol can leave: a field written, and CLT built behind the last one; a run written,
and both trees built and the body entered behind the last one; an error behind the bits consumed; or the element's
effect and then the error of the build behind it (43_block_header.md R169 to R175, 60_exceptions.md R235). -/
inductive TableEffect (s : State) : Instr → State → Prop
  | field (p q : Nat) (len : BitVec 3) :
    TableEffect s (.clclField len) (State.putClLen { s with curByte := p, curBit := q } len)
  | built (p q : Nat) (len : BitVec 3) (clt : Arena) (bl next : List Nat) :
    TableEffect s (.clclField len) (State.enterClsym { State.putClLen { s with curByte := p, curBit := q } len with
      clt := clt, blCount := bl, nextCode := next })
  | symbol {i : Instr} (hf : i.format = .clsym) (p q sym rep : Nat) (v : BitVec 4) {n : Nat} (hn : 0 < n) :
    TableEffect s i (State.putSymbol { s with curByte := p, curBit := q } sym v n rep)
  | body {i : Instr} (hf : i.format = .clsym) (p q sym rep : Nat) (v : BitVec 4) (n : Nat) (llt dt : Arena)
    (bl next : List Nat) :
    TableEffect s i (State.enterBody { State.putSymbol { s with curByte := p, curBit := q } sym v n rep with
      llt := llt, dt := dt, blCount := bl, nextCode := next } .llt .dt)
  | raise {i : Instr} (p q : Nat) (c : Cause) :
    TableEffect s i (({ s with curByte := p, curBit := q } : State).raiseError c)
  | buildRaise {i : Instr} {t : State} (h : TableEffect s i t) {c : Cause}
    (hc : c = .codeOverflow ∨ c = .treeContradiction) :
    TableEffect s i (t.raiseError c)

/-- An element that raises with no bit consumed. -/
theorem TableEffect.raise_self {s : State} (i : Instr) (c : Cause) : TableEffect s i (s.raiseError c) :=
  .raise s.curByte s.curBit c

theorem tableEffect_clcl {i : Instr} {s t : State} (hf : i.format = .clcl) (ht : exec i s = .next t) :
    TableEffect s i t := by
  cases i with
  | clclField len =>
    rw [exec, execClclField] at ht
    rcases bcSkip_cases 3 s with ⟨-, he⟩ | ⟨-, he⟩ <;> rw [he] at ht
    · have hfield : TableEffect s (.clclField len) ((s.advance 3).putClLen len) := .field _ _ len
      rw [res_ok_bind] at ht
      rcases clclNext_cases ((s.advance 3).putClLen len) with ⟨-, he⟩ | ⟨-, he⟩ <;> rw [he] at ht
      · cases ht
        exact hfield
      · rcases hufBuild_cases .clt ((s.advance 3).putClLen len) with ⟨-, he⟩ | ⟨-, -, he⟩ | ⟨c, -, -, hc, he⟩ <;>
          rw [he] at ht <;> cases ht
        · exact .built _ _ len _ _ _
        · exact .buildRaise hfield (buildTree_error_cases hc)
    · cases ht
      exact .raise_self _ _
  | _ => cases hf

/-- A run written, and then the loop's condition and the split (43_block_header.md R170, R175). -/
theorem tableEffect_putSymbol {i : Instr} {s t : State} {p q sym n rep : Nat} {v : BitVec 4} (hf : i.format = .clsym)
    (hn : 0 < n)
    (ht : (clsymNext (State.putSymbol { s with curByte := p, curBit := q } sym v n rep)).toOutcome = .next t) :
    TableEffect s i t := by
  have hsymbol : TableEffect s i (State.putSymbol { s with curByte := p, curBit := q } sym v n rep) :=
    .symbol hf p q sym rep v hn
  rcases clsymNext_cases (State.putSymbol { s with curByte := p, curBit := q } sym v n rep) with ⟨-, he⟩ | ⟨-, he⟩ <;>
    rw [he] at ht
  · cases ht
    exact hsymbol
  · rcases splitAndBuild_cases (State.putSymbol { s with curByte := p, curBit := q } sym v n rep) with
      ⟨llt, dt, bl, next, he⟩ | ⟨c, hc, he⟩ | ⟨r, he⟩ <;> rw [he] at ht <;> cases ht
    · exact .body hf p q sym rep v n llt dt bl next
    · exact .buildRaise hsymbol hc

theorem tableEffect_clsym {i : Instr} {s t : State} (hf : i.format = .clsym) (ht : exec i s = .next t) :
    TableEffect s i t := by
  rcases clRun_cases s.prevLen hf with ⟨v, n, k, hrun⟩ | ⟨e, rfl, hprev⟩
  · rcases exec_clRun_cases hrun with ⟨-, -, he⟩ | ⟨-, -, -, he⟩ | ⟨-, he⟩ <;> rw [he] at ht
    · obtain ⟨p, q, hcursor⟩ := behind_eq_cursor s k
      rw [hcursor] at ht
      exact tableEffect_putSymbol hf (clRun_pos hrun) ht
    · cases ht
      exact .raise _ _ _
    · cases ht
      exact .raise_self _ _
  · rw [exec_clRep16_of_none e hprev] at ht
    cases ht
    exact .raise_self _ _

/-! What each effect leaves unchanged. -/

theorem TableEffect.same {i : Instr} {s t : State} (h : TableEffect s i t) :
    SameMemory s t ∧ SameZlibHdr s t ∧ SameBlock s t ∧ SameCounts s t ∧ SameBackref s t ∧ SameHost s t ∧
      t.outLen = s.outLen ∧ t.bcData = s.bcData := by
  induction h with
  | field | built | symbol | body | raise =>
    exact ⟨⟨fun _ => rfl, fun _ => rfl⟩, ⟨rfl, rfl, rfl, rfl⟩, ⟨rfl, rfl, rfl, rfl⟩, ⟨rfl, rfl, rfl⟩, ⟨rfl, rfl, rfl⟩,
      ⟨rfl, rfl, rfl, rfl, rfl, rfl, rfl, rfl, rfl, rfl⟩, rfl, rfl⟩
  | buildRaise _ _ ih => exact ih

theorem TableEffect.clcl_same {i : Instr} {s t : State} (h : TableEffect s i t) (hf : i.format = .clcl) :
    t.lenTable = s.lenTable ∧ t.rep = s.rep ∧ t.llt = s.llt ∧ t.dt = s.dt ∧ t.sym = s.sym ∧ SamePair s t := by
  induction h with
  | field | built | raise => exact ⟨rfl, rfl, rfl, rfl, rfl, rfl, rfl⟩
  | symbol hsym | body hsym =>
    rw [hsym] at hf
    cases hf
  | buildRaise _ _ ih => exact ih hf

theorem TableEffect.clsym_same {i : Instr} {s t : State} (h : TableEffect s i t) (hf : i.format = .clsym) :
    SameClLens s t ∧ t.clt = s.clt := by
  induction h with
  | field | built => cases hf
  | symbol | body | raise => exact ⟨⟨rfl, rfl⟩, rfl⟩
  | buildRaise _ _ ih => exact ih hf

theorem TableEffect.error_or_same {i : Instr} {s t : State} (h : TableEffect s i t) :
    t.phase = .error ∨ SameError s t := by
  cases h with
  | field | built | symbol | body => exact .inr ⟨rfl, rfl⟩
  | raise | buildRaise => exact .inl rfl

theorem TableEffect.raiseIsPrecise {i : Instr} {s t : State} (h : TableEffect s i t) (h1 : t.errCause ≠ .codeOverflow)
    (h2 : t.errCause ≠ .treeContradiction) : RaiseIsPrecise s t := by
  intro hs ht
  cases h with
  | field | built | symbol => exact absurd ht hs
  | body => cases ht
  | raise => rfl
  | buildRaise _ hc => exact (hc.elim h1 h2).elim

/-- Settles O58: whatever effect the element has leaves the registers that the statement names. -/
theorem tableElementsFrame : Obligations.TableElementsFrame := by
  intro i s t hf ht
  have h : TableEffect s i t := hf.elim (tableEffect_clcl · ht) (tableEffect_clsym · ht)
  obtain ⟨hmem, hzlib, hblock, hcounts, hback, hhost, hlen, hbc⟩ := h.same
  exact ⟨hmem, hzlib, hblock, hcounts, hback, hhost, hlen, hbc, h.clcl_same, h.clsym_same, h.error_or_same,
    h.raiseIsPrecise⟩

/-! ## The previous length (43_block_header.md R177) -/

/-- Outside the code-length sequence the rule says nothing. -/
theorem prevLenOk_of_place {s : State} (h : s.phase = .dynhdr → s.seq ≠ .clsym) : PrevLenOk s :=
  fun hp hq => absurd hq (h hp)

theorem prevLenOk_raiseError (s : State) (c : Cause) : PrevLenOk (s.raiseError c) := prevLenOk_of_place nofun

/-- The rule reads the place, the table, its index and `prev_len`. -/
theorem prevLenOk_of_same {s t : State} (h : PrevLenOk s) (hp : t.phase = s.phase) (hq : t.seq = s.seq)
    (ht : SameTable s t) : PrevLenOk t := by
  obtain ⟨htable, hidx, hprev, -⟩ := ht
  rwa [PrevLenOk, hp, hq, htable, hidx, hprev]

/-- A run leaves its value as the previous length and in its last entry. -/
theorem prevLenOk_putSymbol {s : State} {sym n rep : Nat} {v : BitVec 4} (hn : 0 < n)
    (hlen : s.lenIdx + n ≤ s.lenTable.length) : PrevLenOk (s.putSymbol sym v n rep) := by
  refine fun _ _ => .inr ⟨s.lenIdx + n - 1, v, ?_, ?_, rfl⟩
  · show s.lenIdx + n = s.lenIdx + n - 1 + 1
    omega
  · exact (fillEntries_getElem? v n s.lenIdx _ s.lenTable).trans (if_pos ⟨by omega, by omega, by omega⟩)

/-- The elements of the code-length table keep the rule; that a run is within the table is the invariant's. -/
theorem TableEffect.prevLenOk {i : Instr} {s t : State} (h : TableEffect s i t) (hs : PrevLenOk s)
    (ht : RegistersOk t) : PrevLenOk t := by
  cases h with
  | field => exact prevLenOk_of_same hs rfl rfl ⟨rfl, rfl, rfl, rfl⟩
  | built => exact fun _ _ => .inl ⟨rfl, rfl⟩
  | symbol _ p q sym rep v hn =>
    refine prevLenOk_putSymbol hn ?_
    have hidx := ht.lenIdx
    rw [← ht.lenTable] at hidx
    exact hidx.trans (fillEntries_length _ _ _ _).le
  | body => exact prevLenOk_of_place nofun
  | raise | buildRaise => exact prevLenOk_raiseError _ _

/-- An operation keeps the rule if it does where it answers: a raise leaves the sequence. -/
theorem prevLenOk_of_toOutcome {x : Res Unit} {t : State} (hok : x = .ok () t → PrevLenOk t)
    (ht : x.toOutcome = .next t) : PrevLenOk t := by
  rcases toOutcome_eq_next.1 ht with h | ⟨c, u, -, rfl⟩
  · exact hok h
  · exact prevLenOk_raiseError u c

/-- The header is followed by a block header (45_stream.md R210). -/
theorem prevLenOk_execZlibHeader {cmf flg : BitVec 8} {s t : State} (ht : execZlibHeader cmf flg s = .next t) :
    PrevLenOk t := by
  refine prevLenOk_of_toOutcome (fun h => ?_) ht
  rw [atomic_eq_ok, zlibHeader] at h
  split at h
  · cases h
  · dsimp only at h
    split at h
    · split at h <;> cases h
      exact prevLenOk_of_place nofun
    · cases h

/-- A block header keeps the rule if its type's work does where it answers. -/
theorem prevLenOk_blockHeader {b : Bool} {ty : BitVec 2} {op : State → Res Unit} {s t : State}
    (hop : ∀ u, op u = .ok () t → PrevLenOk t) (ht : (blockHeader b ty op s).toOutcome = .next t) : PrevLenOk t := by
  refine prevLenOk_of_toOutcome (fun h => ?_) ht
  obtain ⟨_, u, -, hu⟩ := res_bind_eq_ok.1 (atomic_eq_ok.1 h)
  exact hop u hu

/-- A block header is followed by the body or by a dynamic header (43_block_header.md R166, R167). -/
theorem prevLenOk_exec_bhdr {i : Instr} {s t : State} (hf : i.format = .bhdr) (ht : exec i s = .next t) :
    PrevLenOk t := by
  cases i with
  | blockStored b | blockReserved b =>
    refine prevLenOk_blockHeader (fun u h => ?_) ht
    cases h
  | blockFixed b =>
    refine prevLenOk_blockHeader (fun u h => ?_) ht
    cases h
    exact prevLenOk_of_place nofun
  | blockDynamic b =>
    refine prevLenOk_blockHeader (fun u h => ?_) ht
    cases h
    exact prevLenOk_of_place fun _ => nofun
  | _ => cases hf

/-- A dynamic header is followed by the code-length fields (43_block_header.md R168, R169). -/
theorem prevLenOk_execDynHeader {a b : BitVec 5} {c : BitVec 4} {s t : State} (ht : execDynHeader a b c s = .next t) :
    PrevLenOk t := by
  refine prevLenOk_of_toOutcome (fun h => ?_) ht
  obtain ⟨_, u, -, hop⟩ := res_bind_eq_ok.1 (atomic_eq_ok.1 h)
  cases hop
  exact prevLenOk_of_place fun _ => nofun

theorem symbolElement_eq_ok {sym : Nat} {op : State → Res Unit} {s t : State} (h : symbolElement sym op s = .ok () t) :
    ∃ u, op s = .ok () u ∧ t = { u with sym := sym } := by
  obtain ⟨_, u, hop, hu⟩ := res_bind_eq_ok.1 (atomic_eq_ok.1 h)
  cases hu
  exact ⟨u, hop, rfl⟩

/-- A literal stays where the sequencer is, and writes OUT alone; what follows the other symbols is no code-length
symbol (44_block_body.md R190 to R193). -/
theorem prevLenOk_exec_llsym {i : Instr} {s t : State} (hf : i.format = .llsym) (hs : PrevLenOk s)
    (ht : exec i s = .next t) : PrevLenOk t := by
  rcases llsym_cases hf with ⟨b, rfl⟩ | rfl | ⟨h1, h2⟩ | rfl | rfl
  · refine prevLenOk_of_toOutcome (fun h => ?_) ht
    obtain ⟨u, hop, rfl⟩ := symbolElement_eq_ok h
    rw [outAppend] at hop
    split at hop <;> cases hop
    exact prevLenOk_of_same hs rfl rfl ⟨rfl, rfl, rfl, rfl⟩
  · cases ht
    exact prevLenOk_of_place fun _ => nofun
  · rw [exec_length s (element_eq_of_format hf) h1 h2] at ht
    rcases lengthSymbol_cases i.element.2.1 i.element.2.2 s with ⟨-, he⟩ | ⟨-, he⟩ <;> rw [he] at ht <;> cases ht
    · exact prevLenOk_of_place fun _ => nofun
    · exact prevLenOk_raiseError _ _
  all_goals
    cases ht
    exact prevLenOk_raiseError _ _

/-- A distance symbol is followed by a literal/length symbol (44_block_body.md R193). -/
theorem prevLenOk_exec_dsym {i : Instr} {s t : State} (hf : i.format = .dsym) (ht : exec i s = .next t) :
    PrevLenOk t := by
  rcases dsym_cases hf with h1 | rfl | rfl
  · rw [exec_distance s (element_eq_of_format hf) h1] at ht
    refine prevLenOk_of_toOutcome (fun h => ?_) ht
    obtain ⟨u, hop, rfl⟩ := symbolElement_eq_ok h
    obtain ⟨_, v, -, hcopy⟩ := res_bind_eq_ok.1 hop
    obtain ⟨_, w, -, hend⟩ := res_bind_eq_ok.1 hcopy
    cases hend
    exact prevLenOk_of_place fun _ => nofun
  all_goals
    cases ht
    exact prevLenOk_raiseError _ _

/-- An internal command leaves the table and the place (40_bit_cursor.md R128, 41_huffman.md R142). -/
theorem CommandEffect.prevLenOk {i : Instr} {s t : State} (h : CommandEffect s i t) (hs : PrevLenOk s) :
    PrevLenOk t := by
  obtain ⟨-, -, -, -, htable, -, -, -, -, -, hseq⟩ := h.same
  rcases h.error_or_same with hp | ⟨hp, -⟩
  · exact prevLenOk_of_place fun hp' => by rw [hp] at hp'; cases hp'
  · exact prevLenOk_of_same hs hp hseq htable

/-- A session starts with its header (10_state.md R43). -/
theorem prevLenOk_exec_ctrl {i : Instr} {s t : State} (hf : i.format = .ctrl) (hs : PrevLenOk s)
    (ht : exec i s = .next t) : PrevLenOk t := by
  cases i with
  | cmdStart r =>
    by_cases hb : s.status = .busy
    · rw [exec_cmdStart_busy r hb] at ht
      cases ht
      exact hs
    · rw [exec_cmdStart_not_busy r hb] at ht
      cases ht
      exact prevLenOk_of_place nofun
  | _ => cases hf

/-- Every instruction keeps the rule. -/
theorem prevLenOk_exec {i : Instr} {s t : State} (hs : PrevLenOk s) (hr : RegistersOk t) (ht : exec i s = .next t) :
    PrevLenOk t := by
  cases hf : i.format with
  | zhdr =>
    cases i with
    | zlibHeader cmf flg => exact prevLenOk_execZlibHeader ht
    | _ => cases hf
  | bhdr => exact prevLenOk_exec_bhdr hf ht
  | dynhdr =>
    cases i with
    | dynHeader a b c => exact prevLenOk_execDynHeader ht
    | _ => cases hf
  | clcl => exact (tableEffect_clcl hf ht).prevLenOk hs hr
  | clsym => exact (tableEffect_clsym hf ht).prevLenOk hs hr
  | llsym => exact prevLenOk_exec_llsym hf hs ht
  | dsym => exact prevLenOk_exec_dsym hf ht
  | bccmd => exact (commandEffect_bccmd hf ht).prevLenOk hs
  | hufcmd => exact (commandEffect_hufcmd hf ht).prevLenOk hs
  | ctrl => exact prevLenOk_exec_ctrl hf hs ht

/-- The engine's turn: a fetch moves the cursor alone. -/
theorem prevLenOk_engineStep {s t : State} (hs : PrevLenOk s) (hc : s.curBit < 8) (hr : RegistersOk t)
    (ht : engineStep s = .next t) : PrevLenOk t := by
  rw [engineStep] at ht
  cases hk : s.nextSlot with
  | none =>
    rw [hk] at ht
    cases ht
    exact hs
  | some k =>
    simp only [hk] at ht
    cases hx : fetch k s with
    | ok i u =>
      rw [hx] at ht
      obtain ⟨-, n, -, rfl⟩ := fetch_eq_ok hc hx
      have hfetched : PrevLenOk (s.advance n) := prevLenOk_of_same hs rfl rfl ⟨rfl, rfl, rfl, rfl⟩
      exact prevLenOk_exec hfetched hr ht
    | raised c u =>
      rw [hx] at ht
      cases ht
      exact prevLenOk_raiseError u c
    | refused r =>
      rw [hx] at ht
      cases ht

/-- A host write of a register starts a session at most. -/
theorem prevLenOk_hostWriteReg {r : HostReg} {v : Word} {s t : State} (hs : PrevLenOk s) (hr : RegistersOk t)
    (ht : hostWriteReg r v s = .next t) : PrevLenOk t := by
  cases r with
  | ctrl =>
    simp only [hostWriteReg, hostWriteCtrl] at ht
    split at ht
    · exact prevLenOk_exec hs hr ht
    · cases ht
      exact hs
  | inLen =>
    simp only [hostWriteReg, hostWriteInLen] at ht
    split at ht
    · cases ht
      exact hs
    · split at ht <;> cases ht
      exact prevLenOk_of_same hs rfl rfl ⟨rfl, rfl, rfl, rfl⟩
  | status | error | outLen | zlibHdr | block | cursor =>
    cases ht
    exact hs

/-- Whatever happens next outside the engine keeps the rule. -/
theorem prevLenOk_takeInput {x : Input} {s t : State} (hs : PrevLenOk s) (hc : s.curBit < 8) (hr : RegistersOk t)
    (ht : takeInput x s = .next t) : PrevLenOk t := by
  cases x with
  | engine => exact prevLenOk_engineStep hs hc hr ht
  | writeIn a b =>
    simp only [takeInput, hostWriteIn] at ht
    split at ht <;> cases ht
    exact prevLenOk_of_same hs rfl rfl ⟨rfl, rfl, rfl, rfl⟩
  | writeOut a b =>
    simp only [takeInput, hostWriteOut] at ht
    split at ht <;> cases ht
    exact prevLenOk_of_same hs rfl rfl ⟨rfl, rfl, rfl, rfl⟩
  | writeReg offset v =>
    simp only [takeInput] at ht
    split at ht
    · exact prevLenOk_hostWriteReg hs hr ht
    · cases ht
  | readReg offset =>
    simp only [takeInput] at ht
    split at ht <;> cases ht
    exact prevLenOk_of_same hs rfl rfl ⟨rfl, rfl, rfl, rfl⟩
  | readOut a =>
    cases ht
    exact prevLenOk_of_same hs rfl rfl ⟨rfl, rfl, rfl, rfl⟩
  | reset =>
    cases ht
    exact prevLenOk_of_place nofun
  | command port w =>
    simp only [takeInput, runCommand] at ht
    split at ht
    · split at ht
      · exact prevLenOk_exec hs hr ht
      · cases ht
    · cases ht

/-- Settles O51: a run written in the sequence ends in an entry of the table, which holds the previous length; what
else a step does leaves the sequence, begins it, or changes nothing that the rule reads. -/
theorem everyStepKeepsThePreviousLength : Obligations.EveryStepKeepsThePreviousLength := by
  intro s t hinv hs ht
  have hr := (everyStepKeepsTheInvariant s t hinv ht).registers
  cases hi : s.inputs with
  | nil =>
    rw [step_of_no_input hi] at ht
    exact prevLenOk_engineStep hs hinv.cursor.curBit hr ht
  | cons x rest =>
    rw [step_of_input hi] at ht
    have hrest : PrevLenOk { s with inputs := rest } := prevLenOk_of_same hs rfl rfl ⟨rfl, rfl, rfl, rfl⟩
    exact prevLenOk_takeInput hrest hinv.cursor.curBit hr ht

end Sys2Proof.Machine

namespace Sys2Proof.Machine

/-! ## Literals, the end of the block, and the reserved symbols (44_block_body.md R190, R191, R194, R196) -/

theorem exec_lit_of_room (b : BitVec 8) {s : State} (h : s.params.outCap ≠ some s.outLen) :
    exec (.lit b) s = .next { s.writeOut s.outLen b with outLen := s.outLen + 1, sym := b.toNat } := by
  rw [exec, execLit, symbolElement_of_ok (outAppend_of_room b h)]
  rfl

theorem exec_lit_of_full (b : BitVec 8) {s : State} (h : s.params.outCap = some s.outLen) :
    exec (.lit b) s = .next (s.raiseError .outFull) := by
  rw [exec, execLit, symbolElement_of_raised (outAppend_of_full b h)]
  rfl

/-- Settles O30: the append looks at OUT_CAP first, and writes one byte. -/
theorem literalAppendsItsByte : Obligations.LiteralAppendsItsByte := by
  refine fun b s => ⟨fun hroom => ⟨_, exec_lit_of_room b hroom, ?_, fun a ha => ?_, rfl⟩, exec_lit_of_full b⟩
  · exact outByte_writeOut_same s s.outLen b
  · exact outByte_writeOut_other s b ha

theorem exec_eob (s : State) : exec .eob s = .next { s.endBlock with sym := 256 } := rfl

theorem endBlock_of_bfinal {s : State} (h : s.bfinal = true) : s.endBlock = { s with phase := .done, seq := .head } := by
  rw [State.endBlock, if_pos h]

theorem endBlock_of_not_bfinal {s : State} (h : s.bfinal = false) :
    s.endBlock = { s with phase := .bhdr, seq := .head } := by
  rw [State.endBlock, if_neg (by simp [h])]

/-- Settles O31: the phase after the block is decided by `bfinal`. -/
theorem eobEndsTheBlock : Obligations.EobEndsTheBlock :=
  fun s => ⟨fun h => by rw [exec_eob, endBlock_of_bfinal h], fun h => by rw [exec_eob, endBlock_of_not_bfinal h]⟩

theorem exec_llReserved {i : Instr} (s : State) (h : i = .llRsv286 ∨ i = .llRsv287) :
    exec i s = .next (s.raiseError .llSymbolReserved) := by
  rcases h with rfl | rfl <;> rfl

theorem exec_distReserved {i : Instr} (s : State) (h : i = .distRsv30 ∨ i = .distRsv31) :
    exec i s = .next (s.raiseError .distSymbolReserved) := by
  rcases h with rfl | rfl <;> rfl

/-- Settles O33: a reserved symbol's meaning is the raise alone. -/
theorem reservedSymbolsRaise : Obligations.ReservedSymbolsRaise :=
  fun _ s => ⟨exec_llReserved s, exec_distReserved s⟩

/-! ## The rows of the length and distance tables (42_fixed_tables.md R153, R154) -/

theorem lenRows_row {sym k b : Nat} (h257 : 257 ≤ sym) (h : lenRows[sym - 257]? = some (k, b)) :
    sym ≤ 285 ∧ lenExtra sym = k ∧ lenBase sym = b := by
  have hlt : sym - 257 < 29 := (List.getElem?_eq_some_iff.1 h).1
  have hrow : lenRows.getD (sym - 257) (0, 0) = (k, b) := by rw [List.getD_eq_getElem?_getD, h, Option.getD_some]
  refine ⟨by omega, ?_, ?_⟩
  · rw [lenExtra, if_neg (Nat.not_lt.2 h257), hrow]
  · rw [lenBase, hrow]

theorem distRows_row {d k b : Nat} (h : distRows[d]? = some (k, b)) : d ≤ 29 ∧ distExtra d = k ∧ distBase d = b := by
  have hlt : d < 30 := (List.getElem?_eq_some_iff.1 h).1
  have hrow : distRows.getD d (0, 0) = (k, b) := by rw [List.getD_eq_getElem?_getD, h, Option.getD_some]
  exact ⟨by omega, by rw [distExtra, hrow], by rw [distBase, hrow]⟩

/-! ## Length symbols (44_block_body.md R192) -/

/-- Settles O32: the symbol's row is the model's, and its extra bits are there or are not. -/
theorem lengthSymbolSetsTheLength : Obligations.LengthSymbolSetsTheLength := by
  intro i sym e k b s hi h257 hrow _
  obtain ⟨h285, rfl, rfl⟩ := lenRows_row h257 hrow
  rw [exec_length s hi h257 h285]
  rcases lengthSymbol_cases sym e s with ⟨hle, he⟩ | ⟨hlt, he⟩ <;> rw [he]
  · exact ⟨fun _ => rfl, fun hlt => absurd hle (Nat.not_le.2 hlt)⟩
  · exact ⟨fun hle => absurd hle (Nat.not_le.2 hlt), fun _ => rfl⟩

/-! ## The copy (44_block_body.md R195, R199) -/

/-- Values that each repeat the one `d` places before repeat the last `d` values before them periodically
(44_block_body.md R199). -/
theorem eq_add_mod_of_repeats {α : Type} {f : Nat → α} {o d n : Nat} (hd : 0 < d) (ho : d ≤ o)
    (h : ∀ j, j < n → f (o + j) = f (o + j - d)) (j : Nat) (hj : j < n) : f (o + j) = f (o - d + j % d) := by
  induction j using Nat.strong_induction_on with
  | _ j ih =>
    rcases Nat.lt_or_ge j d with hlt | hge
    · rw [h j hj, Nat.mod_eq_of_lt hlt]
      congr 1
      omega
    · have hback : o + j - d = o + (j - d) := by omega
      rw [h j hj, hback, ih (j - d) (by omega) (by omega), Nat.mod_eq_sub_mod hge]

/-- A copy that OUT_CAP does not stop appends its bytes: the last `cur_dist` bytes of the output, periodically. -/
theorem copyBackref_of_room {s : State} (hpos : 0 < s.curDist) (hnear : s.curDist ≤ s.outLen)
    (hroom : ∀ j, j < s.curLen → s.params.outCap ≠ some (s.outLen + j)) :
    ∃ m, copyBackref s = .ok () { s with outMem := m, outLen := s.outLen + s.curLen } ∧
      (∀ a, a < s.outLen ∨ s.outLen + s.curLen ≤ a → ({ s with outMem := m } : State).outByte a = s.outByte a) ∧
      ∀ j, j < s.curLen → ({ s with outMem := m } : State).outByte (s.outLen + j) =
        s.outByte (s.outLen - s.curDist + j % s.curDist) := by
  rw [copyBackref_of_near hnear]
  obtain ⟨k, m, -, ⟨rfl, he⟩ | ⟨hk, hfull, -⟩, -, -, hout, hrep⟩ := copyBytes_cases s.curLen s
  · refine ⟨m, he, hout, fun j hj => (eq_add_mod_of_repeats hpos hnear (hrep hpos hnear) j hj).trans (hout _ (.inl ?_))⟩
    have hmod := Nat.mod_lt j hpos
    omega
  · exact absurd hfull (hroom k hk)

/-- A copy that reaches OUT_CAP before its end raises. -/
theorem copyBackref_of_full {j : Nat} {s : State} (hnear : s.curDist ≤ s.outLen) (hj : j < s.curLen)
    (hfull : s.params.outCap = some (s.outLen + j)) :
    ∃ m l, copyBackref s = .raised .outFull { s with outMem := m, outLen := l } := by
  rw [copyBackref_of_near hnear]
  obtain ⟨k, m, -, ⟨rfl, -⟩ | ⟨-, -, he⟩, hroom, -⟩ := copyBytes_cases s.curLen s
  · exact absurd hfull (hroom j hj)
  · exact ⟨m, _, he⟩

/-! ## Distance symbols (44_block_body.md R193, R195) -/

/-- The state in which the distance symbol `d` with extra bits `e` begins its copy. -/
def State.beforeCopy (s : State) (d e : Nat) : State :=
  { s.advance (distExtra d) with extra := e, curDist := distBase d + e }

theorem distanceSymbol_eq_copyBackref {d e : Nat} {s : State} (hr : distExtra d ≤ s.bitsRemaining) :
    distanceSymbol d e s =
      ((copyBackref (s.beforeCopy d e)).bind fun _ s => .ok () { s with seq := .ll, sym := d }).atomic s :=
  distanceSymbol_of_le e hr

theorem distanceSymbol_of_far {d e : Nat} {s : State} (hr : distExtra d ≤ s.bitsRemaining)
    (hfar : s.outLen < distBase d + e) :
    distanceSymbol d e s = .raised .distTooFar (s.advance (distExtra d)) := by
  rw [distanceSymbol_eq_copyBackref hr, copyBackref_of_far hfar]
  rfl

theorem distanceSymbol_of_room {d e : Nat} {s : State} (hd : d ≤ 29) (hr : distExtra d ≤ s.bitsRemaining)
    (hnear : distBase d + e ≤ s.outLen) (hroom : ∀ j, j < s.curLen → s.params.outCap ≠ some (s.outLen + j)) :
    ∃ m, distanceSymbol d e s = .ok () { s.advance (distExtra d) with
        extra := e, curDist := distBase d + e, outMem := m, outLen := s.outLen + s.curLen, seq := .ll, sym := d } ∧
      (∀ a, a < s.outLen ∨ s.outLen + s.curLen ≤ a → ({ s with outMem := m } : State).outByte a = s.outByte a) ∧
      ∀ j, j < s.curLen → ({ s with outMem := m } : State).outByte (s.outLen + j) =
        s.outByte (s.outLen - (distBase d + e) + j % (distBase d + e)) := by
  have hpos : 0 < distBase d + e := Nat.add_pos_left (distBase_pos hd) e
  obtain ⟨m, he, hout, hrep⟩ := copyBackref_of_room (s := s.beforeCopy d e) hpos hnear hroom
  refine ⟨m, ?_, hout, hrep⟩
  rw [distanceSymbol_eq_copyBackref hr, he]
  rfl

theorem distanceSymbol_of_full {d e j : Nat} {s : State} (hr : distExtra d ≤ s.bitsRemaining)
    (hnear : distBase d + e ≤ s.outLen) (hj : j < s.curLen) (hfull : s.params.outCap = some (s.outLen + j)) :
    distanceSymbol d e s = .raised .outFull (s.advance (distExtra d)) := by
  obtain ⟨m, l, he⟩ := copyBackref_of_full (s := s.beforeCopy d e) hnear hj hfull
  rw [distanceSymbol_eq_copyBackref hr, he]
  rfl

/-- Settles O34: the copy's bytes each repeat the one `cur_dist` before, and so the end of the output before it. -/
theorem distanceSymbolCopies : Obligations.DistanceSymbolCopies := by
  intro i d e k b s hi hrow hk _ hnear hcap
  obtain ⟨hd, rfl, rfl⟩ := distRows_row hrow
  have hroom : ∀ j, j < s.curLen → s.params.outCap ≠ some (s.outLen + j) := fun j hj h => by
    have hle := hcap _ h
    omega
  obtain ⟨m, he, hout, hrep⟩ := distanceSymbol_of_room hd hk hnear hroom
  exact ⟨_, (exec_distance s hi hd).trans (congrArg Res.toOutcome he), hrep, hout, rfl⟩

/-- Settles O35: the distance is checked once the extra bits are read, before any byte is appended. -/
theorem distanceTooFarRaises : Obligations.DistanceTooFarRaises := by
  intro i d e k b s hi hrow hk _ hfar
  obtain ⟨hd, rfl, rfl⟩ := distRows_row hrow
  rw [exec_distance s hi hd, distanceSymbol_of_far hk hfar]
  rfl

/-- Settles O36: the append at OUT_CAP raises, and what the appends before it wrote is undone with the element. -/
theorem copyIntoFullOutputRaises : Obligations.CopyIntoFullOutputRaises := by
  intro i d e k b cap s hi hrow hk _ hnear hcap hle hlt
  obtain ⟨hd, rfl, rfl⟩ := distRows_row hrow
  rw [← Nat.add_sub_cancel' hle] at hcap
  rw [exec_distance s hi hd, distanceSymbol_of_full hk hnear (j := cap - s.outLen) (by omega) hcap]
  rfl

/-! ## Extra bits cut short -/

/-- The symbols that repeat, and their extra bits, are those of 43_block_header.md R172 to R174. -/
theorem clExtra_of_mem {d k : Nat} (h : (d, k) ∈ [(16, 2), (17, 3), (18, 7)]) : 16 ≤ d ∧ clExtra d = k := by
  have key : ∀ r ∈ [(16, 2), (17, 3), (18, 7)], 16 ≤ r.1 ∧ clExtra r.1 = r.2 := by decide
  exact key (d, k) h

theorem clRun_of_repeat {i : Instr} {d e : Nat} {p : Option (BitVec 4)} (hi : i.element = (.clsym, d, e)) (hd : 16 ≤ d)
    (hp : d = 16 → p ≠ none) : ∃ v n, i.clRun p = some (v, n, clExtra d) := by
  cases i with
  | clLen sym =>
    cases hi
    exact absurd sym.isLt (Nat.not_lt.2 hd)
  | clRep16 e =>
    cases hi
    obtain ⟨v, rfl⟩ := Option.ne_none_iff_exists'.1 (hp rfl)
    exact ⟨v, _, rfl⟩
  | clZero17 e | clZero18 e =>
    cases hi
    exact ⟨_, _, rfl⟩
  | _ => cases hi

theorem exec_distance_of_lt {i : Instr} {d e : Nat} {s : State} (hi : i.element = (.dsym, d, e)) (hd : d ≤ 29)
    (h : s.bitsRemaining < distExtra d) : exec i s = .next (s.raiseError .inExhausted) := by
  rw [exec_distance s hi hd, distanceSymbol_of_lt e h]
  rfl

theorem exec_clRun_of_lt {i : Instr} {s : State} {v : BitVec 4} {n k : Nat} (h : i.clRun s.prevLen = some (v, n, k))
    (hk : s.bitsRemaining < k) : exec i s = .next (s.raiseError .inExhausted) := by
  rcases exec_clRun_cases h with ⟨hle, -⟩ | ⟨-, hle, -⟩ | ⟨-, he⟩
  · omega
  · omega
  · exact he

/-- Settles O37: the extra bits are read before the run is written, and before the copy. -/
theorem cutShortExtraBitsRaise : Obligations.CutShortExtraBitsRaise := by
  rintro i f d e k b s hi (⟨rfl, hk, hp⟩ | ⟨rfl, hrow⟩) hlt
  · obtain ⟨h16, rfl⟩ := clExtra_of_mem hk
    obtain ⟨v, n, hrun⟩ := clRun_of_repeat hi h16 hp
    exact exec_clRun_of_lt hrun hlt
  · obtain ⟨hd, rfl, -⟩ := distRows_row hrow
    exact exec_distance_of_lt hi hd hlt

/-! ## What the body's elements leave unchanged -/

/-- What an element of the body can leave: its byte appended, the block ended, a length, a distance with its copy, or an
error behind the bits consumed, of which a literal and EOB have none (44_block_body.md R190 to R200, 60_exceptions.md
R235). -/
inductive BodyEffect (s : State) : Instr → State → Prop
  | lit (b : BitVec 8) : BodyEffect s (.lit b) { s.writeOut s.outLen b with outLen := s.outLen + 1, sym := b.toNat }
  | eob : BodyEffect s .eob { s.endBlock with sym := 256 }
  | length {i : Instr} (hf : i.format = .llsym) (hi : 257 ≤ i.element.2.1) (p q e len sym : Nat) :
    BodyEffect s i { s with curByte := p, curBit := q, extra := e, curLen := len, seq := .dist, sym := sym }
  | distance {i : Instr} (hf : i.format = .dsym) (p q e dist sym : Nat) (m : Memory)
    (hout : ∀ a, a < s.outLen ∨ s.outLen + s.curLen ≤ a → ({ s with outMem := m } : State).outByte a = s.outByte a) :
    BodyEffect s i { s with
      curByte := p, curBit := q, extra := e, curDist := dist, outMem := m, outLen := s.outLen + s.curLen, seq := .ll
      sym := sym }
  | raise {i : Instr} (p q : Nat) (c : Cause) (hi : i = .eob ∨ (∃ b, i = .lit b) → p = s.curByte ∧ q = s.curBit) :
    BodyEffect s i (({ s with curByte := p, curBit := q } : State).raiseError c)

/-- An element that raises with no bit consumed. -/
theorem BodyEffect.raise_self {s : State} (i : Instr) (c : Cause) : BodyEffect s i (s.raiseError c) :=
  .raise s.curByte s.curBit c fun _ => ⟨rfl, rfl⟩

/-- A length symbol is neither a literal nor EOB (30_encoding.md R87). -/
theorem not_eob_or_lit_of_le {i : Instr} (h : 257 ≤ i.element.2.1) : ¬(i = .eob ∨ ∃ b, i = .lit b) := by
  rintro (rfl | ⟨b, rfl⟩)
  · exact absurd h (by decide)
  · have hlt : b.toNat < 256 := b.isLt
    have hle : 257 ≤ b.toNat := h
    omega

theorem not_eob_or_lit_of_dsym {i : Instr} (hf : i.format = .dsym) : ¬(i = .eob ∨ ∃ b, i = .lit b) := by
  rintro (rfl | ⟨b, rfl⟩) <;> cases hf

theorem bodyEffect_llsym {i : Instr} {s t : State} (hf : i.format = .llsym) (ht : exec i s = .next t) :
    BodyEffect s i t := by
  rcases llsym_cases hf with ⟨b, rfl⟩ | rfl | ⟨h257, h285⟩ | hrsv
  · by_cases hfull : s.params.outCap = some s.outLen
    · rw [exec_lit_of_full b hfull] at ht
      cases ht
      exact .raise_self _ _
    · rw [exec_lit_of_room b hfull] at ht
      cases ht
      exact .lit b
  · cases ht
    exact .eob
  · rw [exec_length (e := i.element.2.2) s (by rw [← hf]; rfl) h257 h285] at ht
    rcases lengthSymbol_cases i.element.2.1 i.element.2.2 s with ⟨-, he⟩ | ⟨-, he⟩ <;> rw [he] at ht <;> cases ht
    · exact .length hf h257 _ _ _ _ _
    · exact .raise_self _ _
  · rw [exec_llReserved s hrsv] at ht
    cases ht
    exact .raise_self _ _

/-- Everything a distance symbol's element can leave (44_block_body.md R193, R195). -/
theorem bodyEffect_distanceSymbol {i : Instr} {d e : Nat} {s t : State} (hf : i.format = .dsym) (hd : d ≤ 29)
    (ht : (distanceSymbol d e s).toOutcome = .next t) : BodyEffect s i t := by
  have hcursor : ∀ c, BodyEffect s i ((s.advance (distExtra d)).raiseError c) := fun c =>
    .raise _ _ c fun h => absurd h (not_eob_or_lit_of_dsym hf)
  rcases Nat.lt_or_ge s.bitsRemaining (distExtra d) with hr | hr
  · rw [distanceSymbol_of_lt e hr] at ht
    cases ht
    exact .raise_self _ _
  rcases Nat.lt_or_ge s.outLen (distBase d + e) with hfar | hnear
  · rw [distanceSymbol_of_far hr hfar] at ht
    cases ht
    exact hcursor _
  by_cases hroom : ∀ j, j < s.curLen → s.params.outCap ≠ some (s.outLen + j)
  · obtain ⟨m, he, hout, -⟩ := distanceSymbol_of_room hd hr hnear hroom
    rw [he] at ht
    cases ht
    exact .distance hf _ _ _ _ _ m hout
  · obtain ⟨j, hj, hfull⟩ : ∃ j, j < s.curLen ∧ s.params.outCap = some (s.outLen + j) := by simpa using hroom
    rw [distanceSymbol_of_full hr hnear hj hfull] at ht
    cases ht
    exact hcursor _

theorem bodyEffect_dsym {i : Instr} {s t : State} (hf : i.format = .dsym) (ht : exec i s = .next t) :
    BodyEffect s i t := by
  rcases dsym_cases hf with hd | hrsv
  · rw [exec_distance (e := i.element.2.2) s (by rw [← hf]; rfl) hd] at ht
    exact bodyEffect_distanceSymbol hf hd ht
  · rw [exec_distReserved s hrsv] at ht
    cases ht
    exact .raise_self _ _

/-! What each effect leaves unchanged. -/

theorem BodyEffect.same {i : Instr} {s t : State} (h : BodyEffect s i t) :
    (∀ a, t.inByte a = s.inByte a) ∧ SameZlibHdr s t ∧ SameBlock s t ∧ SameCounts s t ∧ SameTable s t ∧
      SameClLens s t ∧ SameTrees s t ∧ SamePair s t ∧ SameHost s t ∧ t.bcData = s.bcData := by
  cases h <;> exact ⟨fun _ => rfl, ⟨rfl, rfl, rfl, rfl⟩, ⟨rfl, rfl, rfl, rfl⟩, ⟨rfl, rfl, rfl⟩, ⟨rfl, rfl, rfl, rfl⟩,
    ⟨rfl, rfl⟩, ⟨rfl, rfl, rfl, rfl, rfl⟩, ⟨rfl, rfl⟩, ⟨rfl, rfl, rfl, rfl, rfl, rfl, rfl, rfl, rfl, rfl⟩, rfl⟩

/-- Of OUT, only a literal's byte and a distance symbol's copy are written. -/
theorem BodyEffect.outByte {i : Instr} {s t : State} (h : BodyEffect s i t) {a : Nat}
    (hlit : ∀ b, i = .lit b → a ≠ s.outLen) (hdist : i.format = .dsym → a < s.outLen ∨ s.outLen + s.curLen ≤ a) :
    t.outByte a = s.outByte a := by
  cases h with
  | lit b => exact outByte_writeOut_other s b (hlit b rfl)
  | distance hf _ _ _ _ _ m hout => exact hout a (hdist hf)
  | eob | length | raise => rfl

theorem BodyEffect.outLen_of_llsym {i : Instr} {s t : State} (h : BodyEffect s i t) (hf : i.format = .llsym)
    (hlit : ∀ b, i ≠ .lit b) : t.outLen = s.outLen := by
  cases h with
  | lit b => exact absurd rfl (hlit b)
  | distance hd =>
    rw [hd] at hf
    cases hf
  | eob | length | raise => rfl

theorem BodyEffect.curLen_of_dsym {i : Instr} {s t : State} (h : BodyEffect s i t) (hf : i.format = .dsym) :
    t.curLen = s.curLen := by
  cases h with
  | length hl =>
    rw [hl] at hf
    cases hf
  | lit | eob | distance | raise => rfl

theorem BodyEffect.curDist_of_llsym {i : Instr} {s t : State} (h : BodyEffect s i t) (hf : i.format = .llsym) :
    t.curDist = s.curDist := by
  cases h with
  | distance hd =>
    rw [hd] at hf
    cases hf
  | lit | eob | length | raise => rfl

theorem BodyEffect.sameBackref {i : Instr} {s t : State} (h : BodyEffect s i t) (hi : i = .eob ∨ ∃ b, i = .lit b) :
    SameBackref s t ∧ SameCursor s t := by
  cases h with
  | lit | eob => exact ⟨⟨rfl, rfl, rfl⟩, rfl, rfl⟩
  | length _ h257 => exact absurd hi (not_eob_or_lit_of_le h257)
  | distance hf => exact absurd hi (not_eob_or_lit_of_dsym hf)
  | raise _ _ _ hcursor => exact ⟨⟨rfl, rfl, rfl⟩, hcursor hi⟩

theorem BodyEffect.error_or_same {i : Instr} {s t : State} (h : BodyEffect s i t) : t.phase = .error ∨ SameError s t := by
  cases h with
  | lit | eob | length | distance => exact .inr ⟨rfl, rfl⟩
  | raise => exact .inl rfl

theorem endBlock_phase_ne_error (s : State) : s.endBlock.phase ≠ .error := by
  rw [State.endBlock]
  dsimp only
  split <;> exact nofun

theorem BodyEffect.raiseIsPrecise {i : Instr} {s t : State} (h : BodyEffect s i t) : RaiseIsPrecise s t := by
  intro hs ht
  cases h with
  | lit | length | distance => exact absurd ht hs
  | eob => exact absurd ht (endBlock_phase_ne_error s)
  | raise => rfl

/-- Settles O59: whatever effect the element has leaves the registers and the bytes that the statement names. -/
theorem bodyElementsFrame : Obligations.BodyElementsFrame := by
  intro i s t hf ht
  have h : BodyEffect s i t := hf.elim (bodyEffect_llsym · ht) (bodyEffect_dsym · ht)
  obtain ⟨hin, hzlib, hblock, hcounts, htable, hcl, htrees, hpair, hhost, hbc⟩ := h.same
  refine ⟨hin, hzlib, hblock, hcounts, htable, hcl, htrees, hpair, hhost, hbc, fun a => h.outByte, fun hll hlit => ?_,
    h.curLen_of_dsym, h.curDist_of_llsym, h.sameBackref, h.error_or_same, h.raiseIsPrecise⟩
  refine ⟨h.outLen_of_llsym hll hlit, fun a => h.outByte (fun b hb => absurd hb (hlit b)) fun hd => ?_⟩
  rw [hd] at hll
  cases hll

end Sys2Proof.Machine

namespace Sys2Proof.Machine

/-! ## A step with no input pending -/

/-- The engine's turn runs what the fetch of the next slot gives (assumption 13). -/
theorem engineStep_of_nextSlot {s : State} {k : Slot} (h : s.nextSlot = some k) :
    engineStep s = runFetched (fetch k s) := by
  rw [engineStep, h]

/-- Settles O47: with no input the step is the engine's turn, which runs the fetched element, enters ERROR with the fetch's
cause, or is idle. -/
theorem stepRunsTheFetchedElement : Obligations.StepRunsTheFetchedElement := by
  intro s hinputs
  rw [step_of_no_input hinputs]
  refine ⟨fun k i u hk hf => ?_, fun k c u hk hf => ?_, engineStep_not_busy⟩
  · rw [engineStep_of_nextSlot hk, hf, runFetched]
  · rw [engineStep_of_nextSlot hk, hf, runFetched, State.raiseError]

end Sys2Proof.Machine

namespace Sys2Proof.Machine

/-! ## Operations of a running session (10_state.md R22, 70_reset_and_hazards.md R262) -/

/-- A session runs, with the parameters `p`. -/
def State.Runs (p : Config.Params) (s : State) : Prop := s.params = p ∧ s.status = .busy

/-- An operation answers in a running session, or raises a cause; the parameters are `p` after both. -/
inductive Res.Runs {α : Type} (p : Config.Params) : Res α → Prop
  | ok {a : α} {t : State} (h : t.Runs p) : Res.Runs p (.ok a t)
  | raised {c : Cause} {t : State} (hc : c ≠ .none) (h : t.params = p) : Res.Runs p (.raised c t)
  | refused {r : Refusal} : Res.Runs p (.refused r)

section
variable {p : Config.Params} {s : State}

theorem runs_bind {α β : Type} {x : Res α} {f : α → State → Res β} (hx : x.Runs p)
    (hf : ∀ a t, t.Runs p → (f a t).Runs p) : (x.bind f).Runs p := by
  cases hx with
  | ok h => exact hf _ _ h
  | raised hc h => exact .raised hc h
  | refused => exact .refused

theorem runs_atomic {α : Type} {x : Res α} (h : s.Runs p) (hx : x.Runs p) : (x.atomic s).Runs p := by
  cases hx with
  | ok ht => exact .ok ht
  | raised hc => exact .raised hc h.1
  | refused => exact .refused

/-! ## The shared operations -/

theorem runs_bcPeek (n : Nat) (h : s.Runs p) : (bcPeek n s).Runs p := by
  rw [bcPeek]
  split
  · exact .raised nofun h.1
  · exact .ok h

theorem runs_bcConsume (n : Nat) (h : s.Runs p) : (bcConsume n s).Runs p :=
  runs_bind (runs_bcPeek n h) fun _ _ ht => .ok ht

theorem runs_bcSkip (n : Nat) (h : s.Runs p) : (bcSkip n s).Runs p :=
  runs_bind (runs_bcConsume n h) fun _ _ ht => .ok ht

theorem runs_bcConsumeBit (h : s.Runs p) : (bcConsumeBit s).Runs p :=
  runs_bind (runs_bcConsume 1 h) fun _ _ ht => .ok ht

theorem runs_outAppend (v : Byte) (h : s.Runs p) : (outAppend v s).Runs p := by
  rw [outAppend]
  split
  · exact .raised nofun h.1
  · exact .ok h

theorem runs_copyBytes (n : Nat) (h : s.Runs p) : (copyBytes n s).Runs p := by
  induction n generalizing s with
  | zero => exact .ok h
  | succ n ih => exact runs_bind (runs_outAppend _ h) fun _ _ ht => ih ht

theorem runs_copyBackref (h : s.Runs p) : (copyBackref s).Runs p := by
  rw [copyBackref]
  split
  · exact .raised nofun h.1
  · exact runs_copyBytes _ h

theorem runs_hufBuild (t : TreeId) (h : s.Runs p) : (hufBuild t s).Runs p := by
  rcases hufBuild_cases t s with ⟨-, he⟩ | ⟨-, -, he⟩ | ⟨c, hc, -, -, he⟩ <;> rw [he]
  · exact .refused
  · obtain ⟨clt, llt, dt, bl, next, he⟩ := afterBuild_eq s t
    rw [he]
    exact .ok h
  · exact .raised hc h.1

theorem runs_hufWalk (a : Arena) (n node : Nat) (h : s.Runs p) : (hufWalk a n node s).Runs p := by
  induction n generalizing node s with
  | zero =>
    rw [hufWalk]
    split
    · exact .ok h
    · exact .raised nofun h.1
  | succ n ih =>
    rw [hufWalk]
    split
    · exact .ok h
    · refine runs_bind (runs_bcConsumeBit h) fun b t ht => ?_
      split
      · exact .raised nofun ht.1
      · exact ih _ ht

theorem runs_hufDecode (t : TreeId) (h : s.Runs p) : (hufDecode t s).Runs p := by
  rw [hufDecode]
  exact runs_hufWalk _ _ _ h

/-! ## The elements -/

theorem runs_zlibHeader (cmf flg : BitVec 8) (h : s.Runs p) : (zlibHeader cmf flg s).Runs p := by
  rw [zlibHeader]
  split
  · exact .raised nofun h.1
  · dsimp only
    split
    · split
      · exact .raised nofun h.1
      · exact .ok ⟨h.1, rfl⟩
    · exact .raised nofun h.1

theorem runs_blockHeader (b : Bool) (ty : BitVec 2) {op : State → Res Unit} (h : s.Runs p)
    (hop : ∀ t, t.Runs p → (op t).Runs p) : (blockHeader b ty op s).Runs p := by
  refine runs_atomic h (runs_bind ?_ fun _ t => hop t)
  refine runs_bind (runs_bcSkip 1 h) fun _ t ht => ?_
  exact runs_bind (runs_bcSkip (s := { t with bfinal := b }) 2 ht) fun _ _ hu => .ok hu

theorem runs_readDynHeader (a b : BitVec 5) (c : BitVec 4) (h : s.Runs p) : (readDynHeader a b c s).Runs p := by
  rcases readDynHeader_cases a b c s with ⟨-, -, -, he⟩ | ⟨-, he⟩ | ⟨-, -, he⟩ | ⟨-, -, -, he⟩ | ⟨-, -, -, he⟩ |
    ⟨-, -, -, -, he⟩ <;> rw [he]
  · exact .ok h
  all_goals exact .raised nofun h.1

theorem runs_clclNext (h : s.Runs p) : (clclNext s).Runs p := by
  rw [clclNext]
  split
  · exact .ok h
  · exact runs_bind (runs_hufBuild .clt h) fun _ _ ht => .ok ht

theorem runs_splitAndBuild (h : s.Runs p) : (splitAndBuild s).Runs p :=
  runs_atomic h <| runs_bind (runs_hufBuild .llt h) fun _ _ ht =>
    runs_bind (runs_hufBuild .dt ht) fun _ _ hu => .ok ⟨hu.1, rfl⟩

theorem runs_symbolElement {sym : Nat} {op : State → Res Unit} (h : s.Runs p) (hop : (op s).Runs p) :
    (symbolElement sym op s).Runs p :=
  runs_atomic h (runs_bind hop fun _ _ ht => .ok ht)

theorem runs_clSymbol {sym : Nat} {op : State → Res Unit} (h : s.Runs p) (hop : (op s).Runs p) :
    (clSymbol sym op s).Runs p := by
  refine runs_bind (runs_symbolElement h hop) fun _ t ht => ?_
  rw [clsymNext]
  split
  · exact .ok ht
  · exact runs_splitAndBuild ht

theorem runs_putRun (v : BitVec 4) (rep : Nat) (h : s.Runs p) : (putRun v rep s).Runs p := by
  rcases putRun_cases v rep s with ⟨-, he⟩ | ⟨-, he⟩ <;> rw [he]
  · exact .ok h
  · exact .raised nofun h.1

theorem runs_putZeroRun (rep : Nat) (h : s.Runs p) : (putZeroRun rep s).Runs p :=
  runs_bind (runs_putRun 0 rep h) fun _ _ ht => .ok ht

theorem runs_repeatPrev (e : BitVec 2) (h : s.Runs p) : (repeatPrev e s).Runs p := by
  rw [repeatPrev]
  split
  · exact .raised nofun h.1
  · exact runs_bind (runs_bcSkip 2 h) fun _ _ ht => runs_putRun _ _ ht

theorem runs_lengthSymbol (sym e : Nat) (h : s.Runs p) : (lengthSymbol sym e s).Runs p :=
  runs_symbolElement h (runs_bind (runs_bcSkip _ h) fun _ _ ht => .ok ht)

theorem runs_distanceSymbol (d e : Nat) (h : s.Runs p) : (distanceSymbol d e s).Runs p :=
  runs_symbolElement h <| runs_bind (runs_bcSkip _ h) fun _ t ht =>
    runs_bind (runs_copyBackref (s := { t with extra := e, curDist := distanceOf d e }) ht) fun _ _ hu => .ok hu

end

/-! ## Instructions of a running session -/

/-- A step of a running session leaves it running, or in ERROR with a cause and its kind (60_exceptions.md R236). -/
def RunsOrRaises (p : Config.Params) (t : State) : Prop :=
  t.Runs p ∨ (t.params = p ∧ t.status = .error ∧ t.errCause ≠ .none ∧ t.errKind = t.errCause.kind)

section
variable {p : Config.Params} {s t : State} {i : Instr}

theorem runsOrRaises_raiseError {c : Cause} (hc : c ≠ .none) (h : s.params = p) : RunsOrRaises p (s.raiseError c) :=
  .inr ⟨h, rfl, hc, rfl⟩

theorem runsOrRaises_of_toOutcome {x : Res Unit} (ht : x.toOutcome = .next t) (hx : x.Runs p) : RunsOrRaises p t := by
  cases hx with
  | ok h =>
    cases ht
    exact .inl h
  | raised hc h =>
    cases ht
    exact runsOrRaises_raiseError hc h
  | refused => cases ht

theorem runsOrRaises_exec_bhdr (hf : i.format = .bhdr) (h : s.Runs p) (ht : exec i s = .next t) : RunsOrRaises p t := by
  cases i with
  | blockStored b | blockReserved b =>
    exact runsOrRaises_of_toOutcome ht (runs_blockHeader b _ h fun _ hu => .raised nofun hu.1)
  | blockFixed b | blockDynamic b =>
    exact runsOrRaises_of_toOutcome ht (runs_blockHeader b _ h fun _ hu => .ok ⟨hu.1, rfl⟩)
  | _ => cases hf

theorem runsOrRaises_exec_clsym (hf : i.format = .clsym) (h : s.Runs p) (ht : exec i s = .next t) :
    RunsOrRaises p t := by
  cases i with
  | clLen sym => exact runsOrRaises_of_toOutcome ht (runs_clSymbol h (.ok h))
  | clRep16 e => exact runsOrRaises_of_toOutcome ht (runs_clSymbol h (runs_repeatPrev e h))
  | clZero17 e | clZero18 e =>
    refine runsOrRaises_of_toOutcome ht (runs_clSymbol h ?_)
    exact runs_bind (runs_bcSkip _ h) fun _ _ hu => runs_putZeroRun _ hu
  | _ => cases hf

theorem runsOrRaises_exec_llsym (hf : i.format = .llsym) (hi : i ≠ .eob) (h : s.Runs p) (ht : exec i s = .next t) :
    RunsOrRaises p t := by
  rcases llsym_cases hf with ⟨b, rfl⟩ | rfl | ⟨h1, h2⟩ | hrsv
  · exact runsOrRaises_of_toOutcome ht (runs_symbolElement h (runs_outAppend b h))
  · exact absurd rfl hi
  · rw [exec_length s (element_eq_of_format hf) h1 h2] at ht
    exact runsOrRaises_of_toOutcome ht (runs_lengthSymbol _ _ h)
  · rw [exec_llReserved s hrsv] at ht
    cases ht
    exact runsOrRaises_raiseError nofun h.1

theorem runsOrRaises_exec_dsym (hf : i.format = .dsym) (h : s.Runs p) (ht : exec i s = .next t) : RunsOrRaises p t := by
  rcases dsym_cases hf with hd | hrsv
  · rw [exec_distance s (element_eq_of_format hf) hd] at ht
    exact runsOrRaises_of_toOutcome ht (runs_distanceSymbol _ _ h)
  · rw [exec_distReserved s hrsv] at ht
    cases ht
    exact runsOrRaises_raiseError nofun h.1

theorem runsOrRaises_exec_bccmd (hf : i.format = .bccmd) (h : s.Runs p) (ht : exec i s = .next t) :
    RunsOrRaises p t := by
  cases i with
  | bcPeek n =>
    rw [exec, execBcPeek] at ht
    split at ht
    · exact runsOrRaises_of_toOutcome ht (runs_bind (runs_bcPeek _ h) fun _ _ hu => .ok hu)
    · cases ht
  | bcConsume n =>
    rw [exec, execBcConsume] at ht
    split at ht
    · exact runsOrRaises_of_toOutcome ht (runs_bind (runs_bcConsume _ h) fun _ _ hu => .ok hu)
    · cases ht
  | bcConsumeBit n =>
    exact runsOrRaises_of_toOutcome ht (runs_bind (runs_bcConsumeBit h) fun _ _ hu => .ok hu)
  | bcByteAlign n =>
    cases ht
    rw [bcByteAlign]
    split <;> exact .inl h
  | _ => cases hf

theorem runsOrRaises_exec_hufcmd (hf : i.format = .hufcmd) (h : s.Runs p) (ht : exec i s = .next t) :
    RunsOrRaises p t := by
  cases i with
  | hufBuild tree => exact runsOrRaises_of_toOutcome ht (runs_hufBuild tree h)
  | hufLookup tree =>
    refine runsOrRaises_of_toOutcome ht (runs_bind ?_ fun _ _ hu => .ok hu)
    exact runs_bind (runs_hufDecode tree h) fun _ _ hu => .ok hu
  | _ => cases hf

/-- Of a running session's instructions only EOB can end it without an error (45_stream.md R214, R215). -/
theorem runsOrRaises_exec (hctrl : i.format ≠ .ctrl) (heob : i ≠ .eob) (h : s.Runs p) (ht : exec i s = .next t) :
    RunsOrRaises p t := by
  cases hf : i.format with
  | zhdr =>
    cases i with
    | zlibHeader cmf flg => exact runsOrRaises_of_toOutcome ht (runs_atomic h (runs_zlibHeader cmf flg h))
    | _ => cases hf
  | bhdr => exact runsOrRaises_exec_bhdr hf h ht
  | dynhdr =>
    cases i with
    | dynHeader a b c =>
      refine runsOrRaises_of_toOutcome ht (runs_atomic h ?_)
      exact runs_bind (runs_readDynHeader a b c h) fun _ _ hu => .ok hu
    | _ => cases hf
  | clcl =>
    cases i with
    | clclField len =>
      refine runsOrRaises_of_toOutcome ht (runs_bind (runs_bcSkip 3 h) fun _ u hu => ?_)
      exact runs_clclNext (s := u.putClLen len) hu
    | _ => cases hf
  | clsym => exact runsOrRaises_exec_clsym hf h ht
  | llsym => exact runsOrRaises_exec_llsym hf heob h ht
  | dsym => exact runsOrRaises_exec_dsym hf h ht
  | bccmd => exact runsOrRaises_exec_bccmd hf h ht
  | hufcmd => exact runsOrRaises_exec_hufcmd hf h ht
  | ctrl => exact absurd hf hctrl

/-! ## The engine's turn of a running session -/

/-- A fetch that answers gives an instruction of the slot's format and leaves `bfinal`, wherever the cursor stands
(30_encoding.md R80). -/
theorem fetch_format_and_bfinal {k : Slot} {u : State} (h : fetch k s = .ok i u) :
    i.format = k.format ∧ u.bfinal = s.bfinal := by
  have hsym : ∀ {f tree}, fetchSymbol f tree s = .ok i u → i.format = f ∧ u.bfinal = s.bfinal := by
    intro f tree hd
    obtain ⟨v, w, hw, hd⟩ := res_bind_eq_ok.1 hd
    obtain ⟨hi, rfl⟩ := decodeWord_eq_ok hd
    rw [hufDecode] at hw
    obtain ⟨q, b, ⟨_, he⟩ | ⟨c, he⟩⟩ := hufWalk_eq_cursor (s.arena tree) s.bitsRemaining 0 s <;>
      rw [he] at hw <;> cases hw
    exact ⟨hi, rfl⟩
  cases k with
  | zhdr | bhdr | dynhdr | clcl =>
    rw [fetch] at h
    exact ⟨(decodeWord_eq_ok h).1, by rw [(decodeWord_eq_ok h).2]⟩
  | clsym | llsym | dsym =>
    rw [fetch] at h
    exact hsym h

theorem runs_decodeWord (f : Format) (w : Nat) (h : s.Runs p) : (decodeWord f w s).Runs p := by
  rw [decodeWord]
  split
  · exact .ok h
  · exact .refused

theorem runs_fetchSymbol (f : Format) (tree : TreeId) (h : s.Runs p) : (fetchSymbol f tree s).Runs p :=
  runs_bind (runs_hufDecode tree h) fun _ _ hu => runs_decodeWord _ _ hu

theorem runs_fetch (k : Slot) (h : s.Runs p) : (fetch k s).Runs p := by
  cases k with
  | zhdr | bhdr | dynhdr | clcl =>
    rw [fetch]
    exact runs_decodeWord _ _ h
  | clsym | llsym | dsym =>
    rw [fetch]
    exact runs_fetchSymbol _ _ h

/-- The session is over, on EOB of a final block (44_block_body.md R191, 45_stream.md R214). -/
structure Finishes (s t : State) : Prop where
  params : t.params = s.params
  status : t.status = .done
  bfinal : s.bfinal = true
  eob : ∃ u, fetch .llsym s = .ok .eob u

/-- EOB, a literal/length symbol, ends the session after a final block and waits for a block header after another one. -/
theorem finishes_or_runs_of_eob {k : Slot} {u : State} (hx : fetch k s = .ok .eob u) (hu : u.Runs s.params)
    (ht : exec .eob u = .next t) : Finishes s t ∨ t.Runs s.params := by
  obtain ⟨hf, hbfinal⟩ := fetch_format_and_bfinal hx
  rw [exec_eob] at ht
  cases ht
  rcases Bool.eq_false_or_eq_true u.bfinal with hb | hb
  · cases k with
    | llsym =>
      rw [endBlock_of_bfinal hb]
      exact .inl ⟨hu.1, rfl, hbfinal ▸ hb, u, hx⟩
    | _ => cases hf
  · rw [endBlock_of_not_bfinal hb]
    exact .inr ⟨hu.1, rfl⟩

theorem engineStep_busy_cases (hb : s.status = .busy) (ht : engineStep s = .next t) :
    Finishes s t ∨ RunsOrRaises s.params t := by
  have hs : s.Runs s.params := ⟨rfl, hb⟩
  rw [engineStep] at ht
  cases hk : s.nextSlot with
  | none =>
    rw [hk] at ht
    cases ht
    exact .inr (.inl hs)
  | some k =>
    simp only [hk] at ht
    have hfetch := runs_fetch k hs
    generalize hx : fetch k s = x at ht hfetch
    cases hfetch with
    | @ok i u hu =>
      by_cases heob : i = .eob
      · subst heob
        exact (finishes_or_runs_of_eob hx hu ht).imp_right .inl
      · refine .inr (runsOrRaises_exec ?_ heob hu ht)
        rw [(fetch_format_and_bfinal hx).1]
        cases k <;> exact nofun
    | raised hc hu =>
      cases ht
      exact .inr (runsOrRaises_raiseError hc hu)
    | refused => cases ht

end

/-! ## Every transition of STATUS.STATE (70_reset_and_hazards.md R264) -/

/-- What the move `x` made in `s` can do to STATUS.STATE. -/
inductive Transition (s t : State) : Input → Prop
  | reset (h : t.status = .idle) : Transition s t .reset
  | start {x : Input} (hx : x.isStart = true) (h : t.status = .busy) : Transition s t x
  | stay {x : Input} (hr : x.isReset = false) (hx : x.isStart = false) (h : t.status = s.status) : Transition s t x
  | raise {x : Input} (hr : x.isReset = false) (hx : x.isStart = false) (hb : s.status = .busy) (h : t.status = .error)
    (hc : t.errCause ≠ .none) (hk : t.errKind = t.errCause.kind) : Transition s t x
  | finish (hb : s.status = .busy) (h : Finishes s t) : Transition s t .engine

/-- A move other than a reset or a START that leaves a running session running, or raises. -/
theorem transition_of_runsOrRaises {s t : State} {x : Input} (hr : x.isReset = false) (hx : x.isStart = false)
    (hb : s.status = .busy) (h : RunsOrRaises s.params t) : t.params = s.params ∧ Transition s t x := by
  rcases h with ⟨hp, h⟩ | ⟨hp, h, hc, hk⟩
  · exact ⟨hp, .stay hr hx (h.trans hb.symm)⟩
  · exact ⟨hp, .raise hr hx hb h hc hk⟩

theorem transition_engineStep {s t : State} (ht : engineStep s = .next t) :
    t.params = s.params ∧ Transition s t .engine := by
  by_cases hb : s.status = .busy
  · rcases engineStep_busy_cases hb ht with h | h
    · exact ⟨h.params, .finish hb h⟩
    · exact transition_of_runsOrRaises rfl rfl hb h
  · rw [engineStep_not_busy hb] at ht
    cases ht
    exact ⟨rfl, .stay rfl rfl rfl⟩

/-- START = 1 begins a session, or is ignored while one runs (10_state.md R21). -/
theorem transition_hostWriteCtrl {s t : State} {v : Word} (ht : hostWriteCtrl v s = .next t) :
    t.params = s.params ∧ Transition s t (.writeReg 0 v) := by
  cases hv : v.getLsbD 0 with
  | true =>
    rw [hostWriteCtrl_set s hv] at ht
    have hstart : (Input.writeReg 0 v).isStart = true := hv
    by_cases hb : s.status = .busy
    · rw [exec_cmdStart_busy _ hb] at ht
      cases ht
      exact ⟨rfl, .start hstart hb⟩
    · rw [exec_cmdStart_not_busy _ hb] at ht
      cases ht
      exact ⟨rfl, .start hstart rfl⟩
  | false =>
    rw [hostWriteCtrl_clear s hv] at ht
    cases ht
    exact ⟨rfl, .stay rfl hv rfl⟩

/-- CTRL alone stands at offset 0 (10_state.md R20). -/
theorem hostRegAt_eq_ctrl {offset : Nat} {r : HostReg} (h : hostRegAt offset = some r) : r = .ctrl ↔ offset = 0 := by
  unfold hostRegAt at h
  split at h <;> cases h <;> decide

theorem transition_writeReg {s t : State} {offset : Nat} {v : Word} (ht : takeInput (.writeReg offset v) s = .next t) :
    t.params = s.params ∧ Transition s t (.writeReg offset v) := by
  rw [takeInput] at ht
  split at ht
  · next r hr =>
    by_cases ho : offset = 0
    · obtain rfl := (hostRegAt_eq_ctrl hr).2 ho
      subst ho
      exact transition_hostWriteCtrl ht
    · have hx : (Input.writeReg offset v).isStart = false := by simp [Input.isStart, ho]
      cases r with
      | ctrl => exact absurd ((hostRegAt_eq_ctrl hr).1 rfl) ho
      | inLen =>
        rw [hostWriteReg, hostWriteInLen] at ht
        split at ht
        · cases ht
          exact ⟨rfl, .stay rfl hx rfl⟩
        · split at ht <;> cases ht
          exact ⟨rfl, .stay rfl hx rfl⟩
      | status | error | outLen | zlibHdr | block | cursor =>
        cases ht
        exact ⟨rfl, .stay rfl hx rfl⟩
  · cases ht

/-- A command of a port is no EOB and no START, and comes in a running session alone (30_encoding.md R97). -/
theorem transition_runCommand {s t : State} {port : CommandPort} {w : Nat} (ht : runCommand port w s = .next t) :
    t.params = s.params ∧ Transition s t (.command port w) := by
  rw [runCommand] at ht
  split at ht
  · next hb =>
    split at ht
    · next i hd =>
      have hf : i.format = port.format := decode_format hd
      have hctrl : i.format ≠ .ctrl := by rw [hf]; cases port <;> exact nofun
      have heob : i ≠ .eob := by rintro rfl; cases port <;> cases hf
      exact transition_of_runsOrRaises rfl rfl hb (runsOrRaises_exec hctrl heob ⟨rfl, hb⟩ ht)
    · cases ht
  · cases ht

/-- Whatever happens next outside the engine keeps the parameters and makes a transition of the table. -/
theorem transition_takeInput {s t : State} {x : Input} (ht : takeInput x s = .next t) :
    t.params = s.params ∧ Transition s t x := by
  cases x with
  | engine => exact transition_engineStep ht
  | writeIn a b =>
    rw [takeInput, hostWriteIn] at ht
    split at ht <;> cases ht
    exact ⟨rfl, .stay rfl rfl rfl⟩
  | writeOut a b =>
    rw [takeInput, hostWriteOut] at ht
    split at ht <;> cases ht
    exact ⟨rfl, .stay rfl rfl rfl⟩
  | writeReg offset v => exact transition_writeReg ht
  | readReg offset =>
    rw [takeInput] at ht
    split at ht <;> cases ht
    exact ⟨rfl, .stay rfl rfl rfl⟩
  | readOut a =>
    cases ht
    exact ⟨rfl, .stay rfl rfl rfl⟩
  | reset =>
    cases ht
    exact ⟨rfl, .reset rfl⟩
  | command port w => exact transition_runCommand ht

/-- The move a step makes is the engine's turn with no input pending, else the first input (assumption 8). -/
theorem step_transition {s t : State} (ht : step s = .next t) :
    ∃ x, (s.inputs = [] ∧ x = .engine ∨ s.inputs = x :: s.inputs.tail) ∧ t.params = s.params ∧
      Transition { s with inputs := s.inputs.tail } t x := by
  cases hi : s.inputs with
  | nil =>
    rw [step_of_no_input hi] at ht
    have hs : { s with inputs := [] } = s := by rw [← hi]
    exact ⟨.engine, .inl ⟨rfl, rfl⟩, by rw [List.tail_nil, hs]; exact transition_engineStep ht⟩
  | cons x rest =>
    rw [step_of_input hi] at ht
    exact ⟨x, .inr rfl, transition_takeInput ht⟩

/-! The rows of the table, one after the other. -/

section
variable {s t : State} {x : Input}

theorem isReset_of_isStart (h : x.isStart = true) : x.isReset = false := by
  cases x with
  | reset => cases h
  | _ => rfl

theorem Transition.idle_of_reset (h : Transition s t x) (hx : x.isReset = true) : t.status = .idle := by
  cases h with
  | reset h => exact h
  | start hs => simp [isReset_of_isStart hs] at hx
  | stay hr | raise hr => simp [hr] at hx
  | finish => cases hx

theorem Transition.busy_of_start (h : Transition s t x) (hx : x.isStart = true) : t.status = .busy := by
  cases h with
  | start _ h => exact h
  | stay _ hs | raise _ hs => simp [hs] at hx
  | reset | finish => cases hx

theorem Transition.reset_of_idle (h : Transition s t x) (hb : s.status = .busy) (ht : t.status = .idle) :
    x.isReset = true := by
  cases h with
  | reset => rfl
  | start _ h | raise _ _ _ h => simp [h] at ht
  | stay _ _ h => simp [h, hb] at ht
  | finish _ h => simp [h.status] at ht

theorem Transition.finishes_of_done (h : Transition s t x) (hb : s.status = .busy) (ht : t.status = .done) :
    x = .engine ∧ Finishes s t := by
  cases h with
  | reset h | start _ h | raise _ _ _ h => simp [h] at ht
  | stay _ _ h => simp [h, hb] at ht
  | finish _ h => exact ⟨rfl, h⟩

theorem Transition.cause_of_error (h : Transition s t x) (hb : s.status = .busy) (ht : t.status = .error) :
    t.errCause ≠ .none ∧ t.errKind = t.errCause.kind := by
  cases h with
  | reset h | start _ h => simp [h] at ht
  | stay _ _ h => simp [h, hb] at ht
  | raise _ _ _ _ hc hk => exact ⟨hc, hk⟩
  | finish _ h => simp [h.status] at ht

theorem Transition.reset_or_start (h : Transition s t x) (hb : s.status ≠ .busy) (ht : t.status ≠ s.status) :
    (x.isReset = true ∧ t.status = .idle) ∨ (x.isStart = true ∧ t.status = .busy) := by
  cases h with
  | reset h => exact .inl ⟨rfl, h⟩
  | start hx h => exact .inr ⟨hx, h⟩
  | stay _ _ h => exact absurd h ht
  | raise _ _ hb' | finish hb' => exact absurd hb' hb

end

/-- Settles O46: the step's move, the engine's turn or the first input, makes one of the table's transitions, and each
clause reads one row of the table off it. -/
theorem statusTransitions : Obligations.StatusTransitions := by
  intro s t ht
  obtain ⟨x, hx, -, h⟩ := step_transition ht
  have hnext : ∀ y rest, s.inputs = y :: rest → y = x := by
    intro y rest hi
    rcases hx with ⟨hnil, -⟩ | hcons
    · cases hnil.symm.trans hi
    · rw [hi] at hcons
      exact (List.cons.inj hcons).1
  have hpending : x ≠ .engine → s.inputs = x :: s.inputs.tail :=
    fun hne => hx.resolve_left fun h' => hne h'.2
  refine ⟨fun y rest hi hr => ?_, fun y rest hi hs => ?_, fun hb hidle => ?_, fun hb hdone => ?_, h.cause_of_error,
    fun hb hne => ?_⟩
  · rw [hnext y rest hi] at hr
    exact h.idle_of_reset hr
  · rw [hnext y rest hi] at hs
    exact h.busy_of_start hs
  · have hr := h.reset_of_idle hb hidle
    exact ⟨x, _, hpending (by rintro rfl; cases hr), hr⟩
  · obtain ⟨rfl, hfin⟩ := h.finishes_of_done hb hdone
    exact ⟨hx.imp And.left fun hi => ⟨_, hi⟩, hfin.bfinal, hfin.eob⟩
  · have hrs := h.reset_or_start hb hne
    exact ⟨x, _, hpending (by rintro rfl; rcases hrs with ⟨hr, -⟩ | ⟨hs, -⟩ <;> contradiction), hrs⟩

/-- Settles O53: whichever transition a step makes, the parameters stay. -/
theorem parametersNeverChange : Obligations.ParametersNeverChange := by
  intro s t ht
  obtain ⟨-, -, hp, -⟩ := step_transition ht
  exact hp

end Sys2Proof.Machine

namespace Sys2Proof.Machine

/-! ## The bits a row of the opcode table tests (30_encoding.md section 0) -/

/-- The row of an instruction has the instruction's format. -/
theorem tableRow_format (i : Instr) : i.tableRow.format = i.format := by
  cases i <;> rfl

/-- A mask above bit `k` takes nothing of a field below that bit. -/
theorem and_mask_above {k n : Nat} (q m : Nat) (hn : n < 2 ^ k) : (n + q * 2 ^ k) &&& (m * 2 ^ k) = (q &&& m) * 2 ^ k := by
  have hlow : ((n + q * 2 ^ k) &&& (m * 2 ^ k)) % 2 ^ k = 0 := by
    rw [Nat.and_mod_two_pow, Nat.mul_mod_left, Nat.and_zero]
  have hhigh : ((n + q * 2 ^ k) &&& (m * 2 ^ k)) / 2 ^ k = q &&& m := by
    rw [Nat.and_div_two_pow, Nat.add_mul_div_right _ _ (Nat.two_pow_pos k), Nat.div_eq_of_lt hn, Nat.zero_add,
      Nat.mul_div_cancel _ (Nat.two_pow_pos k)]
  rw [← Nat.div_add_mod' (_ &&& _) (2 ^ k), hlow, hhigh, Nat.add_zero]

/-- A word with bit `k` clear is below `2 ^ k` in the bits up to that one. -/
theorem and_lt_of_bit_clear {w k : Nat} (h : w &&& 2 ^ k = 0) : w &&& (2 ^ (k + 1) - 1) < 2 ^ k := by
  have hbit : w.testBit k = false := by simpa [Nat.and_two_pow] using h
  rw [Nat.and_two_pow_sub_one_eq_mod, Nat.mod_pow_succ, ← Nat.toNat_testBit, hbit]
  exact Nat.mod_lt w (Nat.two_pow_pos k)

/-- The mask of a symbol's bits takes the symbol from a word, and none of its extra bits. -/
theorem encode_and_symbolMask {i : Instr} (h : i.element.2.1 < 2 ^ i.format.symBits) :
    encode i &&& (2 ^ i.format.symBits - 1) = i.element.2.1 := by
  rw [Nat.and_two_pow_sub_one_eq_mod, encode, Nat.add_mul_mod_self_right, Nat.mod_eq_of_lt h]

/-- The mask `m` of the bits from `k` on takes the operation `q` from a word without extra bits, and none of the field
below it. -/
theorem encode_and_operationMask (k q m : Nat) {i : Instr} {f : Format} {n : Nat} (hi : i.element = (f, n + q * 2 ^ k, 0))
    (hn : n < 2 ^ k) : encode i &&& (m * 2 ^ k) = (q &&& m) * 2 ^ k := by
  rw [encode_of_element hi, and_mask_above q m hn]

/-- The word of an instruction matches the instruction's row. -/
theorem encode_matches_tableRow (i : Instr) : encode i &&& i.tableRow.mask = i.tableRow.pattern := by
  cases i with
  | zlibHeader | dynHeader | clclField => exact Nat.and_zero _
  | blockStored b => exact encode_and_operationMask 1 0 3 (i := .blockStored b) rfl b.toNat_lt
  | blockFixed b => exact encode_and_operationMask 1 1 3 (i := .blockFixed b) rfl b.toNat_lt
  | blockDynamic b => exact encode_and_operationMask 1 2 3 (i := .blockDynamic b) rfl b.toNat_lt
  | blockReserved b => exact encode_and_operationMask 1 3 3 (i := .blockReserved b) rfl b.toNat_lt
  | clLen sym => exact encode_and_operationMask 4 0 1 (i := .clLen sym) rfl sym.isLt
  | lit byte => exact encode_and_operationMask 8 0 1 (i := .lit byte) rfl byte.isLt
  | bcPeek n => exact encode_and_operationMask 7 0 3 (i := .bcPeek n) rfl n.isLt
  | bcConsume n => exact encode_and_operationMask 7 1 3 (i := .bcConsume n) rfl n.isLt
  | bcConsumeBit n => exact encode_and_operationMask 7 2 3 (i := .bcConsumeBit n) rfl n.isLt
  | bcByteAlign n => exact encode_and_operationMask 7 3 3 (i := .bcByteAlign n) rfl n.isLt
  | hufBuild tree | hufLookup tree => cases tree <;> rfl
  | cmdStart r =>
    rw [encode_of_element (i := .cmdStart r) rfl]
    exact (Nat.and_one_is_mod _).trans (Nat.mul_add_mod_self_right r.toNat 2 1)
  | _ => exact encode_and_symbolMask (Nat.le_of_ble_eq_true rfl)

/-! ## The one row a word matches -/

/-- The bits that the rows of a format tell its instructions apart by: all of a symbol, or the operation of a header or a
command. -/
def rowMask : Format → Nat
  | .zhdr | .dynhdr | .clcl => 0
  | .bhdr => 0x6
  | .clsym | .dsym => 0x1f
  | .llsym => 0x1ff
  | .bccmd => 0x180
  | .hufcmd => 0x8
  | .ctrl => 0x1

/-- The row of the instruction that these bits of a word alone decode to. -/
def rowOf (f : Format) (w : Nat) : Option TableRow := (decode f (w &&& rowMask f)).toOption.map Instr.tableRow

/-- The row of a word that holds `p` in these bits is the row of `p`. -/
theorem rowOf_of_and {f : Format} {w p : Nat} {row : TableRow} (hp : w &&& rowMask f = p)
    (hrow : (decode f p).toOption.map Instr.tableRow = some row) : rowOf f w = some row := by
  rw [rowOf, hp, hrow]

/-- A code-length symbol below 16 is a CL_LEN (30_encoding.md R86). -/
theorem decode_clsym_of_lt {v : Nat} (h : v < 16) : decode .clsym v = .ok (.clLen (.ofNat 4 v)) := by
  have hv : v < 32 := by omega
  rw [decode, Nat.mod_eq_of_lt hv, Nat.div_eq_of_lt hv, decodeClsym, if_pos h, if_pos rfl]

/-- A literal/length symbol below 256 is a LIT (30_encoding.md R87). -/
theorem decode_llsym_of_lt {v : Nat} (h : v < 256) : decode .llsym v = .ok (.lit (.ofNat 8 v)) := by
  have hv : v < 512 := by omega
  rw [decode, Nat.mod_eq_of_lt hv, Nat.div_eq_of_lt hv, decodeLlsym, if_pos h, if_pos rfl]

/-- A word that matches a row of a format has that row. CL_LEN and LIT test the top bit of the symbol only, and have every
symbol with that bit clear; every other row tests all of its format's bits. -/
theorem rowOf_of_matches {j : Instr} {w : Nat} (h : w &&& j.tableRow.mask = j.tableRow.pattern) :
    rowOf j.format w = some j.tableRow := by
  cases j with
  | clLen sym =>
    have hsym : w &&& rowMask .clsym < 16 := and_lt_of_bit_clear (k := 4) h
    show rowOf .clsym w = _
    rw [rowOf, decode_clsym_of_lt hsym]
    rfl
  | lit byte =>
    have hsym : w &&& rowMask .llsym < 256 := and_lt_of_bit_clear (k := 8) h
    show rowOf .llsym w = _
    rw [rowOf, decode_llsym_of_lt hsym]
    rfl
  | _ =>
    dsimp only [Instr.tableRow] at h
    exact rowOf_of_and h rfl

/-- Settles O3: a word matches the row of the instruction it encodes, and the bits that its format's rows test decode to any
row it matches. -/
theorem decodedWordMatchesItsRowOnly : Obligations.DecodedWordMatchesItsRowOnly := by
  intro f w i h
  obtain ⟨rfl, rfl, -⟩ := encodeOfDecode f w i h
  refine ⟨tableRow_format i, encode_matches_tableRow i, fun j hj hm => Option.some.inj ?_⟩
  rw [← rowOf_of_matches hm, ← rowOf_of_matches (encode_matches_tableRow i), ← tableRow_format j, hj]

end Sys2Proof.Machine

namespace Sys2Proof.Machine

/-! ## The fixed codes (30_encoding.md R94) -/

/-- In a run of `n` equal lengths from symbol `p` on, before which the length stands `c` times, the codes count up
(41_huffman.md R132). -/
theorem canonicalCode_run {lens pre post : List Nat} {n len p c sym : Nat}
    (h : lens = pre ++ (List.replicate n len ++ post)) (hp : pre.length = p) (hc : pre.count len = c) (hge : p ≤ sym)
    (hlt : sym < p + n) : canonicalCode lens sym = (len, canonicalFirst lens len + (c + (sym - p))) := by
  subst hp hc
  obtain ⟨k, rfl⟩ := Nat.exists_eq_add_of_le hge
  have hk : k < n := Nat.lt_of_add_lt_add_left hlt
  have hrun : k < (List.replicate n len).length := by rwa [List.length_replicate]
  have hget : lens.getD (pre.length + k) 0 = len := by
    rw [h, List.getD_append_right _ _ _ _ (Nat.le_add_right _ k), Nat.add_sub_cancel_left, List.getD_append _ _ _ _ hrun,
      List.getD_replicate _ hk]
  have htake : lens.take (pre.length + k) = pre ++ List.replicate k len := by
    rw [h, List.take_length_add_append, List.take_append_of_le_length hrun.le, List.take_replicate, Nat.min_eq_left hk.le]
  rw [canonicalCode, hget, htake, List.count_append, List.count_replicate_self, Nat.add_sub_cancel_left]

/-- How often each length stands in the table (42_fixed_tables.md R150). -/
theorem count_fixedLLLens (v : Config.FixedLong) (len : Nat) :
    (fixedLLLens v).count len =
      (if len = 8 then 144 else 0) + (if len = 9 then 112 else 0) + (if len = 7 then 24 else 0) +
        if len = fixedLongBits v then 8 else 0 := by
  simp only [fixedLLLens, List.count_append, List.count_replicate, beq_iff_eq, eq_comm (b := len)]

/-- The first codes of the lengths 7, 8 and 9 (30_encoding.md R94). -/
theorem canonicalFirst_fixedLLLens (v : Config.FixedLong) :
    canonicalFirst (fixedLLLens v) 7 = 0 ∧ canonicalFirst (fixedLLLens v) 8 = 0x30 ∧
      canonicalFirst (fixedLLLens v) 9 = if v = .eight then 0x190 else 0x180 := by
  cases v <;> simp [canonicalFirst, count_fixedLLLens, fixedLongBits]

/-- The table of fixed literal/length codes is the canonical code of the fixed lengths, run by run (30_encoding.md R94,
42_fixed_tables.md R150). -/
theorem canonicalCode_fixedLLLens (v : Config.FixedLong) {sym : Nat} (h : sym < 288) :
    canonicalCode (fixedLLLens v) sym = fixedLLCode v sym := by
  obtain ⟨h7, h8, h9⟩ := canonicalFirst_fixedLLLens v
  have hruns : fixedLLLens v = List.replicate 144 8 ++ (List.replicate 112 9 ++ (List.replicate 24 7 ++
      (List.replicate 8 (fixedLongBits v) ++ []))) := by
    simp only [fixedLLLens, List.append_assoc, List.append_nil]
  unfold fixedLLCode
  split_ifs with h144 h256 h280
  · rw [← List.nil_append (_ ++ _)] at hruns
    rw [canonicalCode_run (p := 0) (c := 0) hruns rfl rfl (Nat.zero_le sym) (by omega), h8, Nat.zero_add, Nat.sub_zero]
  · rw [canonicalCode_run (p := 144) (c := 0) hruns List.length_replicate
      (by simp [-List.reduceReplicate, List.count_replicate]) (Nat.not_lt.1 h144) h256, h9, Nat.zero_add]
    cases v <;> rfl
  · rw [← List.append_assoc] at hruns
    rw [canonicalCode_run (p := 256) (c := 0) hruns (by simp only [List.length_append, List.length_replicate])
      (by simp [-List.reduceReplicate, List.count_replicate]) (Nat.not_lt.1 h256) h280, h7, Nat.zero_add, Nat.zero_add]
  · rw [← List.append_assoc, ← List.append_assoc] at hruns
    cases v with
    | eight =>
      rw [fixedLongBits] at hruns
      rw [canonicalCode_run (p := 280) (c := 144) hruns (by simp only [List.length_append, List.length_replicate])
        (by simp [-List.reduceReplicate, List.count_replicate]) (Nat.not_lt.1 h280) h, h8, ← Nat.add_assoc]
    | nine =>
      rw [fixedLongBits] at hruns
      rw [canonicalCode_run (p := 280) (c := 112) hruns (by simp only [List.length_append, List.length_replicate])
        (by simp [-List.reduceReplicate, List.count_replicate]) (Nat.not_lt.1 h280) h, h9, ← Nat.add_assoc]
      rfl

/-- Every fixed code has a bit. -/
theorem fixedLLCode_length_ne_zero (v : Config.FixedLong) (sym : Nat) : (fixedLLCode v sym).1 ≠ 0 := by
  unfold fixedLLCode
  split_ifs <;> cases v <;> exact Nat.succ_ne_zero _

/-- The fixed distance codes count up from 0 (30_encoding.md R94, 42_fixed_tables.md R151). -/
theorem canonicalCode_fixedDLens {d : Nat} (h : d < 32) : canonicalCode fixedDLens d = (5, d) := by
  have hruns : fixedDLens = [] ++ (List.replicate 32 5 ++ []) := (List.append_nil _).symm
  have hfirst : canonicalFirst fixedDLens 5 = 0 := by decide
  rw [canonicalCode_run (p := 0) (c := 0) hruns rfl rfl (Nat.zero_le d) (by omega), hfirst, Nat.zero_add, Nat.zero_add,
    Nat.sub_zero]

/-- A build without error holds the canonical code of each symbol whose code has a bit (41_huffman.md R132, R137). -/
theorem decodesTo_of_canonicalCode {lens : List Nat} {a : Arena} {sym : Nat} {code : Nat × Nat}
    (hle : ∀ l ∈ lens, l ≤ 15) (herr : (buildTree lens).error = none) (ha : (buildTree lens).arena = a)
    (hsym : sym < lens.length) (hcode : canonicalCode lens sym = code) (hbit : code.1 ≠ 0) :
    a.decodesTo 0 (msbFirst code.2 code.1) = some sym := by
  subst ha hcode
  exact builtTreeHoldsTheCanonicalCodes lens sym hle herr hsym hbit

/-- Settles O7: the fixed trees are the builds of the fixed lengths, and a build holds the canonical codes. -/
theorem fixedTreesHoldTheFixedCodes : Obligations.FixedTreesHoldTheFixedCodes :=
  ⟨fun v sym hsym => decodesTo_of_canonicalCode (fixedLLLens_le v) (fixedLL_error v) (fixedLLArena_eq v)
      ((fixedLLLens_length v).symm ▸ hsym) (canonicalCode_fixedLLLens v hsym) (fixedLLCode_length_ne_zero v sym),
    fun d hd => decodesTo_of_canonicalCode (by decide) fixedD_error fixedDArena_eq
      (fixedDLens_length.symm ▸ hd) (canonicalCode_fixedDLens hd) (Nat.succ_ne_zero 4)⟩

end Sys2Proof.Machine

namespace Sys2Proof.Machine

/-! ## The words of the spec (30_encoding.md R81 to R88, R97) -/

/-- Settles O4: the decoder computes on each of the twelve words. -/
theorem wordsOfTheSpecDecode : Obligations.WordsOfTheSpecDecode :=
  ⟨rfl, rfl, rfl, rfl, rfl, rfl, rfl, rfl, rfl, rfl, rfl, rfl⟩

/-! ## The state after reset -/

/-- Settles O49: the state after reset has the invariant, and no code-length sequence is read in it (10_state.md R42). -/
theorem resetHasTheInvariant : Obligations.ResetHasTheInvariant := by
  intro p hp
  have hidle : (State.resetWith p).phase ≠ .dynhdr := nofun
  exact ⟨inv_resetWith hp, fun h => absurd h hidle⟩

end Sys2Proof.Machine

namespace Sys2Proof.Machine

set_option Elab.async false

/-! ## ZLIB_HEADER (45_stream.md R210 to R212) -/

theorem headerChecksumOk_eq_true {cmf flg : BitVec 8} :
    headerChecksumOk cmf flg = true ↔ (cmf.toNat * 256 + flg.toNat) % 31 = 0 := by
  rw [headerChecksumOk, beq_iff_eq]

theorem zlibHeader_of_short (cmf flg : BitVec 8) {s : State} (h : s.inLen < 2) :
    zlibHeader cmf flg s = .raised .hdrShort s := by
  rw [zlibHeader, if_pos h]

theorem zlibHeader_of_badChecksum {cmf flg : BitVec 8} {s : State} (h : 2 ≤ s.inLen)
    (hsum : (cmf.toNat * 256 + flg.toNat) % 31 ≠ 0) :
    zlibHeader cmf flg s = .raised .hdrFcheck (s.setZlibHdr cmf flg) := by
  rw [zlibHeader, if_neg (Nat.not_lt.2 h), if_neg (mt headerChecksumOk_eq_true.1 hsum)]

/-- A header whose checksum holds is decided by FDICT and the policy (45_stream.md R211). -/
theorem zlibHeader_of_checksum {cmf flg : BitVec 8} {s : State} (h : 2 ≤ s.inLen)
    (hsum : (cmf.toNat * 256 + flg.toNat) % 31 = 0) :
    zlibHeader cmf flg s =
      if flg.getLsbD 5 = true ∧ s.params.fdictPolicy = .reject then .raised .presetDict (s.setZlibHdr cmf flg)
      else .ok () { s.setZlibHdr cmf flg with curByte := 2, curBit := 0, phase := .bhdr, seq := .head } := by
  rw [zlibHeader, if_neg (Nat.not_lt.2 h)]
  simp only [headerChecksumOk_eq_true.2 hsum, if_true, Bool.and_eq_true, beq_iff_eq]
  rfl

/-- Settles O20: the three checks are made in order, and what a check that fails has written is undone. -/
theorem zlibHeaderIsChecked : Obligations.ZlibHeaderIsChecked := by
  intro cmf flg s
  rw [exec, execZlibHeader]
  refine ⟨fun h => ?_, fun h hsum => ?_, fun h hsum hdict hpol => ?_, fun h hsum hdict => ?_⟩
  · rw [zlibHeader_of_short cmf flg h]
    rfl
  · rw [zlibHeader_of_badChecksum h hsum]
    rfl
  · rw [zlibHeader_of_checksum h hsum, if_pos ⟨hdict, hpol⟩]
    rfl
  · have hcm : cmOf cmf = cmf.setWidth 4 := (BitVec.ofNat_toNat 4 cmf)
    rw [zlibHeader_of_checksum h hsum, if_neg, ← hcm]
    · rfl
    · rintro ⟨hset, hpol⟩
      rw [hdict hset] at hpol
      cases hpol

/-- Settles O23: with the three bits there the type's raise undoes the record of the header, and leaves its bits
consumed. -/
theorem storedBlockRaises : Obligations.StoredBlockRaises := by
  intro b s h
  rw [exec, execBlockStored, blockHeader_of_le b 0 _ h]
  rfl

/-! ## What the header elements leave unchanged -/

/-- What a header element's effect leaves unchanged (45_stream.md R210, 43_block_header.md R165 to R168, 60_exceptions.md
R235). -/
def HeaderFrame (f : Format) (s t : State) : Prop :=
  SameMemory s t ∧ SameTable s t ∧ SameTrees s t ∧ SameBackref s t ∧ SameHost s t ∧ t.sym = s.sym ∧
    t.outLen = s.outLen ∧ t.bcData = s.bcData ∧ (f = .zhdr ∨ SameZlibHdr s t) ∧
    (f = .bhdr ∨ (SameBlock s t ∧ SamePair s t)) ∧ (f = .dynhdr ∨ (SameCounts s t ∧ SameClLens s t)) ∧
    (t.phase = .error ∨ SameError s t) ∧ RaiseIsPrecise s t

/-- The header's phase is left, and no other element leads to it. -/
def LeavesHeader (f : Format) (s t : State) : Prop := t.phase = .zhdr → f ≠ .zhdr ∧ s.phase = .zhdr

/-- An accepted header. -/
def State.headerDone (s : State) (cmf flg : BitVec 8) : State :=
  { s.setZlibHdr cmf flg with curByte := 2, curBit := 0, phase := .bhdr, seq := .head }

/-- A block header that has been read, with the pair and the place that its type selects. -/
def State.blockDone (s : State) (b : Bool) (ty : BitVec 2) (ll d : TreeId) (p : Phase) (q : Seq) : State :=
  { s.advance 3 with
    bfinal := b, btype := ty, blockFinal := b, blockType := ty, llSel := ll, dSel := d, phase := p, seq := q }

/-- A dynamic header that has been read. -/
def State.countsDone (s : State) (hlit hdist hclen : Nat) : State :=
  { s.advance 14 with
    hlit := hlit, hdist := hdist, hclen := hclen, clLens := List.replicate 19 0, clclIdx := 0, seq := .clcl }

section
variable (s : State)

theorem headerDone_frame (cmf flg : BitVec 8) : HeaderFrame .zhdr s (s.headerDone cmf flg) :=
  ⟨⟨fun _ => rfl, fun _ => rfl⟩, ⟨rfl, rfl, rfl, rfl⟩, ⟨rfl, rfl, rfl, rfl, rfl⟩, ⟨rfl, rfl, rfl⟩,
    ⟨rfl, rfl, rfl, rfl, rfl, rfl, rfl, rfl, rfl, rfl⟩, rfl, rfl, rfl, .inl rfl,
    .inr ⟨⟨rfl, rfl, rfl, rfl⟩, rfl, rfl⟩, .inr ⟨⟨rfl, rfl, rfl⟩, rfl, rfl⟩, .inr ⟨rfl, rfl⟩, fun _ => nofun⟩

theorem blockDone_frame (b : Bool) (ty : BitVec 2) (ll d : TreeId) {p : Phase} (q : Seq) (hp : p ≠ .error) :
    HeaderFrame .bhdr s (s.blockDone b ty ll d p q) :=
  ⟨⟨fun _ => rfl, fun _ => rfl⟩, ⟨rfl, rfl, rfl, rfl⟩, ⟨rfl, rfl, rfl, rfl, rfl⟩, ⟨rfl, rfl, rfl⟩,
    ⟨rfl, rfl, rfl, rfl, rfl, rfl, rfl, rfl, rfl, rfl⟩, rfl, rfl, rfl, .inr ⟨rfl, rfl, rfl, rfl⟩, .inl rfl,
    .inr ⟨⟨rfl, rfl, rfl⟩, rfl, rfl⟩, .inr ⟨rfl, rfl⟩, fun _ h => absurd h hp⟩

theorem countsDone_frame (hlit hdist hclen : Nat) : HeaderFrame .dynhdr s (s.countsDone hlit hdist hclen) :=
  ⟨⟨fun _ => rfl, fun _ => rfl⟩, ⟨rfl, rfl, rfl, rfl⟩, ⟨rfl, rfl, rfl, rfl, rfl⟩, ⟨rfl, rfl, rfl⟩,
    ⟨rfl, rfl, rfl, rfl, rfl, rfl, rfl, rfl, rfl, rfl⟩, rfl, rfl, rfl, .inr ⟨rfl, rfl, rfl, rfl⟩,
    .inr ⟨⟨rfl, rfl, rfl, rfl⟩, rfl, rfl⟩, .inl rfl, .inr ⟨rfl, rfl⟩, fun hs ht => absurd ht hs⟩

/-- An error behind any bits consumed. -/
theorem raise_frame (f : Format) (p q : Nat) (c : Cause) :
    HeaderFrame f s (State.raiseError { s with curByte := p, curBit := q } c) :=
  ⟨⟨fun _ => rfl, fun _ => rfl⟩, ⟨rfl, rfl, rfl, rfl⟩, ⟨rfl, rfl, rfl, rfl, rfl⟩, ⟨rfl, rfl, rfl⟩,
    ⟨rfl, rfl, rfl, rfl, rfl, rfl, rfl, rfl, rfl, rfl⟩, rfl, rfl, rfl, .inr ⟨rfl, rfl, rfl, rfl⟩,
    .inr ⟨⟨rfl, rfl, rfl, rfl⟩, rfl, rfl⟩, .inr ⟨⟨rfl, rfl, rfl⟩, rfl, rfl⟩, .inl rfl, fun _ _ => rfl⟩

end

/-- What an operation that begins in `s` leaves has the frame of a header element. -/
def Res.Framed (f : Format) (s : State) : Res Unit → Prop
  | .ok _ t => HeaderFrame f s t ∧ LeavesHeader f s t
  | .raised _ t => ∃ p q, t = { s with curByte := p, curBit := q }
  | .refused _ => True

theorem frame_of_framed {f : Format} {s t : State} {x : Res Unit} (hx : x.Framed f s) (ht : x.toOutcome = .next t) :
    HeaderFrame f s t ∧ LeavesHeader f s t := by
  cases x with
  | ok a u =>
    cases ht
    exact hx
  | raised c u =>
    obtain ⟨p, q, rfl⟩ := hx
    cases ht
    exact ⟨raise_frame s f p q c, nofun⟩
  | refused r => cases ht

theorem framed_zlibHeader (cmf flg : BitVec 8) (s : State) : ((zlibHeader cmf flg s).atomic s).Framed .zhdr s := by
  rcases Nat.lt_or_ge s.inLen 2 with hlen | hlen
  · rw [zlibHeader_of_short cmf flg hlen]
    exact ⟨_, _, rfl⟩
  by_cases hsum : (cmf.toNat * 256 + flg.toNat) % 31 = 0
  · rw [zlibHeader_of_checksum hlen hsum]
    split
    · exact ⟨_, _, rfl⟩
    · exact ⟨headerDone_frame s cmf flg, nofun⟩
  · rw [zlibHeader_of_badChecksum hlen hsum]
    exact ⟨_, _, rfl⟩

/-- A block header's element is framed if its type's work, behind the three bits, raises there or selects a place. -/
theorem framed_blockHeader {b : Bool} {ty : BitVec 2} {op : State → Res Unit} {s : State}
    (hop : ∀ u, (∃ c, op u = .raised c u) ∨
      ∃ ll d p q, (p = .body ∨ p = .dynhdr) ∧ op u = .ok () { u with llSel := ll, dSel := d, phase := p, seq := q }) :
    (blockHeader b ty op s).Framed .bhdr s := by
  rcases Nat.lt_or_ge s.bitsRemaining 3 with hr | hr
  · rcases blockHeader_of_lt b ty op hr with ⟨-, he⟩ | ⟨-, he⟩ <;> rw [he] <;> exact ⟨_, _, rfl⟩
  · rw [blockHeader_of_le b ty op hr]
    generalize hu : ({ s.advance 3 with bfinal := b, btype := ty, blockFinal := b, blockType := ty } : State) = u
    rcases hop u with ⟨c, he⟩ | ⟨ll, d, p, q, hp, he⟩ <;> rw [he]
    · exact ⟨_, _, rfl⟩
    · have hdone : ({ u with llSel := ll, dSel := d, phase := p, seq := q } : State) = s.blockDone b ty ll d p q := by
        rw [← hu]
        rfl
      rw [hdone]
      rcases hp with rfl | rfl
      · exact ⟨blockDone_frame s b ty ll d q nofun, nofun⟩
      · exact ⟨blockDone_frame s b ty ll d q nofun, nofun⟩

theorem framed_dynHeader (a b : BitVec 5) (c : BitVec 4) (s : State) :
    (((readDynHeader a b c s).bind fun _ t => .ok () t.enterClcl).atomic s).Framed .dynhdr s := by
  rcases readDynHeader_cases a b c s with ⟨-, -, -, he⟩ | ⟨-, he⟩ | ⟨-, -, he⟩ | ⟨-, -, -, he⟩ | ⟨-, -, -, he⟩ |
    ⟨-, -, -, -, he⟩ <;> rw [he]
  · exact ⟨countsDone_frame s _ _ _, fun h => ⟨nofun, h⟩⟩
  all_goals exact ⟨_, _, rfl⟩

/-! An element of a header's format, found by decoding its word. -/

theorem zhdr_cases {i : Instr} (hf : i.format = .zhdr) : ∃ cmf flg, i = .zlibHeader cmf flg := by
  have h := decode_zhdr_element hf
  rw [decode] at h
  split at h
  · exact ⟨_, _, (Except.ok.inj h).symm⟩
  · cases h

theorem bhdr_cases {i : Instr} (hf : i.format = .bhdr) :
    ∃ b, i = .blockStored b ∨ i = .blockFixed b ∨ i = .blockDynamic b ∨ i = .blockReserved b := by
  have h := (decode_bhdr_element hf).2
  rw [decode, decodeBhdr] at h
  split at h
  · exact ⟨_, .inl (Except.ok.inj h).symm⟩
  · exact ⟨_, .inr (.inl (Except.ok.inj h).symm)⟩
  · exact ⟨_, .inr (.inr (.inl (Except.ok.inj h).symm))⟩
  · exact ⟨_, .inr (.inr (.inr (Except.ok.inj h).symm))⟩
  · cases h

theorem dynhdr_cases {i : Instr} (hf : i.format = .dynhdr) : ∃ a b c, i = .dynHeader a b c := by
  have h := (decode_dynhdr_element hf).2
  rw [decode] at h
  split at h
  · exact ⟨_, _, _, (Except.ok.inj h).symm⟩
  · cases h

theorem exec_bhdr_frame {i : Instr} {s t : State} (hf : i.format = .bhdr) (ht : exec i s = .next t) :
    HeaderFrame .bhdr s t ∧ LeavesHeader .bhdr s t := by
  obtain ⟨b, rfl | rfl | rfl | rfl⟩ := bhdr_cases hf
  · exact frame_of_framed (framed_blockHeader fun _ => .inl ⟨_, rfl⟩) ht
  · exact frame_of_framed (framed_blockHeader fun _ => .inr ⟨_, _, _, _, .inl rfl, rfl⟩) ht
  · exact frame_of_framed (framed_blockHeader fun _ => .inr ⟨_, _, _, _, .inr rfl, rfl⟩) ht
  · exact frame_of_framed (framed_blockHeader fun _ => .inl ⟨_, rfl⟩) ht

theorem exec_header_frame {i : Instr} {s t : State} (hf : i.format = .zhdr ∨ i.format = .bhdr ∨ i.format = .dynhdr)
    (ht : exec i s = .next t) : HeaderFrame i.format s t ∧ LeavesHeader i.format s t := by
  rcases hf with hf | hf | hf
  · obtain ⟨cmf, flg, rfl⟩ := zhdr_cases hf
    exact frame_of_framed (framed_zlibHeader cmf flg s) ht
  · rw [hf]
    exact exec_bhdr_frame hf ht
  · obtain ⟨a, b, c, rfl⟩ := dynhdr_cases hf
    exact frame_of_framed (framed_dynHeader a b c s) ht

/-- Settles O57: whatever effect the element has leaves the registers that the statement names. -/
theorem headerElementsFrame : Obligations.HeaderElementsFrame := fun _ _ _ hf ht => (exec_header_frame hf ht).1

end Sys2Proof.Machine

namespace Sys2Proof

/-- The symbols of a Huffman-coded format (30_encoding.md R89 to R91). -/
def Format.alphabet : Format → Nat
  | .clsym => 19
  | .llsym => 288
  | .dsym => 32
  | .zhdr | .bhdr | .dynhdr | .clcl | .bccmd | .hufcmd | .ctrl => 0

/-- The format whose symbols a tree holds (10_state.md R34). -/
def TreeId.format : TreeId → Format
  | .clt => .clsym
  | .llt | .fllt => .llsym
  | .dt | .fdt => .dsym

end Sys2Proof

namespace Sys2Proof.Machine

set_option Elab.async false

/-! ## Decoding what a fetch reads (30_encoding.md R81 to R91) -/

/-- The word of a Huffman-coded element is taken apart into its symbol and its extra bits. -/
theorem symbolWord_parts {sym m : Nat} (e : Nat) (h : sym < m) : (sym + e * m) % m = sym ∧ (sym + e * m) / m = e := by
  have hm : 0 < m := Nat.zero_lt_of_lt h
  exact ⟨by rw [Nat.add_mul_mod_self_right, Nat.mod_eq_of_lt h],
    by rw [Nat.add_mul_div_right _ _ hm, Nat.div_eq_of_lt h, Nat.zero_add]⟩

theorem decode_clsymWord {sym : Nat} (e : Nat) (h : sym < 19) :
    decode .clsym (sym + e * 2 ^ Format.clsym.symBits) = decodeClsym sym e := by
  obtain ⟨hmod, hdiv⟩ := symbolWord_parts (m := 32) e (h.trans (by decide))
  exact congrArg₂ decodeClsym hmod hdiv

theorem decode_llsymWord {sym : Nat} (e : Nat) (h : sym < 288) :
    decode .llsym (sym + e * 2 ^ Format.llsym.symBits) = decodeLlsym sym e := by
  obtain ⟨hmod, hdiv⟩ := symbolWord_parts (m := 512) e (h.trans (by decide))
  exact congrArg₂ decodeLlsym hmod hdiv

theorem decode_dsymWord {d : Nat} (e : Nat) (h : d < 32) :
    decode .dsym (d + e * 2 ^ Format.dsym.symBits) = decodeDsym d e := by
  obtain ⟨hmod, hdiv⟩ := symbolWord_parts (m := 32) e h
  exact congrArg₂ decodeDsym hmod hdiv

/-- An alphabet's entry decodes with extra bits that fit it. -/
theorem decodeSymbolRow_isOk {rows : List SymbolRow} {n k e : Nat} {extra : Nat → Nat}
    (hrows : rows.map Prod.fst = (List.range n).map extra) (hk : k < n) (he : e < 2 ^ extra k) :
    ∃ i, decodeSymbolRow rows[k]? e = .ok i := by
  have hrow : (rows.map Prod.fst)[k]? = some (extra k) := by
    rw [hrows, List.getElem?_map, List.getElem?_range hk]
    rfl
  rw [List.getElem?_map] at hrow
  obtain ⟨r, hr, hextra⟩ := Option.map_eq_some_iff.1 hrow
  exact ⟨r.2 e, decodeSymbolRow_eq_ok_iff.2 ⟨r, hr, hextra ▸ he, rfl⟩⟩

/-! The alphabets' entries take the extra bits of their symbols (30_encoding.md R86 to R88). -/

theorem clSymbolRows_extra : clSymbolRows.map Prod.fst = (List.range 3).map fun k => clExtra (16 + k) := rfl

theorem llSymbolRows_extra : llSymbolRows.map Prod.fst = (List.range 32).map fun k => lenExtra (256 + k) := rfl

theorem distSymbolRows_extra : distSymbolRows.map Prod.fst = (List.range 32).map distExtra := rfl

theorem clExtra_of_lt {sym : Nat} (h : sym < 16) : clExtra sym = 0 := by
  rw [clExtra, if_neg (by omega), if_neg (by omega), if_neg (by omega)]

theorem decodeClsym_isOk {sym e : Nat} (hs : sym < 19) (he : e < 2 ^ clExtra sym) : ∃ i, decodeClsym sym e = .ok i := by
  rw [decodeClsym]
  split
  · next h16 =>
    rw [clExtra_of_lt h16] at he
    exact ⟨_, if_pos (Nat.lt_one_iff.1 he)⟩
  · next h16 =>
    refine decodeSymbolRow_isOk clSymbolRows_extra (by omega) ?_
    rwa [Nat.add_sub_cancel' (Nat.not_lt.1 h16)]

theorem decodeLlsym_isOk {sym e : Nat} (hs : sym < 288) (he : e < 2 ^ lenExtra sym) :
    ∃ i, decodeLlsym sym e = .ok i := by
  rw [decodeLlsym]
  split
  · next h256 =>
    rw [lenExtra, if_pos (by omega)] at he
    exact ⟨_, if_pos (Nat.lt_one_iff.1 he)⟩
  · next h256 =>
    refine decodeSymbolRow_isOk llSymbolRows_extra (by omega) ?_
    rwa [Nat.add_sub_cancel' (Nat.not_lt.1 h256)]

theorem decodeDsym_isOk {d e : Nat} (hd : d < 32) (he : e < 2 ^ distExtra d) : ∃ i, decodeDsym d e = .ok i :=
  decodeSymbolRow_isOk distSymbolRows_extra hd he

/-- A symbol of its format's alphabet and extra bits that fit it make the word of an element (30_encoding.md R86 to
R91). -/
theorem decode_symbolWord (t : TreeId) {sym e : Nat} (hs : sym < t.format.alphabet)
    (he : e < 2 ^ t.format.extraBits sym) : ∃ i, decode t.format (sym + e * 2 ^ t.format.symBits) = .ok i := by
  cases t with
  | clt => exact decode_clsymWord e hs ▸ decodeClsym_isOk hs he
  | llt | fllt => exact decode_llsymWord e hs ▸ decodeLlsym_isOk hs he
  | dt | fdt => exact decode_dsymWord e hs ▸ decodeDsym_isOk hs he

/-- A lookup's symbol is one of its tree's alphabet (10_state.md R33, R34). -/
theorem arena_sym_lt_alphabet {s : State} (h : ArenasOk s) (t : TreeId) (m : Nat) :
    ((s.arena t).nodeAt m).sym < t.format.alphabet := by
  cases t with
  | clt => exact (nodeAt_wf h.clt (by decide) m).2.2
  | llt => exact (nodeAt_wf h.llt (by decide) m).2.2
  | dt => exact (nodeAt_wf h.dt (by decide) m).2.2
  | fllt => exact (nodeAt_wf (fixedLLArena_wf _) (by decide) m).2.2
  | fdt => exact (nodeAt_wf fixedDArena_wf (by decide) m).2.2

/-- Everything decoding a symbol can do in a state with the invariant: a symbol of the tree's alphabet behind at least one
bit, or an error (41_huffman.md R138 to R140). -/
theorem hufDecode_cases_of_inv (t : TreeId) {s : State} (h : Inv s) :
    ∃ k, k ≤ s.bitsRemaining ∧
      ((∃ sym, 0 < k ∧ sym < t.format.alphabet ∧ hufDecode t s = .ok sym (s.advance k)) ∨
        ∃ c, hufDecode t s = .raised c (s.advance k)) := by
  obtain ⟨k, hk, ⟨m, he, hpos⟩ | he | he⟩ := hufDecode_cases t h.cursor.curBit
  · exact ⟨k, hk, .inl ⟨_, hpos (arena_wf h.arenas t).inner, arena_sym_lt_alphabet h.arenas t m, he⟩⟩
  · exact ⟨k, hk, .inr ⟨_, he⟩⟩
  · exact ⟨k, hk, .inr ⟨_, he⟩⟩

/-! ## The elements by the values they are read from -/

/-- What a block header of type `ty` does behind its three bits (43_block_header.md R166, R167, 45_stream.md R213). -/
def blockWork (ty : Nat) (s : State) : Res Unit :=
  match ty with
  | 0 => .raised .storedBlock s
  | 1 => .ok () (s.enterBody .fllt .fdt)
  | 2 => .ok () { s with phase := .dynhdr, seq := .head }
  | _ => .raised .btypeReserved s

/-- What the code-length symbol `sym` with extra bits `e` writes, given the previous length: the value, how many entries, and
its extra bits (43_block_header.md R171 to R174). -/
def clRunOf (sym e : Nat) (prev : Option (BitVec 4)) : Option (BitVec 4 × Nat × Nat) :=
  if sym ≤ 15 then some (.ofNat 4 sym, 1, 0)
  else if sym = 16 then prev.map fun v => (v, 3 + e, 2)
  else if sym = 17 then some (0, 3 + e, 3)
  else some (0, 11 + e, 7)

/-- The element of the code-length symbol `sym` with extra bits `e` (43_block_header.md R171 to R174). -/
def clWrite (sym e : Nat) (s : State) : Res Unit :=
  match clRunOf sym e s.prevLen with
  | none => .raised .repeatNoPrev s
  | some (v, n, k) =>
    if s.bitsRemaining < k then .raised .inExhausted s
    else if 0 < k ∧ s.hlit + s.hdist < s.lenIdx + n then .raised .repeatOverrun (s.advance k)
    else .ok () ((s.behind k).putSymbol sym v n (if k = 0 then s.rep else n))

/-- The same, and the loop's condition behind it (43_block_header.md R170). -/
def clElement (sym e : Nat) (s : State) : Res Unit := (clWrite sym e s).bind fun _ s => clsymNext s

/-- The element of the literal/length symbol `sym` with extra bits `e` (44_block_body.md R190 to R192, R196). -/
def litLenElement (sym e : Nat) (s : State) : Res Unit :=
  if sym ≤ 255 then symbolElement sym (outAppend (.ofNat 8 sym)) s
  else if sym = 256 then symbolElement 256 (fun s => .ok () s.endBlock) s
  else if sym ≤ 285 then lengthSymbol sym e s
  else llReserved s

/-- The element of the distance symbol `d` with extra bits `e` (44_block_body.md R193, R194). -/
def distElement (d e : Nat) (s : State) : Res Unit := if d ≤ 29 then distanceSymbol d e s else distReserved s

theorem clRun_eq_clRunOf {i : Instr} {sym e : Nat} (prev : Option (BitVec 4)) (h : decodeClsym sym e = .ok i) :
    i.clRun prev = clRunOf sym e prev := by
  rw [decodeClsym] at h
  split at h
  · next h16 =>
    split at h <;> cases h
    exact (if_pos (Nat.le_of_lt_succ h16)).symm
  · next h16 =>
    obtain ⟨r, hr, he, rfl⟩ := decodeSymbolRow_eq_ok_iff.1 h
    have hk : sym - 16 < 3 := (List.getElem?_eq_some_iff.1 hr).1
    obtain rfl | rfl | rfl : sym = 16 ∨ sym = 17 ∨ sym = 18 := by omega
    all_goals
      cases hr
      simp only [Instr.clRun, BitVec.toNat_ofNat, Nat.mod_eq_of_lt he]
      rfl

theorem exec_clsym {i : Instr} {sym e : Nat} (s : State) (h : decodeClsym sym e = .ok i) :
    exec i s = (clElement sym e s).toOutcome := by
  have hi := decodeClsym_element h
  rw [clElement, clWrite, ← clRun_eq_clRunOf _ h]
  rcases clRun_cases s.prevLen (congrArg Prod.fst hi) with ⟨v, n, k, hrun⟩ | ⟨x, rfl, hprev⟩
  · simp only [hrun]
    rcases exec_clRun_cases hrun with ⟨hk, hfit, he⟩ | ⟨hpos, hk, hover, he⟩ | ⟨hk, he⟩ <;> rw [he]
    · have hno : ¬(0 < k ∧ s.hlit + s.hdist < s.lenIdx + n) := by omega
      rw [if_neg (Nat.not_lt.2 hk), if_neg hno, res_ok_bind, hi]
    · rw [if_neg (Nat.not_lt.2 hk), if_pos ⟨hpos, hover⟩]
      rfl
    · rw [if_pos hk]
      rfl
  · rw [exec_clRep16_of_none x hprev, hprev]
    rfl

theorem exec_llsym {i : Instr} {sym e : Nat} (s : State) (h : decodeLlsym sym e = .ok i) :
    exec i s = (litLenElement sym e s).toOutcome := by
  have hi := decodeLlsym_element h
  rcases llsym_cases (congrArg Prod.fst hi) with ⟨b, rfl⟩ | rfl | ⟨h1, h2⟩ | rfl | rfl
  · cases hi
    have hb : b.toNat ≤ 255 := Nat.le_of_lt_succ b.isLt
    rw [litLenElement, if_pos hb, BitVec.ofNat_toNat, BitVec.setWidth_eq]
    rfl
  · cases hi
    rfl
  · rw [hi] at h1 h2
    dsimp only at h1 h2
    rw [exec_length s hi h1 h2, litLenElement, if_neg (by omega), if_neg (by omega), if_pos h2]
  · cases hi
    rfl
  · cases hi
    rfl

theorem exec_dsym {i : Instr} {d e : Nat} (s : State) (h : decodeDsym d e = .ok i) :
    exec i s = (distElement d e s).toOutcome := by
  have hi := decodeDsym_element h
  rcases dsym_cases (congrArg Prod.fst hi) with h1 | rfl | rfl
  · rw [hi] at h1
    rw [exec_distance s hi h1, distElement, if_pos h1]
  · cases hi
    rfl
  · cases hi
    rfl

/-! ## The engine's turn at each slot -/

theorem engineStep_zhdr {s : State} (hk : s.nextSlot = some .zhdr) :
    engineStep s = exec (.zlibHeader (.ofNat 8 (s.headerWord / 256)) (.ofNat 8 s.headerWord)) s := by
  have hlt : s.headerWord < 65536 := by
    rw [State.headerWord]
    split <;> omega
  rw [engineStep_of_nextSlot hk, fetch, decodeWord, decode, if_pos hlt]
  rfl

theorem engineStep_bhdr {s : State} (hk : s.nextSlot = some .bhdr) :
    engineStep s = (blockHeader (s.nextField 3 % 2 == 1) (.ofNat 2 (s.nextField 3 / 2)) (blockWork (s.nextField 3 / 2))
      s).toOutcome := by
  have hlt := fieldBits_lt s s.cursorPos 3
  rw [engineStep_of_nextSlot hk, fetch, decodeWord, decode, decodeBhdr]
  generalize hw : s.nextField 3 = w
  rw [State.nextField] at hw
  obtain ⟨ty, hty⟩ : ∃ ty, w / 2 = ty := ⟨_, rfl⟩
  have hty4 : ty < 4 := by omega
  rw [hty]
  interval_cases ty <;> rfl

theorem engineStep_dynhdr {s : State} (hk : s.nextSlot = some .dynhdr) :
    engineStep s = execDynHeader (.ofNat 5 (s.nextField 14)) (.ofNat 5 (s.nextField 14 / 32))
      (.ofNat 4 (s.nextField 14 / 1024)) s := by
  have hlt : s.nextField 14 < 16384 := fieldBits_lt s s.cursorPos 14
  rw [engineStep_of_nextSlot hk, fetch, decodeWord, decode, if_pos hlt]
  rfl

theorem engineStep_clcl {s : State} (hk : s.nextSlot = some .clcl) :
    engineStep s = execClclField (.ofNat 3 (s.nextField 3)) s := by
  have hlt : s.nextField 3 < 8 := fieldBits_lt s s.cursorPos 3
  rw [engineStep_of_nextSlot hk, fetch, decodeWord, decode, if_pos hlt]
  rfl

/-- A Huffman-coded element is run by the symbol that the lookup gives and the field behind its code (30_encoding.md R86
to R88). -/
theorem runFetched_fetchSymbol {t : TreeId} {s : State} {elem : Nat → Nat → State → Res Unit} (h : Inv s)
    (hexec : ∀ {i : Instr} {sym e : Nat} (u : State), sym < t.format.alphabet →
      decode t.format (sym + e * 2 ^ t.format.symBits) = .ok i → exec i u = (elem sym e u).toOutcome) :
    runFetched (fetchSymbol t.format t s) = ((hufDecode t s).bind fun sym u =>
      elem sym (u.nextField (t.format.extraBits sym)) u).toOutcome := by
  rw [fetchSymbol]
  obtain ⟨k, hk, ⟨sym, -, hsym, he⟩ | ⟨c, he⟩⟩ := hufDecode_cases_of_inv t h <;> rw [he]
  · obtain ⟨i, hi⟩ := decode_symbolWord t hsym
      (fieldBits_lt (s.advance k) (s.advance k).cursorPos (t.format.extraBits sym))
    rw [res_ok_bind, res_ok_bind, State.nextField, ← hexec _ hsym hi, decodeWord, hi]
    rfl
  · rfl

theorem runFetched_clsym {s : State} (h : Inv s) :
    runFetched (fetchSymbol .clsym .clt s) =
      ((hufDecode .clt s).bind fun sym u => clElement sym (u.nextField (clExtra sym)) u).toOutcome :=
  runFetched_fetchSymbol (t := .clt) h fun u hs hi => exec_clsym u (decode_clsymWord _ hs ▸ hi)

theorem runFetched_llsym {s : State} {t : TreeId} (h : Inv s) (hf : t.format = .llsym) :
    runFetched (fetchSymbol .llsym t s) =
      ((hufDecode t s).bind fun sym u => litLenElement sym (u.nextField (lenExtra sym)) u).toOutcome := by
  have hrun := runFetched_fetchSymbol (t := t) (elem := litLenElement) h
  rw [hf] at hrun
  exact hrun fun u hs hi => exec_llsym u (decode_llsymWord _ hs ▸ hi)

theorem runFetched_dsym {s : State} {t : TreeId} (h : Inv s) (hf : t.format = .dsym) :
    runFetched (fetchSymbol .dsym t s) =
      ((hufDecode t s).bind fun d u => distElement d (u.nextField (distExtra d)) u).toOutcome := by
  have hrun := runFetched_fetchSymbol (t := t) (elem := distElement) h
  rw [hf] at hrun
  exact hrun fun u hs hi => exec_dsym u (decode_dsymWord _ hs ▸ hi)

/-- The pair in use holds literal/length symbols and distance symbols (10_state.md R36). -/
theorem pair_formats {s : State} (h : s.pairOk) : s.llSel.format = .llsym ∧ s.dSel.format = .dsym := by
  rcases h with ⟨hll, hd⟩ | ⟨hll, hd⟩ <;> rw [hll, hd] <;> exact ⟨rfl, rfl⟩

theorem engineStep_clsym {s : State} (h : Inv s) (hk : s.nextSlot = some .clsym) :
    engineStep s = ((hufDecode .clt s).bind fun sym u => clElement sym (u.nextField (clExtra sym)) u).toOutcome :=
  (engineStep_of_nextSlot hk).trans (runFetched_clsym h)

theorem engineStep_llsym {s : State} (h : Inv s) (hk : s.nextSlot = some .llsym) :
    engineStep s =
      ((hufDecode s.llSel s).bind fun sym u => litLenElement sym (u.nextField (lenExtra sym)) u).toOutcome :=
  (engineStep_of_nextSlot hk).trans (runFetched_llsym h (pair_formats h.pair).1)

theorem engineStep_dsym {s : State} (h : Inv s) (hk : s.nextSlot = some .dsym) :
    engineStep s =
      ((hufDecode s.dSel s).bind fun d u => distElement d (u.nextField (distExtra d)) u).toOutcome :=
  (engineStep_of_nextSlot hk).trans (runFetched_dsym h (pair_formats h.pair).2)

end Sys2Proof.Machine

namespace Sys2Proof.Machine

set_option Elab.async false

/-! ## Operations that are never refused (10_state.md R34, 41_huffman.md R141) -/

/-- The operation answers or raises. -/
def Res.Answers {α : Type} (x : Res α) : Prop := ∀ r, x ≠ .refused r

theorem answers_ok {α : Type} (a : α) (s : State) : (Res.ok a s).Answers := by
  intro r h
  cases h

theorem answers_raised {α : Type} (c : Cause) (s : State) : (Res.raised c s : Res α).Answers := by
  intro r h
  cases h

theorem answers_bind {α β : Type} {x : Res α} {f : α → State → Res β} (hx : x.Answers)
    (hf : ∀ a t, (f a t).Answers) : (x.bind f).Answers := by
  intro r h
  rcases res_bind_eq_refused.1 h with h | ⟨a, t, -, h⟩
  · exact hx r h
  · exact hf a t r h

theorem answers_atomic {α : Type} {x : Res α} (s : State) (hx : x.Answers) : (x.atomic s).Answers :=
  fun r h => hx r (atomic_eq_refused.1 h)

theorem answers_bcSkip (n : Nat) (s : State) : (bcSkip n s).Answers := by
  rcases bcSkip_cases n s with ⟨-, he⟩ | ⟨-, he⟩ <;> rw [he]
  · exact answers_ok _ _
  · exact answers_raised _ _

theorem answers_outAppend (v : Byte) (s : State) : (outAppend v s).Answers := by
  rw [outAppend]
  split
  · exact answers_raised _ _
  · exact answers_ok _ _

theorem answers_copyBytes (n : Nat) (s : State) : (copyBytes n s).Answers := by
  induction n generalizing s with
  | zero => exact answers_ok _ _
  | succ n ih => exact answers_bind (answers_outAppend _ s) fun _ t => ih t

theorem answers_copyBackref (s : State) : (copyBackref s).Answers := by
  rw [copyBackref]
  split
  · exact answers_raised _ _
  · exact answers_copyBytes _ s

theorem answers_symbolElement {sym : Nat} {op : State → Res Unit} {s : State} (h : (op s).Answers) :
    (symbolElement sym op s).Answers :=
  answers_atomic s (answers_bind h fun _ _ => answers_ok _ _)

theorem answers_litLenElement (sym e : Nat) (s : State) : (litLenElement sym e s).Answers := by
  rw [litLenElement]
  split
  · exact answers_symbolElement (answers_outAppend _ s)
  · split
    · exact answers_symbolElement (answers_ok _ _)
    · split
      · exact answers_symbolElement (answers_bind (answers_bcSkip _ s) fun _ _ => answers_ok _ _)
      · exact answers_raised _ _

theorem answers_distElement (d e : Nat) (s : State) : (distElement d e s).Answers := by
  rw [distElement]
  split
  · refine answers_symbolElement (answers_bind (answers_bcSkip _ s) fun _ t => ?_)
    exact answers_bind (answers_copyBackref _) fun _ _ => answers_ok _ _
  · exact answers_raised _ _

/-- The build behind the last code-length field is within the contract (10_state.md R34). -/
theorem answers_clclNext {s : State} (h : s.clLens.length = 19) : (clclNext s).Answers := by
  rcases Nat.lt_or_ge s.clclIdx s.hclen with hidx | hidx
  · rw [clclNext_of_lt hidx]
    exact answers_ok _ _
  · rcases Nat.lt_or_ge (2 ^ 15) (kraftSum (s.buildTable .clt)) with hk | hk
    · rw [clclNext_of_kraftSum_gt hidx h hk]
      exact answers_raised _ _
    · rw [clclNext_of_kraftSum_le hidx h hk]
      exact answers_ok _ _

/-- The builds of the split are within the contract (10_state.md R34). -/
theorem answers_splitAndBuild {s : State} (h1 : s.hlit ≤ 286) (h2 : s.hdist ≤ 30) : (splitAndBuild s).Answers := by
  by_cases h : 2 ^ 15 < kraftSum (s.buildTable .llt) ∨ 2 ^ 15 < kraftSum (s.buildTable .dt)
  · rw [splitAndBuild_of_kraftSum_gt h1 h2 h]
    exact answers_raised _ _
  · rw [not_or, Nat.not_lt, Nat.not_lt] at h
    rw [splitAndBuild_of_kraftSum_le h1 h2 h.1 h.2]
    exact answers_ok _ _

/-- Everything the element of a code-length symbol can do: raise behind bits of the input, or write its run. -/
theorem clWrite_cases (sym e : Nat) (s : State) :
    (∃ c k, clWrite sym e s = .raised c (s.behind k)) ∨
      ∃ v n k rep, clWrite sym e s = .ok () ((s.behind k).putSymbol sym v n rep) := by
  rw [clWrite]
  split
  · exact .inl ⟨_, 0, rfl⟩
  · next v n k _ =>
    split
    · exact .inl ⟨_, 0, rfl⟩
    · split
      · next hover => exact .inl ⟨_, k, by rw [behind_of_pos s hover.1]⟩
      · exact .inr ⟨v, n, k, _, rfl⟩

theorem answers_clElement (sym e : Nat) {s : State} (h1 : s.hlit ≤ 286) (h2 : s.hdist ≤ 30) :
    (clElement sym e s).Answers := by
  rw [clElement]
  rcases clWrite_cases sym e s with ⟨c, k, he⟩ | ⟨v, n, k, rep, he⟩ <;> rw [he]
  · exact answers_raised _ _
  · obtain ⟨p, q, hcursor⟩ := behind_eq_cursor s k
    rw [res_ok_bind, hcursor]
    rcases clsymNext_cases (State.putSymbol { s with curByte := p, curBit := q } sym v n rep) with ⟨-, he⟩ | ⟨-, he⟩ <;>
      rw [he]
    · exact answers_ok _ _
    · exact answers_splitAndBuild h1 h2

/-! ## Elements that consume a bit (45_stream.md R219) -/

theorem onward_litLenElement (sym e : Nat) (s : State) : (litLenElement sym e s).Onward s := by
  rw [litLenElement]
  split
  · exact onward_symbolElement (onward_outAppend _ s)
  · split
    · exact onward_symbolElement (movesOn_of_same rfl rfl)
    · split
      · exact onward_lengthSymbol sym e s
      · exact movesOn_of_same rfl rfl

theorem onward_distElement (d e : Nat) (s : State) : (distElement d e s).Onward s := by
  rw [distElement]
  split
  · exact onward_distanceSymbol d e s
  · exact movesOn_of_same rfl rfl

theorem onward_clsymNext (s : State) : (clsymNext s).Onward s := by
  rcases clsymNext_cases s with ⟨-, he⟩ | ⟨-, he⟩ <;> rw [he]
  · exact movesOn_of_same rfl rfl
  · exact onward_splitAndBuild s

theorem movesOn_behind (s : State) (k : Nat) : MovesOn s (s.behind k) := by
  rw [State.behind]
  split
  · exact movesOn_of_same rfl rfl
  · exact movesOn_advance s k

theorem onward_clElement (sym e : Nat) (s : State) : (clElement sym e s).Onward s := by
  rw [clElement]
  rcases clWrite_cases sym e s with ⟨c, k, he⟩ | ⟨v, n, k, rep, he⟩ <;> rw [he]
  · exact movesOn_behind s k
  · have hput : MovesOn (s.behind k) ((s.behind k).putSymbol sym v n rep) := movesOn_of_same rfl rfl
    exact onward_of_movesOn (movesOn_trans (movesOn_behind s k) hput) (onward_clsymNext _)

theorem cursorPos_lt_advance (s : State) {n : Nat} (h : 0 < n) : s.cursorPos < (s.advance n).cursorPos := by
  rw [cursorPos_advance]
  omega

/-- An operation begun in `s` answers behind at least one bit, or raises. -/
def Res.Advances (s : State) : Res Unit → Prop
  | .ok _ t => s.cursorPos < t.cursorPos
  | .raised _ _ => True
  | .refused _ => False

theorem advances_of_onward {x : Res Unit} {s u : State} (hu : s.cursorPos < u.cursorPos) (hx : x.Onward u)
    (ha : x.Answers) : x.Advances s := by
  cases x with
  | ok a t => exact Nat.lt_of_lt_of_le hu hx.cursor
  | raised c t => trivial
  | refused r => exact ha r rfl

/-- A Huffman-coded element consumes its code, which has at least one bit. -/
theorem advances_hufDecode {t : TreeId} {s : State} {elem : Nat → State → Res Unit} (h : Inv s)
    (hon : ∀ v u, (elem v u).Onward u) (ha : ∀ v k, (elem v (s.advance k)).Answers) :
    ((hufDecode t s).bind elem).Advances s := by
  obtain ⟨k, -, ⟨sym, hk, -, he⟩ | ⟨c, he⟩⟩ := hufDecode_cases_of_inv t h <;> rw [he]
  · exact advances_of_onward (cursorPos_lt_advance s hk) (hon _ _) (ha _ k)
  · trivial

theorem advances_blockHeader (b : Bool) (ty : BitVec 2) (n : Nat) (s : State) :
    (blockHeader b ty (blockWork n) s).Advances s := by
  rcases Nat.lt_or_ge s.bitsRemaining 3 with hr | hr
  · rcases blockHeader_of_lt b ty (blockWork n) hr with ⟨-, he⟩ | ⟨-, he⟩ <;> rw [he] <;> trivial
  · have hlt : s.cursorPos < (s.advance 3).cursorPos := cursorPos_lt_advance s (by decide)
    rw [blockHeader_of_le b ty _ hr]
    unfold blockWork
    split
    · trivial
    · exact hlt
    · exact hlt
    · trivial

/-- A turn that answers, and that has consumed a bit if the session goes on. -/
def TurnAdvances (s : State) (x : Host.Outcome State Fault Refusal) : Prop :=
  ∃ t, x = .next t ∧ (t.busy = true → s.cursorPos < t.cursorPos)

theorem turnAdvances_raiseError (s u : State) (c : Cause) : TurnAdvances s (.next (u.raiseError c)) :=
  ⟨_, rfl, nofun⟩

theorem turnAdvances_of_advances {x : Res Unit} {s : State} (h : x.Advances s) : TurnAdvances s x.toOutcome := by
  cases x with
  | ok a t => exact ⟨t, rfl, fun _ => h⟩
  | raised c t => exact turnAdvances_raiseError s t c
  | refused r => cases h

theorem turnAdvances_execDynHeader (a b : BitVec 5) (c : BitVec 4) (s : State) :
    TurnAdvances s (execDynHeader a b c s) := by
  rcases execDynHeader_cases a b c s with ⟨-, -, -, he⟩ | ⟨-, he⟩ | ⟨-, -, he⟩ | ⟨-, -, -, he⟩ | ⟨-, -, -, he⟩ |
    ⟨-, -, -, -, he⟩ <;> rw [he]
  · exact ⟨_, rfl, fun _ => cursorPos_lt_advance s (by decide)⟩
  all_goals exact turnAdvances_raiseError _ _ _

theorem turnAdvances_execClclField (len : BitVec 3) {s : State} (h : Inv s) : TurnAdvances s (execClclField len s) := by
  refine turnAdvances_of_advances ?_
  rcases bcSkip_cases 3 s with ⟨hr, he⟩ | ⟨-, he⟩ <;> rw [he]
  · have hlen := (inv_putClLen len (inv_advance h hr)).registers.clLens
    have hlt : s.cursorPos < ((s.advance 3).putClLen len).cursorPos := cursorPos_lt_advance s (n := 3) (by decide)
    exact advances_of_onward hlt (onward_clclNext _) (answers_clclNext hlen)
  · trivial

/-- The header answers, whatever the bytes are (45_stream.md R210). -/
theorem exec_zlibHeader_isNext (cmf flg : BitVec 8) (s : State) : ∃ t, exec (.zlibHeader cmf flg) s = .next t := by
  obtain ⟨h1, h2, h3, h4⟩ := zlibHeaderIsChecked cmf flg s
  rcases Nat.lt_or_ge s.inLen 2 with hlen | hlen
  · exact ⟨_, h1 hlen⟩
  by_cases hsum : (cmf.toNat * 256 + flg.toNat) % 31 = 0
  · by_cases hdict : flg.getLsbD 5 = true ∧ s.params.fdictPolicy = .reject
    · exact ⟨_, h3 hlen hsum hdict.1 hdict.2⟩
    · refine ⟨_, h4 hlen hsum fun hset => ?_⟩
      cases hpol : s.params.fdictPolicy with
      | ignore => rfl
      | reject => exact absurd ⟨hset, hpol⟩ hdict
  · exact ⟨_, h2 hlen hsum⟩

/-- A running session has a next element. -/
theorem nextSlot_ne_none {s : State} (hb : s.busy = true) : s.nextSlot ≠ none := by
  rw [State.busy, State.status] at hb
  rw [State.nextSlot]
  cases hp : s.phase with
  | idle | done | error =>
    rw [hp] at hb
    cases hb
  | zhdr | bhdr => exact Option.some_ne_none _
  | dynhdr | body => cases s.seq <;> exact Option.some_ne_none _

/-- The engine's turn in a session answers, and consumes a bit if the session goes on, but for the header, which places
the cursor (45_stream.md R219). -/
theorem engineStep_advances {s : State} (h : Inv s) (hb : s.busy = true) :
    ∃ t, engineStep s = .next t ∧ (t.busy = true → s.phase ≠ .zhdr → s.cursorPos < t.cursorPos) := by
  have hadv : TurnAdvances s (engineStep s) →
      ∃ t, engineStep s = .next t ∧ (t.busy = true → s.phase ≠ .zhdr → s.cursorPos < t.cursorPos) :=
    fun ⟨t, ht, hcur⟩ => ⟨t, ht, fun hbusy _ => hcur hbusy⟩
  cases hk : s.nextSlot with
  | none =>
    exact absurd hk (nextSlot_ne_none hb)
  | some k =>
    have hat := fetchedAt_of_nextSlot hk
    cases k with
    | zhdr =>
      obtain ⟨t, ht⟩ := exec_zlibHeader_isNext (.ofNat 8 (s.headerWord / 256)) (.ofNat 8 s.headerWord) s
      rw [engineStep_zhdr hk]
      exact ⟨t, ht, fun _ hp => absurd (phase_of_nextSlot_zhdr hk) hp⟩
    | bhdr =>
      refine hadv ?_
      rw [engineStep_bhdr hk]
      exact turnAdvances_of_advances (advances_blockHeader _ _ _ s)
    | dynhdr =>
      refine hadv ?_
      rw [engineStep_dynhdr hk]
      exact turnAdvances_execDynHeader _ _ _ s
    | clcl =>
      refine hadv ?_
      rw [engineStep_clcl hk]
      exact turnAdvances_execClclField _ h
    | clsym =>
      obtain ⟨-, hlit, -, hdist⟩ := (h.table.clsym (hat.clsym rfl).1 (hat.clsym rfl).2).1
      refine hadv ?_
      rw [engineStep_clsym h hk]
      exact turnAdvances_of_advances (advances_hufDecode h (fun v u => onward_clElement v _ u)
        fun v k => answers_clElement v _ hlit hdist)
    | llsym =>
      refine hadv ?_
      rw [engineStep_llsym h hk]
      exact turnAdvances_of_advances (advances_hufDecode h (fun v u => onward_litLenElement v _ u)
        fun v k => answers_litLenElement v _ _)
    | dsym =>
      refine hadv ?_
      rw [engineStep_dsym h hk]
      exact turnAdvances_of_advances (advances_hufDecode h (fun v u => onward_distElement v _ u)
        fun v k => answers_distElement v _ _)

/-! ## What the engine's turn leaves of the host's side, and of the header's phase -/

theorem TableEffect.phase_of_zhdr {i : Instr} {s t : State} (h : TableEffect s i t) (ht : t.phase = .zhdr) :
    s.phase = .zhdr := by
  cases h with
  | field | built | symbol => exact ht
  | body | raise | buildRaise => cases ht

theorem BodyEffect.phase_of_zhdr {i : Instr} {s t : State} (h : BodyEffect s i t) (ht : t.phase = .zhdr) :
    s.phase = .zhdr := by
  cases h with
  | lit | length | distance => exact ht
  | eob =>
    have hend : s.endBlock.phase = .zhdr := ht
    rw [endBlock_phase] at hend
    split at hend <;> cases hend
  | raise => cases ht

/-- A stream element leaves the host's side of the state, and no element leads to the header. -/
theorem exec_sameHost_and_phase {i : Instr} {k : Slot} {s t : State} (hf : i.format = k.format)
    (ht : exec i s = .next t) : SameHost s t ∧ (t.phase = .zhdr → k ≠ .zhdr ∧ s.phase = .zhdr) := by
  have header : (i.format = .zhdr ∨ i.format = .bhdr ∨ i.format = .dynhdr) →
      SameHost s t ∧ (t.phase = .zhdr → k ≠ .zhdr ∧ s.phase = .zhdr) := fun h => by
    obtain ⟨⟨-, -, -, -, hhost, -⟩, hleaves⟩ := exec_header_frame h ht
    refine ⟨hhost, fun hp => ?_⟩
    obtain ⟨hne, hs⟩ := hleaves hp
    exact ⟨fun hk => hne (hk ▸ hf : i.format = Slot.zhdr.format), hs⟩
  cases k with
  | zhdr => exact header (.inl hf)
  | bhdr => exact header (.inr (.inl hf))
  | dynhdr => exact header (.inr (.inr hf))
  | clcl =>
    have h := tableEffect_clcl hf ht
    obtain ⟨-, -, -, -, -, hhost, -⟩ := h.same
    exact ⟨hhost, fun hp => ⟨nofun, h.phase_of_zhdr hp⟩⟩
  | clsym =>
    have h := tableEffect_clsym hf ht
    obtain ⟨-, -, -, -, -, hhost, -⟩ := h.same
    exact ⟨hhost, fun hp => ⟨nofun, h.phase_of_zhdr hp⟩⟩
  | llsym =>
    have h := bodyEffect_llsym hf ht
    obtain ⟨-, -, -, -, -, -, -, -, hhost, -⟩ := h.same
    exact ⟨hhost, fun hp => ⟨nofun, h.phase_of_zhdr hp⟩⟩
  | dsym =>
    have h := bodyEffect_dsym hf ht
    obtain ⟨-, -, -, -, -, -, -, -, hhost, -⟩ := h.same
    exact ⟨hhost, fun hp => ⟨nofun, h.phase_of_zhdr hp⟩⟩

theorem slot_of_phase_zhdr {s : State} {k : Slot} (hk : s.nextSlot = some k) (hp : s.phase = .zhdr) : k = .zhdr := by
  rw [State.nextSlot, hp] at hk
  cases hk
  rfl

/-- The engine's turn leaves the host's side of the state, and does not lead to the header. -/
theorem engineStep_sameHost_and_phase {s t : State} (hc : s.curBit < 8) (ht : engineStep s = .next t) :
    SameHost s t ∧ (s.busy = true → t.phase ≠ .zhdr) := by
  rw [engineStep] at ht
  cases hk : s.nextSlot with
  | none =>
    rw [hk] at ht
    cases ht
    refine ⟨⟨rfl, rfl, rfl, rfl, rfl, rfl, rfl, rfl, rfl, rfl⟩, fun _ hp => ?_⟩
    rw [State.nextSlot, hp] at hk
    cases hk
  | some k =>
    simp only [hk] at ht
    cases hx : fetch k s with
    | ok i u =>
      rw [hx] at ht
      obtain ⟨hf, n, -, rfl⟩ := fetch_eq_ok hc hx
      obtain ⟨hhost, hphase⟩ := exec_sameHost_and_phase hf ht
      refine ⟨hhost, fun _ hp => ?_⟩
      obtain ⟨hne, hzhdr⟩ := hphase hp
      exact hne (slot_of_phase_zhdr hk hzhdr)
    | raised c u =>
      rw [hx] at ht
      obtain ⟨-, n, -, rfl⟩ := fetch_eq_raised hc hx
      cases ht
      exact ⟨⟨rfl, rfl, rfl, rfl, rfl, rfl, rfl, rfl, rfl, rfl⟩, fun _ => nofun⟩
    | refused r =>
      rw [hx] at ht
      cases ht

/-! ## Runs of the engine alone -/

/-- A state with the invariant and no input pending: its steps are the engine's turns. -/
structure Undisturbed (s : State) : Prop where
  inv : Inv s
  inputs : s.inputs = []

theorem undisturbed_engineStep {s t : State} (h : Undisturbed s) (ht : engineStep s = .next t) : Undisturbed t := by
  obtain ⟨⟨-, -, -, -, -, -, -, hinputs, -⟩, -⟩ := engineStep_sameHost_and_phase h.inv.cursor.curBit ht
  exact ⟨inv_engineStep h.inv ht, hinputs.trans h.inputs⟩

/-- A run begins with the engine's turn. -/
theorem run_succ_of_engineStep {s t : State} (n : Nat) (h : Undisturbed s) (ht : engineStep s = .next t) :
    core.run (n + 1) s = core.run n t := by
  have hstep : core.step s = .next t := (step_of_no_input h.inputs).trans ht
  simp only [Host.Core.run, hstep]

/-- The turn of a running session consumes a bit, or is the header's, or ends the session in DONE or ERROR. -/
theorem engineStep_of_busy {s : State} (h : Undisturbed s) (hb : s.busy = true) :
    ∃ t, engineStep s = .next t ∧ Undisturbed t ∧
      (t.busy = true ∧ t.inLen = s.inLen ∧ t.phase ≠ .zhdr ∧
          (s.phase ≠ .zhdr → t.bitsRemaining < s.bitsRemaining) ∨
        t.busy = false ∧ (t.status = .done ∨ t.status = .error)) := by
  obtain ⟨t, ht, hcur⟩ := engineStep_advances h.inv hb
  have htu := undisturbed_engineStep h ht
  refine ⟨t, ht, htu, ?_⟩
  cases hbt : t.busy with
  | true =>
    obtain ⟨⟨-, hlen, -⟩, hphase⟩ := engineStep_sameHost_and_phase h.inv.cursor.curBit ht
    refine .inl ⟨rfl, hlen, hphase hb, fun hp => ?_⟩
    have hs := cursorPos_le h.inv.cursor
    have ht' := cursorPos_le htu.inv.cursor
    have := hcur hbt hp
    omega
  | false =>
    refine .inr ⟨rfl, ?_⟩
    rcases engineStep_busy_cases (beq_iff_eq.1 hb) ht with hfin | ⟨-, hrun⟩ | ⟨-, herr, -⟩
    · exact .inl hfin.status
    · rw [State.busy, hrun] at hbt
      cases hbt
    · exact .inr herr

/-- Behind the header a session ends within a step for each bit remaining, and one more (45_stream.md R219). -/
theorem run_ends (n : Nat) {s : State} (h : Undisturbed s) (hb : s.busy = true) (hp : s.phase ≠ .zhdr)
    (hn : s.bitsRemaining ≤ n) :
    ∃ m t, m ≤ n + 1 ∧ core.run m s = .next t ∧ t.busy = false ∧ (t.status = .done ∨ t.status = .error) := by
  induction n generalizing s with
  | zero =>
    obtain ⟨t, ht, htu, ⟨-, -, -, hbits⟩ | hend⟩ := engineStep_of_busy h hb
    · have := hbits hp
      omega
    · exact ⟨1, t, Nat.le_refl _, run_succ_of_engineStep 0 h ht, hend⟩
  | succ n ih =>
    obtain ⟨t, ht, htu, ⟨hbt, -, hpt, hbits⟩ | hend⟩ := engineStep_of_busy h hb
    · have := hbits hp
      obtain ⟨m, u, hm, hrun, hend⟩ := ih htu hbt hpt (by omega)
      exact ⟨m + 1, u, by omega, (run_succ_of_engineStep m h ht).trans hrun, hend⟩
    · exact ⟨1, t, by omega, run_succ_of_engineStep 0 h ht, hend⟩

/-- Settles O54: the header takes one step, and every step behind it consumes a bit or ends the session; none is refused,
since the builds of the engine's tables are within the contract. -/
theorem everySessionEnds : Obligations.EverySessionEnds := by
  intro s hinv hinputs
  have h : Undisturbed s := ⟨hinv, hinputs⟩
  cases hb : s.busy with
  | false => exact ⟨0, s, Nat.zero_le _, rfl, hb, nofun⟩
  | true =>
    obtain ⟨t, ht, htu, ⟨hbt, hlen, hpt, -⟩ | ⟨hbt, hend⟩⟩ := engineStep_of_busy h hb
    · have hbits : t.bitsRemaining ≤ 8 * s.inLen := by
        have := cursorPos_le htu.inv.cursor
        omega
      obtain ⟨m, u, hm, hrun, hbu, hend⟩ := run_ends (8 * s.inLen) htu hbt hpt hbits
      exact ⟨m + 1, u, by omega, (run_succ_of_engineStep m h ht).trans hrun, hbu, fun _ => hend⟩
    · exact ⟨1, t, by omega, run_succ_of_engineStep 0 h ht, hbt, fun _ => hend⟩

end Sys2Proof.Machine

namespace Sys2Proof.Machine

/-- What an operation leaves, seen through `g`. -/
def Res.map {α : Type} (g : State → State) : Res α → Res α
  | .ok a s => .ok a (g s)
  | .raised c s => .raised c (g s)
  | .refused r => .refused r

/-- The bits remaining reach to the end of the input. -/
theorem add_lt_of_lt_bitsRemaining {s : State} {k : Nat} (h : k < s.bitsRemaining) : s.cursorPos + k < 8 * s.inLen := by
  rw [State.bitsRemaining] at h
  rw [State.cursorPos]
  omega

/-! ## States that agree on what a session is about (45_stream.md R218, 10_state.md R44) -/

/-- Two states agree on the parameters, the input and the cursor in it, and the output so far. -/
structure SameStream (s t : State) : Prop where
  params : t.params = s.params
  inLen : t.inLen = s.inLen
  curByte : t.curByte = s.curByte
  curBit : t.curBit = s.curBit
  outLen : t.outLen = s.outLen
  inByte : ∀ a, a < s.inLen → t.inByte a = s.inByte a
  outByte : ∀ a, a < s.outLen → t.outByte a = s.outByte a

/-- Two states agree on what the sequencer's next element, of slot `k`, and those behind it read of the registers. What no
element has written in this session is left free. -/
def LiveAt (k : Slot) (s t : State) : Prop :=
  match k with
  | .zhdr | .bhdr => True
  | .dynhdr => t.bfinal = s.bfinal
  | .clcl => t.bfinal = s.bfinal ∧ SameCounts s t ∧ SameClLens s t
  | .clsym => t.bfinal = s.bfinal ∧ SameCounts s t ∧ t.clt = s.clt ∧ t.lenIdx = s.lenIdx ∧ t.prevLen = s.prevLen ∧
      ∀ j, j < s.lenIdx → t.lenTable[j]? = s.lenTable[j]?
  | .llsym => t.bfinal = s.bfinal ∧ SamePair s t ∧ t.arena s.llSel = s.arena s.llSel ∧ t.arena s.dSel = s.arena s.dSel
  | .dsym => t.bfinal = s.bfinal ∧ SamePair s t ∧ t.arena s.llSel = s.arena s.llSel ∧ t.arena s.dSel = s.arena s.dSel ∧
      t.curLen = s.curLen

/-- Two states go on alike: they agree on the stream, the phase and the next element, and on what it reads. -/
structure Alike (s t : State) : Prop extends SameStream s t where
  phase : t.phase = s.phase
  slot : t.nextSlot = s.nextSlot
  error : s.phase = .error → SameError s t
  live : ∀ k, s.nextSlot = some k → LiveAt k s t

/-- Two turns that answer lead to states that go on alike. -/
def TurnsAlike (x y : Host.Outcome State Fault Refusal) : Prop := ∀ s t, x = .next s → y = .next t → Alike s t

section
variable {s t : State}

theorem alike_of_slot {k : Slot} (h : SameStream s t) (hp : t.phase = s.phase) (hs : s.nextSlot = some k)
    (ht : t.nextSlot = some k) (hl : LiveAt k s t) : Alike s t where
  toSameStream := h
  phase := hp
  slot := ht.trans hs.symm
  error he := by
    rw [State.nextSlot, he] at hs
    cases hs
  live j hj := by
    cases hj.symm.trans hs
    exact hl

theorem turnsAlike_of_slot {k : Slot} (h : SameStream s t) (hp : t.phase = s.phase) (hs : s.nextSlot = some k)
    (ht : t.nextSlot = some k) (hl : LiveAt k s t) : TurnsAlike (.next s) (.next t) := by
  intro _ _ hx hy
  cases hx
  cases hy
  exact alike_of_slot h hp hs ht hl

theorem turnsAlike_done (h : SameStream s t) (hs : s.phase = .done) (ht : t.phase = .done) :
    TurnsAlike (.next s) (.next t) := by
  intro _ _ hx hy
  cases hx
  cases hy
  have hslot : ∀ u : State, u.phase = .done → u.nextSlot = none := fun u hu => by rw [State.nextSlot, hu]
  refine ⟨h, ht.trans hs.symm, (hslot t ht).trans (hslot s hs).symm, fun he => ?_, fun k hk => ?_⟩
  · cases hs.symm.trans he
  · cases (hslot s hs).symm.trans hk

theorem turnsAlike_raiseError (c : Cause) (h : SameStream s t) :
    TurnsAlike (.next (s.raiseError c)) (.next (t.raiseError c)) := by
  intro _ _ hx hy
  cases hx
  cases hy
  exact { params := h.params, inLen := h.inLen, curByte := h.curByte, curBit := h.curBit, outLen := h.outLen,
          inByte := h.inByte, outByte := h.outByte, phase := rfl, slot := rfl, error := fun _ => ⟨rfl, rfl⟩,
          live := nofun }

namespace SameStream
variable (h : SameStream s t)
include h

theorem cursorPos : t.cursorPos = s.cursorPos := by rw [State.cursorPos, State.cursorPos, h.curByte, h.curBit]

theorem bitsRemaining : t.bitsRemaining = s.bitsRemaining := by
  rw [State.bitsRemaining, State.bitsRemaining, h.inLen, h.curByte, h.curBit]

/-- The cursor of both states goes to the same place. -/
theorem advance (n : Nat) : SameStream (s.advance n) (t.advance n) where
  params := h.params
  inLen := h.inLen
  curByte := congrArg (fun p => (p + n) / 8) h.cursorPos
  curBit := congrArg (fun p => (p + n) % 8) h.cursorPos
  outLen := h.outLen
  inByte := h.inByte
  outByte := h.outByte

theorem behind (k : Nat) : SameStream (s.behind k) (t.behind k) := by
  rw [State.behind, State.behind]
  split
  · exact h
  · exact h.advance k

/-- The cursor of both states takes the place that the states `u` and `v` have. -/
theorem withCursor {u v : State} (h1 : v.curByte = u.curByte) (h2 : v.curBit = u.curBit) :
    SameStream { s with curByte := u.curByte, curBit := u.curBit } { t with curByte := v.curByte, curBit := v.curBit } :=
  { h with curByte := h1, curBit := h2 }

theorem inBit {p : Nat} (hp : p < 8 * s.inLen) : t.inBit p = s.inBit p := by
  rw [State.inBit, State.inBit, h.inByte (p / 8) (by omega)]

theorem fieldBits (p n : Nat) : t.fieldBits p n = s.fieldBits p n := by
  induction n generalizing p with
  | zero => rfl
  | succ n ih =>
    rw [State.fieldBits, State.fieldBits, ih, h.inLen]
    split
    · next hp => rw [h.inBit hp]
    · rfl

theorem nextField (n : Nat) : t.nextField n = s.nextField n := by
  rw [State.nextField, State.nextField, h.fieldBits, h.cursorPos]

theorem headerWord : t.headerWord = s.headerWord := by
  rw [State.headerWord, State.headerWord, h.inLen]
  split
  · rfl
  · rw [h.inByte 0 (by omega), h.inByte 1 (by omega)]

/-- A walk in one arena goes the same way (41_huffman.md R138). -/
theorem hufWalk (a : Arena) (n node : Nat) :
    hufWalk a n node t =
      (hufWalk a n node s).map fun u => { t with curByte := u.curByte, curBit := u.curBit } := by
  induction n generalizing node s t with
  | zero =>
    rw [Machine.hufWalk, Machine.hufWalk]
    split
    · rw [Res.map, ← h.curByte, ← h.curBit]
    · rw [Res.map, ← h.curByte, ← h.curBit]
  | succ n ih =>
    rw [Machine.hufWalk, Machine.hufWalk]
    split
    · rw [Res.map, ← h.curByte, ← h.curBit]
    · rcases bcConsumeBit_cases s with ⟨hr, he⟩ | ⟨hr, he⟩ <;> rw [he]
      · have hp : s.cursorPos < 8 * s.inLen := add_lt_of_lt_bitsRemaining (k := 0) hr
        rw [bcConsumeBit_of_le (h.bitsRemaining.symm ▸ hr), res_ok_bind, res_ok_bind, h.cursorPos, h.inBit hp]
        cases (a.nodeAt node).child (s.inBit s.cursorPos) with
        | none =>
          rw [Res.map, ← (h.advance 1).curByte, ← (h.advance 1).curBit]
          rfl
        | some j => exact ih (h.advance 1) j
      · rw [bcConsumeBit_of_zero (h.bitsRemaining.trans hr), res_raised_bind, res_raised_bind, Res.map, ← h.curByte,
          ← h.curBit]

end SameStream

/-- A lookup in one tree consumes the same code in both states, or raises behind the same bits. -/
theorem hufDecode_alike {r : TreeId} (h : SameStream s t) (hs : Inv s) (ha : t.arena r = s.arena r) :
    ∃ k, (∃ sym, hufDecode r s = .ok sym (s.advance k) ∧ hufDecode r t = .ok sym (t.advance k)) ∨
      ∃ c, hufDecode r s = .raised c (s.advance k) ∧ hufDecode r t = .raised c (t.advance k) := by
  have hwalk : hufDecode r t = (hufDecode r s).map fun u => { t with curByte := u.curByte, curBit := u.curBit } := by
    rw [hufDecode, hufDecode, ha, h.bitsRemaining]
    exact h.hufWalk _ _ _
  have hcursor : ∀ k, ({ t with curByte := (s.advance k).curByte, curBit := (s.advance k).curBit } : State) =
      t.advance k := fun k => by
    rw [← (h.advance k).curByte, ← (h.advance k).curBit]
    rfl
  obtain ⟨k, -, ⟨sym, -, -, he⟩ | ⟨c, he⟩⟩ := hufDecode_cases_of_inv r hs <;> rw [he, Res.map, hcursor] at hwalk
  · exact ⟨k, .inl ⟨sym, he, hwalk⟩⟩
  · exact ⟨k, .inr ⟨c, he, hwalk⟩⟩

/-- A Huffman-coded element's turn: alike if the elements behind the code are. -/
theorem turnsAlike_hufDecode {r : TreeId} {elem : Nat → State → Res Unit} (h : SameStream s t) (hs : Inv s)
    (ha : t.arena r = s.arena r)
    (he : ∀ sym k, TurnsAlike (elem sym (s.advance k)).toOutcome (elem sym (t.advance k)).toOutcome) :
    TurnsAlike ((hufDecode r s).bind elem).toOutcome ((hufDecode r t).bind elem).toOutcome := by
  obtain ⟨k, ⟨sym, h1, h2⟩ | ⟨c, h1, h2⟩⟩ := hufDecode_alike h hs ha <;> rw [h1, h2]
  · exact he sym k
  · exact turnsAlike_raiseError c (h.advance k)

end

end Sys2Proof.Machine

namespace Sys2Proof.Machine

/-- The phase that a slot's element is read in (10_state.md R37). -/
def Slot.phase : Slot → Phase
  | .zhdr => .zhdr
  | .bhdr => .bhdr
  | .dynhdr | .clcl | .clsym => .dynhdr
  | .llsym | .dsym => .body

theorem phase_of_nextSlot {s : State} {k : Slot} (h : s.nextSlot = some k) : s.phase = k.phase := by
  rw [State.nextSlot] at h
  cases hp : s.phase with
  | idle | done | error => simp [hp] at h
  | zhdr | bhdr =>
    obtain rfl : _ = k := by simpa [hp] using h
    rfl
  | dynhdr | body =>
    cases hq : s.seq <;> obtain rfl : _ = k := by { simpa [hp, hq] using h }
    all_goals rfl

theorem nextSlot_of_place {s : State} {p : Phase} {q : Seq} {k : Slot} (hp : s.phase = p) (hq : s.seq = q)
    (hk : State.nextSlot { s with phase := p, seq := q } = some k) : s.nextSlot = some k := by
  subst hp hq
  exact hk

section
variable {s t : State}

/-! ## The headers' turns (45_stream.md R210, 43_block_header.md R165, R168) -/

theorem turnsAlike_zhdr (h : SameStream s t) (hs : s.nextSlot = some .zhdr) (ht : t.nextSlot = some .zhdr) :
    TurnsAlike (engineStep s) (engineStep t) := by
  rw [engineStep_zhdr hs, engineStep_zhdr ht, h.headerWord]
  generalize BitVec.ofNat 8 (s.headerWord / 256) = cmf
  generalize BitVec.ofNat 8 s.headerWord = flg
  obtain ⟨hshort, hsum, hdict, hok⟩ := zlibHeaderIsChecked cmf flg s
  obtain ⟨hshort', hsum', hdict', hok'⟩ := zlibHeaderIsChecked cmf flg t
  rcases Nat.lt_or_ge s.inLen 2 with hlen | hlen
  · rw [hshort hlen, hshort' (h.inLen.symm ▸ hlen)]
    exact turnsAlike_raiseError .hdrShort h
  have hlen' : 2 ≤ t.inLen := h.inLen.symm ▸ hlen
  by_cases hsumOk : (cmf.toNat * 256 + flg.toNat) % 31 = 0
  · by_cases hset : flg.getLsbD 5 = true ∧ s.params.fdictPolicy = .reject
    · rw [hdict hlen hsumOk hset.1 hset.2, hdict' hlen' hsumOk hset.1 (h.params.symm ▸ hset.2)]
      exact turnsAlike_raiseError .presetDict h
    · have hignore : flg.getLsbD 5 = true → s.params.fdictPolicy = .ignore := fun hf => by
        cases hp : s.params.fdictPolicy with
        | ignore => rfl
        | reject => exact absurd ⟨hf, hp⟩ hset
      rw [hok hlen hsumOk hignore, hok' hlen' hsumOk (h.params.symm ▸ hignore)]
      have hstream : SameStream
          { s with
            cmf := cmf, flg := flg, cm := cmf.setWidth 4, fdict := flg.getLsbD 5
            curByte := 2, curBit := 0, phase := .bhdr, seq := .head }
          { t with
            cmf := cmf, flg := flg, cm := cmf.setWidth 4, fdict := flg.getLsbD 5
            curByte := 2, curBit := 0, phase := .bhdr, seq := .head } :=
        { params := h.params, inLen := h.inLen, curByte := rfl, curBit := rfl, outLen := h.outLen,
          inByte := h.inByte, outByte := h.outByte }
      exact turnsAlike_of_slot (k := .bhdr) hstream rfl rfl rfl trivial
  · rw [hsum hlen hsumOk, hsum' hlen' hsumOk]
    exact turnsAlike_raiseError .hdrFcheck h

theorem arena_enterBody (s : State) (ll d r : TreeId) : (s.enterBody ll d).arena r = s.arena r := by
  cases r <;> rfl

/-- Two states enter the body with the same trees. -/
theorem turnsAlike_enterBody (ll d : TreeId) (h : SameStream s t) (hb : t.bfinal = s.bfinal)
    (hll : t.arena ll = s.arena ll) (hd : t.arena d = s.arena d) :
    TurnsAlike (.next (s.enterBody ll d)) (.next (t.enterBody ll d)) := by
  rw [← arena_enterBody t ll d, ← arena_enterBody s ll d] at hll hd
  exact turnsAlike_of_slot (k := .llsym) { h with } rfl rfl rfl ⟨hb, ⟨rfl, rfl⟩, hll, hd⟩

/-- What a block header's type does, from states that have recorded the same header. -/
theorem turnsAlike_blockWork (n : Nat) {u v : State} (h : SameStream s t) (hu : SameStream u v)
    (hb : v.bfinal = u.bfinal) :
    TurnsAlike ((blockWork n u).atomic s).toOutcome ((blockWork n v).atomic t).toOutcome := by
  unfold blockWork
  split
  · exact turnsAlike_raiseError .storedBlock (h.withCursor hu.curByte hu.curBit)
  · have hfixed : fixedLLArena v.params.fixedLong = fixedLLArena u.params.fixedLong := by rw [hu.params]
    exact turnsAlike_enterBody .fllt .fdt hu hb hfixed rfl
  · exact turnsAlike_of_slot (k := .dynhdr) { hu with } rfl rfl rfl hb
  · exact turnsAlike_raiseError .btypeReserved (h.withCursor hu.curByte hu.curBit)

theorem turnsAlike_bhdr (h : SameStream s t) (hs : s.nextSlot = some .bhdr) (ht : t.nextSlot = some .bhdr) :
    TurnsAlike (engineStep s) (engineStep t) := by
  rw [engineStep_bhdr hs, engineStep_bhdr ht, h.nextField]
  rcases Nat.lt_or_ge s.bitsRemaining 3 with hr | hr
  · have hr' : t.bitsRemaining < 3 := h.bitsRemaining ▸ hr
    rcases blockHeader_of_lt (s.nextField 3 % 2 == 1) (.ofNat 2 (s.nextField 3 / 2)) (blockWork (s.nextField 3 / 2)) hr
      with ⟨h0, he⟩ | ⟨h0, he⟩ <;>
    rcases blockHeader_of_lt (s.nextField 3 % 2 == 1) (.ofNat 2 (s.nextField 3 / 2)) (blockWork (s.nextField 3 / 2)) hr'
      with ⟨h0', he'⟩ | ⟨h0', he'⟩
    · rw [he, he']
      exact turnsAlike_raiseError _ h
    · rw [h.bitsRemaining] at h0'
      omega
    · rw [h.bitsRemaining] at h0'
      omega
    · rw [he, he']
      exact turnsAlike_raiseError _ (h.advance 1)
  · rw [blockHeader_of_le _ _ _ hr, blockHeader_of_le _ _ _ (h.bitsRemaining.symm ▸ hr)]
    exact turnsAlike_blockWork _ h { h.advance 3 with } rfl

theorem turnsAlike_dynhdr (h : SameStream s t) (hl : LiveAt .dynhdr s t) (hs : s.nextSlot = some .dynhdr)
    (ht : t.nextSlot = some .dynhdr) : TurnsAlike (engineStep s) (engineStep t) := by
  rw [engineStep_dynhdr hs, engineStep_dynhdr ht, h.nextField]
  generalize BitVec.ofNat 5 (s.nextField 14) = a
  generalize BitVec.ofNat 5 (s.nextField 14 / 32) = b
  generalize BitVec.ofNat 4 (s.nextField 14 / 1024) = c
  obtain ⟨hok, hlit, hdist, hshort, hshort5, hshort10⟩ := dynamicHeaderReadsTheCounts a b c t
  have hp := phase_of_nextSlot hs
  have hp' := phase_of_nextSlot ht
  rcases execDynHeader_cases a b c s with ⟨h1, h2, h3, he⟩ | ⟨h1, he⟩ | ⟨h1, h2, he⟩ | ⟨h1, h2, h3, he⟩ |
    ⟨h1, h2, h3, he⟩ | ⟨h1, h2, h3, h4, he⟩ <;> rw [he] <;> rw [← h.bitsRemaining] at h1
  · rw [show execDynHeader a b c t = _ from hok h1 h2 h3]
    exact turnsAlike_of_slot (k := .clcl) { h.advance 14 with } (hp'.trans hp.symm) (nextSlot_of_place hp rfl rfl)
      (nextSlot_of_place hp' rfl rfl) ⟨hl, ⟨rfl, rfl, rfl⟩, rfl, rfl⟩
  · rw [show execDynHeader a b c t = _ from hshort h1]
    exact turnsAlike_raiseError _ h
  · rw [show execDynHeader a b c t = _ from hlit h1 h2]
    exact turnsAlike_raiseError _ (h.advance 5)
  · rw [show execDynHeader a b c t = _ from hshort5 h1 (h.bitsRemaining.symm ▸ h2) h3]
    exact turnsAlike_raiseError _ (h.advance 5)
  · rw [show execDynHeader a b c t = _ from hdist h1 h2 h3]
    exact turnsAlike_raiseError _ (h.advance 10)
  · rw [show execDynHeader a b c t = _ from hshort10 h1 (h.bitsRemaining.symm ▸ h2) h3 h4]
    exact turnsAlike_raiseError _ (h.advance 10)

end

end Sys2Proof.Machine

namespace Sys2Proof.Machine

section
variable {s t : State}

/-! ## The code lengths' turns (43_block_header.md R169 to R175) -/

theorem SameStream.afterBuild (h : SameStream s t) (r : TreeId) : SameStream (s.afterBuild r) (t.afterBuild r) := by
  obtain ⟨_, _, _, _, _, hs⟩ := afterBuild_eq s r
  obtain ⟨_, _, _, _, _, ht⟩ := afterBuild_eq t r
  rw [hs, ht]
  exact { h with }

/-- The loop's condition behind a code-length field. -/
theorem turnsAlike_clclNext (h : SameStream s t) (hs : s.nextSlot = some .clcl) (ht : t.nextSlot = some .clcl)
    (hl : LiveAt .clcl s t) (hlen : s.clLens.length = 19) :
    TurnsAlike (clclNext s).toOutcome (clclNext t).toOutcome := by
  obtain ⟨hb, hcounts, hlens, hidx⟩ := hl
  obtain ⟨hlit, hdist, hclen⟩ := hcounts
  have hp := phase_of_nextSlot hs
  have hp' := phase_of_nextSlot ht
  have htable : t.buildTable .clt = s.buildTable .clt := congrArg (List.map BitVec.toNat) hlens
  rcases Nat.lt_or_ge s.clclIdx s.hclen with hlt | hle
  · rw [clclNext_of_lt hlt, clclNext_of_lt (hidx.symm ▸ hclen.symm ▸ hlt)]
    exact turnsAlike_of_slot h (hp'.trans hp.symm) hs ht ⟨hb, ⟨hlit, hdist, hclen⟩, hlens, hidx⟩
  have hle' : t.hclen ≤ t.clclIdx := hidx.symm ▸ hclen.symm ▸ hle
  have hlen' : t.clLens.length = 19 := hlens.symm ▸ hlen
  rcases Nat.lt_or_ge (2 ^ 15) (kraftSum (s.buildTable .clt)) with hk | hk
  · rw [clclNext_of_kraftSum_gt hle hlen hk, clclNext_of_kraftSum_gt hle' hlen' (htable.symm ▸ hk)]
    exact turnsAlike_raiseError _ h
  · rw [clclNext_of_kraftSum_le hle hlen hk, clclNext_of_kraftSum_le hle' hlen' (htable.symm ▸ hk)]
    exact turnsAlike_of_slot (k := .clsym) { h.afterBuild .clt with } (hp'.trans hp.symm) (nextSlot_of_place hp rfl rfl)
      (nextSlot_of_place hp' rfl rfl)
      ⟨hb, ⟨hlit, hdist, hclen⟩, congrArg (fun l => (buildTree l).arena) htable, rfl, rfl, nofun⟩

theorem turnsAlike_clcl (h : SameStream s t) (hi : Inv s) (hl : LiveAt .clcl s t) (hs : s.nextSlot = some .clcl)
    (ht : t.nextSlot = some .clcl) : TurnsAlike (engineStep s) (engineStep t) := by
  rw [engineStep_clcl hs, engineStep_clcl ht, h.nextField, execClclField, execClclField]
  rcases bcSkip_cases 3 s with ⟨hr, he⟩ | ⟨hr, he⟩ <;> rw [he]
  · obtain ⟨hb, hcounts, hlens, hidx⟩ := hl
    generalize BitVec.ofNat 3 (s.nextField 3) = len
    have hput : ((t.advance 3).putClLen len).clLens = ((s.advance 3).putClLen len).clLens := by
      have hidx' : (t.advance 3).clclIdx = (s.advance 3).clclIdx := hidx
      have hlens' : (t.advance 3).clLens = (s.advance 3).clLens := hlens
      rw [State.putClLen, State.putClLen, hidx', hlens']
    rw [bcSkip_of_le (h.bitsRemaining.symm ▸ hr)]
    exact turnsAlike_clclNext { h.advance 3 with } hs ht ⟨hb, hcounts, hput, congrArg (· + 1) hidx⟩
      (inv_putClLen len (inv_advance hi hr)).registers.clLens
  · rw [bcSkip_of_lt (h.bitsRemaining.symm ▸ hr)]
    exact turnsAlike_raiseError _ h

/-- Two tables that agree on the entries below `lenIdx` split into the same two tables (43_block_header.md R175). -/
theorem buildTable_congr (hlit : t.hlit = s.hlit) (hdist : t.hdist = s.hdist)
    (h : ∀ j, j < s.hlit + s.hdist → t.lenTable[j]? = s.lenTable[j]?) :
    t.buildTable .llt = s.buildTable .llt ∧ t.buildTable .dt = s.buildTable .dt := by
  refine ⟨congrArg (List.map BitVec.toNat) (List.ext_getElem? fun j => ?_),
    congrArg (List.map BitVec.toNat) (List.ext_getElem? fun j => ?_)⟩
  · rw [List.getElem?_take, List.getElem?_take, hlit]
    split
    · exact h j (by omega)
    · rfl
  · rw [List.getElem?_take, List.getElem?_take, List.getElem?_drop, List.getElem?_drop, hlit, hdist]
    split
    · exact h _ (by omega)
    · rfl

theorem afterBuild_bfinal (s : State) (r : TreeId) : (s.afterBuild r).bfinal = s.bfinal := by
  obtain ⟨_, _, _, _, _, hs⟩ := afterBuild_eq s r
  rw [hs]

/-- The arenas that the body uses, and the block's last-block flag, behind the split's builds. -/
theorem splitAndBuild_arenas (s : State) :
    ((s.afterBuild .llt).afterBuild .dt).arena .llt = (buildTree (s.buildTable .llt)).arena ∧
      ((s.afterBuild .llt).afterBuild .dt).arena .dt = (buildTree (s.buildTable .dt)).arena ∧
      ((s.afterBuild .llt).afterBuild .dt).bfinal = s.bfinal := by
  have htable : (s.afterBuild .llt).buildTable .dt = s.buildTable .dt := rfl
  rw [arena_afterBuild_other _ (by decide), arena_afterBuild_same, arena_afterBuild_same, htable, afterBuild_bfinal,
    afterBuild_bfinal]
  exact ⟨rfl, rfl, rfl⟩

/-- The split and the builds of the body's trees. -/
theorem turnsAlike_splitAndBuild (h : SameStream s t) (hb : t.bfinal = s.bfinal) (hlit : t.hlit = s.hlit)
    (hdist : t.hdist = s.hdist) (hle : s.hlit ≤ 286) (hle' : s.hdist ≤ 30)
    (hentry : ∀ j, j < s.hlit + s.hdist → t.lenTable[j]? = s.lenTable[j]?) :
    TurnsAlike (splitAndBuild s).toOutcome (splitAndBuild t).toOutcome := by
  obtain ⟨hllt, hdt⟩ := buildTable_congr hlit hdist hentry
  by_cases hk : 2 ^ 15 < kraftSum (s.buildTable .llt) ∨ 2 ^ 15 < kraftSum (s.buildTable .dt)
  · rw [splitAndBuild_of_kraftSum_gt hle hle' hk,
      splitAndBuild_of_kraftSum_gt (hlit.symm ▸ hle) (hdist.symm ▸ hle') (by rwa [hllt, hdt])]
    exact turnsAlike_raiseError _ h
  · rw [not_or, Nat.not_lt, Nat.not_lt] at hk
    obtain ⟨hk1, hk2⟩ := hk
    rw [splitAndBuild_of_kraftSum_le hle hle' hk1 hk2, splitAndBuild_of_kraftSum_le (hlit.symm ▸ hle)
      (hdist.symm ▸ hle') (hllt.symm ▸ hk1) (hdt.symm ▸ hk2)]
    obtain ⟨hll, hd, hfinal⟩ := splitAndBuild_arenas s
    obtain ⟨hll', hd', hfinal'⟩ := splitAndBuild_arenas t
    refine turnsAlike_enterBody .llt .dt ((h.afterBuild .llt).afterBuild .dt) ?_ ?_ ?_
    · rw [hfinal, hfinal', hb]
    · rw [hll, hll', hllt]
    · rw [hd, hd', hdt]

/-- The loop's condition behind a code-length symbol. -/
theorem turnsAlike_clsymNext (h : SameStream s t) (hs : s.nextSlot = some .clsym) (ht : t.nextSlot = some .clsym)
    (hl : LiveAt .clsym s t) (hle : s.hlit ≤ 286) (hle' : s.hdist ≤ 30) :
    TurnsAlike (clsymNext s).toOutcome (clsymNext t).toOutcome := by
  have hp : t.phase = s.phase := (phase_of_nextSlot ht).trans (phase_of_nextSlot hs).symm
  have ⟨hb, ⟨hlit, hdist, _⟩, _, hidx, _, hentry⟩ := hl
  rcases Nat.lt_or_ge s.lenIdx (s.hlit + s.hdist) with hlt | hge
  · rw [clsymNext_of_lt hlt, clsymNext_of_lt (by omega)]
    exact turnsAlike_of_slot h hp hs ht hl
  · rw [clsymNext_of_le hge, clsymNext_of_le (by omega)]
    exact turnsAlike_splitAndBuild h hb hlit hdist hle hle' fun j hj => hentry j (by omega)

/-- A code-length symbol's run, and the loop's condition behind it. -/
theorem turnsAlike_clElement (sym e : Nat) (h : SameStream s t) (hs : s.nextSlot = some .clsym)
    (ht : t.nextSlot = some .clsym) (hl : LiveAt .clsym s t) (hlit : s.hlit ≤ 286) (hdist : s.hdist ≤ 30)
    (hlen : t.lenTable.length = s.lenTable.length) :
    TurnsAlike (clElement sym e s).toOutcome (clElement sym e t).toOutcome := by
  obtain ⟨hb, ⟨hlit', hdist', hclen⟩, hclt, hidx, hprev, hentry⟩ := hl
  rw [clElement, clElement, clWrite, clWrite, hprev, h.bitsRemaining, hlit', hdist', hidx]
  cases clRunOf sym e s.prevLen with
  | none => exact turnsAlike_raiseError _ h
  | some r =>
    obtain ⟨v, n, k⟩ := r
    dsimp only
    split
    · exact turnsAlike_raiseError _ h
    split
    · exact turnsAlike_raiseError _ (h.advance k)
    have hfill : ∀ j, j < s.lenIdx + n →
        (fillEntries v n s.lenIdx t.lenTable)[j]? = (fillEntries v n s.lenIdx s.lenTable)[j]? := fun j hj => by
      rw [fillEntries_getElem?, fillEntries_getElem?, hlen]
      split
      · rfl
      · rcases Nat.lt_or_ge j s.lenIdx with hlt | hge
        · exact hentry j hlt
        · have hout : s.lenTable.length ≤ j := by omega
          rw [List.getElem?_eq_none hout, List.getElem?_eq_none (hlen ▸ hout)]
    obtain ⟨p, q, hcursor⟩ := behind_eq_cursor s k
    obtain ⟨p', q', hcursor'⟩ := behind_eq_cursor t k
    have hstream := h.behind k
    rw [hcursor, hcursor'] at hstream ⊢
    refine turnsAlike_clsymNext (t := State.putSymbol { t with curByte := p', curBit := q' } sym v n _)
      { hstream with } hs ht ⟨hb, ⟨hlit', hdist', hclen⟩, hclt, congrArg (· + n) hidx, rfl, ?_⟩ hlit hdist
    show ∀ j, j < s.lenIdx + n → (fillEntries v n t.lenIdx t.lenTable)[j]? = _
    rw [hidx]
    exact hfill

theorem turnsAlike_clsym (h : SameStream s t) (hi : Inv s) (hi' : Inv t) (hl : LiveAt .clsym s t)
    (hs : s.nextSlot = some .clsym) (ht : t.nextSlot = some .clsym) :
    TurnsAlike (engineStep s) (engineStep t) := by
  have ⟨_, _, hclt, _⟩ := hl
  have hat := fetchedAt_of_nextSlot hs
  obtain ⟨hp, hq⟩ := hat.clsym rfl
  obtain ⟨⟨-, hlit, -, hdist⟩, -⟩ := hi.table.clsym hp hq
  rw [engineStep_clsym hi hs, engineStep_clsym hi' ht]
  refine turnsAlike_hufDecode h hi hclt fun sym k => ?_
  rw [(h.advance k).nextField]
  exact turnsAlike_clElement sym _ (h.advance k) hs ht hl hlit hdist
    (hi'.registers.lenTable.trans hi.registers.lenTable.symm)

end

end Sys2Proof.Machine

namespace Sys2Proof.Machine

section
variable {s t : State}

/-! ## The body's turns (44_block_body.md R190 to R195) -/

/-- Both states append the same byte. -/
theorem SameStream.append (h : SameStream s t) (v : Byte) :
    SameStream { s.writeOut s.outLen v with outLen := s.outLen + 1 }
      { t.writeOut t.outLen v with outLen := t.outLen + 1 } where
  params := h.params
  inLen := h.inLen
  curByte := h.curByte
  curBit := h.curBit
  outLen := congrArg (· + 1) h.outLen
  inByte := h.inByte
  outByte a ha := by
    show (t.writeOut t.outLen v).outByte a = (s.writeOut s.outLen v).outByte a
    rw [h.outLen]
    rcases Nat.lt_or_eq_of_le (Nat.le_of_lt_succ ha) with hlt | rfl
    · rw [outByte_writeOut_other t v (Nat.ne_of_lt hlt), outByte_writeOut_other s v (Nat.ne_of_lt hlt), h.outByte a hlt]
    · rw [outByte_writeOut_same, outByte_writeOut_same]

theorem turnsAlike_literal (v : Byte) (sym : Nat) (h : SameStream s t) (hl : LiveAt .llsym s t)
    (hs : s.nextSlot = some .llsym) (ht : t.nextSlot = some .llsym) :
    TurnsAlike (symbolElement sym (outAppend v) s).toOutcome (symbolElement sym (outAppend v) t).toOutcome := by
  by_cases hfull : s.params.outCap = some s.outLen
  · rw [symbolElement_of_raised (outAppend_of_full v hfull),
      symbolElement_of_raised (outAppend_of_full v (h.params.symm ▸ h.outLen.symm ▸ hfull))]
    exact turnsAlike_raiseError _ h
  · rw [symbolElement_of_ok (outAppend_of_room v hfull),
      symbolElement_of_ok (outAppend_of_room v (h.params.symm ▸ h.outLen.symm ▸ hfull))]
    exact turnsAlike_of_slot { h.append v with } ((phase_of_nextSlot ht).trans (phase_of_nextSlot hs).symm) hs ht hl

theorem turnsAlike_endOfBlock (h : SameStream s t) (hb : t.bfinal = s.bfinal) :
    TurnsAlike (symbolElement 256 (fun s => .ok () s.endBlock) s).toOutcome
      (symbolElement 256 (fun s => .ok () s.endBlock) t).toOutcome := by
  show TurnsAlike (.next { s.endBlock with sym := 256 }) (.next { t.endBlock with sym := 256 })
  cases hf : s.bfinal with
  | true =>
    rw [endBlock_of_bfinal hf, endBlock_of_bfinal (hb.trans hf)]
    exact turnsAlike_done { h with } rfl rfl
  | false =>
    rw [endBlock_of_not_bfinal hf, endBlock_of_not_bfinal (hb.trans hf)]
    exact turnsAlike_of_slot (k := .bhdr) { h with } rfl rfl rfl trivial

theorem turnsAlike_lengthSymbol (sym e : Nat) (h : SameStream s t) (hl : LiveAt .llsym s t)
    (hs : s.nextSlot = some .llsym) (ht : t.nextSlot = some .llsym) :
    TurnsAlike (lengthSymbol sym e s).toOutcome (lengthSymbol sym e t).toOutcome := by
  obtain ⟨hb, hpair, hll, hd⟩ := hl
  have hp := phase_of_nextSlot hs
  have hp' := phase_of_nextSlot ht
  rcases lengthSymbol_cases sym e s with ⟨hr, he⟩ | ⟨hr, he⟩ <;>
    rcases lengthSymbol_cases sym e t with ⟨hr', he'⟩ | ⟨hr', he'⟩ <;> rw [h.bitsRemaining] at hr'
  · rw [he, he']
    exact turnsAlike_of_slot (k := .dsym) { h.advance (lenExtra sym) with } (hp'.trans hp.symm)
      (nextSlot_of_place hp rfl rfl) (nextSlot_of_place hp' rfl rfl) ⟨hb, hpair, hll, hd, rfl⟩
  · omega
  · omega
  · rw [he, he']
    exact turnsAlike_raiseError _ h

theorem turnsAlike_llsym (h : SameStream s t) (hi : Inv s) (hi' : Inv t) (hl : LiveAt .llsym s t)
    (hs : s.nextSlot = some .llsym) (ht : t.nextSlot = some .llsym) :
    TurnsAlike (engineStep s) (engineStep t) := by
  have ⟨hb, ⟨hsel, _⟩, hll, _⟩ := hl
  rw [engineStep_llsym hi hs, engineStep_llsym hi' ht, hsel]
  refine turnsAlike_hufDecode h hi hll fun sym k => ?_
  rw [(h.advance k).nextField, litLenElement, litLenElement]
  split
  · exact turnsAlike_literal _ sym (h.advance k) hl hs ht
  split
  · exact turnsAlike_endOfBlock (h.advance k) hb
  split
  · exact turnsAlike_lengthSymbol sym _ (h.advance k) hl hs ht
  · exact turnsAlike_raiseError _ (h.advance k)

/-- Copies of the last `d` bytes of outputs that agree give outputs that agree (44_block_body.md R199). -/
theorem eq_of_copies {f f' g g' : Nat → Byte} {o o' l l' d : Nat} (hd : 0 < d) (hdo : d ≤ o) (ho : o' = o) (hl : l' = l)
    (h : ∀ a, a < o → f' a = f a) (hold : ∀ a, a < o ∨ o + l ≤ a → g a = f a)
    (hold' : ∀ a, a < o' ∨ o' + l' ≤ a → g' a = f' a) (hnew : ∀ j, j < l → g (o + j) = f (o - d + j % d))
    (hnew' : ∀ j, j < l' → g' (o' + j) = f' (o' - d + j % d)) (a : Nat) (ha : a < o + l) : g' a = g a := by
  subst ho hl
  rcases Nat.lt_or_ge a o' with hlt | hge
  · rw [hold a (.inl hlt), hold' a (.inl hlt), h a hlt]
  · obtain ⟨j, rfl⟩ := Nat.exists_eq_add_of_le hge
    have hback := Nat.mod_lt j hd
    rw [hnew j (by omega), hnew' j (by omega), h _ (by omega)]

/-- A distance symbol copies the same bytes in both states, which have the same output before it. -/
theorem turnsAlike_distanceSymbol {d : Nat} (e : Nat) (hd : d ≤ 29) (h : SameStream s t) (hl : LiveAt .dsym s t)
    (hs : s.nextSlot = some .dsym) (ht : t.nextSlot = some .dsym) :
    TurnsAlike (distanceSymbol d e s).toOutcome (distanceSymbol d e t).toOutcome := by
  obtain ⟨hb, hpair, hll, hdt, hlen⟩ := hl
  have hp := phase_of_nextSlot hs
  have hp' := phase_of_nextSlot ht
  rcases Nat.lt_or_ge s.bitsRemaining (distExtra d) with hr | hr
  · rw [distanceSymbol_of_lt e hr, distanceSymbol_of_lt e (h.bitsRemaining.symm ▸ hr)]
    exact turnsAlike_raiseError _ h
  have hr' : distExtra d ≤ t.bitsRemaining := h.bitsRemaining.symm ▸ hr
  rcases Nat.lt_or_ge s.outLen (distBase d + e) with hfar | hnear
  · rw [distanceSymbol_of_far hr hfar, distanceSymbol_of_far hr' (h.outLen.symm ▸ hfar)]
    exact turnsAlike_raiseError _ (h.advance (distExtra d))
  have hnear' : distBase d + e ≤ t.outLen := h.outLen.symm ▸ hnear
  by_cases hroom : ∀ j, j < s.curLen → s.params.outCap ≠ some (s.outLen + j)
  · obtain ⟨m, he, hold, hnew⟩ := distanceSymbol_of_room hd hr hnear hroom
    obtain ⟨m', he', hold', hnew'⟩ := distanceSymbol_of_room hd hr' hnear'
      (by rwa [hlen, h.params, h.outLen])
    have hbytes := eq_of_copies (Nat.add_pos_left (distBase_pos hd) e) hnear h.outLen hlen h.outByte hold hold' hnew hnew'
    rw [he, he']
    exact turnsAlike_of_slot (k := .llsym)
      { h.advance (distExtra d) with outLen := congrArg₂ (· + ·) h.outLen hlen, outByte := hbytes } (hp'.trans hp.symm)
      (nextSlot_of_place hp rfl rfl) (nextSlot_of_place hp' rfl rfl) ⟨hb, hpair, hll, hdt⟩
  · simp only [not_forall, not_not] at hroom
    obtain ⟨j, hj, hfull⟩ := hroom
    rw [distanceSymbol_of_full hr hnear hj hfull, distanceSymbol_of_full hr' hnear' (hlen.symm ▸ hj)
      (h.params.symm ▸ h.outLen.symm ▸ hfull)]
    exact turnsAlike_raiseError _ (h.advance (distExtra d))

theorem turnsAlike_dsym (h : SameStream s t) (hi : Inv s) (hi' : Inv t) (hl : LiveAt .dsym s t)
    (hs : s.nextSlot = some .dsym) (ht : t.nextSlot = some .dsym) :
    TurnsAlike (engineStep s) (engineStep t) := by
  have ⟨_, ⟨_, hsel⟩, _, hd, _⟩ := hl
  rw [engineStep_dsym hi hs, engineStep_dsym hi' ht, hsel]
  refine turnsAlike_hufDecode h hi hd fun d k => ?_
  rw [(h.advance k).nextField, distElement, distElement]
  split
  · next hle => exact turnsAlike_distanceSymbol _ hle (h.advance k) hl hs ht
  · exact turnsAlike_raiseError _ (h.advance k)

/-! ## Runs -/

/-- A turn from states that go on alike leads to states that go on alike. -/
theorem alike_engineStep {s' t' : State} (h : Alike s t) (hi : Inv s) (hi' : Inv t) (hs : engineStep s = .next s')
    (ht : engineStep t = .next t') : Alike s' t' := by
  cases hk : s.nextSlot with
  | none =>
    rw [engineStep, hk] at hs
    rw [engineStep, h.slot, hk] at ht
    cases hs
    cases ht
    exact h
  | some k =>
    have hk' : t.nextSlot = some k := h.slot.trans hk
    have hl := h.live k hk
    have hstream := h.toSameStream
    have hturns : TurnsAlike (engineStep s) (engineStep t) := by
      cases k with
      | zhdr => exact turnsAlike_zhdr hstream hk hk'
      | bhdr => exact turnsAlike_bhdr hstream hk hk'
      | dynhdr => exact turnsAlike_dynhdr hstream hl hk hk'
      | clcl => exact turnsAlike_clcl hstream hi hl hk hk'
      | clsym => exact turnsAlike_clsym hstream hi hi' hl hk hk'
      | llsym => exact turnsAlike_llsym hstream hi hi' hl hk hk'
      | dsym => exact turnsAlike_dsym hstream hi hi' hl hk hk'
    exact hturns _ _ hs ht

/-- States that go on alike show the same (45_stream.md R221). -/
theorem observe_alike (h : Alike s t) : s.observe = t.observe := by
  have hbytes : s.outBytes = t.outBytes := by
    rw [State.outBytes, State.outBytes, h.outLen]
    exact List.map_congr_left fun a ha => (h.outByte a (List.mem_range.1 ha)).symm
  rw [State.observe, State.observe, State.status, State.status, h.phase]
  cases hp : s.phase with
  | done => exact congrArg Observation.done hbytes
  | error =>
    obtain ⟨hkind, hcause⟩ := h.error hp
    exact congrArg₂ Observation.error hkind.symm hcause.symm
  | idle | zhdr | bhdr | dynhdr | body => rfl

/-- An undisturbed state's turn always answers: the builds of the engine's tables are within the contract. -/
theorem engineStep_isNext (h : Undisturbed s) : ∃ u, engineStep s = .next u := by
  cases hb : s.busy with
  | true =>
    obtain ⟨u, hu, -⟩ := engineStep_of_busy h hb
    exact ⟨u, hu⟩
  | false => exact ⟨s, engineStep_not_busy fun hs => by rw [State.busy, hs] at hb; cases hb⟩

theorem observeRun_alike (n : Nat) (h : Alike s t) (hu : Undisturbed s) (hu' : Undisturbed t) :
    observeRun (core.run n s) = observeRun (core.run n t) := by
  induction n generalizing s t with
  | zero => exact congrArg some (observe_alike h)
  | succ n ih =>
    obtain ⟨s', hs⟩ := engineStep_isNext hu
    obtain ⟨t', ht⟩ := engineStep_isNext hu'
    rw [run_succ_of_engineStep n hu hs, run_succ_of_engineStep n hu' ht]
    exact ih (alike_engineStep h hu.inv hu'.inv hs ht) (undisturbed_engineStep hu hs) (undisturbed_engineStep hu' ht)

/-- Two blocks with the same input start sessions that go on alike (45_stream.md R218). -/
theorem alike_startSession (h : SameInput s t) : Alike s.startSession t.startSession := by
  obtain ⟨hparams, hlen, hbytes⟩ := h
  have hstream : SameStream s.startSession t.startSession :=
    { params := hparams.symm, inLen := congrArg BitVec.toNat hlen.symm, curByte := rfl, curBit := rfl, outLen := rfl,
      inByte := fun a ha => (hbytes a ha).symm, outByte := nofun }
  exact alike_of_slot (k := .zhdr) hstream rfl rfl rfl trivial

end

/-- Settles O56: two sessions on the same input go on alike, as every turn reads only the stream and what the elements
before it have written. -/
theorem outcomeDependsOnTheInputOnly : Obligations.OutcomeDependsOnTheInputOnly := by
  intro s t n hs ht hinput _ _ hs' ht'
  exact observeRun_alike n (alike_startSession hinput) ⟨inv_startSession hs, hs'⟩ ⟨inv_startSession ht, ht'⟩

end Sys2Proof.Machine
